-- ==== Sys2Proof/Word.lean ====
section
/-! DEFINITION. The byte, and the index types of the part's fixed collections (spec 00_scope.md, Counts and limits:
each collection has a stated capacity). -/

namespace Sys2Proof

/-- A byte of a record, a frame or a slot. -/
abbrev Byte := BitVec 8

/-- A queue pair number, QP0 to QP15 (R137). -/
abbrev QpId := Fin 16
/-- A transfer entry number, 0 to 47 (R1). -/
abbrev EntryId := Fin 48
/-- A segment record number, 0 to 127 (R42). -/
abbrev SegId := Fin 128
/-- A return buffer slot number, 0 to 63 (R61). -/
abbrev SlotId := Fin 64
/-- A spoke number, 0 to 7, physical or logical as the use says (R96, R98). -/
abbrev SpokeId := Fin 8
/-- A window id: S0 is 0, S1 is 1, P0 to P5 are 2 to 7 (R25). -/
abbrev WindowId := Fin 8
/-- A translation context number, 0 to 15 (R75). -/
abbrev ContextId := Fin 16
/-- A translation cache entry number, 0 to 31 (R80). -/
abbrev CacheId := Fin 32
/-- A walk place number, 0 to 3 (R82). -/
abbrev WalkId := Fin 4
/-- A tag of a logical spoke, 0 to 31 (R107). -/
abbrev TagId := Fin 32
/-- A read tracker place, 0 to 31 (R170). -/
abbrev PlaceId := Fin 32
/-- An interrupt vector, 0 to 15 (R148). -/
abbrev VectorId := Fin 16

end Sys2Proof
end

