-- ==== Sys2Proof/Config.lean ====
section
/-! DEFINITION. The sizes and bounds the spec fixes for the part, and the one value it leaves free: how much of a frame has
left when it is cut short. -/

namespace Sys2Proof.Config

/-- A segment is at most 256 bytes (R43), and so is a slot (R61) and a frame's payload (R119). -/
def maxSegment : Nat := 256
/-- A transfer is at most 1 MiB (R4). -/
def maxTransfer : Nat := 1048576
/-- At most 16 live segments belong to one entry (R13, R42). -/
def liveLimit : Nat := 16
/-- A queue pair holds at most 16 slots (R61). -/
def slotCap : Nat := 16
/-- The fabric address space is 48 bits wide. -/
def fabricTop : Nat := 2 ^ 48
/-- Host addresses are 64 bits wide. -/
def hostTop : Nat := 2 ^ 64
/-- Segments of a host side are cut at every multiple of 4 KiB (R43). -/
def hostPage : Nat := 4096
/-- A context's directory has at most 1,048,576 entries (R75). -/
def maxDirectory : Nat := 1048576
/-- A bundle's far end grants 1 to 16 credits (R101). -/
def maxGrant : Nat := 16
/-- The link error count faults an UP spoke when it reaches 16 (R115). -/
def linkErrorLimit : Nat := 16
/-- Training makes three attempts (R101). -/
def trainAttempts : Nat := 3
/-- The event list holds 8 entries (R165). -/
def eventSlots : Nat := 8
/-- An event's count stays at 255 (R166). -/
def eventCountMax : Nat := 255
/-- How many internal steps one command may bring about at most: every live segment can be granted a slot and be sent
once, every entry can leave its gate once, every flush request can be sent once, and each long command ends once. The
sum of these bounds is below 512, so 1024 never cuts a chain of internal steps short (DEDUCED, safe; log entry 5). -/
def settleBound : Nat := 1024

/-- How many of the symbols that wait to go out on a physical spoke have gone when its carrier out is dropped: R121 says that a
frame is cut short there and not where. A free value, for the number of the cut and the spoke: nothing constrains it (log entry
26). -/
opaque cutPoint : Nat → Fin 8 → Nat

end Sys2Proof.Config
end

