-- ==== Sys2Proof/Syntax.lean ====
section
/-! DEFINITION. The commands of the block: one constructor of `Instr` for each row of spec/opcode_table.json, with the
operands the rules give it. The parameters of an administration command are the fields of its row in 11 (R184). -/

namespace Sys2Proof

/-- CREATE_QUEUE, opcode 01h (R151, R184). -/
structure CreateQueue where
  qp : Byte
  context : Byte
  depth : Byte
  vector : BitVec 4
  notify : BitVec 2
  sqSize : BitVec 16
  cqSize : BitVec 16
  sqBase : BitVec 64
  cqBase : BitVec 64
  deriving DecidableEq, Repr

/-- DELETE_QUEUE, opcode 02h (R152, R184). -/
structure DeleteQueue where
  qp : Byte
  mode : Byte
  deriving DecidableEq, Repr

/-- SET_CONTEXT, opcode 03h (R87, R184). -/
structure SetContext where
  context : Byte
  mode : Byte
  pageSize : Byte
  dirLength : BitVec 32
  dirBase : BitVec 64
  deriving DecidableEq, Repr

/-- INVALIDATE_PAGES, opcode 05h (R89, R184). -/
structure InvalidatePages where
  context : Byte
  count : BitVec 32
  first : BitVec 32
  deriving DecidableEq, Repr

/-- SET_WINDOW, opcode 07h (R36, R184). -/
structure SetWindow where
  window : Byte
  target : Byte
  form : Byte
  access : Byte
  posted : Bool
  base : BitVec 48
  size : BitVec 48
  deriving DecidableEq, Repr

/-- SPOKE_START, opcode 0Ah (R100, R184). -/
structure SpokeStart where
  spoke : Byte
  timeout : BitVec 16
  deriving DecidableEq, Repr

/-- QUERY, opcode 0Dh (R161, R184). -/
structure Query where
  subject : Byte
  object : Byte
  buffer : BitVec 64
  deriving DecidableEq, Repr

/-- An administration command: one of the thirteen opcodes with its parameter fields (R157, R184). -/
inductive AdminCommand where
  | createQueue (p : CreateQueue)
  | deleteQueue (p : DeleteQueue)
  | setContext (p : SetContext)
  | clearContext (context : Byte)
  | invalidatePages (p : InvalidatePages)
  | invalidateContext (context : Byte)
  | setWindow (p : SetWindow)
  | clearWindow (window : Byte)
  | setBundle (half layout : Byte)
  | spokeStart (p : SpokeStart)
  | spokeStop (spoke : Byte)
  | spokeReset (spoke : Byte)
  | query (p : Query)
  deriving DecidableEq, Repr

/-- The opcode byte of a command (R184). -/
def AdminCommand.opcode : AdminCommand → Byte
  | .createQueue _ => 0x01
  | .deleteQueue _ => 0x02
  | .setContext _ => 0x03
  | .clearContext _ => 0x04
  | .invalidatePages _ => 0x05
  | .invalidateContext _ => 0x06
  | .setWindow _ => 0x07
  | .clearWindow _ => 0x08
  | .setBundle _ _ => 0x09
  | .spokeStart _ => 0x0A
  | .spokeStop _ => 0x0B
  | .spokeReset _ => 0x0C
  | .query _ => 0x0D

/-- What every command record holds beside its parameters: the command tag, and whether any byte or bit its layout marks
r (reserved) is not 0 (R184). -/
structure CommandHead where
  tag : BitVec 32
  reserved : Bool
  deriving DecidableEq, Repr

/-- A command record as fetched: what of it the executor reads (R157, R159, R184). `command` is absent when the opcode
byte holds a value the table of opcodes does not list. -/
structure CommandRecord where
  opcode : Byte
  head : CommandHead
  command : Option AdminCommand
  deriving DecidableEq, Repr

/-- The six descriptor kinds (R4). -/
inductive Kind where
  | gather | scatter | relay | fill | fence | mark
  deriving DecidableEq, Repr

/-- A transfer descriptor as fetched: the fields of 11.1, each as the number it holds (R181). -/
structure Descriptor where
  kind : Byte
  flags : Byte
  tag : BitVec 32
  length : Nat
  fabric : Nat
  near : Nat
  deriving DecidableEq, Repr

/-- A directory entry as read by a walk (R79, 11.5). -/
structure DirectoryEntry where
  present : Bool
  readable : Bool
  writable : Bool
  frame : Nat
  deriving DecidableEq, Repr

/-- A received frame that passed the frame check and is of one of the six received kinds (R126). -/
inductive RxFrame where
  | trainAck (version grant : Byte)
  | resetAck
  | readResponse (tag status : Byte) (payload : List Byte)
  | writeAck (tag status : Byte)
  | flushAck (tag : Byte)
  | credit (count : Byte)
  deriving DecidableEq, Repr

/-- What one member of a spoke link carries: the two delimiters of the lane coding, and bytes (R121). -/
inductive LaneSymbol where
  | start
  | stop
  | byte (b : Byte)
  deriving DecidableEq, Repr

/-- The commands of the block, in the order of spec/opcode_table.json. `spoke` of a received frame, of a carrier and of
an invalid frame is the physical spoke it arrives on, whose bundle it belongs to (R96, R121); `spoke` of a timer and of an
internal step is a logical spoke's number (R98). INVALID_FRAME_RECEIVE carries what each member of that bundle received, the
head first: the frame as it stands on the link. -/
inductive Instr where
  | powerOnReset
  | functionReset
  | enableSet
  | enableClear
  | stoppingEnd
  | sqTailWrite (n : QpId) (value : BitVec 32)
  | cqHeadWrite (n : QpId) (value : BitVec 32)
  | registerWriteOther (offset : BitVec 12) (value : BitVec 32)
  | interruptEnableChange (enabled : Bool)
  | fetchIssue
  | commandFetchIssue
  | hostReadIssue
  | hostReadCompletion (ident : BitVec 8) (ok : Bool) (position : Nat) (bytes : List Byte)
  | hostReadTimeout (place : PlaceId)
  | createQueue (head : CommandHead) (p : CreateQueue)
  | deleteQueue (head : CommandHead) (p : DeleteQueue)
  | queueDeleteComplete (n : QpId)
  | setContext (head : CommandHead) (p : SetContext)
  | clearContext (head : CommandHead) (context : Byte)
  | invalidatePages (head : CommandHead) (p : InvalidatePages)
  | invalidateContext (head : CommandHead) (context : Byte)
  | invalidationComplete
  | setWindow (head : CommandHead) (p : SetWindow)
  | clearWindow (head : CommandHead) (window : Byte)
  | windowChangeApply
  | setBundle (head : CommandHead) (half layout : Byte)
  | spokeStart (head : CommandHead) (p : SpokeStart)
  | spokeStop (head : CommandHead) (spoke : Byte)
  | drainComplete (spoke : SpokeId)
  | spokeReset (head : CommandHead) (spoke : Byte)
  | query (head : CommandHead) (p : Query)
  | adminCompletionWrite
  | eventRecordWrite
  | gateRelease (entry : EntryId)
  | fenceStart (entry : EntryId)
  | generationGrant
  | walkStart
  | slotGrant
  | requestSend (spoke : SpokeId)
  | flushSend (spoke : SpokeId)
  | trainAck (spoke : SpokeId) (version grant : Byte)
  | resetAck (spoke : SpokeId)
  | readResponse (spoke : SpokeId) (tag status : Byte) (payload : List Byte)
  | writeAck (spoke : SpokeId) (tag status : Byte)
  | flushAck (spoke : SpokeId) (tag : Byte)
  | credit (spoke : SpokeId) (count : Byte)
  | invalidFrameReceive (spoke : SpokeId) (lanes : List (List LaneSymbol))
  | responseTimerExpiry (spoke : SpokeId) (tag : TagId)
  | creditWaitTimerExpiry (spoke : SpokeId)
  | trainingAttemptTimerExpiry (spoke : SpokeId)
  | resetTimerExpiry (spoke : SpokeId)
  | carrierLoss (spoke : SpokeId)
  | carrierReturn (spoke : SpokeId)
  | completionPost (n : QpId)
  | hostWriteSent
  deriving DecidableEq, Repr

end Sys2Proof
end

