-- ==== Sys2Proof/Decode.lean ====
section
/-! DEFINITION. Reading bytes: little-endian numbers (11), descriptors (R181), command records (R184), directory entries
(R79, 11.5), received frames (R120, R121, R125, R126, R185), and the table's words. Every function is total. -/

namespace Sys2Proof

/-- The number a little-endian list of bytes holds (11: byte 0 of a field is its least significant byte). -/
def leNat : List Byte → Nat
  | [] => 0
  | b :: bs => b.toNat + 256 * leNat bs

/-- The `n` little-endian bytes of a number. -/
def leBytes : Nat → Nat → List Byte
  | 0, _ => []
  | n + 1, v => BitVec.ofNat 8 v :: leBytes n (v / 256)

/-- The field of `n` bytes from byte `start` of a record. -/
def field (rec : List Byte) (start n : Nat) : Nat := leNat ((rec.drop start).take n)

/-- Byte `i` of a record; a byte past its end reads 0. -/
def byteAt (rec : List Byte) (i : Nat) : Byte := rec.getD i 0

/-! ## Descriptors -/

/-- The kind a kind byte names (11.1); the value 0 and every value above 6 name none. -/
def Kind.ofCode (b : Byte) : Option Kind :=
  match b.toNat with
  | 1 => some .gather
  | 2 => some .scatter
  | 3 => some .relay
  | 4 => some .fill
  | 5 => some .fence
  | 6 => some .mark
  | _ => none

/-- The code of a kind (11.1). -/
def Kind.code : Kind → Nat
  | .gather => 1
  | .scatter => 2
  | .relay => 3
  | .fill => 4
  | .fence => 5
  | .mark => 6

/-- The fields of a fetched descriptor (R181): bytes 2, 3 and 12 to 15 are not read. -/
def decodeDescriptor (rec : List Byte) : Descriptor :=
  { kind := byteAt rec 0
    flags := byteAt rec 1
    tag := BitVec.ofNat 32 (field rec 4 4)
    length := field rec 8 4
    fabric := field rec 16 8
    near := field rec 24 8 }

/-- The 32 bytes of a descriptor, as software writes it (11.1), with 0 in the bytes that are not read. -/
def encodeDescriptor (d : Descriptor) : List Byte :=
  [d.kind, d.flags, 0, 0] ++ leBytes 4 d.tag.toNat ++ leBytes 4 d.length ++ [0, 0, 0, 0] ++
    leBytes 8 d.fabric ++ leBytes 8 d.near

/-! ## Command records -/

/-- The parameters of a command record, by its opcode (11.4); none for an opcode the table does not list. -/
def decodeCommandFields (rec : List Byte) : Option AdminCommand :=
  match (byteAt rec 0).toNat with
  | 0x01 => some (.createQueue
      { qp := byteAt rec 8, context := byteAt rec 9, depth := byteAt rec 10
        vector := (byteAt rec 11).setWidth 4, notify := (byteAt rec 11).extractLsb' 4 2
        sqSize := BitVec.ofNat 16 (field rec 12 2), cqSize := BitVec.ofNat 16 (field rec 14 2)
        sqBase := BitVec.ofNat 64 (field rec 16 8), cqBase := BitVec.ofNat 64 (field rec 24 8) })
  | 0x02 => some (.deleteQueue { qp := byteAt rec 8, mode := byteAt rec 9 })
  | 0x03 => some (.setContext
      { context := byteAt rec 8, mode := byteAt rec 9, pageSize := byteAt rec 10
        dirLength := BitVec.ofNat 32 (field rec 12 4), dirBase := BitVec.ofNat 64 (field rec 16 8) })
  | 0x04 => some (.clearContext (byteAt rec 8))
  | 0x05 => some (.invalidatePages
      { context := byteAt rec 8, count := BitVec.ofNat 32 (field rec 12 4)
        first := BitVec.ofNat 32 (field rec 16 4) })
  | 0x06 => some (.invalidateContext (byteAt rec 8))
  | 0x07 => some (.setWindow
      { window := byteAt rec 8, target := byteAt rec 9, form := byteAt rec 10, access := byteAt rec 11
        posted := (byteAt rec 12).getLsbD 0, base := BitVec.ofNat 48 (field rec 16 6)
        size := BitVec.ofNat 48 (field rec 24 6) })
  | 0x08 => some (.clearWindow (byteAt rec 8))
  | 0x09 => some (.setBundle (byteAt rec 8) (byteAt rec 9))
  | 0x0A => some (.spokeStart { spoke := byteAt rec 8, timeout := BitVec.ofNat 16 (field rec 10 2) })
  | 0x0B => some (.spokeStop (byteAt rec 8))
  | 0x0C => some (.spokeReset (byteAt rec 8))
  | 0x0D => some (.query
      { subject := byteAt rec 8, object := byteAt rec 9, buffer := BitVec.ofNat 64 (field rec 16 8) })
  | _ => none

/-- The bytes of a command record that its layout marks r as a whole, beside bytes 1 to 3 (R184). -/
def reservedBytes (opcode : Byte) : List Nat :=
  match opcode.toNat with
  | 0x02 => List.range' 10 22
  | 0x03 => 11 :: List.range' 24 8
  | 0x04 => List.range' 9 23
  | 0x05 => [9, 10, 11] ++ List.range' 20 12
  | 0x06 => List.range' 9 23
  | 0x07 => [13, 14, 15, 22, 23, 30, 31]
  | 0x08 => List.range' 9 23
  | 0x09 => List.range' 10 22
  | 0x0A => 9 :: List.range' 12 20
  | 0x0B => List.range' 9 23
  | 0x0C => List.range' 9 23
  | 0x0D => List.range' 10 6 ++ List.range' 24 8
  | _ => []

/-- The reserved bits that stand beside a field in one byte: bits 6 and 7 of byte 11 of CREATE_QUEUE, and bits 1 to 7 of
byte 12 of SET_WINDOW (R184). -/
def reservedBitsSet (rec : List Byte) : Bool :=
  match (byteAt rec 0).toNat with
  | 0x01 => (byteAt rec 11).extractLsb' 6 2 != 0
  | 0x07 => (byteAt rec 12).extractLsb' 1 7 != 0
  | _ => false

/-- Whether any byte or bit that the command's layout marks r is not 0 (R184). -/
def reservedSet (rec : List Byte) : Bool :=
  ([1, 2, 3] ++ reservedBytes (byteAt rec 0)).any (fun i => byteAt rec i != 0) || reservedBitsSet rec

/-- A fetched command record (R184). -/
def decodeCommand (rec : List Byte) : CommandRecord :=
  { opcode := byteAt rec 0
    head := { tag := BitVec.ofNat 32 (field rec 4 4), reserved := reservedSet rec }
    command := decodeCommandFields rec }

/-- Bytes 8 to 31 of a command's record as software writes it, its reserved bytes and bits 0 (11.4). -/
def encodeParameters : AdminCommand → List Byte
  | .createQueue p =>
      [p.qp, p.context, p.depth, p.vector.setWidth 8 ||| (p.notify.setWidth 8 <<< 4)] ++ leBytes 2 p.sqSize.toNat ++
        leBytes 2 p.cqSize.toNat ++ leBytes 8 p.sqBase.toNat ++ leBytes 8 p.cqBase.toNat
  | .deleteQueue p => [p.qp, p.mode] ++ List.replicate 22 0
  | .setContext p =>
      [p.context, p.mode, p.pageSize, 0] ++ leBytes 4 p.dirLength.toNat ++ leBytes 8 p.dirBase.toNat ++ List.replicate 8 0
  | .clearContext c => c :: List.replicate 23 0
  | .invalidatePages p =>
      [p.context, 0, 0, 0] ++ leBytes 4 p.count.toNat ++ leBytes 4 p.first.toNat ++ List.replicate 12 0
  | .invalidateContext c => c :: List.replicate 23 0
  | .setWindow p =>
      [p.window, p.target, p.form, p.access, if p.posted then 1 else 0, 0, 0, 0] ++ leBytes 6 p.base.toNat ++ [0, 0] ++
        leBytes 6 p.size.toNat ++ [0, 0]
  | .clearWindow w => w :: List.replicate 23 0
  | .setBundle h l => [h, l] ++ List.replicate 22 0
  | .spokeStart p => [p.spoke, 0] ++ leBytes 2 p.timeout.toNat ++ List.replicate 20 0
  | .spokeStop k => k :: List.replicate 23 0
  | .spokeReset k => k :: List.replicate 23 0
  | .query p => [p.subject, p.object] ++ List.replicate 6 0 ++ leBytes 8 p.buffer.toNat ++ List.replicate 8 0

/-- The 32 bytes of a command's record as software writes it (11.4). -/
def encodeCommand (tag : BitVec 32) (c : AdminCommand) : List Byte :=
  [c.opcode, 0, 0, 0] ++ leBytes 4 tag.toNat ++ encodeParameters c

/-! ## Directory entries -/

/-- The fields of an 8-byte directory entry (11.5): bits 3 to 11 are not read. -/
def decodeDirectoryEntry (rec : List Byte) : DirectoryEntry :=
  let v := leNat (rec.take 8)
  { present := v.testBit 0, readable := v.testBit 1, writable := v.testBit 2, frame := v / 4096 }

/-! ## Frames -/

/-- One bit of the check word's register: polynomial 04C11DB7h, taken reflected (R120). -/
def crcBit (c : BitVec 32) : BitVec 32 := if c.getLsbD 0 then (c >>> 1) ^^^ 0xEDB88320#32 else c >>> 1

/-- The register after one byte, least significant bit first (R120). -/
def crcByte (c : BitVec 32) (b : Byte) : BitVec 32 :=
  crcBit (crcBit (crcBit (crcBit (crcBit (crcBit (crcBit (crcBit (c ^^^ b.setWidth 32))))))))

/-- The check word over header and payload: the register starts at FFFFFFFFh and its final value is complemented (R120). -/
def checkWord (bytes : List Byte) : BitVec 32 := ~~~(bytes.foldl crcByte 0xFFFFFFFF#32)

/-- The frame check of R125, in its order. -/
def frameCheck (bytes : List Byte) : Bool :=
  let payload := field bytes 4 2
  decide (20 ≤ bytes.length) && decide (payload ≤ 256) && decide (bytes.length = 20 + payload) &&
    decide (field bytes (16 + payload) 4 = (checkWord (bytes.take (16 + payload))).toNat)

/-- A received frame, sorted by its kind (R126, R185); none for a frame that fails the frame check or is of unknown kind.
The fields a kind does not use, and the bytes without a field, are not read. -/
def decodeFrame (bytes : List Byte) : Option RxFrame :=
  if frameCheck bytes then
    let payload := (bytes.drop 16).take (field bytes 4 2)
    match (byteAt bytes 0).toNat with
    | 0x83 => some (.readResponse (byteAt bytes 1) (byteAt bytes 3) payload)
    | 0x81 => if payload = [] then some (.trainAck (byteAt bytes 14) (byteAt bytes 15)) else none
    | 0x82 => if payload = [] then some .resetAck else none
    | 0x84 => if payload = [] then some (.writeAck (byteAt bytes 1) (byteAt bytes 3)) else none
    | 0x85 => if payload = [] then some (.flushAck (byteAt bytes 1)) else none
    | 0x86 => if payload = [] then some (.credit (byteAt bytes 15)) else none
    | _ => none
  else none

/-- The 16 header bytes of a frame the far end sends (11.6), 0 in the bytes its kind does not use. -/
def rxHeader (kind tag status : Byte) (payload : Nat) (version grant : Byte) : List Byte :=
  [kind, tag, 0, status] ++ leBytes 2 payload ++ List.replicate 8 0 ++ [version, grant]

/-- The header and payload of a frame the far end sends (R119, 11.6). -/
def rxBytes : RxFrame → List Byte
  | .trainAck version grant => rxHeader 0x81 0 0 0 version grant
  | .resetAck => rxHeader 0x82 0 0 0 0 0
  | .readResponse tag status payload => rxHeader 0x83 tag status payload.length 0 0 ++ payload
  | .writeAck tag status => rxHeader 0x84 tag status 0 0 0
  | .flushAck tag => rxHeader 0x85 tag 0 0 0 0
  | .credit count => rxHeader 0x86 0 0 0 0 count

/-- A frame as the far end is required to send it: header, payload and check word (R119, R120). -/
def encodeFrame (f : RxFrame) : List Byte := rxBytes f ++ leBytes 4 (checkWord (rxBytes f)).toNat

/-- What one member carries of a frame: a start delimiter, its bytes, and an end delimiter (R121). -/
def laneFrame (bytes : List Byte) : List LaneSymbol := .start :: bytes.map .byte ++ [.stop]

/-- The bytes of a frame dealt to the `n` members of a bundle: byte k goes on the member in position k mod n (R121). -/
def dealBytes (n : Nat) (bytes : List Byte) : List (List Byte) :=
  (List.range n).map fun j => (List.range bytes.length).filterMap fun k => if k % n = j then bytes[k]? else none

/-- What each of the `n` members of a logical spoke carries of a frame, the head first (R121). -/
def frameLanes (n : Nat) (bytes : List Byte) : List (List LaneSymbol) := (dealBytes n bytes).map laneFrame

/-- What one member received, frame by frame, given what is assembled so far (R121): a start delimiter ends an unfinished frame
as received, and bytes outside a frame are discarded. What is still being assembled where the symbols end is no frame: the
carrier was lost, or the spoke entered OFF, and it is discarded unread. -/
def splitFrames : Option (List Byte) → List LaneSymbol → List (List Byte)
  | _, [] => []
  | none, .start :: r => splitFrames (some []) r
  | some acc, .start :: r => acc :: splitFrames (some []) r
  | none, .stop :: r => splitFrames none r
  | some acc, .stop :: r => acc :: splitFrames none r
  | none, .byte _ :: r => splitFrames none r
  | some acc, .byte b :: r => splitFrames (some (acc ++ [b])) r

/-- The bytes of a frame from those its members received, by the rule of dealing (R121). Members whose numbers of bytes are not
those of a dealt frame deliver no bytes that could pass the check: R121 says that such a frame fails it and not which bytes it
is made of (DEDUCED, unsafe; log entry 25). -/
def assembleBytes (members : List (List Byte)) : Option (List Byte) :=
  let bytes := (List.range (members.map List.length).sum).filterMap fun k =>
    (members[k % members.length]?).bind fun lane => lane[k / members.length]?
  if dealBytes members.length bytes = members then some bytes else none

/-- The frames a logical spoke received, from what its members carried, the head first (R121): frame by frame, each assembled
from one member's part after the other. A frame of which a member has not received its part whole is discarded unread. -/
def receiveFrames (lanes : List (List LaneSymbol)) : List (Option (List Byte)) :=
  let parts := lanes.map (splitFrames none)
  (List.range ((parts.map List.length).min?.getD 0)).map fun i => assembleBytes (parts.map fun p => p.getD i [])

/-- A frame as the frame check and the sort by kind leave it; none for one that fails either (R125, R126). -/
def readFrame (received : Option (List Byte)) : Option RxFrame := received.bind decodeFrame

/-! ## The table's words -/

/-- No row of spec/opcode_table.json gives bits: no word spells a command. -/
def decodeTableWord (_nbits _w : Nat) : Option Instr := none

end Sys2Proof
end

