-- ==== Sys2Proof/Machine/State.lean ====
section
/-! DEFINITION. The state of the part, block by block (spec 00, Block Diagram): every piece of state the chapters name, and
the machine right after reset. Fixed collections are vectors, lists the spec orders are lists. What is computed from other
state (the timers that run exactly while something else holds, the registers that show a record, carrier out) is a
function in Machine/Ops.lean and has no field here. -/

namespace Sys2Proof.Machine

/-! ## Statuses and codes shared by several blocks -/

/-- The status of a transfer (R17, 11.3). -/
inductive Status where
  | ok | badDescriptor | unmapped | windowAccess | translationFault | hostReadError
  | spokeUnavailable | spokeTimeout | spokeReset | linkLost | targetError | noTarget
  deriving DecidableEq, Repr

/-- A failure: its status and its detail word (11.3). -/
structure Failure where
  status : Status
  detail : Nat
  deriving DecidableEq, Repr

/-- The status of an administration command (R157, R159). -/
inductive AdminStatus where
  | ok | badCommand | badParameter | inUse | wrongState | overlap | trainFailed
  deriving DecidableEq, Repr

/-! ## Device control -/

/-- The device states (10.4). -/
inductive DeviceState where
  | disabled | ready | halted | stopping
  deriving DecidableEq, Repr

/-- The halt reasons (R174). -/
inductive HaltReason where
  | none | badAdminConfig | adminFetch | adminIndex
  deriving DecidableEq, Repr

/-- Device control (R174, R175): the device state, the halt reason and the administration ring registers. -/
structure Control where
  device : DeviceState := .disabled
  haltReason : HaltReason := .none
  adminSqBase : BitVec 64 := 0
  adminCqBase : BitVec 64 := 0
  adminSizes : BitVec 32 := 0
  deriving DecidableEq, Repr

/-! ## Queue engine -/

/-- The states of a queue pair (R138). -/
inductive QpState where
  | empty | running | failed | draining | aborting
  deriving DecidableEq, Repr

/-- The notify modes (R148). -/
inductive Notify where
  | none | flagged | all
  deriving DecidableEq, Repr

/-- A queue pair record, with its values after reset (R137). The field `state` of QP0 is not used: QP0 takes its state from
the device state (R138). -/
structure QueuePair where
  state : QpState := .empty
  sqBase : Nat := 0
  sqSize : Nat := 0
  cqBase : Nat := 0
  cqSize : Nat := 0
  context : ContextId := 0
  depth : Nat := 0
  vector : VectorId := 0
  notify : Notify := .none
  tail : Nat := 0
  fetchIndex : Nat := 0
  fetching : Bool := false
  writeIndex : Nat := 0
  head : Nat := 0
  lap : Bool := true
  deriving DecidableEq, Repr

/-- The arm state of a vector (R148). -/
inductive Arm where
  | armed | fired
  deriving DecidableEq, Repr

/-- The queue engine: the records, the fetch arbiter's pointer (R142) and the arm states. -/
structure QueueEngine where
  qps : Vector QueuePair 16
  fetchPtr : QpId
  arms : Vector Arm 16
  deriving DecidableEq, Repr

/-! ## Transfer table -/

/-- The states of a transfer entry (R1). -/
inductive EntryState where
  | free | fetching | gated | running | winding | flushing | done
  deriving DecidableEq, Repr

/-- The lowest failed offset of an entry with the failure that belongs to it (R1, R15). -/
structure LowestFailure where
  offset : Nat
  failure : Failure
  deriving DecidableEq, Repr

/-- A transfer entry, with its values after reset (R1). The kind is absent until a descriptor with one of the six kinds is
stored (R6). -/
structure Entry where
  qp : QpId := 0
  subIndex : Nat := 0
  kind : Option Kind := none
  ordered : Bool := false
  notify : Bool := false
  tag : BitVec 32 := 0
  length : Nat := 0
  fabric : Nat := 0
  near : Nat := 0
  state : EntryState := .free
  cursor : Nat := 0
  live : Nat := 0
  failed : Option LowestFailure := none
  dropped : Bool := false
  stop : Option Nat := none
  flushes : Nat := 0
  deriving DecidableEq, Repr

/-- A spoke number's place in a posted-spoke set: not a member, a member, or a member with a link-end mark (R12). -/
inductive Posted where
  | absent
  | member
  | marked (status : Status)
  deriving DecidableEq, Repr

/-- The transfer table: the entries, and each queue pair's in-flight list (R3) and posted-spoke set (R12). -/
structure TransferTable where
  entries : Vector Entry 48
  inflight : Vector (List EntryId) 16
  posted : Vector (Vector Posted 8) 16
  deriving DecidableEq, Repr

/-! ## Segment unit -/

/-- The side a segment is working on (R42). -/
inductive Leg where
  | source | destination
  deriving DecidableEq, Repr

/-- A route (R33): window id, logical spoke, spoke address, posted value, earlier-layout mark. -/
structure Route where
  window : WindowId
  spoke : SpokeId
  address : Nat
  posted : Bool
  earlier : Bool
  deriving DecidableEq, Repr

/-- The states of a segment (R42). -/
inductive SegState where
  | resolving | translating | slotWait | hostReading | issueWait | outstanding | landed | retired
  deriving DecidableEq, Repr

/-- A translation key: context and page number (R42, R80). -/
structure Key where
  context : ContextId
  page : Nat
  deriving DecidableEq, Repr

/-- A segment record, with its values after reset (R42). -/
structure Segment where
  entry : EntryId := 0
  offset : Nat := 0
  length : Nat := 0
  leg : Leg := .source
  source : Option Route := none
  destination : Option Route := none
  host : Option Nat := none
  translation : Option Key := none
  retranslate : Bool := false
  slot : Option SlotId := none
  tag : Option TagId := none
  state : SegState := .retired
  deriving DecidableEq, Repr

/-- The segment unit: the records, one issue list for each spoke number (R50) and the generation arbiter's pointer (R43). -/
structure SegmentUnit where
  segments : Vector Segment 128
  issue : Vector (List SegId) 8
  grantPtr : EntryId
  deriving DecidableEq, Repr

/-! ## Window unit -/

/-- The delivery forms (R28). -/
inductive Form where
  | full | loc
  deriving DecidableEq, Repr

/-- The access modes (R29). -/
inductive Access where
  | readWrite | readOnly | writeDrop
  deriving DecidableEq, Repr

/-- A window record, with its values after reset (R25). `target` is the rotation of a striped window and the physical spoke
of a pinned one. -/
structure Window where
  enabled : Bool := false
  base : Nat := 0
  size : Nat := 0
  target : Fin 8 := 0
  form : Form := .full
  access : Access := .readWrite
  posted : Bool := false
  deriving DecidableEq, Repr

/-- A range of fabric addresses [base, base + size). -/
structure Range where
  base : Nat
  size : Nat
  deriving DecidableEq, Repr

/-- The quiesce record of a pending change (R37). `counted` holds the counted segments that have not retired yet: its
length is the waited count (R39). `waited` is the waited count at acceptance, the info word of R40. -/
structure Quiesce where
  window : WindowId
  old : Option Range
  new : Option Range
  contents : Window
  waited : Nat
  counted : List SegId
  held : List SegId
  deriving DecidableEq, Repr

/-- The window unit: the window table (R25) and the pending change (R37). -/
structure WindowUnit where
  windows : Vector Window 8
  quiesce : Option Quiesce
  deriving DecidableEq, Repr

/-! ## Translation unit -/

/-- The modes of a context (R75). -/
inductive ContextMode where
  | off | bypass | translate
  deriving DecidableEq, Repr

/-- The page sizes (R75). -/
inductive PageSize where
  | k4 | k64 | m2
  deriving DecidableEq, Repr

/-- A context record, with its values after reset (R75). -/
structure Context where
  mode : ContextMode := .off
  pageSize : PageSize := .k4
  dirBase : Nat := 0
  dirLength : Nat := 0
  deriving DecidableEq, Repr

/-- A valid translation cache entry (R80). -/
structure CacheEntry where
  key : Key
  frame : Nat
  readable : Bool
  writable : Bool
  deriving DecidableEq, Repr

/-- A walk in progress (R82). -/
structure Walk where
  key : Key
  address : Nat
  stale : Bool
  joined : List SegId
  deriving DecidableEq, Repr

/-- The invalidation record (R90). -/
structure Invalidation where
  stale : Nat
  awaited : List SegId
  removed : Nat
  deriving DecidableEq, Repr

/-- The translation unit. -/
structure TranslationUnit where
  contexts : Vector Context 16
  cache : Vector (Option CacheEntry) 32
  victim : CacheId
  walks : Vector (Option Walk) 4
  walkWait : List SegId
  invalidation : Option Invalidation
  deriving DecidableEq, Repr

/-! ## Return buffer -/

/-- A slot: 256 bytes of data and its holder (R61). The data has no reset value in the spec: 0 here (DESIGN CHOICE, unsafe;
log entry 1). -/
structure Slot where
  data : List Byte := List.replicate 256 0
  holder : Option SegId := none
  deriving DecidableEq, Repr

/-- The return buffer: the slots, each queue pair's held-slot count (R62) and the slot wait list (R63). -/
structure ReturnBuffer where
  slots : Vector Slot 64
  held : Vector Nat 16
  waiting : List SegId
  deriving DecidableEq, Repr

/-! ## Spoke ports -/

/-- The bundle layouts of a half (R97). -/
inductive Layout where
  | single | pairLow | pairHigh | pairBoth | quad
  deriving DecidableEq, Repr

/-- The states of a logical spoke (R98). -/
inductive SpokeState where
  | off | training | up | draining | faulted | resetting
  deriving DecidableEq, Repr

/-- The request an outstanding tag is bound to (R107): a segment's READ_REQUEST, a segment's non-posted WRITE_REQUEST, or
a flush request that names its fence's entry; an orphaned flush request names none (R109). -/
inductive Request where
  | read (segment : SegId)
  | write (segment : SegId)
  | flush (fence : Option EntryId)
  deriving DecidableEq, Repr

/-- The state of a tag (R107). The response timer of a tag runs exactly while it is outstanding (R111). -/
inductive Tag where
  | free
  | outstanding (request : Request)
  | quarantined
  deriving DecidableEq, Repr

/-- A logical spoke record, with its values after reset (R98). The attempt timer runs exactly in TRAINING, the reset timer
exactly in RESETTING, and the credit wait timer exactly while R110's condition holds. -/
structure Spoke where
  state : SpokeState := .off
  timeout : BitVec 16 := 0
  grant : Nat := 0
  credits : Nat := 0
  tags : Vector Tag 32 := Vector.replicate 32 .free
  attempt : Nat := 0
  linkErrors : Nat := 0
  drainTimeouts : Nat := 0
  flushList : List EntryId := []
  deriving DecidableEq, Repr

/-- The spoke ports: the layout of the two halves (R97), the logical spoke records (R98) and the carrier in pins (R96). -/
structure SpokePorts where
  low : Layout
  high : Layout
  spokes : Vector Spoke 8
  carrierIn : Vector Bool 8
  deriving DecidableEq, Repr

/-! ## Administration unit -/

/-- What the executor holds of a command (R155): opcode, command tag, submission index, and the number of the object the
command names (its byte 8), by which the owning block's end of work is known to be this command's. -/
structure HeldCommand where
  opcode : Byte
  tag : BitVec 32
  subIndex : Nat
  object : Nat
  deriving DecidableEq, Repr

/-- The executor (R155). -/
inductive Executor where
  | idle
  | fetching
  | waiting (command : HeldCommand)
  | posting (command : HeldCommand) (status : AdminStatus) (info : Nat)
  deriving DecidableEq, Repr

/-- The source of an event (R165). -/
inductive EventSource where
  | spoke (k : SpokeId)
  | queue (n : QpId)
  deriving DecidableEq, Repr

/-- The kinds of event (R165). -/
inductive EventKind where
  | spokeUp | spokeTrainFailed | spokeFaulted | spokeLinkLost | queueFailed
  deriving DecidableEq, Repr

/-- The reasons of an event (R165, 11.3). -/
inductive EventReason where
  | none | timeout | creditStall | linkErrors | fetchError | badIndex
  deriving DecidableEq, Repr

/-- An entry of the event list (R165). -/
structure Event where
  source : EventSource
  kind : EventKind
  reason : EventReason
  count : Nat
  deriving DecidableEq, Repr

/-- The administration unit: the executor, the event list and the overflow flag (R155, R165). -/
structure AdminUnit where
  executor : Executor
  events : List Event
  overflow : Bool
  deriving DecidableEq, Repr

/-! ## Host port -/

/-- The kinds of host read (R170). -/
inductive ReadKind where
  | fetch | walk | data
  deriving DecidableEq, Repr

/-- The requester of a host read (R170). -/
inductive Requester where
  | descriptor (n : QpId)
  | command
  | walk (w : WalkId)
  | data (i : SegId)
  deriving DecidableEq, Repr

/-- A read handed to the host port (R170, R171). -/
structure ReadRequest where
  requester : Requester
  address : Nat
  length : Nat
  deriving DecidableEq, Repr

/-- A read in flight (R170): what was asked, the g of the identifier it carries, how many bytes have returned, and, for a
fetch or a walk, the bytes placed so far. Its timer runs as long as it holds its place (R172). -/
structure ReadInFlight where
  request : ReadRequest
  g : Fin 8
  returned : Nat
  buffer : List Byte
  deriving DecidableEq, Repr

/-- A place of the read tracker: the g of the next identifier it gives, and the read it holds (R170). -/
structure Place where
  nextG : Fin 8 := 0
  read : Option ReadInFlight := none
  deriving DecidableEq, Repr

/-- The sources of a posted write to host memory (R173). -/
inductive WriteSource where
  | gatherData | completion | adminRecord | snapshot
  deriving DecidableEq, Repr

/-- A posted host write: bytes to host memory, or an interrupt message of a vector (R173). -/
inductive HostWrite where
  | memory (source : WriteSource) (address : Nat) (bytes : List Byte)
  | message (vector : VectorId)
  deriving DecidableEq, Repr

/-- The host port (R150, R170 to R173). -/
structure HostPort where
  places : Vector Place 32
  fetchList : List ReadRequest
  walkList : List ReadRequest
  dataList : List ReadRequest
  lastKind : ReadKind
  writes : List HostWrite
  messagesEnabled : Bool
  messagePending : Vector Bool 16
  deriving DecidableEq, Repr

/-! ## What has left the part -/

/-- A message the part sends (R122, R123). -/
inductive TxMessage where
  | train
  | linkReset
  | readRequest (tag : TagId) (address length : Nat)
  | writeRequest (tag : Option TagId) (address : Nat) (payload : List Byte)
  | flush (tag : TagId)
  deriving DecidableEq, Repr

/-- A message put on a logical spoke's link. -/
structure SentFrame where
  spoke : SpokeId
  message : TxMessage
  deriving DecidableEq, Repr

/-- What one physical spoke carries of the frames sent (R121): the symbols that have gone out, up to the last time its carrier
out was dropped, and those that go out, or have gone out, since then. -/
structure Lane where
  gone : List LaneSymbol := []
  going : List LaneSymbol := []
  deriving DecidableEq, Repr

/-- The model's own record of what the part has put on its links, oldest first: the messages the spoke ports send and the
symbols each physical spoke carries of their frames (R121), and the posted writes sent on the host link (R173). `cuts` counts the
times a carrier out was dropped: the free value of a cut is taken at it. It is no state of the part and no rule reads it
(DESIGN CHOICE, safe; log entries 4 and 26). -/
structure Wire where
  frames : List SentFrame
  lanes : Vector Lane 8
  cuts : Nat
  writes : List HostWrite
  deriving DecidableEq, Repr

/-- Nothing put on any link. -/
def Wire.empty : Wire := { frames := [], lanes := Vector.replicate 8 {}, cuts := 0, writes := [] }

/-- The state of the part, and the queue of commands waiting. -/
structure State where
  ctl : Control
  qe : QueueEngine
  tt : TransferTable
  su : SegmentUnit
  wu : WindowUnit
  tu : TranslationUnit
  rb : ReturnBuffer
  sp : SpokePorts
  au : AdminUnit
  hp : HostPort
  wire : Wire
  pending : List Instr
  deriving DecidableEq, Repr

/-- The faults of a step. The manual stops the part nowhere, so there is none: no meaning ends in a fault. -/
inductive Fault where
  deriving DecidableEq, Repr

/-- The refusals of a step. -/
inductive Refusal where
  /-- Raised by a row of the table that has no meaning yet, with its mnemonic. Safe: the model stops. -/
  | notModelled (mnemonic : String)
  deriving DecidableEq, Repr

/-! ## Reset values, block by block -/

/-- Device control after reset (R180). -/
def Control.reset : Control := {}

/-- The queue engine after reset (R137, R142, R148). -/
def QueueEngine.reset : QueueEngine :=
  { qps := Vector.replicate 16 {}, fetchPtr := 15, arms := Vector.replicate 16 .armed }

/-- The transfer table after reset (R1, R3, R12). -/
def TransferTable.reset : TransferTable :=
  { entries := Vector.replicate 48 {}, inflight := Vector.replicate 16 []
    posted := Vector.replicate 16 (Vector.replicate 8 .absent) }

/-- The segment unit after reset (R42, R43, R50). -/
def SegmentUnit.reset : SegmentUnit :=
  { segments := Vector.replicate 128 {}, issue := Vector.replicate 8 [], grantPtr := 47 }

/-- The window unit after reset (R25, R37). -/
def WindowUnit.reset : WindowUnit := { windows := Vector.replicate 8 {}, quiesce := none }

/-- The translation unit after reset (R75, R80, R81, R82, R86, R90). -/
def TranslationUnit.reset : TranslationUnit :=
  { contexts := Vector.replicate 16 {}, cache := Vector.replicate 32 none, victim := 0
    walks := Vector.replicate 4 none, walkWait := [], invalidation := none }

/-- The return buffer after reset (R61, R62, R63); the slots' data is a DESIGN CHOICE (unsafe; log entry 1). -/
def ReturnBuffer.reset : ReturnBuffer :=
  { slots := Vector.replicate 64 {}, held := Vector.replicate 16 0, waiting := [] }

/-- The spoke ports after reset (R97, R98); the carrier in pins are a DESIGN CHOICE (unsafe; log entry 2). -/
def SpokePorts.reset : SpokePorts :=
  { low := .single, high := .single, spokes := Vector.replicate 8 {}, carrierIn := Vector.replicate 8 false }

/-- The administration unit after reset (R155, R165). -/
def AdminUnit.reset : AdminUnit := { executor := .idle, events := [], overflow := false }

/-- The host port after reset (R150, R170, R171, R173); the message interrupt enable is a DESIGN CHOICE (unsafe; log entry 3).
-/
def HostPort.reset : HostPort :=
  { places := Vector.replicate 32 {}, fetchList := [], walkList := [], dataList := [], lastKind := .data
    writes := [], messagesEnabled := false, messagePending := Vector.replicate 16 false }

/-- The machine right after power-on reset (R180), with no command waiting. -/
def State.reset : State :=
  { ctl := .reset, qe := .reset, tt := .reset, su := .reset, wu := .reset, tu := .reset, rb := .reset, sp := .reset
    au := .reset, hp := .reset, wire := .empty, pending := [] }

end Sys2Proof.Machine
end

