-- ==== Sys2Proof/Machine/Ops.lean ====
section
/-! DEFINITION. The named operations over the state: reading and writing one member of a collection, what is computed from
state (timers, carriers, counts, the registers' sources), and the operations several blocks share. -/

namespace Sys2Proof.Machine

/-! ## Fixed collections -/

/-- A vector with `f` applied to every member. -/
def vmap {α β : Type} {n : Nat} (f : α → β) (v : Vector α n) : Vector β n := ⟨⟨v.toList.map f⟩, by simp⟩

/-- The lowest index that satisfies `p`. -/
def firstIndex (n : Nat) (p : Fin n → Bool) : Option (Fin n) := (List.finRange n).find? p

/-- The first index after `start`, in ascending order and wrapping, that satisfies `p`; `start` itself comes last (the round
robin of R43 and R142). -/
def firstAfter {n : Nat} [NeZero n] (start : Fin n) (p : Fin n → Bool) : Option (Fin n) :=
  ((List.finRange n).map fun k => start + 1 + k).find? p

/-- A slot's or a record's bytes with `bytes` placed at `position`. -/
def placeBytes (data : List Byte) (position : Nat) (bytes : List Byte) : List Byte :=
  data.take position ++ bytes ++ data.drop (position + bytes.length)

/-- The index after `i` in a ring of `size` places (spec 00, Rings). -/
def ringNext (i size : Nat) : Nat := if i + 1 = size then 0 else i + 1

/-- The number of records in a ring between two indices, taken modulo its size (spec 00, Rings). -/
def ringDistance (first last size : Nat) : Nat := (last + size - first) % size

/-- The kind of a requester's reads (R170). -/
def Requester.kind : Requester → ReadKind
  | .descriptor _ => .fetch
  | .command => .fetch
  | .walk _ => .walk
  | .data _ => .data

/-- `n` bytes of 0. -/
def zeros (n : Nat) : List Byte := List.replicate n 0

/-! ## Frames (R119, R123, R185, 11.6) -/

/-- The 16 header bytes of a message of the part (R119, 11.6). -/
def headerBytes (kind tag posted payload request address version : Nat) : List Byte :=
  leBytes 1 kind ++ leBytes 1 tag ++ leBytes 1 posted ++ zeros 1 ++ leBytes 2 payload ++ leBytes 2 request ++
    leBytes 6 address ++ leBytes 1 version ++ zeros 1

/-- The header and payload of a message the part sends (R122, R123). -/
def messageBytes : TxMessage → List Byte
  | .train => headerBytes 0x01 0 0 0 256 0 1
  | .linkReset => headerBytes 0x02 0 0 0 0 0 0
  | .readRequest g address len => headerBytes 0x03 g.val 0 0 len address 0
  | .writeRequest (some g) address bytes => headerBytes 0x04 g.val 0 bytes.length bytes.length address 0 ++ bytes
  | .writeRequest none address bytes => headerBytes 0x04 0 1 bytes.length bytes.length address 0 ++ bytes
  | .flush g => headerBytes 0x05 g.val 0 0 0 0 0

/-- A whole frame: header, payload and check word (R119, R120). -/
def frameBytes (m : TxMessage) : List Byte := messageBytes m ++ leBytes 4 (checkWord (messageBytes m)).toNat

/-- Symbols of a frame follow on one physical spoke behind those of the frames before (R121). -/
def Lane.carry (l : Lane) (symbols : List LaneSymbol) : Lane := { l with going := l.going ++ symbols }

/-- The carrier out of a physical spoke is dropped: of what is still going, `point` symbols have gone out, and the rest of a frame
cut short is not sent (R121). -/
def Lane.cut (l : Lane) (point : Nat) : Lane := { gone := l.gone ++ l.going.take point, going := [] }

/-- A message is put on a logical spoke: its frame is dealt to the members, each part between its delimiters, behind the frames
before it (R121). -/
def Wire.put (w : Wire) (members : List SpokeId) (f : SentFrame) : Wire :=
  { w with
    frames := w.frames ++ [f]
    lanes := (members.zip (frameLanes members.length (frameBytes f.message))).foldl
      (fun (v : Vector Lane 8) (p : SpokeId × List LaneSymbol) => v.set p.1 (v[p.1].carry p.2)) w.lanes }

/-- The carrier out of some physical spokes is dropped, each cut at the free value of this cut (R121; log entry 26). -/
def Wire.cut (w : Wire) (spokes : List SpokeId) : Wire :=
  { w with
    lanes := spokes.foldl (fun (v : Vector Lane 8) (p : SpokeId) => v.set p (v[p].cut (Config.cutPoint w.cuts p))) w.lanes
    cuts := w.cuts + 1 }

namespace State

/-! ## Members of the collections -/

/-- Queue pair n's record. -/
def qp (s : State) (n : QpId) : QueuePair := s.qe.qps[n]
/-- Replace queue pair n's record. -/
def setQp (s : State) (n : QpId) (x : QueuePair) : State := { s with qe.qps := s.qe.qps.set n x }
/-- Change queue pair n's record. -/
def modQp (s : State) (n : QpId) (f : QueuePair → QueuePair) : State := s.setQp n (f (s.qp n))

/-- Transfer entry e. -/
def entry (s : State) (e : EntryId) : Entry := s.tt.entries[e]
/-- Replace transfer entry e. -/
def setEntry (s : State) (e : EntryId) (x : Entry) : State := { s with tt.entries := s.tt.entries.set e x }
/-- Change transfer entry e. -/
def modEntry (s : State) (e : EntryId) (f : Entry → Entry) : State := s.setEntry e (f (s.entry e))

/-- Queue pair n's in-flight list (R3). -/
def inflight (s : State) (n : QpId) : List EntryId := s.tt.inflight[n]
/-- Replace queue pair n's in-flight list. -/
def setInflight (s : State) (n : QpId) (l : List EntryId) : State :=
  { s with tt.inflight := s.tt.inflight.set n l }

/-- Queue pair n's posted-spoke set (R12). -/
def posted (s : State) (n : QpId) : Vector Posted 8 := s.tt.posted[n]
/-- Replace queue pair n's posted-spoke set. -/
def setPosted (s : State) (n : QpId) (v : Vector Posted 8) : State := { s with tt.posted := s.tt.posted.set n v }

/-- Segment record i. -/
def seg (s : State) (i : SegId) : Segment := s.su.segments[i]
/-- Replace segment record i. -/
def setSeg (s : State) (i : SegId) (x : Segment) : State := { s with su.segments := s.su.segments.set i x }
/-- Change segment record i. -/
def modSeg (s : State) (i : SegId) (f : Segment → Segment) : State := s.setSeg i (f (s.seg i))

/-- The issue list of spoke number k (R50). -/
def issue (s : State) (k : SpokeId) : List SegId := s.su.issue[k]
/-- Replace the issue list of spoke number k. -/
def setIssue (s : State) (k : SpokeId) (l : List SegId) : State := { s with su.issue := s.su.issue.set k l }

/-- Window record w. -/
def window (s : State) (w : WindowId) : Window := s.wu.windows[w]

/-- Context record c. -/
def context (s : State) (c : ContextId) : Context := s.tu.contexts[c]

/-- Walk place w. -/
def walk (s : State) (w : WalkId) : Option Walk := s.tu.walks[w]
/-- Replace walk place w. -/
def setWalk (s : State) (w : WalkId) (x : Option Walk) : State := { s with tu.walks := s.tu.walks.set w x }

/-- Slot j. -/
def slot (s : State) (j : SlotId) : Slot := s.rb.slots[j]
/-- Replace slot j. -/
def setSlot (s : State) (j : SlotId) (x : Slot) : State := { s with rb.slots := s.rb.slots.set j x }
/-- Queue pair n's held-slot count (R62). -/
def held (s : State) (n : QpId) : Nat := s.rb.held[n]
/-- Replace queue pair n's held-slot count. -/
def setHeld (s : State) (n : QpId) (c : Nat) : State := { s with rb.held := s.rb.held.set n c }
/-- Replace the slot wait list (R63). -/
def setWaiting (s : State) (l : List SegId) : State := { s with rb.waiting := l }

/-- Logical spoke record k. -/
def spoke (s : State) (k : SpokeId) : Spoke := s.sp.spokes[k]
/-- Replace logical spoke record k. -/
def setSpoke (s : State) (k : SpokeId) (x : Spoke) : State := { s with sp.spokes := s.sp.spokes.set k x }
/-- Change logical spoke record k. -/
def modSpoke (s : State) (k : SpokeId) (f : Spoke → Spoke) : State := s.setSpoke k (f (s.spoke k))

/-- Replace the executor's state. -/
def setExecutor (s : State) (x : Executor) : State := { s with au.executor := x }

/-- Tracker place p. -/
def place (s : State) (p : PlaceId) : Place := s.hp.places[p]
/-- Replace tracker place p. -/
def setPlace (s : State) (p : PlaceId) (x : Place) : State := { s with hp.places := s.hp.places.set p x }

/-! ## What leaves the part -/

/-- The host port takes a posted write, in the step in which its source hands it over (R173). -/
def takeWrite (s : State) (w : HostWrite) : State := { s with hp.writes := s.hp.writes ++ [w] }

/-- The host port is handed a read, which joins the tail of the request list of its kind (R171). -/
def handRead (s : State) (r : ReadRequest) : State :=
  match r.requester.kind with
  | .fetch => { s with hp.fetchList := s.hp.fetchList ++ [r] }
  | .walk => { s with hp.walkList := s.hp.walkList ++ [r] }
  | .data => { s with hp.dataList := s.hp.dataList ++ [r] }

end State

/-! ## Bundles (R97, R27) -/

/-- The head of the bundle that holds member p of a half, both counted from the half's first spoke (the table of R27). -/
def Layout.head (l : Layout) (p : Nat) : Nat :=
  match l with
  | .single => p
  | .pairLow => if p = 1 then 0 else p
  | .pairHigh => if p = 3 then 2 else p
  | .pairBoth => if p = 1 then 0 else if p = 3 then 2 else p
  | .quad => 0

/-- The logical spoke of physical spoke p under the two halves' layouts (R27, R97). -/
def logicalSpoke (low high : Layout) (p : SpokeId) : SpokeId :=
  if p.val < 4 then Fin.ofNat 8 (low.head p.val) else Fin.ofNat 8 (4 + high.head (p.val - 4))

namespace State

/-- The logical spoke of physical spoke p (R97). -/
def headOf (s : State) (p : SpokeId) : SpokeId := logicalSpoke s.sp.low s.sp.high p

/-- Whether number k is a logical spoke under the present layout (R97). -/
def isLogical (s : State) (k : SpokeId) : Bool := s.headOf k == k

/-- The physical spokes of the bundle whose head is k (R97). -/
def members (s : State) (k : SpokeId) : List SpokeId := (List.finRange 8).filter fun p => s.headOf p == k

/-- The spoke port sends a message on logical spoke k (R121). -/
def sendFrame (s : State) (k : SpokeId) (m : TxMessage) : State :=
  { s with wire := s.wire.put (s.members k) { spoke := k, message := m } }

/-- Carrier out is dropped on every member of logical spoke k (R96): what is still being put on the link is cut short (R121). -/
def dropCarrierOut (s : State) (k : SpokeId) : State := { s with wire := s.wire.cut (s.members k) }

/-- The logical carrier in of k: present when that of every member is present (R96). -/
def carrierPresent (s : State) (k : SpokeId) : Bool := (s.members k).all fun p => s.sp.carrierIn[p]

/-- The carrier out pin of physical spoke p: driven while its logical spoke is not OFF (R96). -/
def carrierOut (s : State) (p : SpokeId) : Bool := (s.spoke (s.headOf p)).state != .off

/-- The credit wait timer of k runs while k is UP with 0 credits and a request waits (R110). -/
def creditWaitRunning (s : State) (k : SpokeId) : Bool :=
  (s.spoke k).state == .up && (s.spoke k).credits == 0 && (s.issue k != [] || (s.spoke k).flushList != [])

/-! ## Queue pairs (R137, R138) -/

/-- The state of queue pair n. QP0 takes its state from the device state (R138). -/
def qpState (s : State) (n : QpId) : QpState :=
  if n = 0 then
    match s.ctl.device with
    | .disabled => .empty
    | .stopping => .empty
    | .ready => .running
    | .halted => .failed
  else (s.qp n).state

/-- The unconsumed count (R137). -/
def unconsumed (s : State) (n : QpId) : Nat := ringDistance (s.qp n).head (s.qp n).writeIndex (s.qp n).cqSize

/-- The pending count (R137). -/
def pendingCount (s : State) (n : QpId) : Nat := ringDistance (s.qp n).fetchIndex (s.qp n).tail (s.qp n).sqSize

/-- Whether queue pair n's completion ring has space for a record (R146, R160). -/
def ringSpace (s : State) (n : QpId) : Bool := decide (s.unconsumed n + 1 < (s.qp n).cqSize)

/-- The client queue pairs that are bound to context c: the ones not EMPTY (R138). -/
def boundQps (s : State) (c : ContextId) : List QpId :=
  (List.finRange 16).filter fun n => n != 0 && (s.qp n).state != .empty && (s.qp n).context == c

/-! ## Device control and the executor -/

/-- A halt reported to device control is taken while the device is READY (R177). -/
def halt (s : State) (r : HaltReason) : State :=
  if s.ctl.device = .ready then { s with ctl.device := .halted, ctl.haltReason := r } else s

/-- The end of a long command, reported by its owning block to the executor (R158): the executor that WAITs on it enters
POSTING. An executor that has abandoned the command takes nothing. -/
def endCommand (s : State) (opcodes : List Byte) (object : Nat) (status : AdminStatus) (info : Nat) : State :=
  match s.au.executor with
  | .waiting c => if c.opcode ∈ opcodes ∧ c.object = object then s.setExecutor (.posting c status info) else s
  | _ => s

end State

end Sys2Proof.Machine
end

