-- ==== Sys2Proof/Machine/Flags.lean ====
section
/-! DEFINITION. The flags the part raises for software: events (R165, R166), and the vectors' arm states and pending flags
(R148 to R150). -/

namespace Sys2Proof.Machine

/-- An event list after an event is raised (R166), with the overflow flag it then shows. -/
def addEvent (events : List Event) (overflow : Bool) (source : EventSource) (kind : EventKind) (reason : EventReason) :
    List Event × Bool :=
  if events.any fun e => e.source == source && e.kind == kind then
    (events.map fun e =>
      if e.source = source ∧ e.kind = kind then { e with count := min (e.count + 1) Config.eventCountMax } else e, overflow)
  else if events.length < Config.eventSlots then
    (events ++ [{ source := source, kind := kind, reason := reason, count := 1 }], overflow)
  else (events, true)

namespace State

/-- An event is raised. The list takes events in every device state but DISABLED (R166). -/
def raise (s : State) (source : EventSource) (kind : EventKind) (reason : EventReason) : State :=
  if s.ctl.device = .disabled then s
  else
    { s with
      au.events := (addEvent s.au.events s.au.overflow source kind reason).1
      au.overflow := (addEvent s.au.events s.au.overflow source kind reason).2 }

/-- An interrupt message is handed to the host port: sent as a posted write while message interrupts are enabled, and kept
as the vector's pending flag while they are disabled (R150). -/
def handMessage (s : State) (v : VectorId) : State :=
  if s.hp.messagesEnabled then s.takeWrite (.message v)
  else { s with hp.messagePending := s.hp.messagePending.set v true }

/-- A qualifying record has been written for a queue pair whose vector is v: an ARMED vector sends its message and becomes
FIRED; a FIRED one sends nothing (R148). -/
def signal (s : State) (v : VectorId) : State :=
  if s.qe.arms[v] = .armed then ({ s with qe.arms := s.qe.arms.set v .fired }).handMessage v else s

/-- A good head write re-arms the vector (R149). -/
def rearm (s : State) (v : VectorId) : State := { s with qe.arms := s.qe.arms.set v .armed }

/-- The pending messages are sent, in ascending vector order, and their flags cleared (R150). -/
def sendPendingMessages (s : State) : State :=
  { s with
    hp.writes := s.hp.writes ++ ((List.finRange 16).filter fun v => s.hp.messagePending[v]).map .message
    hp.messagePending := Vector.replicate 16 false }

/-- A client queue pair becomes FAILED and raises QUEUE_FAILED (R145). -/
def failQueue (s : State) (n : QpId) (reason : EventReason) : State :=
  (s.modQp n fun q => { q with state := .failed }).raise (.queue n) .queueFailed reason

end State

end Sys2Proof.Machine
end

