-- ==== Sys2Proof/Machine/Windows.lean ====
section
/-! DEFINITION. The window unit's answers (chapter 2): which window and region resolve a fabric address, the resolution
boundary, the answer to a resolution request, and the window checks. All are functions of a window table. -/

namespace Sys2Proof.Machine

/-- The window table. -/
abbrev WindowTable := Vector Window 8

/-- A window of ids 0 and 1 is striped, of ids 2 to 7 pinned (R25). -/
def striped (w : WindowId) : Bool := w.val < 2

/-- Whether address a lies in the window's range (R25). -/
def Window.holds (w : Window) (a : Nat) : Bool := w.enabled && decide (w.base ≤ a) && decide (a < w.base + w.size)

/-- Whether a range of `len` bytes from `a` shares an address with a range. -/
def Range.meets (r : Range) (a len : Nat) : Bool := decide (a < r.base + r.size) && decide (r.base < a + len)

/-- The region of an address (R26): the window, the region's base and end, and the physical spoke it goes to. -/
structure Region where
  window : WindowId
  base : Nat
  limit : Nat
  spoke : SpokeId
  deriving DecidableEq, Repr

/-- The slice size of a striped window (R26). -/
def Window.sliceSize (w : Window) : Nat := w.size / 8

/-- The slice of a striped window that holds address a (R26). -/
def Window.slice (w : Window) (a : Nat) : Nat := (a - w.base) / w.sliceSize

/-- The region of address a in window number id, which holds a (R26): the slice, or the whole pinned range. -/
def regionIn (t : WindowTable) (id : WindowId) (a : Nat) : Region :=
  let w := t[id]
  if striped id then
    { window := id, base := w.base + w.slice a * w.sliceSize, limit := w.base + (w.slice a + 1) * w.sliceSize
      spoke := Fin.ofNat 8 (w.slice a + w.target.val) }
  else { window := id, base := w.base, limit := w.base + w.size, spoke := w.target }

/-- The pinned window that holds address a, if there is one. -/
def pinnedAt (t : WindowTable) (a : Nat) : Option WindowId := firstIndex 8 fun id => !striped id && t[id].holds a

/-- The striped window that holds address a, if there is one. -/
def stripedAt (t : WindowTable) (a : Nat) : Option WindowId := firstIndex 8 fun id => striped id && t[id].holds a

/-- The region that resolves address a (R31): a pinned window first, then a striped one. -/
def regionAt (t : WindowTable) (a : Nat) : Option Region :=
  match pinnedAt t a with
  | some id => some (regionIn t id a)
  | none => (stripedAt t a).map fun id => regionIn t id a

/-- The bases of the enabled windows among `ids` that lie above a. -/
def basesAbove (t : WindowTable) (a : Nat) (p : WindowId → Bool) : List Nat :=
  ((List.finRange 8).filter fun id => p id && t[id].enabled && decide (a < t[id].base)).map fun id => t[id].base

/-- The resolution boundary of address a under one table (R35). -/
def boundary (t : WindowTable) (a : Nat) : Nat :=
  match pinnedAt t a with
  | some id => (regionIn t id a).limit
  | none =>
    match stripedAt t a with
    | some id => (basesAbove t a fun p => !striped p).foldl min (regionIn t id a).limit
    | none => (basesAbove t a fun _ => true).foldl min Config.fabricTop

/-- The side of a segment in a detail word (R32, 11.3). -/
def sideCode : Leg → Nat
  | .source => 0
  | .destination => 256

/-- The outcome of one side of a resolution request (R32, R33). -/
inductive SideOutcome where
  | routed (r : Route)
  | dropped
  | failed (f : Failure)
  deriving DecidableEq, Repr

/-- The spoke address of a route (R28). -/
def spokeAddress (w : Window) (r : Region) (a : Nat) : Nat :=
  match w.form with
  | .full => a
  | .loc => a - r.base

/-- The route a region gives to address a under the bundle layouts (R33, R27, R28, R30). -/
def routeOf (t : WindowTable) (low high : Layout) (r : Region) (a : Nat) : Route :=
  { window := r.window, spoke := logicalSpoke low high r.spoke, address := spokeAddress t[r.window] r a
    posted := t[r.window].posted, earlier := false }

/-- One side of `len` bytes from address a, read (SOURCE) or written (DESTINATION): R31, R32, then R33. -/
def resolveSide (t : WindowTable) (low high : Layout) (side : Leg) (write : Bool) (a len : Nat) : SideOutcome :=
  match regionAt t a with
  | none => .failed { status := .unmapped, detail := sideCode side }
  | some r =>
    if boundary t a < a + len then .failed { status := .unmapped, detail := sideCode side + (boundary t a - a) }
    else if write then
      match t[r.window].access with
      | .readWrite => .routed (routeOf t low high r a)
      | .readOnly => .failed { status := .windowAccess, detail := sideCode side + r.window.val }
      | .writeDrop => .dropped
    else .routed (routeOf t low high r a)

/-- The fabric sides of a segment (R4, R43): the address read, for GATHER and RELAY, and the address written, for SCATTER,
FILL and RELAY. -/
structure Sides where
  read : Option Nat
  write : Option Nat
  deriving DecidableEq, Repr

/-- The sides of an entry's transfer at transfer offset o (R43). -/
def Entry.sidesAt (x : Entry) (o : Nat) : Sides :=
  match x.kind with
  | some .gather => { read := some (x.fabric + o), write := none }
  | some .scatter => { read := none, write := some (x.fabric + o) }
  | some .fill => { read := none, write := some (x.fabric + o) }
  | some .relay => { read := some (x.fabric + o), write := some (x.near + o) }
  | _ => { read := none, write := none }

/-- The window unit's answer to a resolution request. -/
inductive Answer where
  | routed (source destination : Option Route)
  | dropped
  | failed (f : Failure)
  deriving DecidableEq, Repr

/-- The answer for a segment's sides: the destination side decides first (R33, R34). -/
def resolve (t : WindowTable) (low high : Layout) (sides : Sides) (len : Nat) : Answer :=
  match sides.write.map fun a => resolveSide t low high .destination true a len with
  | some (.failed f) => .failed f
  | some .dropped => .dropped
  | some (.routed d) =>
    match sides.read.map fun a => resolveSide t low high .source false a len with
    | some (.failed f) => .failed f
    | some (.routed r) => .routed (some r) (some d)
    | _ => .routed none (some d)
  | none =>
    match sides.read.map fun a => resolveSide t low high .source false a len with
    | some (.failed f) => .failed f
    | some (.routed r) => .routed (some r) none
    | _ => .routed none none

/-- Whether any side of `len` bytes touches a range (R37, R38). -/
def Sides.touches (x : Sides) (len : Nat) (r : Option Range) : Bool :=
  match r with
  | none => false
  | some r =>
    (match x.read with | some a => r.meets a len | none => false) ||
      (match x.write with | some a => r.meets a len | none => false)

/-- The range of a window record, if it is enabled (R37). -/
def Window.range (w : Window) : Option Range := if w.enabled then some { base := w.base, size := w.size } else none

/-- Whether the range of `len` bytes from `base` shares an address with the range of an enabled window of id's class other
than id itself (the OVERLAP check of R36). -/
def overlaps (t : WindowTable) (id : WindowId) (base size : Nat) : Bool :=
  (List.finRange 8).any fun other =>
    other != id && striped other == striped id &&
      match t[other].range with
      | some r => r.meets base size
      | none => false

namespace State

/-- The sides of segment i. -/
def segSides (s : State) (i : SegId) : Sides := (s.entry (s.seg i).entry).sidesAt (s.seg i).offset

/-- Whether segment i touches the old or the new range of a pending change (R38). -/
def touchesChange (s : State) (i : SegId) (q : Quiesce) : Bool :=
  (s.segSides i).touches (s.seg i).length q.old || (s.segSides i).touches (s.seg i).length q.new

/-- The answer for segment i under the table and layouts as they stand (R33). -/
def answerFor (s : State) (i : SegId) : Answer :=
  resolve s.wu.windows s.sp.low s.sp.high (s.segSides i) (s.seg i).length

/-- The table that will stand once the pending change is applied (R35). -/
def nextTable (s : State) : WindowTable :=
  match s.wu.quiesce with
  | some q => s.wu.windows.set q.window q.contents
  | none => s.wu.windows

/-- The resolution boundary the window unit answers with: the lower of the one under the table and the one under the table
to follow (R35). -/
def boundaryAt (s : State) (a : Nat) : Nat := min (boundary s.wu.windows a) (boundary s.nextTable a)

end State

end Sys2Proof.Machine
end

