-- ==== Sys2Proof/Machine/Segments.lean ====
section
/-! DEFINITION. What a segment's steps do (chapters 1, 3, 4 and 5): the end of a segment and its reports, its slot, its
issue list, its translation and walks, its host access, its landing and its resolution. Each operation is one of the
spec's, over the state; what a step brings about in turn is in Machine/Settle.lean. -/

namespace Sys2Proof.Machine

/-- How a segment retires (R58): successful, with the dropped mark and, for a posted write that retired as sent, its logical
spoke; or failed. -/
inductive SegEnd where
  | success (dropped : Bool) (posted : Option SpokeId)
  | failure (f : Failure)
  deriving DecidableEq, Repr

/-- A failure whose detail is the logical spoke number (11.3). -/
def spokeFailure (status : Status) (k : SpokeId) : Failure := { status := status, detail := k.val }

/-- Add a spoke to a posted-spoke set: a spoke already in it stays in it once, with its mark (R12). -/
def joinPosted (v : Vector Posted 8) (k : SpokeId) : Vector Posted 8 := if v[k] = .absent then v.set k .member else v

/-- A tag's request once fence e is freed: its flush request is orphaned (R109). -/
def Tag.orphan (e : EntryId) : Tag → Tag
  | .outstanding (.flush (some f)) => if f = e then .outstanding (.flush none) else .outstanding (.flush (some f))
  | t => t

/-- An entry's account of a failure at an offset: the lowest offset's is kept (R15). -/
def Entry.recordFailure (x : Entry) (offset : Nat) (f : Failure) : Option LowestFailure :=
  match x.failed with
  | none => some { offset := offset, failure := f }
  | some l => if offset < l.offset then some { offset := offset, failure := f } else some l

/-- A fence's account of a failing spoke: the lowest-numbered one's is kept, at offset 0 (R11). -/
def Entry.recordSpoke (x : Entry) (k : SpokeId) (status : Status) : Option LowestFailure :=
  match x.failed with
  | none => some { offset := 0, failure := spokeFailure status k }
  | some l => if k.val < l.failure.detail then some { offset := 0, failure := spokeFailure status k } else some l

/-- The FILL payload of `len` bytes from transfer offset o: byte (o + k) mod 4 of the pattern (R4, R51). -/
def fillBytes (pattern o len : Nat) : List Byte :=
  (List.range len).map fun k => BitVec.ofNat 8 (pattern / 256 ^ ((o + k) % 4))

/-- A page size in bytes (R75). -/
def PageSize.bytes : PageSize → Nat
  | .k4 => 2 ^ 12
  | .k64 => 2 ^ 16
  | .m2 => 2 ^ 21

/-- The bound on frame numbers under a page size (R79). -/
def PageSize.frameBound : PageSize → Nat
  | .k4 => 2 ^ 52
  | .k64 => 2 ^ 48
  | .m2 => 2 ^ 43

/-- The translation unit's answer (R77, R78). -/
inductive TransAnswer where
  | translated (host : Nat) (key : Option Key)
  | failed (f : Failure)
  deriving DecidableEq, Repr

/-- The outcome of asking for translation: an answer at once, or a miss on a key (R77, R78). -/
inductive Lookup where
  | answered (a : TransAnswer)
  | miss (key : Key)
  deriving DecidableEq, Repr

/-- TRANSLATION_FAULT with its detail (11.3): 1 RANGE, 2 NOT_PRESENT, 3 PERMISSION. -/
def translationFault (detail : Nat) : TransAnswer := .failed { status := .translationFault, detail := detail }

/-- A directory entry whose frame number is at or above the page size's bound is taken as not present (R79). -/
def usable (size : PageSize) (e : DirectoryEntry) : Bool := e.present && decide (e.frame < size.frameBound)

/-- An answer formed from a directory entry (R78); `write` is the access asked for. -/
def answerFromEntry (size : PageSize) (write : Bool) (iova : Nat) (key : Key) (e : DirectoryEntry) : TransAnswer :=
  if usable size e then
    if (if write then e.writable else e.readable) then .translated (e.frame * size.bytes + iova % size.bytes) (some key)
    else translationFault 3
  else translationFault 2

/-- A cache entry as the directory entry it was read from: the cache holds present entries only (R80). -/
def CacheEntry.directory (c : CacheEntry) : DirectoryEntry :=
  { present := true, readable := c.readable, writable := c.writable, frame := c.frame }

namespace State

/-! ## What a segment is -/

/-- The queue pair of segment i: its entry's (R62). -/
def segQp (s : State) (i : SegId) : QpId := (s.entry (s.seg i).entry).qp

/-- The kind of segment i's transfer. -/
def segKind (s : State) (i : SegId) : Option Kind := (s.entry (s.seg i).entry).kind

/-- The route segment i is to use (R50): the source route for GATHER and for RELAY on its SOURCE leg, otherwise the
destination route. -/
def useRoute (s : State) (i : SegId) : Option Route :=
  match s.segKind i with
  | some .gather => (s.seg i).source
  | some .relay => match (s.seg i).leg with
    | .source => (s.seg i).source
    | .destination => (s.seg i).destination
  | _ => (s.seg i).destination

/-- Whether segment i's request is a WRITE_REQUEST (R51). -/
def segWrites (s : State) (i : SegId) : Bool :=
  match s.segKind i with
  | some .gather => false
  | some .relay => (s.seg i).leg == .destination
  | _ => true

/-- The bytes in segment i's slot, as many as its length (R68 to R70). -/
def slotBytes (s : State) (i : SegId) : List Byte :=
  match (s.seg i).slot with
  | some j => (s.slot j).data.take (s.seg i).length
  | none => []

/-- The payload of segment i's WRITE_REQUEST (R51): the pattern for FILL, otherwise the slot's bytes. -/
def payload (s : State) (i : SegId) : List Byte :=
  match s.segKind i with
  | some .fill => fillBytes (s.entry (s.seg i).entry).near (s.seg i).offset (s.seg i).length
  | _ => s.slotBytes i

/-! ## Entries -/

/-- The flush requests of a freed fence: the pending ones are withdrawn, the outstanding ones orphaned (R109). -/
def withdrawFlushes (s : State) (e : EntryId) : State :=
  { s with
    sp.spokes := vmap (fun x : Spoke => { x with flushList := x.flushList.filter (· != e), tags := vmap (Tag.orphan e) x.tags })
      s.sp.spokes }

/-- An entry becomes FREE and leaves its in-flight list wherever it stands (R3, R22). -/
def freeEntry (s : State) (e : EntryId) : State :=
  let s1 := if (s.entry e).state = .flushing then s.withdrawFlushes e else s
  (s1.setInflight (s.entry e).qp ((s.inflight (s.entry e).qp).erase e)).setEntry e {}

/-- A WINDING entry whose live segment count is 0 goes to DONE, or is freed if it was stopped (R14, R15, R16). -/
def closeEntry (s : State) (e : EntryId) : State :=
  if (s.entry e).state = .winding ∧ (s.entry e).live = 0 then
    if (s.entry e).stop.isSome then s.freeEntry e else s.modEntry e fun x => { x with state := .done }
  else s

/-- A successful retirement is reported to the entry (R14). -/
def entrySuccess (s : State) (e : EntryId) (dropped : Bool) (sent : Option SpokeId) : State :=
  let s1 := s.modEntry e fun x => { x with live := x.live - 1, dropped := x.dropped || dropped }
  let s2 := match sent with
    | some k => s1.setPosted (s.entry e).qp (joinPosted (s.posted (s.entry e).qp) k)
    | none => s1
  s2.closeEntry e

/-- A failed retirement is reported to the entry (R15): the failure with the lowest offset is kept, and a RUNNING entry's
cursor freezes where it stands. -/
def entryFailure (s : State) (e : EntryId) (offset : Nat) (f : Failure) : State :=
  (s.modEntry e fun x =>
    { x with
      live := x.live - 1
      failed := x.recordFailure offset f
      state := if x.state = .running then .winding else x.state }).closeEntry e

/-- One flush request of fence e ends on spoke k, in success or with a status (R11). -/
def endFlush (s : State) (e : EntryId) (k : SpokeId) (status : Option Status) : State :=
  if (s.entry e).state = .flushing then
    s.modEntry e fun x =>
      { x with
        flushes := x.flushes - 1
        failed := match status with
          | some st => x.recordSpoke k st
          | none => x.failed
        state := if x.flushes - 1 = 0 then .done else x.state }
  else s

/-! ## Retirement -/

/-- Segment i frees the slot it holds, if it holds one, and its queue pair's held-slot count falls (R62, R65). -/
def freeSlot (s : State) (i : SegId) : State :=
  match (s.seg i).slot with
  | none => s
  | some j =>
    ((s.setSlot j { s.slot j with holder := none }).setHeld (s.segQp i) (s.held (s.segQp i) - 1)).modSeg i
      fun x => { x with slot := none }

/-- The window unit is told of a retirement: a counted segment lowers the waited count (R39). -/
def uncount (s : State) (i : SegId) : State :=
  match s.wu.quiesce with
  | some q => { s with wu.quiesce := some { q with counted := q.counted.erase i } }
  | none => s

/-- Segment i retires (R58): its slot is freed, its record becomes RETIRED, and the window unit and its entry are told. Its
tag, if it has one, is the spoke port's, which changes it in the same step. -/
def retire (s : State) (i : SegId) (how : SegEnd) : State :=
  let s1 := ((s.freeSlot i).setSeg i {}).uncount i
  match how with
  | .success dropped sent => s1.entrySuccess (s.seg i).entry dropped sent
  | .failure f => s1.entryFailure (s.seg i).entry (s.seg i).offset f

/-! ## Issue lists and slots -/

/-- Whether a route can be joined now: its spoke is an UP logical spoke and the route carries no earlier-layout mark (R50). -/
def routeOpen (s : State) (r : Route) : Bool := (s.spoke r.spoke).state == .up && s.isLogical r.spoke && !r.earlier

/-- Segment i asks to join the issue list of the route it is to use (R50). -/
def joinIssue (s : State) (i : SegId) : State :=
  match s.useRoute i with
  | none => s
  | some r =>
    if s.routeOpen r then (s.setIssue r.spoke (s.issue r.spoke ++ [i])).modSeg i fun x => { x with state := .issueWait }
    else s.retire i (.failure (spokeFailure .spokeUnavailable r.spoke))

/-- Segment i goes to SLOT_WAIT and joins the tail of the slot wait list (R48, R63). -/
def joinSlotWait (s : State) (i : SegId) : State :=
  (s.setWaiting (s.rb.waiting ++ [i])).modSeg i fun x => { x with state := .slotWait }

/-! ## Host access -/

/-- A landed GATHER's host write: the host port takes the slot's bytes, and the segment retires as successful (R56, R68). -/
def gatherWrite (s : State) (i : SegId) : State :=
  match (s.seg i).host with
  | some a => (s.takeWrite (.memory .gatherData a (s.slotBytes i))).retire i (.success false none)
  | none => s

/-- A SCATTER's host read into its slot is handed to the host port (R49). -/
def scatterRead (s : State) (i : SegId) : State :=
  match (s.seg i).host with
  | some a =>
    (s.handRead { requester := .data i, address := a, length := (s.seg i).length }).modSeg i
      fun x => { x with state := .hostReading }
  | none => s

/-- The host access of segment i begins (R47). -/
def beginAccess (s : State) (i : SegId) : State :=
  match s.segKind i with
  | some .gather => s.gatherWrite i
  | some .scatter => s.scatterRead i
  | _ => s

/-! ## Translation -/

/-- The IOVA segment i asks for (R46, R76). -/
def segIova (s : State) (i : SegId) : Nat := (s.entry (s.seg i).entry).near + (s.seg i).offset

/-- The context segment i asks under: the one bound to its queue pair (R76). -/
def segContext (s : State) (i : SegId) : ContextId := (s.qp (s.segQp i)).context

/-- The access segment i asks for: write for GATHER, read for SCATTER (R46). -/
def segAccessWrites (s : State) (i : SegId) : Bool := s.segKind i == some .gather

/-- The valid cache entry that holds a key, if there is one (R80). -/
def cacheFind (s : State) (key : Key) : Option CacheEntry :=
  s.tu.cache.toList.findSome? fun c => c.filter fun x => x.key == key

/-- The outcome of segment i's request for translation (R76 to R78). -/
def lookup (s : State) (i : SegId) : Lookup :=
  let c := s.context (s.segContext i)
  match c.mode with
  | .off => .answered (translationFault 1)
  | .bypass =>
    if s.segIova i < Config.fabricTop then .answered (.translated (s.segIova i) none) else .answered (translationFault 1)
  | .translate =>
    let page := s.segIova i / c.pageSize.bytes
    if c.dirLength ≤ page then .answered (translationFault 1)
    else
      match s.cacheFind { context := s.segContext i, page := page } with
      | some e =>
        .answered (answerFromEntry c.pageSize (s.segAccessWrites i) (s.segIova i) e.key e.directory)
      | none => .miss { context := s.segContext i, page := page }

/-- Segment i takes an answer without a mark (R46, R47): a segment that holds a slot was retranslating, and its host access
begins; another goes to SLOT_WAIT. -/
def takeAnswer (s : State) (i : SegId) (a : TransAnswer) : State :=
  match a with
  | .failed f => s.retire i (.failure f)
  | .translated host key =>
    let s1 := s.modSeg i fun x => { x with host := some host, translation := key, retranslate := false }
    if (s.seg i).slot.isSome then s1.beginAccess i else s1.joinSlotWait i

/-- A walk for a key starts in place w with segment i (R82, R83): the host port is handed an 8-byte read of the walk kind. -/
def startWalk (s : State) (w : WalkId) (key : Key) (i : SegId) : State :=
  let address := (s.context key.context).dirBase + 8 * key.page
  (s.setWalk w (some { key := key, address := address, stale := false, joined := [i] })).handRead
    { requester := .walk w, address := address, length := 8 }

/-- The walk in progress for a key that is not stale, if there is one (R83). -/
def openWalk (s : State) (key : Key) : Option WalkId :=
  firstIndex 4 fun w => match s.walk w with
    | some x => x.key == key && !x.stale
    | none => false

/-- The lowest-numbered free walk place (R82). -/
def freeWalk (s : State) : Option WalkId := firstIndex 4 fun w => (s.walk w).isNone

/-- Segment i joins the walk in place w (R83). -/
def joinWalk (s : State) (w : WalkId) (i : SegId) : State :=
  s.setWalk w ((s.walk w).map fun x => { x with joined := x.joined ++ [i] })

/-- A segment that misses is given to a walk: it joins one, or starts one, or waits (R83). -/
def giveToWalk (s : State) (i : SegId) (key : Key) : State :=
  match s.openWalk key with
  | some w => s.joinWalk w i
  | none =>
    match s.freeWalk with
    | some w => s.startWalk w key i
    | none => { s with tu.walkWait := s.tu.walkWait ++ [i] }

/-- Segment i, in TRANSLATING, asks for translation (R46). -/
def ask (s : State) (i : SegId) : State :=
  match s.lookup i with
  | .answered a => s.takeAnswer i a
  | .miss key => s.giveToWalk i key

/-- Segment i enters TRANSLATING and asks: after resolution, or, discarding what it holds and its mark, when it retranslates
(R46, R47). -/
def translate (s : State) (i : SegId) : State :=
  (s.modSeg i fun x =>
    { x with state := .translating, host := none, translation := none, retranslate := false }).ask i

/-! ## Slot grants (R64) -/

/-- The lowest-numbered free slot (R61, R64). -/
def freeSlotIndex (s : State) : Option SlotId := firstIndex 64 fun j => (s.slot j).holder.isNone

/-- The eligible waiter nearest the head of the slot wait list (R64). -/
def eligibleWaiter (s : State) : Option SegId := s.rb.waiting.find? fun i => decide (s.held (s.segQp i) < Config.slotCap)

/-- Segment i, which waits, is granted slot j and goes on (R48, R64). -/
def grantSlot (s : State) (j : SlotId) (i : SegId) : State :=
  let s1 := (((s.setWaiting (s.rb.waiting.erase i)).setSlot j { s.slot j with holder := some i }).setHeld (s.segQp i)
    (s.held (s.segQp i) + 1)).modSeg i fun x => { x with slot := some j }
  match s.segKind i with
  | some .scatter => if (s.seg i).retranslate then s1.translate i else s1.scatterRead i
  | _ => s1.joinIssue i

/-- One slot grant (R64). -/
def slotGrant? (s : State) : Option State :=
  match s.freeSlotIndex, s.eligibleWaiter with
  | some j, some i => some (s.grantSlot j i)
  | _, _ => none

/-- At most `fuel` slot grants, one after the other. -/
def grantSlotsFor : Nat → State → State
  | 0, s => s
  | fuel + 1, s =>
    match s.slotGrant? with
    | some t => grantSlotsFor fuel t
    | none => s

/-- The return buffer's grants at the moment a slot is freed or a segment joins the slot wait list (R64), as many as can be
made: a granted segment that fails at once frees its slot again. Where one happening ends or answers several segments, this
runs after each of them, so that each freeing and each joining is taken by itself; a single one is followed by `settle`. The
order of a grant against what else stands in the same step is the model's (log entry 18). -/
def grantSlots (s : State) : State := grantSlotsFor s.rb.waiting.length s

/-! ## Walks that end (R84 to R86) -/

/-- Segment i takes the answer of a stale walk (R84): a translation comes with the retranslate mark set, on which a segment
that was retranslating acts at once. -/
def takeStaleAnswer (s : State) (i : SegId) (a : TransAnswer) : State :=
  match a with
  | .failed f => s.retire i (.failure f)
  | .translated host key =>
    if (s.seg i).slot.isSome then s.translate i
    else (s.modSeg i fun x => { x with host := some host, translation := key, retranslate := true }).joinSlotWait i

/-- The key segment i asks for under its context (R78). -/
def segKey (s : State) (i : SegId) : Key :=
  { context := s.segContext i, page := s.segIova i / (s.context (s.segContext i)).pageSize.bytes }

/-- Segment i leaves the walk wait list (R86). -/
def leaveWalkWait (s : State) (i : SegId) : State := { s with tu.walkWait := s.tu.walkWait.erase i }

/-- One segment of the walk wait list is come to in a pass (R86): it leaves the list to be answered from the cache, to join a
walk or to start one, and otherwise keeps its place. -/
def serveWaiter (s : State) (i : SegId) : State :=
  match s.cacheFind (s.segKey i) with
  | some e =>
    (s.leaveWalkWait i).takeAnswer i
      (answerFromEntry (s.context (s.segContext i)).pageSize (s.segAccessWrites i) (s.segIova i) e.key e.directory)
  | none =>
    if (s.openWalk (s.segKey i)).isSome || s.freeWalk.isSome then (s.leaveWalkWait i).giveToWalk i (s.segKey i) else s

/-- The pass over the walk wait list from head to tail (R86), with the slot grants each answer brings about. A segment that
joins the list in the pass finds all four places busy, and they stay so: the pass could not serve it. -/
def serveWalkWait (s : State) : State := s.tu.walkWait.foldl (fun t i => (t.serveWaiter i).grantSlots) s

/-- The translation cache takes a directory entry read by a walk: into the lowest-numbered invalid entry, or into the entry
the victim pointer names, which then advances (R81). -/
def install (s : State) (key : Key) (e : DirectoryEntry) : State :=
  let x : CacheEntry := { key := key, frame := e.frame, readable := e.readable, writable := e.writable }
  match firstIndex 32 fun c => (s.tu.cache[c]).isNone with
  | some c => { s with tu.cache := s.tu.cache.set c (some x) }
  | none => { s with tu.cache := s.tu.cache.set s.tu.victim (some x), tu.victim := s.tu.victim + 1 }

/-- A stale walk has ended: the stale walk count of the invalidation falls (R92). -/
def staleEnded (s : State) : State :=
  { s with tu.invalidation := s.tu.invalidation.map fun v => { v with stale := v.stale - 1 } }

/-- The walk in place w has ended: it takes no segment any more, and it holds its place until its segments are answered
(R82 to R84). -/
def shutWalk (s : State) (w : WalkId) (x : Walk) : State := s.setWalk w (some { x with stale := true, joined := [] })

/-- What follows the answers of a walk that ends: its place becomes free, a stale one is counted as ended, and the wait list is
served (R84, R85). -/
def closeWalk (s : State) (w : WalkId) (stale : Bool) : State :=
  let s1 := s.setWalk w none
  (if stale then s1.staleEnded else s1).serveWalkWait

/-- A segment of an ended walk takes its answer, from a directory entry (R84) or none for HOST_READ_ERROR (R85); the slot
grants this brings about follow at once (R64). -/
def answerJoined (x : Walk) (size : PageSize) (read : Option DirectoryEntry) (s : State) (i : SegId) : State :=
  let s1 := match read with
    | none => s.retire i (.failure { status := .hostReadError, detail := 1 })
    | some e =>
      let a := answerFromEntry size (s.segAccessWrites i) (s.segIova i) x.key e
      if x.stale then s.takeStaleAnswer i a else s.takeAnswer i a
  s1.grantSlots

/-- The cache takes what a walk read, if the walk is not stale and the entry is present (R84). -/
def installRead (s : State) (x : Walk) (size : PageSize) (read : Option DirectoryEntry) : State :=
  match read with
  | some e => if !x.stale && usable size e then s.install x.key e else s
  | none => s

/-- The read of the walk in place w ends, with the 8 bytes of its directory entry (R84) or none for HOST_READ_ERROR (R85):
install, answer, free, serve the wait list. -/
def walkEnd (s : State) (w : WalkId) (bytes : Option (List Byte)) : State :=
  match s.walk w with
  | none => s
  | some x =>
    let read := bytes.map decodeDirectoryEntry
    let size := (s.context x.key.context).pageSize
    (x.joined.foldl (answerJoined x size read) ((s.shutWalk w x).installRead x size read)).closeWalk w x.stale

/-! ## After a read and a response -/

/-- The host read of SCATTER segment i ends, whole or in error (R49, R67); an invalidation no longer awaits it (R92). -/
def dataReadEnd (s : State) (i : SegId) (ok : Bool) : State :=
  let s1 : State :=
    { s with tu.invalidation := s.tu.invalidation.map fun v => { v with awaited := v.awaited.erase i } }
  if ok then s1.joinIssue i else s1.retire i (.failure { status := .hostReadError, detail := 2 })

/-- Segment i's slot takes bytes at a position (R66, R67). -/
def fillSlot (s : State) (i : SegId) (position : Nat) (bytes : List Byte) : State :=
  match (s.seg i).slot with
  | some j => s.setSlot j { s.slot j with data := placeBytes (s.slot j).data position bytes }
  | none => s

/-- The data of segment i's READ_RESPONSE lands (R53, R66): a GATHER makes its host write or acts on its mark (R56), a RELAY
turns to its DESTINATION leg and asks to join its destination list (R57). -/
def land (s : State) (i : SegId) (bytes : List Byte) : State :=
  let s1 := (s.fillSlot i 0 bytes).modSeg i fun x => { x with state := .landed, tag := none }
  match s.segKind i with
  | some .relay => (s1.modSeg i fun x => { x with leg := .destination }).joinIssue i
  | _ => if (s.seg i).retranslate then s1.translate i else s1.gatherWrite i

/-! ## Resolution -/

/-- Segment i takes the window unit's answer (R44) and goes on to the next step of its kind (R45). -/
def takeResolution (s : State) (i : SegId) (a : Answer) : State :=
  match a with
  | .failed f => s.retire i (.failure f)
  | .dropped => s.retire i (.success true none)
  | .routed source destination =>
    let s1 := s.modSeg i fun x => { x with source := source, destination := destination }
    match s.segKind i with
    | some .relay => s1.joinSlotWait i
    | some .fill => s1.joinIssue i
    | _ => s1.translate i

/-- Segment i asks for resolution: it is held if it touches a pending change (R38), and answered otherwise (R44). -/
def requestResolution (s : State) (i : SegId) : State :=
  match s.wu.quiesce with
  | some q =>
    if s.touchesChange i q then { s with wu.quiesce := some { q with held := q.held ++ [i] } }
    else s.takeResolution i (s.answerFor i)
  | none => s.takeResolution i (s.answerFor i)

/-- The held segments are answered against the table as it stands, one at a time from the head of the held list (R40, R41).
The slot grants that a segment's answer brings about, and the joins of the segments granted, come before the next one's
answer. R40 gives the order of the answers and R64 grants in the step of a joining; neither says that a grant comes before
the next answer, and the order on an issue list (R50) depends on it (DESIGN CHOICE, unsafe; log entry 24). -/
def releaseHeld (s : State) (held : List SegId) : State :=
  held.foldl (fun t i => (t.takeResolution i (t.answerFor i)).grantSlots) s

end State

end Sys2Proof.Machine
end

