-- ==== Sys2Proof/Machine/Spokes.lean ====
section
/-! DEFINITION. The spoke ports (chapter 6): the ends of requests, link errors and faults, the reset sequence, training,
carrier loss, the entry to OFF, and sending. -/

namespace Sys2Proof.Machine

/-- The lowest-numbered free tag (R107). -/
def freeTag (x : Spoke) : Option TagId := firstIndex 32 fun t => x.tags[t] == .free

/-- Whether a tag is outstanding (R107). -/
def Tag.isOutstanding : Tag → Bool
  | .outstanding _ => true
  | _ => false

/-- The number of outstanding tags of a spoke (R162). -/
def Spoke.outstandingTags (x : Spoke) : Nat := x.tags.toList.countP Tag.isOutstanding

/-- The number of quarantined tags of a spoke (R162). -/
def Spoke.quarantinedTags (x : Spoke) : Nat := x.tags.toList.countP (· == .quarantined)

/-- A spoke whose link is up or running down: responses are matched, and link errors counted, in these states (R112,
R115). -/
def SpokeState.linked : SpokeState → Bool
  | .up => true
  | .draining => true
  | .faulted => true
  | _ => false

namespace State

/-! ## Requests that end without a response -/

/-- A request of logical spoke k ends as failed with a status, whose detail is the spoke's number (R55, R11); an orphaned
flush request is reported to no entry (R109). -/
def endRequest (s : State) (k : SpokeId) (r : Request) (status : Status) : State :=
  match r with
  | .read i => s.retire i (.failure (spokeFailure status k))
  | .write i => s.retire i (.failure (spokeFailure status k))
  | .flush (some e) => s.endFlush e k (some status)
  | .flush none => s

/-- Every outstanding request of k ends with a status, and every tag, the quarantined ones too, becomes free (R105, R106). A
slot that a segment's end frees is granted before the next request ends (R64). The requests end in ascending order of their
tags: neither rule gives an order (DESIGN CHOICE, unsafe; log entry 18). -/
def endOutstanding (s : State) (k : SpokeId) (status : Status) : State :=
  (List.finRange 32).foldl
    (fun t g => match (s.spoke k).tags[g] with
      | .outstanding r => (t.endRequest k r status).grantSlots
      | _ => t)
    (s.modSpoke k fun x => { x with tags := Vector.replicate 32 .free })

/-- Every segment on k's issue list retires as failed, from the head to the tail (R52); the slot that one frees is granted
before the next one retires (R64). -/
def failIssue (s : State) (k : SpokeId) (status : Status) : State :=
  (s.issue k).foldl (fun t i => (t.retire i (.failure (spokeFailure status k))).grantSlots) (s.setIssue k [])

/-- Every pending flush request of k ends as failed, and the flush list becomes empty (R103 to R106). -/
def failFlushes (s : State) (k : SpokeId) (status : Status) : State :=
  (s.spoke k).flushList.foldl (fun t e => t.endFlush e k (some status)) (s.modSpoke k fun x => { x with flushList := [] })

/-- The waiting work of a spoke that leaves UP ends with a status (R52, R103, R104). -/
def failWaiting (s : State) (k : SpokeId) (status : Status) : State := (s.failIssue k status).failFlushes k status

/-! ## Faults and link errors -/

/-- An UP spoke is faulted (R104). -/
def fault (s : State) (k : SpokeId) (reason : EventReason) : State :=
  ((s.modSpoke k fun x => { x with state := .faulted, credits := 0 }).failWaiting k .spokeUnavailable).raise (.spoke k)
    .spokeFaulted reason

/-- A link error is counted on a linked spoke; the sixteenth faults an UP spoke (R115). In another state none is counted
(R116). -/
def linkError (s : State) (k : SpokeId) : State :=
  if (s.spoke k).state.linked then
    let s1 := s.modSpoke k fun x => { x with linkErrors := min (x.linkErrors + 1) Config.linkErrorLimit }
    if (s1.spoke k).state = .up ∧ (s1.spoke k).linkErrors = Config.linkErrorLimit then s1.fault k .linkErrors else s1
  else s

/-! ## Leaving the link -/

/-- Members of number k with a clear mark, in every posted-spoke set, take a link-end mark (R12). -/
def markPosted (s : State) (k : SpokeId) (status : Status) : State :=
  { s with
    tt.posted := vmap (fun v : Vector Posted 8 => if v[k] = .member then v.set k (.marked status) else v) s.tt.posted }

/-- Logical spoke k enters OFF (R98, R96, R103): grant, credits and training attempt become 0 and every tag is free; carrier out
is dropped, and the link ends for the posted writes sent on it (R12). -/
def enterOff (s : State) (k : SpokeId) (mark : Status) : State :=
  ((s.modSpoke k fun x =>
    { x with state := .off, grant := 0, credits := 0, attempt := 0, tags := Vector.replicate 32 .free }).markPosted k
    mark).dropCarrierOut k

/-- The reset sequence of logical spoke k starts (R105). -/
def startReset (s : State) (k : SpokeId) : State :=
  ((((s.modSpoke k fun x => { x with state := .resetting, credits := 0 }).endOutstanding k .spokeReset).failWaiting k
    .spokeReset).markPosted k .spokeReset).sendFrame k .linkReset

/-- The reset sequence of k ends: by RESET_ACK with info 1, or by the reset timer with info 0 (R105). -/
def endReset (s : State) (k : SpokeId) (info : Nat) : State :=
  (s.enterOff k .spokeUnavailable).endCommand [0x0C] k.val .ok info

/-- A training attempt of k begins: one TRAIN is sent and its attempt timer starts (R101). -/
def startAttempt (s : State) (k : SpokeId) (attempt : Nat) : State :=
  (s.modSpoke k fun x => { x with state := .training, attempt := attempt }).sendFrame k .train

/-- The present training attempt of k ends as failed: the next one begins, or after the third training has failed (R101). -/
def attemptFailed (s : State) (k : SpokeId) : State :=
  if (s.spoke k).attempt < Config.trainAttempts then s.startAttempt k ((s.spoke k).attempt + 1)
  else ((s.enterOff k .spokeUnavailable).raise (.spoke k) .spokeTrainFailed .none).endCommand [0x0A] k.val .trainFailed 2

/-- Logical spoke k enters UP with a grant (R102). -/
def enterUp (s : State) (k : SpokeId) (grant : Nat) : State :=
  ((s.modSpoke k fun x => { x with state := .up, grant := grant, credits := grant, attempt := 0 }).raise (.spoke k) .spokeUp
    .none).endCommand [0x0A] k.val .ok grant

/-- The requests and the waiting work of logical spoke k end with LINK_LOST (R106). The spoke has left its state by then, so a
segment that a freed slot takes to it does not join its list (R50; DESIGN CHOICE, unsafe; log entry 18). -/
def loseWork (s : State) (k : SpokeId) : State :=
  ((s.modSpoke k fun x => { x with state := .off, credits := 0 }).endOutstanding k .linkLost).failWaiting k .linkLost

/-- Logical spoke k, which is not OFF, loses its carrier (R106). -/
def loseCarrier (s : State) (k : SpokeId) : State :=
  match (s.spoke k).state with
  | .off => s
  | .training =>
    ((s.enterOff k .linkLost).raise (.spoke k) .spokeLinkLost .none).endCommand [0x0A] k.val .trainFailed 1
  | .resetting => ((s.enterOff k .linkLost).raise (.spoke k) .spokeLinkLost .none).endCommand [0x0C] k.val .ok 0
  | _ =>
    (((s.loseWork k).enterOff k .linkLost).raise (.spoke k) .spokeLinkLost .none).endCommand [0x0B] k.val .ok
      (s.spoke k).drainTimeouts

/-! ## Sending (R51, R109) -/

/-- The head flush request of k is sent as a FLUSH, with a free tag and one credit (R109, R124). -/
def sendFlush? (s : State) (k : SpokeId) : Option State :=
  if (s.spoke k).state = .up ∧ 0 < (s.spoke k).credits then
    match (s.spoke k).flushList, freeTag (s.spoke k) with
    | e :: rest, some g =>
      some ((s.modSpoke k fun x =>
        { x with credits := x.credits - 1, flushList := rest, tags := x.tags.set g (.outstanding (.flush (some e))) }).sendFrame
        k (.flush g))
    | _, _ => none
  else none

/-- Segment i, the head of k's issue list, is sent under tag g (R51): READ_REQUEST, or non-posted WRITE_REQUEST, whose slot
is freed at sending. -/
def sendTagged (s : State) (k : SpokeId) (i : SegId) (address : Nat) (g : TagId) : State :=
  if s.segWrites i then
    ((((s.sendFrame k (.writeRequest (some g) address (s.payload i))).freeSlot i).modSeg i fun x =>
      { x with state := .outstanding, tag := some g }).modSpoke k fun x =>
      { x with credits := x.credits - 1, tags := x.tags.set g (.outstanding (.write i)) })
  else
    (((s.sendFrame k (.readRequest g address (s.seg i).length)).modSeg i fun x =>
      { x with state := .outstanding, tag := some g }).modSpoke k fun x =>
      { x with credits := x.credits - 1, tags := x.tags.set g (.outstanding (.read i)) })

/-- Segment i, the head of k's issue list, is sent as a posted WRITE_REQUEST and retires as sent (R51). -/
def sendPosted (s : State) (k : SpokeId) (i : SegId) (address : Nat) : State :=
  ((s.sendFrame k (.writeRequest none address (s.payload i))).modSpoke k fun x =>
    { x with credits := x.credits - 1 }).retire i (.success false (some k))

/-- The head of k's issue list is sent when a credit, and a tag if its request is non-posted, are available (R51), and no
flush request can be sent before it (R109). -/
def sendRequest? (s : State) (k : SpokeId) : Option State :=
  if (s.spoke k).state = .up ∧ 0 < (s.spoke k).credits ∧
      ((s.spoke k).flushList = [] ∨ freeTag (s.spoke k) = none) then
    match s.issue k with
    | [] => none
    | i :: rest =>
      match s.useRoute i with
      | none => none
      | some r =>
        if s.segWrites i ∧ r.posted then some ((s.setIssue k rest).sendPosted k i r.address)
        else
          match freeTag (s.spoke k) with
          | some g => some ((s.setIssue k rest).sendTagged k i r.address g)
          | none => none
  else none

/-- A DRAINING spoke with no outstanding tag enters OFF, and SPOKE_STOP ends with the drain timeout count (R103). -/
def drainEnd? (s : State) (k : SpokeId) : Option State :=
  if (s.spoke k).state = .draining ∧ (s.spoke k).outstandingTags = 0 then
    some ((s.enterOff k .spokeUnavailable).endCommand [0x0B] k.val .ok (s.spoke k).drainTimeouts)
  else none

/-! ## Responses (R112 to R116) -/

/-- A response of logical spoke k with a tag: `matched` gives what it does for the request of an outstanding tag that it
answers, the tag being free by then; it is none for a request of another kind. A response that does not match is treated
by the state of its tag (R114), and in OFF, TRAINING and RESETTING it is discarded (R116). -/
def takeResponse (s : State) (k : SpokeId) (tag : Byte) (matched : Request → Option (State → State)) : State :=
  if (s.spoke k).state.linked then
    if h : tag.toNat < 32 then
      let g : TagId := ⟨tag.toNat, h⟩
      let freed := s.modSpoke k fun x => { x with tags := x.tags.set g .free }
      match (s.spoke k).tags[g] with
      | .free => s.linkError k
      | .quarantined => freed
      | .outstanding r =>
        match matched r with
        | some f => f freed
        | none => s.linkError k
    else s.linkError k
  else s

/-- The status a READ_RESPONSE or WRITE_ACK fails its segment with (R113, R128, R129): 1 TARGET_ERROR, 2 NO_TARGET, and a
value that is no defined status is taken as TARGET_ERROR. -/
def responseFailure (status : Byte) (k : SpokeId) : Failure :=
  if status = 2 then spokeFailure .noTarget k else spokeFailure .targetError k

/-- A READ_RESPONSE of logical spoke k (R53, R112, R128). One of another length retires its segment and is a link error: the
freed slot is granted first (R64; log entry 18). -/
def takeReadResponse (s : State) (k : SpokeId) (tag status : Byte) (bytes : List Byte) : State :=
  s.takeResponse k tag fun r => match r with
    | .read i => some fun t =>
      if status = 0 then
        if bytes.length = (s.seg i).length then t.land i bytes
        else (t.retire i (.failure { status := .targetError, detail := k.val + 256 })).grantSlots.linkError k
      else t.retire i (.failure (responseFailure status k))
    | _ => none

/-- A WRITE_ACK of logical spoke k (R54, R112, R129). -/
def takeWriteAck (s : State) (k : SpokeId) (tag status : Byte) : State :=
  s.takeResponse k tag fun r => match r with
    | .write i => some fun t =>
      if status = 0 then t.retire i (.success false none) else t.retire i (.failure (responseFailure status k))
    | _ => none

/-- A FLUSH_ACK of logical spoke k: its status field is not read (R11, R112, R129). -/
def takeFlushAck (s : State) (k : SpokeId) (tag : Byte) : State :=
  s.takeResponse k tag fun r => match r with
    | .flush (some e) => some fun t => t.endFlush e k none
    | .flush none => some fun t => t
    | _ => none

/-- A TRAIN_ACK of logical spoke k (R101, R127). -/
def takeTrainAck (s : State) (k : SpokeId) (version grant : Byte) : State :=
  match (s.spoke k).state with
  | .training =>
    if version = 1 ∧ 1 ≤ grant.toNat ∧ grant.toNat ≤ Config.maxGrant then s.enterUp k grant.toNat else s.attemptFailed k
  | _ => s.linkError k

/-- A RESET_ACK of logical spoke k (R131). -/
def takeResetAck (s : State) (k : SpokeId) : State :=
  match (s.spoke k).state with
  | .resetting => s.endReset k 1
  | _ => s

/-- A CREDIT of logical spoke k (R108, R130). -/
def takeCredit (s : State) (k : SpokeId) (count : Byte) : State :=
  match (s.spoke k).state with
  | .up =>
    if count = 0 then s.linkError k
    else if (s.spoke k).grant < (s.spoke k).credits + count.toNat then
      (s.modSpoke k fun x => { x with credits := x.grant }).linkError k
    else s.modSpoke k fun x => { x with credits := x.credits + count.toNat }
  | _ => s

/-- A frame of logical spoke k that passed the frame check and is of a known kind (R126 to R131). -/
def takeFrame (s : State) (k : SpokeId) (f : RxFrame) : State :=
  match f with
  | .trainAck version grant => s.takeTrainAck k version grant
  | .resetAck => s.takeResetAck k
  | .readResponse tag status bytes => s.takeReadResponse k tag status bytes
  | .writeAck tag status => s.takeWriteAck k tag status
  | .flushAck tag => s.takeFlushAck k tag
  | .credit count => s.takeCredit k count

/-- A frame received on logical spoke k, by its bytes: the frame check and the sort by kind; a frame that fails either is
discarded and counts a link error on a linked spoke (R125, R126, R116). -/
def takeBytes (s : State) (k : SpokeId) (received : Option (List Byte)) : State :=
  match readFrame received with
  | some f => s.takeFrame k f
  | none => s.linkError k

/-! ## Timers and carriers (R101, R105, R106, R110, R111) -/

/-- The response timer of tag g of logical spoke k runs out: the request ends with SPOKE_TIMEOUT and the tag is quarantined;
an UP spoke is faulted, and a DRAINING one counts a drain timeout (R111). Only an outstanding tag has a timer. A slot that
the end frees is granted before the fault (R64; log entry 18). -/
def expireTag (s : State) (k : SpokeId) (g : TagId) : State :=
  match (s.spoke k).tags[g] with
  | .outstanding r =>
    let s1 := ((s.modSpoke k fun x => { x with tags := x.tags.set g .quarantined }).endRequest k r .spokeTimeout).grantSlots
    match (s.spoke k).state with
    | .up => s1.fault k .timeout
    | .draining => s1.modSpoke k fun x => { x with drainTimeouts := x.drainTimeouts + 1 }
    | _ => s1
  | _ => s

/-- The credit wait timer of k runs out, if it runs (R110). -/
def expireCreditWait (s : State) (k : SpokeId) : State := if s.creditWaitRunning k then s.fault k .creditStall else s

/-- The attempt timer of k runs out, if it runs (R101). -/
def expireAttempt (s : State) (k : SpokeId) : State :=
  if (s.spoke k).state = .training then s.attemptFailed k else s

/-- The reset timer of k runs out, if it runs (R105). -/
def expireReset (s : State) (k : SpokeId) : State := if (s.spoke k).state = .resetting then s.endReset k 0 else s

/-- The carrier in of physical spoke p becomes absent; the logical spoke loses its carrier if it was present (R96, R106). -/
def dropCarrier (s : State) (p : SpokeId) : State :=
  let s1 : State := { s with sp.carrierIn := s.sp.carrierIn.set p false }
  if s.carrierPresent (s.headOf p) then s1.loseCarrier (s.headOf p) else s1

/-- The carrier in of physical spoke p returns: no spoke leaves OFF by itself (R96). -/
def raiseCarrier (s : State) (p : SpokeId) : State := { s with sp.carrierIn := s.sp.carrierIn.set p true }

end State

end Sys2Proof.Machine
end

