-- ==== Sys2Proof/Machine/Table.lean ====
section
/-! DEFINITION. The transfer table's own steps (chapter 1): validation and admission of a descriptor, the two gates, the
start of a fence, stopping and freeing entries, and the arbiters that take entries and segment records. -/

namespace Sys2Proof

/-- A data kind: GATHER, SCATTER, RELAY or FILL (R4). -/
def Kind.isData : Kind → Bool
  | .fence => false
  | .mark => false
  | _ => true

/-- Whether a length lies in the range R4 gives for a kind. -/
def Kind.lengthOk (k : Kind) (len : Nat) : Bool :=
  if k.isData then decide (1 ≤ len) && decide (len ≤ Config.maxTransfer) else decide (len = 0)

end Sys2Proof

namespace Sys2Proof.Machine

/-- The detail of the first check a descriptor fails, in the order of R6; none for a valid descriptor. -/
def descriptorFault (d : Descriptor) : Option Nat :=
  match Kind.ofCode d.kind with
  | none => some 1
  | some k =>
    if !k.lengthOk d.length then some 2
    else if d.flags.extractLsb' 2 6 ≠ 0 then some 3
    else if !k.isData && (d.fabric != 0 || d.near != 0) then some 4
    else if Config.fabricTop < d.fabric + d.length ∨ (k = .relay ∧ Config.fabricTop < d.near + d.length) then some 5
    else if (k = .gather ∨ k = .scatter) ∧ Config.hostTop < d.near + d.length then some 6
    else none

/-- The near field as the kind gives it (R4, R181): a FILL's is its pattern, bytes 24 to 27. A RELAY's that is no fabric
address, and that of a descriptor with none of the six kinds, lies outside the field's range and is not stored (R6). R1 gives the
field's range 'as the kind gives it', and R4 gives FENCE and MARK the requirement 'must be 0' and no contents: whether a near field
other than 0 of one that fails UNUSED_FIELD lies outside the range is left open. The model stores it as read (DESIGN CHOICE, unsafe;
log entry 15). -/
def nearValue (kind : Option Kind) (near : Nat) : Nat :=
  match kind with
  | none => 0
  | some .fill => near % 2 ^ 32
  | some .relay => if near < Config.fabricTop then near else 0
  | some _ => near

/-- The descriptor's contents stored in a FETCHING entry (R6): a field whose value lies outside the range R1 gives keeps the
value it had. -/
def Entry.store (x : Entry) (d : Descriptor) : Entry :=
  { x with
    kind := Kind.ofCode d.kind
    ordered := d.flags.getLsbD 0
    notify := d.flags.getLsbD 1
    tag := d.tag
    length := if d.length ≤ Config.maxTransfer then d.length else x.length
    fabric := if d.fabric < Config.fabricTop then d.fabric else x.fabric
    near := nearValue (Kind.ofCode d.kind) d.near }

/-- The entry after validation and admission (R6, R7): DONE with BAD_DESCRIPTOR at offset 0, DONE for a MARK, and GATED for
a FENCE or a data kind. -/
def Entry.admitted (x : Entry) (d : Descriptor) : Entry :=
  match descriptorFault d with
  | some detail =>
    { x.store d with state := .done, failed := some { offset := 0, failure := { status := .badDescriptor, detail := detail } } }
  | none =>
    if (x.store d).kind = some .mark then { x.store d with state := .done } else { x.store d with state := .gated }

/-- Bytes done: the smallest present among the lowest failed offset, the stop offset and the length (R18). -/
def Entry.bytesDone (x : Entry) : Nat :=
  min (min x.length ((x.failed.map LowestFailure.offset).getD x.length)) (x.stop.getD x.length)

/-- The error offset (R18): the lowest failed offset of a failed data kind, 0 otherwise. A descriptor that failed validation
has its lowest failed offset at 0 (R6). -/
def Entry.errorOffset (x : Entry) : Nat :=
  match x.failed with
  | some l => if x.kind.any Kind.isData then l.offset else 0
  | none => 0

/-- The status and detail of an entry (R17). -/
def Entry.outcome (x : Entry) : Failure :=
  match x.failed with
  | some l => l.failure
  | none => { status := .ok, detail := 0 }

namespace State

/-! ## Gates (R9, R10) -/

/-- The entries ahead of e in its queue pair's in-flight list (R3). -/
def ahead (s : State) (e : EntryId) : List EntryId := (s.inflight (s.entry e).qp).takeWhile (· != e)

/-- Whether every entry ahead of e is DONE. -/
def aheadDone (s : State) (e : EntryId) : Bool := (s.ahead e).all fun x => (s.entry x).state == .done

/-- Whether a FENCE stands ahead of e in any state other than DONE (R9). -/
def fenceAhead (s : State) (e : EntryId) : Bool :=
  (s.ahead e).any fun x => (s.entry x).kind == some .fence && (s.entry x).state != .done

/-- Whether the data gate of a GATED entry is open (R9). -/
def dataGateOpen (s : State) (e : EntryId) : Bool :=
  (s.entry e).state == .gated && (s.entry e).kind.any Kind.isData && !s.fenceAhead e &&
    (!(s.entry e).ordered || s.aheadDone e)

/-- Whether a GATED FENCE can start (R10). -/
def fenceGateOpen (s : State) (e : EntryId) : Bool :=
  (s.entry e).state == .gated && (s.entry e).kind == some .fence && s.aheadDone e

/-- A data entry whose gate is open goes to RUNNING (R9). -/
def gateRelease? (s : State) (e : EntryId) : Option State :=
  if s.dataGateOpen e then some (s.modEntry e fun x => { x with state := .running }) else none

/-- One member of the taken posted-spoke set at fence start (R10). -/
def fenceMember (taken : Vector Posted 8) (e : EntryId) (s : State) (k : SpokeId) : State :=
  match taken[k] with
  | .absent => s
  | .marked status => s.modEntry e fun x => { x with failed := x.recordSpoke k status }
  | .member =>
    if (s.spoke k).state = .up ∧ s.isLogical k then
      (s.modSpoke k fun x => { x with flushList := x.flushList ++ [e] }).modEntry e fun x =>
        { x with flushes := x.flushes + 1 }
    else s.modEntry e fun x => { x with failed := x.recordSpoke k .spokeUnavailable }

/-- A GATED FENCE starts (R10): it takes and clears the posted-spoke set, treats its members in ascending order, and enters
FLUSHING, or DONE when no flush request was handed. -/
def fenceStart? (s : State) (e : EntryId) : Option State :=
  if s.fenceGateOpen e then
    let n := (s.entry e).qp
    let s1 := (List.finRange 8).foldl (fenceMember (s.posted n) e) (s.setPosted n (Vector.replicate 8 .absent))
    some (s1.modEntry e fun x => { x with state := if x.flushes = 0 then .done else .flushing })
  else none

/-! ## Stopping (R16, R22) -/

/-- An entry is treated as at the acceptance of an ABORT deletion (R22). -/
def abortEntry (s : State) (e : EntryId) : State :=
  match (s.entry e).state with
  | .free => s
  | .fetching => s
  | .running => (s.modEntry e fun x => { x with state := .winding, stop := some x.cursor }).closeEntry e
  | .winding => (s.modEntry e fun x => { x with stop := some x.cursor }).closeEntry e
  | _ => s.freeEntry e

/-- Every entry of queue pair n is treated as R22 gives it. -/
def abortEntries (s : State) (n : QpId) : State := (s.inflight n).foldl abortEntry s

/-! ## Fetch (R2, R142 to R144) -/

/-- The lowest-numbered FREE entry (R2). -/
def freeEntryIndex (s : State) : Option EntryId := firstIndex 48 fun e => (s.entry e).state == .free

/-- Whether queue pair n is eligible for fetch, a FREE entry apart (R142). -/
def fetchEligible (s : State) (n : QpId) : Bool :=
  n != 0 && s.ctl.device == .ready && s.qpState n == .running && decide (0 < s.pendingCount n) &&
    decide ((s.inflight n).length < (s.qp n).depth) && !(s.qp n).fetching

/-- The fetch arbiter grants a queue pair, and the queue engine issues the fetch (R2, R142, R143). -/
def fetchIssue? (s : State) : Option State :=
  match s.freeEntryIndex, firstAfter s.qe.fetchPtr s.fetchEligible with
  | some e, some n =>
    let s1 := ((s.setEntry e { qp := n, subIndex := (s.qp n).fetchIndex, state := .fetching }).setInflight n
      (s.inflight n ++ [e])).modQp n fun q => { q with fetching := true }
    let s2 := s1.handRead
      { requester := .descriptor n, address := (s.qp n).sqBase + 32 * (s.qp n).fetchIndex, length := 32 }
    some { s2 with qe.fetchPtr := n }
  | _, _ => none

/-- The FETCHING entry of queue pair n: it has at most one fetch outstanding (R3, R142). -/
def fetchingEntry (s : State) (n : QpId) : Option EntryId :=
  (s.inflight n).find? fun e => (s.entry e).state == .fetching

/-- The entry of a fetch that came to nothing is freed, and leaves the in-flight list (R8, R22). -/
def dropFetch (s : State) (n : QpId) : State :=
  match s.fetchingEntry n with
  | some e => s.freeEntry e
  | none => s

/-- A descriptor is validated and admitted into queue pair n's FETCHING entry (R6, R7). -/
def admitFetch (s : State) (n : QpId) (bytes : List Byte) : State :=
  match s.fetchingEntry n with
  | some e => s.modEntry e fun x => x.admitted (decodeDescriptor bytes)
  | none => s

/-- The descriptor read of queue pair n ends, with its data (R143) or with HOST_READ_ERROR (R144). -/
def fetchEnd (s : State) (n : QpId) (bytes : Option (List Byte)) : State :=
  let s1 := s.modQp n fun q => { q with fetching := false }
  if s.ctl.device = .stopping ∨ s.qpState n = .aborting ∨ s.qpState n = .empty then s1.dropFetch n
  else
    match bytes with
    | some b => (s1.modQp n fun q => { q with fetchIndex := ringNext q.fetchIndex q.sqSize }).admitFetch n b
    | none => if s.qpState n = .running then (s1.dropFetch n).failQueue n .fetchError else s1.dropFetch n

/-! ## Generation (R13, R35, R43) -/

/-- Whether entry e is a candidate of the generation arbiter (R13, R43). -/
def candidate (s : State) (e : EntryId) : Bool :=
  (s.entry e).state == .running && decide ((s.entry e).live < Config.liveLimit)

/-- The lowest-numbered RETIRED segment record (R43). -/
def freeSegment (s : State) : Option SegId := firstIndex 128 fun i => (s.seg i).state == .retired

/-- How far a side from address a runs before the resolution boundary (R35, R43). -/
def sideRun (s : State) (side : Option Nat) : Nat :=
  match side with
  | some a => s.boundaryAt a - a
  | none => Config.maxSegment

/-- How far the host side of a kind runs before the next multiple of 4 KiB above the IOVA (R43). -/
def hostRun (x : Entry) : Nat :=
  match x.kind with
  | some .gather => Config.hostPage - (x.near + x.cursor) % Config.hostPage
  | some .scatter => Config.hostPage - (x.near + x.cursor) % Config.hostPage
  | _ => Config.maxSegment

/-- The length of the next segment of an entry: it ends at the nearest of the split points (R43). -/
def nextLength (s : State) (x : Entry) : Nat :=
  min (min (min Config.maxSegment (x.length - x.cursor)) (hostRun x))
    (min (s.sideRun (x.sidesAt x.cursor).read) (s.sideRun (x.sidesAt x.cursor).write))

/-- The generation arbiter grants segment record i to entry e: the record is filled and the entry's cursor advances (R13,
R43). -/
def generate (s : State) (e : EntryId) (i : SegId) : State :=
  let x := s.entry e
  let len := s.nextLength x
  let s1 := (s.setSeg i { entry := e, offset := x.cursor, length := len, state := .resolving }).setEntry e
    { x with
      cursor := x.cursor + len
      live := x.live + 1
      state := if x.cursor + len = x.length then .winding else x.state }
  { s1 with su.grantPtr := e }

/-- One grant of the generation arbiter, and the new segment's request for resolution (R43, R44). -/
def generation? (s : State) : Option State :=
  match s.freeSegment, firstAfter s.su.grantPtr s.candidate with
  | some i, some e => some ((s.generate e i).requestResolution i)
  | _, _ => none

end State

end Sys2Proof.Machine
end

