-- ==== Sys2Proof/Machine/Operands.lean ====
section
/-! DEFINITION. The byte layouts of what the part writes into host memory (chapter 11), completion and event records and QUERY
snapshots, and the registers as they read. The frames' layout is in Machine/Ops.lean. -/

namespace Sys2Proof.Machine

/-! ## Codes (11.3, 11.4, 11.7, 11.8) -/

/-- The code of a transfer status (11.3). -/
def Status.code : Status → Nat
  | .ok => 0
  | .badDescriptor => 1
  | .unmapped => 2
  | .windowAccess => 3
  | .translationFault => 4
  | .hostReadError => 5
  | .spokeUnavailable => 6
  | .spokeTimeout => 7
  | .spokeReset => 8
  | .linkLost => 9
  | .targetError => 10
  | .noTarget => 11

/-- The code of an administration status (11.3). -/
def AdminStatus.code : AdminStatus → Nat
  | .ok => 0
  | .badCommand => 1
  | .badParameter => 2
  | .inUse => 3
  | .wrongState => 4
  | .overlap => 5
  | .trainFailed => 6

/-- The code of an event kind (11.3). -/
def EventKind.code : EventKind → Nat
  | .spokeUp => 1
  | .spokeTrainFailed => 2
  | .spokeFaulted => 3
  | .spokeLinkLost => 4
  | .queueFailed => 5

/-- The code of an event reason (11.3). -/
def EventReason.code : EventReason → Nat
  | .none => 0
  | .timeout => 1
  | .creditStall => 2
  | .linkErrors => 3
  | .fetchError => 4
  | .badIndex => 5

/-- The number an event record gives as its source (11.2). -/
def EventSource.code : EventSource → Nat
  | .spoke k => k.val
  | .queue n => n.val

/-- The code of a layout (11.4). -/
def Layout.code : Layout → Nat
  | .single => 0
  | .pairLow => 1
  | .pairHigh => 2
  | .pairBoth => 3
  | .quad => 4

/-- A spoke state by its position in R98's list (11.7). -/
def SpokeState.code : SpokeState → Nat
  | .off => 0
  | .training => 1
  | .up => 2
  | .draining => 3
  | .faulted => 4
  | .resetting => 5

/-- A queue pair state by its position in R138's list (11.7). -/
def QpState.code : QpState → Nat
  | .empty => 0
  | .running => 1
  | .failed => 2
  | .draining => 3
  | .aborting => 4

/-- An entry state by its position in R1's list (11.7). -/
def EntryState.code : EntryState → Nat
  | .free => 0
  | .fetching => 1
  | .gated => 2
  | .running => 3
  | .winding => 4
  | .flushing => 5
  | .done => 6

/-- The code of a notify mode (11.4). -/
def Notify.code : Notify → Nat
  | .none => 0
  | .flagged => 1
  | .all => 2

/-- The code of a context mode (11.4). -/
def ContextMode.code : ContextMode → Nat
  | .off => 0
  | .bypass => 1
  | .translate => 2

/-- The code of a page size (11.4). -/
def PageSize.code : PageSize → Nat
  | .k4 => 0
  | .k64 => 1
  | .m2 => 2

/-- The code of a delivery form (11.4). -/
def Form.code : Form → Nat
  | .full => 0
  | .loc => 1

/-- The code of an access mode (11.4). -/
def Access.code : Access → Nat
  | .readWrite => 0
  | .readOnly => 1
  | .writeDrop => 2

/-- The code of a device state (11.8). -/
def DeviceState.code : DeviceState → Nat
  | .disabled => 0
  | .ready => 1
  | .halted => 2
  | .stopping => 3

/-- The code of a halt reason (11.8). -/
def HaltReason.code : HaltReason → Nat
  | .none => 0
  | .badAdminConfig => 1
  | .adminFetch => 2
  | .adminIndex => 3

/-- A flag as bit `i` of a byte. -/
def flagBit (b : Bool) (i : Nat) : Nat := if b then 2 ^ i else 0

/-! ## Records written into host memory (R182, 11.2) -/

/-- A transfer completion record, 16 bytes (R146, R183, 11.2). -/
def transferRecord (x : Entry) (lap : Bool) (next : Nat) : List Byte :=
  leBytes 4 x.tag.toNat ++ leBytes 3 x.bytesDone ++ leBytes 1 x.outcome.status.code ++ leBytes 3 x.errorOffset ++
    leBytes 1 (flagBit lap 0 + flagBit x.dropped 1) ++ leBytes 2 x.outcome.detail ++ leBytes 2 next

/-- An administration completion record, 16 bytes (R159, 11.2). -/
def commandRecord (c : HeldCommand) (status : AdminStatus) (info : Nat) (lap : Bool) (next : Nat) : List Byte :=
  leBytes 4 c.tag.toNat ++ leBytes 4 info ++ leBytes 1 status.code ++ [c.opcode] ++ zeros 2 ++ leBytes 2 next ++ zeros 1 ++
    leBytes 1 (flagBit lap 0)

/-- An event record, 16 bytes (R167, 11.2). -/
def eventRecord (e : Event) (overflow lap : Bool) (next : Nat) : List Byte :=
  leBytes 1 e.source.code ++ leBytes 1 e.kind.code ++ leBytes 1 e.reason.code ++ leBytes 1 e.count ++ zeros 8 ++
    leBytes 2 next ++ zeros 1 ++ leBytes 1 (flagBit lap 0 + 2 + flagBit overflow 2)

namespace State

/-! ## QUERY snapshots (R161 to R164, 11.7) -/

/-- The layout of the half that spoke k lies in (R97). -/
def layoutOf (s : State) (k : SpokeId) : Layout := if k.val < 4 then s.sp.low else s.sp.high

/-- The SPOKE snapshot, 64 bytes (R162). -/
def spokeSnapshot (s : State) (k : SpokeId) : List Byte :=
  let x := s.spoke k
  leBytes 1 k.val ++ leBytes 1 x.state.code ++ leBytes 1 (s.layoutOf k).code ++
    leBytes 1 (flagBit (s.carrierPresent k) 0 + flagBit (s.carrierOut k) 1 + flagBit (s.creditWaitRunning k) 2) ++
    leBytes 2 x.timeout.toNat ++ leBytes 1 x.grant ++ leBytes 1 x.credits ++ leBytes 1 x.outstandingTags ++
    leBytes 1 x.quarantinedTags ++ leBytes 1 x.linkErrors ++ leBytes 1 x.drainTimeouts ++ leBytes 1 x.attempt ++
    leBytes 1 x.flushList.length ++ leBytes 2 (s.issue k).length ++ zeros 48

/-- The bits of a posted-spoke set: bit k is set when logical spoke k is a member (11.7). -/
def postedBits (v : Vector Posted 8) : Nat :=
  ((List.finRange 8).map fun k => flagBit (v[k] != .absent) k.val).sum

/-- The queue part of the QUEUE snapshot, 64 bytes (R163). -/
def queuePart (s : State) (n : QpId) : List Byte :=
  let q := s.qp n
  leBytes 1 n.val ++ leBytes 1 (s.qpState n).code ++ leBytes 1 q.context.val ++ leBytes 1 q.depth ++ leBytes 1 q.vector.val ++
    leBytes 1 q.notify.code ++
    leBytes 1 (flagBit q.fetching 0 + flagBit q.lap 1 + flagBit (s.qe.arms[q.vector] == .fired) 2 +
      flagBit s.hp.messagePending[q.vector] 3) ++
    leBytes 1 (postedBits (s.posted n)) ++ leBytes 2 q.sqSize ++ leBytes 2 q.cqSize ++ leBytes 2 q.tail ++
    leBytes 2 q.fetchIndex ++ leBytes 2 q.writeIndex ++ leBytes 2 q.head ++ leBytes 2 (s.unconsumed n) ++
    leBytes 2 (s.pendingCount n) ++ leBytes 1 (s.inflight n).length ++ leBytes 1 (s.held n) ++ zeros 6 ++
    leBytes 8 q.sqBase ++ leBytes 8 q.cqBase ++ zeros 16

/-- The entry record of the QUEUE snapshot, 32 bytes (R163). A content that is absent is written as 0 (R182). -/
def entryPart (s : State) (e : EntryId) : List Byte :=
  let x := s.entry e
  leBytes 1 e.val ++ leBytes 1 x.state.code ++ leBytes 1 ((x.kind.map Kind.code).getD 0) ++
    leBytes 1 (flagBit x.ordered 0 + flagBit x.notify 1 + flagBit x.dropped 2 + flagBit x.failed.isSome 3 +
      flagBit x.stop.isSome 4) ++
    leBytes 2 x.subIndex ++ leBytes 1 x.live ++ leBytes 1 x.flushes ++ leBytes 4 x.tag.toNat ++ leBytes 3 x.length ++
    leBytes 1 x.outcome.status.code ++ leBytes 3 x.cursor ++ leBytes 3 ((x.failed.map LowestFailure.offset).getD 0) ++
    leBytes 3 (x.stop.getD 0) ++ leBytes 3 x.bytesDone ++ leBytes 2 x.outcome.detail ++ zeros 2

/-- The QUEUE snapshot: the queue part and one entry record for each entry in flight, head first (R163). -/
def queueSnapshot (s : State) (n : QpId) : List Byte := s.queuePart n ++ (s.inflight n).flatMap s.entryPart

/-- One record of the WINDOWS snapshot, 32 bytes (R164). -/
def windowPart (s : State) (w : WindowId) : List Byte :=
  let x := s.window w
  leBytes 1 w.val ++ leBytes 1 (flagBit x.enabled 0) ++ leBytes 1 x.target.val ++ leBytes 1 x.form.code ++
    leBytes 1 x.access.code ++ leBytes 1 (flagBit x.posted 0) ++ zeros 2 ++ leBytes 8 x.base ++ leBytes 8 x.size ++ zeros 8

/-- The WINDOWS snapshot, 256 bytes (R164). -/
def windowsSnapshot (s : State) : List Byte := (List.finRange 8).flatMap s.windowPart

/-- The number of valid cache entries of a context (R164). -/
def cacheCount (s : State) (c : ContextId) : Nat := s.tu.cache.toList.countP fun x => x.any fun e => e.key.context == c

/-- The number of walks in progress for a context (R164). -/
def walkCount (s : State) (c : ContextId) : Nat := s.tu.walks.toList.countP fun x => x.any fun w => w.key.context == c

/-- The CONTEXT snapshot, 64 bytes (R164). -/
def contextSnapshot (s : State) (c : ContextId) : List Byte :=
  let x := s.context c
  leBytes 1 c.val ++ leBytes 1 x.mode.code ++ leBytes 1 x.pageSize.code ++ zeros 1 ++ leBytes 4 x.dirLength ++
    leBytes 8 x.dirBase ++ leBytes 1 (s.cacheCount c) ++ leBytes 1 (s.walkCount c) ++ leBytes 1 (s.boundQps c).length ++
    leBytes 1 s.tu.victim.val ++ leBytes 1 (s.tu.cache.toList.countP Option.isSome) ++ zeros 43

/-! ## Registers as they read (R174, R175, R186) -/

/-- The queue pair and the half (SQ_TAIL or CQ_HEAD) of an index register's offset (11.8). -/
def indexRegister (offset : Nat) : Option (QpId × Bool) :=
  if 0x100 ≤ offset ∧ offset < 0x180 ∧ offset % 4 = 0 then some (Fin.ofNat 16 ((offset - 0x100) / 8), offset % 8 = 4) else none

/-- The value a read of the register window returns (R174, R175, R186). -/
def readRegister (s : State) (offset : BitVec 12) : BitVec 32 :=
  match offset.toNat with
  | 0x000 => if s.ctl.device = .ready ∨ s.ctl.device = .halted then 1 else 0
  | 0x004 => BitVec.ofNat 32 (s.ctl.device.code + 256 * s.ctl.haltReason.code)
  | 0x008 => s.ctl.adminSizes
  | 0x010 => s.ctl.adminSqBase.extractLsb' 0 32
  | 0x014 => s.ctl.adminSqBase.extractLsb' 32 32
  | 0x018 => s.ctl.adminCqBase.extractLsb' 0 32
  | 0x01C => s.ctl.adminCqBase.extractLsb' 32 32
  | o =>
    match indexRegister o with
    | some (n, isHead) =>
      if s.qpState n = .empty then 0
      else BitVec.ofNat 32 (if isHead then (s.qp n).head else (s.qp n).tail)
    | none => 0

end State

end Sys2Proof.Machine
end

