-- ==== Sys2Proof/Machine/Admin.lean ====
section
/-! DEFINITION. The administration unit (chapter 9): the checks of a fetched command, what each command does when it is
accepted (chapters 2, 5, 6, 8), and the records of QP0's ring. -/

namespace Sys2Proof.Machine

/-! ## Checks (R157) -/

/-- A power of two in 4..4096, the size of a ring (R137, R176). -/
def ringSizeOk (n : Nat) : Bool := (List.range' 2 11).any fun k => n == 2 ^ k

/-- Whether a ring of `size` records of `record` bytes can stand at `base` (R151, R176). -/
def ringOk (base size record : Nat) : Bool :=
  ringSizeOk size && decide (base % 64 = 0) && decide (base + record * size ≤ Config.hostTop)

/-- A power of two in the range of the window's class (R25, R36). -/
def windowSizeOk (id : WindowId) (n : Nat) : Bool :=
  (List.range' (if striped id then 26 else 12) (if striped id then 22 else 36)).any fun k => n == 2 ^ k

/-- The size of a QUERY subject's buffer (R161). -/
def bufferSize (subject : Nat) : Nat :=
  match subject with
  | 1 => 576
  | 2 => 256
  | _ => 64

/-- The notify mode a code names (11.4). -/
def Notify.ofCode (c : Nat) : Notify :=
  match c with
  | 0 => .none
  | 1 => .flagged
  | _ => .all

/-- The page size a code names (11.4). -/
def PageSize.ofCode (c : Nat) : PageSize :=
  match c with
  | 0 => .k4
  | 1 => .k64
  | _ => .m2

/-- The layout a code names (11.4). -/
def Layout.ofCode (c : Nat) : Layout :=
  match c with
  | 0 => .single
  | 1 => .pairLow
  | 2 => .pairHigh
  | 3 => .pairBoth
  | _ => .quad

/-- The access mode a code names (11.4). -/
def Access.ofCode (c : Nat) : Access :=
  match c with
  | 0 => .readWrite
  | 1 => .readOnly
  | _ => .writeDrop

/-- The delivery form a code names (11.4). -/
def Form.ofCode (c : Nat) : Form :=
  match c with
  | 0 => .full
  | _ => .loc

/-- The window record a SET_WINDOW carries, enabled (R36, R37). -/
def windowContents (p : SetWindow) : Window :=
  { enabled := true, base := p.base.toNat, size := p.size.toNat, target := Fin.ofNat 8 p.target.toNat
    form := Form.ofCode p.form.toNat, access := Access.ofCode p.access.toNat, posted := p.posted }

/-- Whether a record of entry x qualifies under a notify mode (R148). -/
def Notify.qualifies (m : Notify) (notify : Bool) : Bool :=
  match m with
  | .none => false
  | .flagged => notify
  | .all => true

namespace State

/-- Whether a byte names a logical spoke under the present layout (R97). -/
def namesSpoke (s : State) (b : Byte) : Bool := decide (b.toNat < 8) && s.isLogical (Fin.ofNat 8 b.toNat)

/-- BAD_PARAMETER: a parameter lies outside its range or names an object that does not exist (R157, with each command's own
rule). -/
def badParameter (s : State) : AdminCommand → Bool
  | .createQueue p => -- R151
    !(decide (1 ≤ p.qp.toNat) && decide (p.qp.toNat ≤ 15) && ringOk p.sqBase.toNat p.sqSize.toNat 32 &&
      ringOk p.cqBase.toNat p.cqSize.toNat 16 && decide (p.context.toNat ≤ 15) &&
      (s.context (Fin.ofNat 16 p.context.toNat)).mode != .off && decide (1 ≤ p.depth.toNat) && decide (p.depth.toNat ≤ 16) &&
      decide (p.notify.toNat ≤ 2))
  | .deleteQueue p => -- R152
    !(decide (1 ≤ p.qp.toNat) && decide (p.qp.toNat ≤ 15) && decide (p.mode.toNat ≤ 1))
  | .setContext p => -- R87
    !(decide (p.context.toNat ≤ 15) && (decide (p.mode.toNat = 1) || (decide (p.mode.toNat = 2) && decide (p.pageSize.toNat ≤ 2) &&
      decide (p.dirBase.toNat % 8 = 0) && decide (1 ≤ p.dirLength.toNat) && decide (p.dirLength.toNat ≤ Config.maxDirectory) &&
      decide (p.dirBase.toNat + 8 * p.dirLength.toNat ≤ Config.hostTop))))
  | .clearContext c => !decide (c.toNat ≤ 15) -- R88
  | .invalidatePages p => -- R89
    !(decide (p.context.toNat ≤ 15) && decide (1 ≤ p.count.toNat) && decide (p.count.toNat ≤ Config.maxDirectory) &&
      decide (p.first.toNat + p.count.toNat ≤ Config.maxDirectory))
  | .invalidateContext c => !decide (c.toNat ≤ 15) -- R89
  | .setWindow p => -- R36
    !(decide (p.window.toNat ≤ 7) && windowSizeOk (Fin.ofNat 8 p.window.toNat) p.size.toNat &&
      decide (p.base.toNat % p.size.toNat = 0) && decide (p.target.toNat ≤ 7) && decide (p.form.toNat ≤ 1) &&
      decide (p.access.toNat ≤ 2))
  | .clearWindow w => !decide (w.toNat ≤ 7) -- R36
  | .setBundle h l => !(decide (h.toNat ≤ 1) && decide (l.toNat ≤ 4)) -- R99
  | .spokeStart p => !(s.namesSpoke p.spoke && decide (p.timeout.toNat ≠ 0)) -- R100
  | .spokeStop k => !s.namesSpoke k -- R103
  | .spokeReset k => !s.namesSpoke k -- R105
  | .query p => -- R161
    !((match p.subject.toNat with
        | 0 => s.namesSpoke p.object
        | 1 => decide (p.object.toNat ≤ 15)
        | 2 => decide (p.object.toNat = 0)
        | 3 => decide (p.object.toNat ≤ 15)
        | _ => false) && decide (p.buffer.toNat % 64 = 0) &&
      decide (p.buffer.toNat + bufferSize p.subject.toNat ≤ Config.hostTop))

/-- IN_USE: the named object is bound or held by other work (R87, R88, R151). -/
def inUse (s : State) : AdminCommand → Bool
  | .createQueue p => (s.qp (Fin.ofNat 16 p.qp.toNat)).state != .empty
  | .setContext p => s.boundQps (Fin.ofNat 16 p.context.toNat) != []
  | .clearContext c => s.boundQps (Fin.ofNat 16 c.toNat) != []
  | _ => false

/-- WRONG_STATE: the named spoke or queue pair is in a state in which the command cannot act (R99, R100, R103, R105, R152).
A spoke or queue pair that another long command is still working on cannot be met here, since that command holds the
executor (DEDUCED, safe; log entry 10). -/
def wrongState (s : State) : AdminCommand → Bool
  | .deleteQueue p =>
    match (s.qp (Fin.ofNat 16 p.qp.toNat)).state with
    | .running => false
    | .failed => false
    | _ => true
  | .setBundle h _ =>
    (List.finRange 8).any fun k =>
      decide (k.val / 4 = h.toNat) && s.isLogical k && (s.spoke k).state != .off
  | .spokeStart p => (s.spoke (Fin.ofNat 8 p.spoke.toNat)).state != .off
  | .spokeStop k => (s.spoke (Fin.ofNat 8 k.toNat)).state != .up
  | .spokeReset k => !(s.spoke (Fin.ofNat 8 k.toNat)).state.linked
  | _ => false

/-- OVERLAP: a SET_WINDOW whose range meets another enabled window of the same class (R36). -/
def overlapping (s : State) : AdminCommand → Bool
  | .setWindow p => overlaps s.wu.windows (Fin.ofNat 8 p.window.toNat) p.base.toNat p.size.toNat
  | _ => false

/-- The status a command is refused with by the first check that fails, in the order of R157; none when it is accepted. -/
def checkCommand (s : State) (c : AdminCommand) (reserved : Bool) : Option AdminStatus :=
  if reserved then some .badCommand
  else if s.badParameter c then some .badParameter
  else if s.inUse c then some .inUse
  else if s.wrongState c then some .wrongState
  else if s.overlapping c then some .overlap
  else none

/-! ## Acceptance -/

/-- An immediate command has ended: its completion is ready in the step of acceptance (R157). -/
def finish (s : State) (c : HeldCommand) (info : Nat) : State := s.setExecutor (.posting c .ok info)

/-- A long command is in progress in its owning block (R157). -/
def await (s : State) (c : HeldCommand) : State := s.setExecutor (.waiting c)

/-- CREATE_QUEUE (R151). -/
def acceptCreateQueue (s : State) (p : CreateQueue) (c : HeldCommand) : State :=
  let n : QpId := Fin.ofNat 16 p.qp.toNat
  ((s.setQp n
    { state := .running, sqBase := p.sqBase.toNat, sqSize := p.sqSize.toNat, cqBase := p.cqBase.toNat
      cqSize := p.cqSize.toNat, context := Fin.ofNat 16 p.context.toNat, depth := p.depth.toNat
      vector := Fin.ofNat 16 p.vector.toNat, notify := Notify.ofCode p.notify.toNat }).setPosted n
    (Vector.replicate 8 .absent)).finish c 0

/-- DELETE_QUEUE (R152, R153). -/
def acceptDeleteQueue (s : State) (p : DeleteQueue) (c : HeldCommand) : State :=
  let n : QpId := Fin.ofNat 16 p.qp.toNat
  if p.mode = 0 then (s.await c).modQp n fun q => { q with state := .draining }
  else ((s.await c).modQp n fun q => { q with state := .aborting }).abortEntries n

/-- The cache without the entries that `covers` names (R87, R88, R90). -/
def dropCache (s : State) (covers : Key → Bool) : State :=
  { s with tu.cache := vmap (fun x : Option CacheEntry => x.filter fun e => !covers e.key) s.tu.cache }

/-- The number of valid cache entries that `covers` names. -/
def coveredCount (s : State) (covers : Key → Bool) : Nat := s.tu.cache.toList.countP fun x => x.any fun e => covers e.key

/-- A context record changes, and the context's cache entries become invalid (R87, R88). -/
def changeContext (s : State) (n : ContextId) (x : Context) (c : HeldCommand) : State :=
  (({ s with tu.contexts := s.tu.contexts.set n x } : State).dropCache fun key => key.context == n).finish c
    (s.coveredCount fun key => key.context == n)

/-- The context record a SET_CONTEXT makes (R75, R87). -/
def newContext (p : SetContext) : Context :=
  if p.mode = 1 then { mode := .bypass }
  else
    { mode := .translate, pageSize := PageSize.ofCode p.pageSize.toNat, dirBase := p.dirBase.toNat
      dirLength := p.dirLength.toNat }

/-- Whether an accepted invalidation marks a segment (R91): a GATHER in SLOT_WAIT, ISSUE_WAIT or OUTSTANDING, or a SCATTER
in SLOT_WAIT, that holds a covered translation. -/
def marks (s : State) (covers : Key → Bool) (x : Segment) : Bool :=
  x.translation.any covers &&
    match (s.entry x.entry).kind with
    | some .gather => x.state == .slotWait || x.state == .issueWait || x.state == .outstanding
    | some .scatter => x.state == .slotWait
    | _ => false

/-- The awaited reads of an invalidation (R90): the SCATTER segments in HOST_READING with a covered translation. -/
def awaitedReads (s : State) (covers : Key → Bool) : List SegId :=
  (List.finRange 128).filter fun i => (s.seg i).state == .hostReading && (s.seg i).translation.any covers

/-- INVALIDATE_PAGES and INVALIDATE_CONTEXT (R90). -/
def acceptInvalidation (s : State) (covers : Key → Bool) (c : HeldCommand) : State :=
  let walks : Vector (Option Walk) 4 :=
    vmap (fun x : Option Walk => x.map fun w => { w with stale := w.stale || covers w.key }) s.tu.walks
  let s1 : State :=
    { (s.await c).dropCache covers with
      tu.walks := walks
      tu.invalidation := some
        { stale := walks.toList.countP fun x => x.any Walk.stale
          awaited := s.awaitedReads covers
          removed := s.coveredCount covers } }
  { s1 with
    su.segments :=
      vmap (fun x : Segment => if s.marks covers x then { x with retranslate := true } else x) s.su.segments }

/-- The keys an INVALIDATE_PAGES covers (R89). -/
def coversPages (p : InvalidatePages) (key : Key) : Bool :=
  decide (key.context.val = p.context.toNat) && decide (p.first.toNat ≤ key.page) &&
    decide (key.page < p.first.toNat + p.count.toNat)

/-- The keys an INVALIDATE_CONTEXT covers (R89). -/
def coversContext (n : Byte) (key : Key) : Bool := decide (key.context.val = n.toNat)

/-- Whether segment i holds a route whose side touches a range (R37). -/
def routeTouches (s : State) (i : SegId) (r : Option Range) : Bool :=
  let sides : Sides :=
    { read := if (s.seg i).source.isSome then (s.segSides i).read else none
      write := if (s.seg i).destination.isSome then (s.segSides i).write else none }
  sides.touches (s.seg i).length r

/-- A window change is accepted and becomes the pending change (R37). -/
def acceptWindow (s : State) (w : WindowId) (contents : Window) (c : HeldCommand) : State :=
  let old := (s.window w).range
  let new := contents.range
  let counted := (List.finRange 128).filter fun i =>
    (s.seg i).state != .retired && (s.routeTouches i old || s.routeTouches i new)
  { s.await c with
    wu.quiesce := some
      { window := w, old := old, new := new, contents := contents, waited := counted.length, counted := counted
        held := [] } }

/-- A route into the named half takes the earlier-layout mark (R99). -/
def Route.markHalf (h : Nat) (r : Route) : Route := if r.spoke.val / 4 = h then { r with earlier := true } else r

/-- The four logical spoke records of a half take their reset values (R99). -/
def clearHalf (v : Vector Spoke 8) (h : Nat) : Vector Spoke 8 :=
  (List.finRange 8).foldl (fun v (k : SpokeId) => if k.val / 4 = h then v.set k {} else v) v

/-- SET_BUNDLE (R99). -/
def acceptSetBundle (s : State) (h l : Nat) (c : HeldCommand) : State :=
  let s1 : State := if h = 0 then { s with sp.low := Layout.ofCode l } else { s with sp.high := Layout.ofCode l }
  let s2 : State :=
    { s1 with
      sp.spokes := clearHalf s.sp.spokes h
      su.segments :=
        vmap (fun x : Segment =>
          { x with source := x.source.map (Route.markHalf h), destination := x.destination.map (Route.markHalf h) })
          s.su.segments }
  s2.finish c (if h = 0 then s.sp.low.code else s.sp.high.code)

/-- SPOKE_START (R100). -/
def acceptSpokeStart (s : State) (p : SpokeStart) (c : HeldCommand) : State :=
  let k : SpokeId := Fin.ofNat 8 p.spoke.toNat
  let s1 := s.modSpoke k fun x => { x with timeout := p.timeout, linkErrors := 0, drainTimeouts := 0 }
  if s.carrierPresent k then (s1.await c).startAttempt k 1 else s1.setExecutor (.posting c .trainFailed 1)

/-- SPOKE_STOP (R103). -/
def acceptSpokeStop (s : State) (k : SpokeId) (c : HeldCommand) : State :=
  ((s.await c).modSpoke k fun x => { x with state := .draining, credits := 0, drainTimeouts := 0 }).failWaiting k
    .spokeUnavailable

/-- The snapshot of a QUERY (R161 to R164). -/
def snapshot (s : State) (p : Query) : List Byte :=
  match p.subject.toNat with
  | 0 => s.spokeSnapshot (Fin.ofNat 8 p.object.toNat)
  | 1 => s.queueSnapshot (Fin.ofNat 16 p.object.toNat)
  | 2 => s.windowsSnapshot
  | _ => s.contextSnapshot (Fin.ofNat 16 p.object.toNat)

/-- QUERY: the snapshot is taken and handed over, and the completion is ready in the same step (R161). -/
def acceptQuery (s : State) (p : Query) (c : HeldCommand) : State :=
  (s.takeWrite (.memory .snapshot p.buffer.toNat (s.snapshot p))).finish c (s.snapshot p).length

/-- An accepted command acts, or begins its work in its owning block (R157). -/
def accept (s : State) (cmd : AdminCommand) (c : HeldCommand) : State :=
  match cmd with
  | .createQueue p => s.acceptCreateQueue p c
  | .deleteQueue p => s.acceptDeleteQueue p c
  | .setContext p => s.changeContext (Fin.ofNat 16 p.context.toNat) (newContext p) c
  | .clearContext n => s.changeContext (Fin.ofNat 16 n.toNat) {} c
  | .invalidatePages p => s.acceptInvalidation (coversPages p) c
  | .invalidateContext n => s.acceptInvalidation (coversContext n) c
  | .setWindow p => s.acceptWindow (Fin.ofNat 8 p.window.toNat) (windowContents p) c
  | .clearWindow w => s.acceptWindow (Fin.ofNat 8 w.toNat) {} c
  | .setBundle h l => s.acceptSetBundle h.toNat l.toNat c
  | .spokeStart p => s.acceptSpokeStart p c
  | .spokeStop k => s.acceptSpokeStop (Fin.ofNat 8 k.toNat) c
  | .spokeReset k => (s.await c).startReset (Fin.ofNat 8 k.toNat)
  | .query p => s.acceptQuery p c

/-- The number of the object a command names, by which the end of a long command is known to be its own. -/
def objectOf : AdminCommand → Nat
  | .deleteQueue p => p.qp.toNat
  | .spokeStart p => p.spoke.toNat
  | .spokeStop k => k.toNat
  | .spokeReset k => k.toNat
  | _ => 0

/-- The executor takes a fetched command, read from submission slot `index` (R157): it is checked, then refused or accepted,
in the step of the fetch return. -/
def takeCommand (s : State) (r : CommandRecord) (index : Nat) : State :=
  match r.command with
  | none =>
    s.setExecutor (.posting { opcode := r.opcode, tag := r.head.tag, subIndex := index, object := 0 } .badCommand 0)
  | some cmd =>
    let c : HeldCommand := { opcode := r.opcode, tag := r.head.tag, subIndex := index, object := objectOf cmd }
    match s.checkCommand cmd r.head.reserved with
    | some status => s.setExecutor (.posting c status 0)
    | none => s.accept cmd c

/-- The executor's command read ends, with its record or with HOST_READ_ERROR (R156). -/
def commandEnd (s : State) (r : Option CommandRecord) : State :=
  let s1 := s.modQp 0 fun q => { q with fetching := false }
  match s.ctl.device, r with
  | .ready, some r =>
    (s1.modQp 0 fun q => { q with fetchIndex := ringNext q.fetchIndex q.sqSize }).takeCommand r (s.qp 0).fetchIndex
  | .ready, none => (s1.setExecutor .idle).halt .adminFetch
  | _, _ => s1.setExecutor .idle

/-! ## Ends of long commands -/

/-- The pending window change is applied when the waited count is 0 (R40): the record takes its new contents, the held
segments are answered in order, and the command ends. -/
def windowApply? (s : State) : Option State :=
  match s.wu.quiesce with
  | some q =>
    if q.counted = [] then
      let s1 : State := { s with wu := { windows := s.wu.windows.set q.window q.contents, quiesce := none } }
      some ((s1.releaseHeld q.held).endCommand [0x07, 0x08] 0 .ok q.waited)
    else none
  | none => none

/-- The invalidation ends when no stale walk and no awaited read remain (R92). -/
def invalidationEnd? (s : State) : Option State :=
  match s.tu.invalidation with
  | some v =>
    if v.stale = 0 ∧ v.awaited = [] then
      some (({ s with tu.invalidation := none } : State).endCommand [0x05, 0x06] 0 .ok v.removed)
    else none
  | none => none

/-- A deleting queue pair whose in-flight list is empty, with no fetch outstanding, becomes EMPTY, and DELETE_QUEUE ends with
the fetch index (R152, R153). A deletion that the start of STOPPING abandoned does not end (R178; DEDUCED, unsafe, log entry 11). -/
def deleteEnd? (s : State) (n : QpId) : Option State :=
  if n ≠ 0 ∧ s.ctl.device ≠ .stopping ∧ ((s.qp n).state = .draining ∨ (s.qp n).state = .aborting) ∧ s.inflight n = [] ∧
      (s.qp n).fetching = false then
    some (((s.setQp n {}).setPosted n (Vector.replicate 8 .absent)).endCommand [0x02] n.val .ok (s.qp n).fetchIndex)
  else none

/-! ## Records of the completion writer (R146, R160) -/

/-- The write index passes to the next slot of queue pair n's completion ring, and the lap value changes when it wraps
(R146). -/
def advanceWrite (s : State) (n : QpId) : State :=
  s.modQp n fun q =>
    { q with
      writeIndex := ringNext q.writeIndex q.cqSize
      lap := if q.writeIndex + 1 = q.cqSize then !q.lap else q.lap }

/-- One record is written into queue pair n's completion ring: the posted write, the write index, and, if the record
qualifies, the vector (R146, R148). -/
def writeRecord (s : State) (n : QpId) (source : WriteSource) (bytes : List Byte) (qualifies : Bool) : State :=
  let s1 := (s.takeWrite (.memory source ((s.qp n).cqBase + 16 * (s.qp n).writeIndex) bytes)).advanceWrite n
  if qualifies then s1.signal (s.qp n).vector else s1

/-- Whether records of client queue pairs are written in the device state (10.4, R178). -/
def clientRecords (s : State) : Bool := s.ctl.device == .ready || s.ctl.device == .halted

/-- The head entry of client queue pair n is posted, if it is ready to post (R146). -/
def post? (s : State) (n : QpId) : Option State :=
  match s.inflight n with
  | [] => none
  | e :: _ =>
    if n ≠ 0 ∧ s.clientRecords ∧ (s.entry e).state = .done ∧ (s.qp n).state ≠ .aborting ∧ s.ringSpace n then
      some ((s.writeRecord n .completion
        (transferRecord (s.entry e) (s.qp n).lap (ringNext (s.entry e).subIndex (s.qp n).sqSize))
        ((s.qp n).notify.qualifies (s.entry e).notify)).freeEntry e)
    else none

/-- The command completion record is written, and the executor returns to IDLE (R159, R160). -/
def adminCompletion? (s : State) : Option State :=
  match s.au.executor with
  | .posting c status info =>
    if s.ctl.device = .ready ∧ s.ringSpace 0 then
      some ((s.writeRecord 0 .adminRecord
        (commandRecord c status info (s.qp 0).lap (ringNext c.subIndex (s.qp 0).sqSize)) true).setExecutor .idle)
    else none
  | _ => none

/-- The oldest event is written as an event record when no command completion waits (R160, R167). -/
def eventWrite? (s : State) : Option State :=
  match s.au.executor, s.au.events with
  | .posting _ _ _, _ => none
  | _, [] => none
  | _, e :: rest =>
    if s.ctl.device = .ready ∧ s.ringSpace 0 then
      let s1 := s.writeRecord 0 .adminRecord (eventRecord e s.au.overflow (s.qp 0).lap (s.qp 0).fetchIndex) true
      some { s1 with au.events := rest, au.overflow := false }
    else none

/-- The executor issues a command fetch (R156). -/
def commandFetch? (s : State) : Option State :=
  if s.au.executor = .idle ∧ s.ctl.device = .ready ∧ 0 < s.pendingCount 0 then
    some (((s.setExecutor .fetching).modQp 0 fun q => { q with fetching := true }).handRead
      { requester := .command, address := (s.qp 0).sqBase + 32 * (s.qp 0).fetchIndex, length := 32 })
  else none

end State

end Sys2Proof.Machine
end

