-- ==== Sys2Proof/Machine/HostPort.lean ====
section
/-! DEFINITION. The host port's reads and writes (10.1, 10.2). -/

namespace Sys2Proof.Machine

/-- The kinds in the order in which they are tried after the one served last (R171). -/
def ReadKind.after : ReadKind → List ReadKind
  | .fetch => [.walk, .data, .fetch]
  | .walk => [.data, .fetch, .walk]
  | .data => [.fetch, .walk, .data]

namespace State

/-- The request list of a kind (R171). -/
def requests (s : State) : ReadKind → List ReadRequest
  | .fetch => s.hp.fetchList
  | .walk => s.hp.walkList
  | .data => s.hp.dataList

/-- Replace the request list of a kind. -/
def setRequests (s : State) (k : ReadKind) (l : List ReadRequest) : State :=
  match k with
  | .fetch => { s with hp.fetchList := l }
  | .walk => { s with hp.walkList := l }
  | .data => { s with hp.dataList := l }

/-- The lowest-numbered free tracker place (R171). -/
def freePlace (s : State) : Option PlaceId := firstIndex 32 fun p => (s.place p).read.isNone

/-- A read takes a place, with the next identifier of that place (R170; the first carries g = 0: DESIGN CHOICE, unsafe, log
entry 6). A fetch and a walk have a buffer of their own for the bytes that return; a data read's bytes go to its segment's
slot. -/
def startRead (s : State) (p : PlaceId) (r : ReadRequest) : State :=
  s.setPlace p
    { nextG := (s.place p).nextG + 1
      read := some
        { request := r, g := (s.place p).nextG, returned := 0
          buffer := match r.requester with
            | .data _ => []
            | _ => List.replicate r.length 0 } }

/-- One read is put on the link: the oldest request of the kind the round robin chooses, into the lowest free place (R171). -/
def readIssue? (s : State) : Option State :=
  match s.freePlace, s.hp.lastKind.after.find? fun k => s.requests k != [] with
  | some p, some k =>
    match s.requests k with
    | r :: rest =>
      let s1 := (s.setRequests k rest).startRead p r
      some { s1 with hp.lastKind := k }
    | [] => none
  | _, _ => none

/-- The end of a read is handed to its requester (R172): the bytes of a fetch or a walk, or none for HOST_READ_ERROR. -/
def readEnd (s : State) (r : ReadInFlight) (ok : Bool) : State :=
  match r.request.requester with
  | .descriptor n => s.fetchEnd n (if ok then some r.buffer else none)
  | .command => s.commandEnd (if ok then some (decodeCommand r.buffer) else none)
  | .walk w => s.walkEnd w (if ok then some r.buffer else none)
  | .data i => s.dataReadEnd i ok

/-- A place becomes free (R172); its identifiers go on from where they stand (R170). -/
def clearPlace (s : State) (p : PlaceId) : State := s.setPlace p { s.place p with read := none }

/-- The read that carries identifier place + 32 × g and holds its place now (R170). A completion is known by its identifier
alone. Two sorts of late completion can meet a new read with their identifier before eight later reads of the place, since every
place stands at g = 0 after a reset and at the end of STOPPING (R170, R179): that of a read that was in flight at a reset, which
R24, R95 and R180 discard; and that of a read that ended by timeout or error before a reset or the end of STOPPING, which reaches
no read by R170 and is discarded by R172. The rules do not say how the two reads are told apart then. The model takes the late
completion as the new read's (DESIGN CHOICE, unsafe; log entry 23). -/
def readOf (s : State) (ident : BitVec 8) : Option (PlaceId × ReadInFlight) :=
  let p : PlaceId := Fin.ofNat 32 ident.toNat
  match (s.place p).read with
  | some r => if r.g.val = ident.toNat / 32 then some (p, r) else none
  | none => none

/-- The bytes of a completion that lie inside the read (DESIGN CHOICE, unsafe; log entry 7). -/
def clipBytes (length position : Nat) (bytes : List Byte) : List Byte := bytes.take (length - position)

/-- A completion's bytes are placed at their position (R67, R172): in the slot for a data read, otherwise in the record or
entry being fetched. -/
def placeRead (s : State) (p : PlaceId) (r : ReadInFlight) (position : Nat) (bytes : List Byte) : State :=
  match r.request.requester with
  | .data i => (s.fillSlot i position bytes).setPlace p
      { s.place p with read := some { r with returned := r.returned + bytes.length } }
  | _ => s.setPlace p
      { s.place p with
        read := some { r with returned := r.returned + bytes.length, buffer := placeBytes r.buffer position bytes } }

/-- A read completion (R172): an error completion ends the read; data is placed, and ends the read when the bytes returned
equal its length; a completion of no read in flight is discarded. -/
def readCompletion (s : State) (ident : BitVec 8) (ok : Bool) (position : Nat) (bytes : List Byte) : State :=
  match s.readOf ident with
  | none => s
  | some (p, r) =>
    if ok then
      let s1 := s.placeRead p r position (clipBytes r.request.length position bytes)
      match (s1.place p).read with
      | some r1 => if r1.request.length ≤ r1.returned then (s1.clearPlace p).readEnd r1 true else s1
      | none => s1
    else (s.clearPlace p).readEnd r false

/-- The timer of the read in place p runs out (R172); a place without a read has no timer. -/
def readTimeout (s : State) (p : PlaceId) : State :=
  match (s.place p).read with
  | some r => (s.clearPlace p).readEnd r false
  | none => s

/-- The place that holds the executor's command read, if it is in flight (R156, R170). -/
def commandPlace (s : State) : Option PlaceId :=
  firstIndex 32 fun p => (s.place p).read.any fun r => r.request.requester == .command

/-- The executor's command read returns whole with this command's record (R156, R172). When no command read is in flight no
command reaches the executor, and nothing changes (DESIGN CHOICE, safe; log entry 12). -/
def deliver (s : State) (head : CommandHead) (c : AdminCommand) : State :=
  match s.commandPlace with
  | some p => (s.clearPlace p).commandEnd (some { opcode := c.opcode, head := head, command := some c })
  | none => s

/-- The oldest posted write is sent on the link (R173). -/
def sendWrite? (s : State) : Option State :=
  match s.hp.writes with
  | w :: rest => some { s with hp.writes := rest, wire.writes := s.wire.writes ++ [w] }
  | [] => none

end State

end Sys2Proof.Machine
end

