-- ==== Sys2Proof/Machine/Settle.lean ====
section
/-! DEFINITION. What a command brings about in the same step. The rules put the steps below "in the same step", "at once" or
"at the moment" their conditions hold: an entry leaves its gate (R7, R9, R10), a slot is granted (R64), a request or a
flush is sent (R51, R109, R130), a pending window change is applied (R37, R40), a drain, an invalidation and a deletion
end (R92, R103, R152, R157). Each is a row of the table too. `settle` runs them, one at a time, until none can happen. -/

namespace Sys2Proof.Machine

/-- An internal step, as the table's row with its operand. -/
inductive Internal where
  | windowChangeApply
  | slotGrant
  | gateRelease (e : EntryId)
  | fenceStart (e : EntryId)
  | flushSend (k : SpokeId)
  | requestSend (k : SpokeId)
  | drainComplete (k : SpokeId)
  | invalidationComplete
  | queueDeleteComplete (n : QpId)
  deriving DecidableEq, Repr

/-- The row of the table an internal step is. -/
def Internal.row : Internal → Instr
  | .windowChangeApply => .windowChangeApply
  | .slotGrant => .slotGrant
  | .gateRelease e => .gateRelease e
  | .fenceStart e => .fenceStart e
  | .flushSend k => .flushSend k
  | .requestSend k => .requestSend k
  | .drainComplete k => .drainComplete k
  | .invalidationComplete => .invalidationComplete
  | .queueDeleteComplete n => .queueDeleteComplete n

namespace State

/-- One internal step, if its conditions hold. -/
def internal? (s : State) : Internal → Option State
  | .windowChangeApply => s.windowApply?
  | .slotGrant => s.slotGrant?
  | .gateRelease e => s.gateRelease? e
  | .fenceStart e => s.fenceStart? e
  | .flushSend k => s.sendFlush? k
  | .requestSend k => s.sendRequest? k
  | .drainComplete k => s.drainEnd? k
  | .invalidationComplete => s.invalidationEnd?
  | .queueDeleteComplete n => s.deleteEnd? n

/-- The internal steps in the order in which they are tried: the entries of the in-flight lists before the spokes, and on each
spoke the flush list before the issue list (R109). The order between blocks is a DESIGN CHOICE (unsafe; log entry 5). -/
def internals (s : State) : List Internal :=
  [.slotGrant, .windowChangeApply] ++
    (((List.finRange 16).flatMap s.inflight).flatMap fun e => [.gateRelease e, .fenceStart e]) ++
    ((List.finRange 8).flatMap fun k => [.flushSend k, .requestSend k, .drainComplete k]) ++
    [.invalidationComplete] ++ (List.finRange 16).map .queueDeleteComplete

/-- The first internal step that can happen, and the state after it. -/
def nextInternal (s : State) : Option State := s.internals.findSome? s.internal?

/-- At most `fuel` internal steps. -/
def settleFor : Nat → State → State
  | 0, s => s
  | fuel + 1, s =>
    match s.nextInternal with
    | some t => settleFor fuel t
    | none => s

/-- The internal steps a command has brought about, until none can happen. -/
def settle (s : State) : State := settleFor Config.settleBound s

/-- A waiter is served from the walk wait list and starts a walk in the lowest free place, with the rest of the pass over
the list (R83, R86); nothing happens while all four places hold walks, or with an empty list. -/
def walkStart? (s : State) : Option State :=
  if s.freeWalk.isSome ∧ s.tu.walkWait ≠ [] then some s.serveWalkWait else none

/-- Whether no internal step can happen. -/
def settled (s : State) : Bool := s.nextInternal.isNone

end State

end Sys2Proof.Machine
end

