-- ==== Sys2Proof/Machine/Device.lean ====
section
/-! DEFINITION. Device control (10.4): resets, ENABLE, the start and the end of STOPPING, and register writes. -/

namespace Sys2Proof.Machine

/-- The administration configuration is valid (R176). -/
def Control.valid (c : Control) : Bool :=
  ringOk c.adminSqBase.toNat (c.adminSizes.extractLsb' 0 16).toNat 32 &&
    ringOk c.adminCqBase.toNat (c.adminSizes.extractLsb' 16 16).toNat 16

namespace State

/-- What every reset of the blocks leaves as it stands: the levels of the input pins and of the message interrupt enable,
which are the outside's; the bytes of the slots, which have no reset value (R74); and the model's record of what has left
the part, with the commands still waiting. -/
def resetBlocks (s : State) (ctl : Control) : State :=
  { State.reset with
    ctl := ctl
    rb.slots := vmap (fun x : Slot => { x with holder := none }) s.rb.slots
    sp.carrierIn := s.sp.carrierIn
    hp.messagesEnabled := s.hp.messagesEnabled
    wire := s.wire
    pending := s.pending }

/-- Every carrier out is dropped (R180), and what is still being put on a spoke is cut short (R121). -/
def dropCarriersOut (s : State) : State := { s with wire := s.wire.cut (List.finRange 8) }

/-- Power-on reset and function reset (R180). -/
def resetPart (s : State) : State := s.dropCarriersOut.resetBlocks .reset

/-- QP0's record as it is taken from the administration ring registers (R139). -/
def adminQueue (c : Control) : QueuePair :=
  { state := .running, sqBase := c.adminSqBase.toNat, sqSize := (c.adminSizes.extractLsb' 0 16).toNat
    cqBase := c.adminCqBase.toNat, cqSize := (c.adminSizes.extractLsb' 16 16).toNat, vector := 0, notify := .all }

/-- ENABLE is written 1 (R176). -/
def enable (s : State) : State :=
  if s.ctl.device = .disabled then
    if s.ctl.valid then ({ s with ctl.device := .ready } : State).setQp 0 (adminQueue s.ctl)
    else { s with ctl.device := .halted, ctl.haltReason := .badAdminConfig }
  else s

/-- A fetch request still on the FETCH list is withdrawn, and its end discarded by its requester (R178, R23, R169). -/
def withdrawFetch (s : State) (r : ReadRequest) : State :=
  match r.requester with
  | .descriptor n => (s.modQp n fun q => { q with fetching := false }).dropFetch n
  | .command => (s.modQp 0 fun q => { q with fetching := false }).setExecutor .idle
  | _ => s

/-- The executor abandons a command in WAITING or POSTING; a command fetch already issued is discarded when it ends
(R169). -/
def abandonCommand (s : State) : State :=
  match s.au.executor with
  | .waiting _ => s.setExecutor .idle
  | .posting _ _ _ => s.setExecutor .idle
  | _ => s

/-- A pending window change is abandoned, and its held segments are answered against the table as it stands (R41). -/
def abandonWindow (s : State) : State :=
  match s.wu.quiesce with
  | some q => ({ s with wu.quiesce := none } : State).releaseHeld q.held
  | none => s

/-- A logical spoke that is neither OFF nor RESETTING begins the reset sequence (R117). -/
def stopSpoke (s : State) (k : SpokeId) : State :=
  match (s.spoke k).state with
  | .off => s
  | .resetting => s
  | _ => s.startReset k

/-- The device becomes STOPPING, and the fetch list is withdrawn (R178). -/
def withdrawFetches (s : State) : State :=
  s.hp.fetchList.foldl withdrawFetch { s with ctl.device := .stopping, hp.fetchList := [] }

/-- Every entry of every queue pair is treated as an ABORT deletion would treat it (R23). -/
def abortAll (s : State) : State := (List.finRange 16).foldl abortEntries s

/-- An invalidation in progress is abandoned; the marks it has set stay (R94). -/
def abandonInvalidation (s : State) : State := { s with tu.invalidation := none }

/-- Every logical spoke that is not OFF is reset (R117). -/
def stopSpokes (s : State) : State := (List.finRange 8).foldl stopSpoke s

/-- STOPPING begins (R178): the fetch list is withdrawn, every entry is stopped or freed (R23), the executor's command, the
window change and the invalidation are abandoned (R169, R41, R94), and every spoke that is not OFF is reset (R117). -/
def beginStopping (s : State) : State :=
  s.withdrawFetches.abortAll.abandonCommand.abandonWindow.abandonInvalidation.stopSpokes

/-- ENABLE is written 0 (R176, R178). -/
def disable (s : State) : State :=
  if s.ctl.device = .ready ∨ s.ctl.device = .halted then s.beginStopping.settle else s

/-- The conditions under which STOPPING ends (R179). -/
def stoppingOver (s : State) : Bool :=
  s.ctl.device == .stopping && s.sp.spokes.toList.all (fun x => x.state == .off) &&
    s.su.segments.toList.all (fun x => x.state == .retired) && s.tt.entries.toList.all (fun x => x.state == .free) &&
    s.hp.places.toList.all (fun p => p.read.isNone) && s.hp.fetchList == [] && s.hp.walkList == [] && s.hp.dataList == [] &&
    s.hp.writes == []

/-- The end of STOPPING: every block takes its values after reset, and the administration ring registers keep theirs
(R179, R175). -/
def endStopping? (s : State) : Option State :=
  if s.stoppingOver then some (s.resetBlocks { s.ctl with device := .disabled, haltReason := .none }) else none

/-! ## Register writes (R174, R175, R186) -/

/-- A bad write to an index register of a RUNNING queue pair: a client queue pair fails, and QP0's halts the device (R140,
R141). -/
def badIndex (s : State) (n : QpId) : State := if n = 0 then s.halt .adminIndex else s.failQueue n .badIndex

/-- A write to SQ_TAIL[n] (R140): taken only in RUNNING, so never while the device is DISABLED or STOPPING. -/
def writeTail (s : State) (n : QpId) (value : BitVec 32) : State :=
  if s.ctl.device = .disabled ∨ s.ctl.device = .stopping then s
  else if s.qpState n = .running then
    if (s.qp n).sqSize ≤ value.toNat then s.badIndex n else s.modQp n fun q => { q with tail := value.toNat }
  else s

/-- Whether a head value is good (R141): below the ring size, and claiming no more records than were written. -/
def headGood (s : State) (n : QpId) (value : Nat) : Bool :=
  decide (value < (s.qp n).cqSize) && decide (ringDistance (s.qp n).head value (s.qp n).cqSize ≤ s.unconsumed n)

/-- A write to CQ_HEAD[n] (R141). -/
def writeHead (s : State) (n : QpId) (value : BitVec 32) : State :=
  if s.ctl.device = .disabled ∨ s.ctl.device = .stopping ∨ s.qpState n = .empty then s
  else if s.headGood n value.toNat then (s.modQp n fun q => { q with head := value.toNat }).rearm (s.qp n).vector
  else if s.qpState n = .running then s.badIndex n
  else s

/-- One half of a 64-bit register changes, and the other stays (R186). -/
def setHalf (r : BitVec 64) (high : Bool) (value : BitVec 32) : BitVec 64 :=
  if high then value ++ r.extractLsb' 0 32 else r.extractLsb' 32 32 ++ value

/-- A write of the register window at an offset (R174, R175, R186). -/
def writeRegister (s : State) (offset : BitVec 12) (value : BitVec 32) : State :=
  match offset.toNat with
  | 0x000 => if value.getLsbD 0 then s.enable else s.disable
  | 0x008 => { s with ctl.adminSizes := value }
  | 0x010 => { s with ctl.adminSqBase := setHalf s.ctl.adminSqBase false value }
  | 0x014 => { s with ctl.adminSqBase := setHalf s.ctl.adminSqBase true value }
  | 0x018 => { s with ctl.adminCqBase := setHalf s.ctl.adminCqBase false value }
  | 0x01C => { s with ctl.adminCqBase := setHalf s.ctl.adminCqBase true value }
  | o =>
    match indexRegister o with
    | some (n, isHead) => if isHead then s.writeHead n value else s.writeTail n value
    | none => s

end State

end Sys2Proof.Machine
end

