-- ==== Sys2Proof/Machine/DeviceRows.lean ====
section
/-! DEFINITION. The meanings of the rows of device control, the registers and the host port. A step of the part whose
conditions do not hold cannot happen, so its row changes nothing (DEDUCED, safe; log entry 5). -/

namespace Sys2Proof.Machine

/-- What one command answers. -/
abbrev Result := Host.Outcome State Fault Refusal

/-- A step of the part that happens if its conditions hold. -/
def orStay (s : State) (o : Option State) : Result := .next (o.getD s)

/-- POWER_ON_RESET (R180). -/
def execPowerOnReset (s : State) : Result := .next s.resetPart

/-- FUNCTION_RESET (R180). -/
def execFunctionReset (s : State) : Result := .next s.resetPart

/-- ENABLE_SET: CONTROL is written with ENABLE 1 (R176). -/
def execEnableSet (s : State) : Result := .next s.enable

/-- ENABLE_CLEAR: CONTROL is written with ENABLE 0 (R176, R178). -/
def execEnableClear (s : State) : Result := .next s.disable

/-- STOPPING_END (R179). -/
def execStoppingEnd (s : State) : Result := orStay s s.endStopping?

/-- SQ_TAIL_WRITE (R140). -/
def execSqTailWrite (n : QpId) (value : BitVec 32) (s : State) : Result := .next (s.writeTail n value)

/-- CQ_HEAD_WRITE (R141). -/
def execCqHeadWrite (n : QpId) (value : BitVec 32) (s : State) : Result := .next (s.writeHead n value)

/-- REGISTER_WRITE_OTHER: a write at any offset of the window has the effect of the register there (R174, R175, R186). -/
def execRegisterWriteOther (offset : BitVec 12) (value : BitVec 32) (s : State) : Result :=
  .next (s.writeRegister offset value)

/-- INTERRUPT_ENABLE_CHANGE: on enabling, each vector with its pending flag set sends one message (R150). -/
def execInterruptEnableChange (enabled : Bool) (s : State) : Result :=
  .next (if enabled then ({ s with hp.messagesEnabled := true } : State).sendPendingMessages
    else { s with hp.messagesEnabled := false })

/-- HOST_READ_ISSUE (R171). -/
def execHostReadIssue (s : State) : Result := orStay s s.readIssue?

/-- HOST_READ_COMPLETION (R172). -/
def execHostReadCompletion (ident : BitVec 8) (ok : Bool) (position : Nat) (bytes : List Byte) (s : State) : Result :=
  .next (s.readCompletion ident ok position bytes).settle

/-- HOST_READ_TIMEOUT (R172). -/
def execHostReadTimeout (place : PlaceId) (s : State) : Result := .next (s.readTimeout place).settle

/-- HOST_WRITE_SENT (R173). -/
def execHostWriteSent (s : State) : Result := orStay s s.sendWrite?

end Sys2Proof.Machine
end

