-- ==== Sys2Proof/Machine/AdminRows.lean ====
section
/-! DEFINITION. The meanings of the rows of the administration unit. A command's row is the return of the executor's command
read with that command's record (R156, R157; DESIGN CHOICE, safe, log entry 12). An immediate command, and SPOKE_START, bring
about no internal step; the other long commands may end in the step of acceptance (R157). -/

namespace Sys2Proof.Machine

/-- COMMAND_FETCH_ISSUE (R156). -/
def execCommandFetchIssue (s : State) : Result := orStay s s.commandFetch?

/-- CREATE_QUEUE (R151). -/
def execCreateQueue (head : CommandHead) (p : CreateQueue) (s : State) : Result := .next (s.deliver head (.createQueue p))

/-- DELETE_QUEUE (R152, R153). -/
def execDeleteQueue (head : CommandHead) (p : DeleteQueue) (s : State) : Result :=
  .next (s.deliver head (.deleteQueue p)).settle

/-- QUEUE_DELETE_COMPLETE (R152, R153). -/
def execQueueDeleteComplete (n : QpId) (s : State) : Result := orStay s (s.deleteEnd? n)

/-- SET_CONTEXT (R87). -/
def execSetContext (head : CommandHead) (p : SetContext) (s : State) : Result := .next (s.deliver head (.setContext p))

/-- CLEAR_CONTEXT (R88). -/
def execClearContext (head : CommandHead) (context : Byte) (s : State) : Result :=
  .next (s.deliver head (.clearContext context))

/-- INVALIDATE_PAGES (R89, R90). -/
def execInvalidatePages (head : CommandHead) (p : InvalidatePages) (s : State) : Result :=
  .next (s.deliver head (.invalidatePages p)).settle

/-- INVALIDATE_CONTEXT (R89, R90). -/
def execInvalidateContext (head : CommandHead) (context : Byte) (s : State) : Result :=
  .next (s.deliver head (.invalidateContext context)).settle

/-- INVALIDATION_COMPLETE (R92). -/
def execInvalidationComplete (s : State) : Result := orStay s s.invalidationEnd?

/-- SET_WINDOW (R36, R37). -/
def execSetWindow (head : CommandHead) (p : SetWindow) (s : State) : Result :=
  .next (s.deliver head (.setWindow p)).settle

/-- CLEAR_WINDOW (R36, R37). -/
def execClearWindow (head : CommandHead) (window : Byte) (s : State) : Result :=
  .next (s.deliver head (.clearWindow window)).settle

/-- WINDOW_CHANGE_APPLY (R40). -/
def execWindowChangeApply (s : State) : Result := orStay s s.windowApply?

/-- SET_BUNDLE (R99). -/
def execSetBundle (head : CommandHead) (half layout : Byte) (s : State) : Result :=
  .next (s.deliver head (.setBundle half layout))

/-- SPOKE_START (R100). -/
def execSpokeStart (head : CommandHead) (p : SpokeStart) (s : State) : Result := .next (s.deliver head (.spokeStart p))

/-- SPOKE_STOP (R103). -/
def execSpokeStop (head : CommandHead) (spoke : Byte) (s : State) : Result :=
  .next (s.deliver head (.spokeStop spoke)).settle

/-- DRAIN_COMPLETE (R103). -/
def execDrainComplete (spoke : SpokeId) (s : State) : Result := orStay s (s.drainEnd? spoke)

/-- SPOKE_RESET (R105). -/
def execSpokeReset (head : CommandHead) (spoke : Byte) (s : State) : Result :=
  .next (s.deliver head (.spokeReset spoke)).settle

/-- QUERY (R161). -/
def execQuery (head : CommandHead) (p : Query) (s : State) : Result := .next (s.deliver head (.query p))

/-- ADMIN_COMPLETION_WRITE (R160). -/
def execAdminCompletionWrite (s : State) : Result := orStay s s.adminCompletion?

/-- EVENT_RECORD_WRITE (R160, R167). -/
def execEventRecordWrite (s : State) : Result := orStay s s.eventWrite?

end Sys2Proof.Machine
end

