-- ==== Sys2Proof/Machine/LinkRows.lean ====
section
/-! DEFINITION. The meanings of the rows of the spoke ports: sending, received frames, timers and carriers. A frame received
on a member of a bundle belongs to the stream of the bundle's head (R96, R121). -/

namespace Sys2Proof.Machine

/-- REQUEST_SEND (R51). -/
def execRequestSend (spoke : SpokeId) (s : State) : Result := orStay s (s.sendRequest? spoke)

/-- FLUSH_SEND (R109). -/
def execFlushSend (spoke : SpokeId) (s : State) : Result := orStay s (s.sendFlush? spoke)

/-- TRAIN_ACK (R127). -/
def execTrainAck (spoke : SpokeId) (version grant : Byte) (s : State) : Result :=
  .next (s.takeTrainAck (s.headOf spoke) version grant).settle

/-- RESET_ACK (R131). -/
def execResetAck (spoke : SpokeId) (s : State) : Result := .next (s.takeResetAck (s.headOf spoke))

/-- READ_RESPONSE (R128). A frame with more than 256 payload bytes fails the frame check (R125). -/
def execReadResponse (spoke : SpokeId) (tag status : Byte) (payload : List Byte) (s : State) : Result :=
  .next (if payload.length ≤ Config.maxSegment then s.takeReadResponse (s.headOf spoke) tag status payload
    else s.linkError (s.headOf spoke)).settle

/-- WRITE_ACK (R129). -/
def execWriteAck (spoke : SpokeId) (tag status : Byte) (s : State) : Result :=
  .next (s.takeWriteAck (s.headOf spoke) tag status).settle

/-- FLUSH_ACK (R129). -/
def execFlushAck (spoke : SpokeId) (tag : Byte) (s : State) : Result := .next (s.takeFlushAck (s.headOf spoke) tag).settle

/-- CREDIT (R130). -/
def execCredit (spoke : SpokeId) (count : Byte) (s : State) : Result := .next (s.takeCredit (s.headOf spoke) count).settle

/-- What the members of logical spoke k received, one list of symbols each, the head's first: a member for which there is none
received nothing, and lists beyond the members are not received (R121). -/
def State.memberLanes (s : State) (k : SpokeId) (lanes : List (List LaneSymbol)) : List (List LaneSymbol) :=
  (List.range (s.members k).length).map fun j => lanes.getD j []

/-- The frames that logical spoke k received are taken in turn, each with what it brings about (R121, R125, R126). -/
def State.takeReceived (s : State) (k : SpokeId) (frames : List (Option (List Byte))) : State :=
  frames.foldl (fun t f => (t.takeBytes k f).settle) s

/-- INVALID_FRAME_RECEIVE: the frames the members carried are assembled (R121), checked and sorted; a frame that fails either is
discarded and counted (R125, R126), and one that passes both is taken as what it is (DEDUCED; log entry 16). -/
def execInvalidFrameReceive (spoke : SpokeId) (lanes : List (List LaneSymbol)) (s : State) : Result :=
  .next (s.takeReceived (s.headOf spoke) (receiveFrames (s.memberLanes (s.headOf spoke) lanes)))

/-- RESPONSE_TIMER_EXPIRY (R111). -/
def execResponseTimerExpiry (spoke : SpokeId) (tag : TagId) (s : State) : Result := .next (s.expireTag spoke tag).settle

/-- CREDIT_WAIT_TIMER_EXPIRY (R110). -/
def execCreditWaitTimerExpiry (spoke : SpokeId) (s : State) : Result := .next (s.expireCreditWait spoke).settle

/-- TRAINING_ATTEMPT_TIMER_EXPIRY (R101). -/
def execTrainingAttemptTimerExpiry (spoke : SpokeId) (s : State) : Result := .next (s.expireAttempt spoke)

/-- RESET_TIMER_EXPIRY (R105). -/
def execResetTimerExpiry (spoke : SpokeId) (s : State) : Result := .next (s.expireReset spoke)

/-- CARRIER_LOSS (R96, R106). -/
def execCarrierLoss (spoke : SpokeId) (s : State) : Result := .next (s.dropCarrier spoke).settle

/-- CARRIER_RETURN (R96). -/
def execCarrierReturn (spoke : SpokeId) (s : State) : Result := .next (s.raiseCarrier spoke)

end Sys2Proof.Machine
end

