-- ==== Sys2Proof/Machine/TransferRows.lean ====
section
/-! DEFINITION. The meanings of the rows of the queue engine, the transfer table, the segment unit, the translation unit and
the return buffer. The rows that other commands bring about in the same step (Machine/Settle.lean) run exactly one such
step. -/

namespace Sys2Proof.Machine

/-- FETCH_ISSUE (R142, R143). -/
def execFetchIssue (s : State) : Result := orStay s s.fetchIssue?

/-- GATE_RELEASE (R9). -/
def execGateRelease (entry : EntryId) (s : State) : Result := orStay s (s.gateRelease? entry)

/-- FENCE_START (R10). -/
def execFenceStart (entry : EntryId) (s : State) : Result := orStay s (s.fenceStart? entry)

/-- GENERATION_GRANT (R43): the new segment goes as far as its answers let it in the same step. -/
def execGenerationGrant (s : State) : Result := orStay s (s.generation?.map State.settle)

/-- WALK_START (R83, R86). -/
def execWalkStart (s : State) : Result := orStay s s.walkStart?

/-- SLOT_GRANT (R64). -/
def execSlotGrant (s : State) : Result := orStay s s.slotGrant?

/-- COMPLETION_POST (R146). -/
def execCompletionPost (n : QpId) (s : State) : Result := orStay s ((s.post? n).map State.settle)

end Sys2Proof.Machine
end

