-- ==== Sys2Proof/Machine/Dispatch.lean ====
section
/-! DEFINITION. The meaning of a command, one arm per row of spec/opcode_table.json. -/

namespace Sys2Proof.Machine

def exec (i : Instr) (s : State) : Host.Outcome State Fault Refusal :=
  match i with
  | .powerOnReset => Sys2Proof.Machine.execPowerOnReset s
  | .functionReset => Sys2Proof.Machine.execFunctionReset s
  | .enableSet => Sys2Proof.Machine.execEnableSet s
  | .enableClear => Sys2Proof.Machine.execEnableClear s
  | .stoppingEnd => Sys2Proof.Machine.execStoppingEnd s
  | .sqTailWrite n value => Sys2Proof.Machine.execSqTailWrite n value s
  | .cqHeadWrite n value => Sys2Proof.Machine.execCqHeadWrite n value s
  | .registerWriteOther offset value => Sys2Proof.Machine.execRegisterWriteOther offset value s
  | .interruptEnableChange enabled => Sys2Proof.Machine.execInterruptEnableChange enabled s
  | .fetchIssue => Sys2Proof.Machine.execFetchIssue s
  | .commandFetchIssue => Sys2Proof.Machine.execCommandFetchIssue s
  | .hostReadIssue => Sys2Proof.Machine.execHostReadIssue s
  | .hostReadCompletion ident ok position bytes => Sys2Proof.Machine.execHostReadCompletion ident ok position bytes s
  | .hostReadTimeout place => Sys2Proof.Machine.execHostReadTimeout place s
  | .createQueue head p => Sys2Proof.Machine.execCreateQueue head p s
  | .deleteQueue head p => Sys2Proof.Machine.execDeleteQueue head p s
  | .queueDeleteComplete n => Sys2Proof.Machine.execQueueDeleteComplete n s
  | .setContext head p => Sys2Proof.Machine.execSetContext head p s
  | .clearContext head context => Sys2Proof.Machine.execClearContext head context s
  | .invalidatePages head p => Sys2Proof.Machine.execInvalidatePages head p s
  | .invalidateContext head context => Sys2Proof.Machine.execInvalidateContext head context s
  | .invalidationComplete => Sys2Proof.Machine.execInvalidationComplete s
  | .setWindow head p => Sys2Proof.Machine.execSetWindow head p s
  | .clearWindow head window => Sys2Proof.Machine.execClearWindow head window s
  | .windowChangeApply => Sys2Proof.Machine.execWindowChangeApply s
  | .setBundle head half layout => Sys2Proof.Machine.execSetBundle head half layout s
  | .spokeStart head p => Sys2Proof.Machine.execSpokeStart head p s
  | .spokeStop head spoke => Sys2Proof.Machine.execSpokeStop head spoke s
  | .drainComplete spoke => Sys2Proof.Machine.execDrainComplete spoke s
  | .spokeReset head spoke => Sys2Proof.Machine.execSpokeReset head spoke s
  | .query head p => Sys2Proof.Machine.execQuery head p s
  | .adminCompletionWrite => Sys2Proof.Machine.execAdminCompletionWrite s
  | .eventRecordWrite => Sys2Proof.Machine.execEventRecordWrite s
  | .gateRelease entry => Sys2Proof.Machine.execGateRelease entry s
  | .fenceStart entry => Sys2Proof.Machine.execFenceStart entry s
  | .generationGrant => Sys2Proof.Machine.execGenerationGrant s
  | .walkStart => Sys2Proof.Machine.execWalkStart s
  | .slotGrant => Sys2Proof.Machine.execSlotGrant s
  | .requestSend spoke => Sys2Proof.Machine.execRequestSend spoke s
  | .flushSend spoke => Sys2Proof.Machine.execFlushSend spoke s
  | .trainAck spoke version grant => Sys2Proof.Machine.execTrainAck spoke version grant s
  | .resetAck spoke => Sys2Proof.Machine.execResetAck spoke s
  | .readResponse spoke tag status payload => Sys2Proof.Machine.execReadResponse spoke tag status payload s
  | .writeAck spoke tag status => Sys2Proof.Machine.execWriteAck spoke tag status s
  | .flushAck spoke tag => Sys2Proof.Machine.execFlushAck spoke tag s
  | .credit spoke count => Sys2Proof.Machine.execCredit spoke count s
  | .invalidFrameReceive spoke lanes => Sys2Proof.Machine.execInvalidFrameReceive spoke lanes s
  | .responseTimerExpiry spoke tag => Sys2Proof.Machine.execResponseTimerExpiry spoke tag s
  | .creditWaitTimerExpiry spoke => Sys2Proof.Machine.execCreditWaitTimerExpiry spoke s
  | .trainingAttemptTimerExpiry spoke => Sys2Proof.Machine.execTrainingAttemptTimerExpiry spoke s
  | .resetTimerExpiry spoke => Sys2Proof.Machine.execResetTimerExpiry spoke s
  | .carrierLoss spoke => Sys2Proof.Machine.execCarrierLoss spoke s
  | .carrierReturn spoke => Sys2Proof.Machine.execCarrierReturn spoke s
  | .completionPost n => Sys2Proof.Machine.execCompletionPost n s
  | .hostWriteSent => Sys2Proof.Machine.execHostWriteSent s

end Sys2Proof.Machine
end

