-- ==== Sys2Proof/Safety.lean ====
section
/-! DEFINITION. What counts as a safe state of the part: the bounds and agreements the manual states of every collection a
claim leans on. Each is stated for a state, so that "every step keeps it" is a claim about `step` alone. -/

namespace Sys2Proof.Machine

/-! ## Spoke links (R50, R98, R102, R105, R108, R109) -/

/-- What the manual states of one logical spoke record and its issue list at all times.
* A number that is not a logical spoke is OFF (R98).
* Credits: the count stays between 0 and the grant, and the grant is at most 16 (R98, R108).
* A spoke that is not UP holds no credit, and nothing waits on its issue list or its flush list (R50, R52, R103 to R106).
* In OFF, TRAINING and RESETTING every tag is free; in OFF grant and training attempt are 0 (R98, R105, R106).
* A spoke in UP holds no quarantined tag (R102). -/
structure LinkOk (logical : Bool) (x : Spoke) (issue : List SegId) : Prop where
  logical : logical = false → x.state = .off
  credits : x.credits ≤ x.grant
  grant : x.grant ≤ Config.maxGrant
  idle : x.state ≠ .up → x.credits = 0 ∧ issue = [] ∧ x.flushList = []
  closed : (x.state = .off ∨ x.state = .training ∨ x.state = .resetting) → ∀ g : TagId, x.tags[g] = .free
  off : x.state = .off → x.grant = 0 ∧ x.attempt = 0
  up : x.state = .up → ∀ g : TagId, x.tags[g] ≠ .quarantined

/-- Every logical spoke record is as the manual states it at all times. -/
def State.LinksOk (s : State) : Prop := ∀ k, LinkOk (s.isLogical k) (s.spoke k) (s.issue k)

/-! ## The event list (R165) -/

/-- The event list holds at most 8 entries, no two with the same source and kind, and counts of 1 to 255. -/
structure State.EventsOk (s : State) : Prop where
  size : s.au.events.length ≤ Config.eventSlots
  keys : s.au.events.Pairwise fun a b => ¬ (a.source = b.source ∧ a.kind = b.kind)
  counts : ∀ e ∈ s.au.events, 1 ≤ e.count ∧ e.count ≤ Config.eventCountMax

/-! ## The window table (R25, R36) -/

/-- An enabled window record is as R25 gives it: a size in its class's range, a base that is a multiple of it, and a range
inside the fabric space. -/
def Window.formed (id : WindowId) (w : Window) : Prop :=
  w.enabled = true → windowSizeOk id w.size = true ∧ w.base % w.size = 0 ∧ w.base + w.size ≤ Config.fabricTop

/-- Two ranges share no address. -/
def Window.apart (a b : Window) : Prop := a.base + a.size ≤ b.base ∨ b.base + b.size ≤ a.base

/-- Every enabled record is well formed, and no two enabled windows of one class overlap (R25, R36). -/
structure TableOk (t : WindowTable) : Prop where
  formed : ∀ id : WindowId, t[id].formed id
  apart : ∀ a b : WindowId, a ≠ b → striped a = striped b → t[a].enabled = true → t[b].enabled = true → t[a].apart t[b]

/-- The table as it stands, and the table that will stand once the pending change is applied, are both as R25 and R36 give
them. -/
def State.WindowsOk (s : State) : Prop := TableOk s.wu.windows ∧ TableOk s.nextTable

/-! ## Queue pairs, in-flight lists and held slots (R2, R3, R13, R62, R137, R139, R146, R152) -/

/-- A ring's size: a power of two in 4..4096 (R137). -/
abbrev RingSize (size : Nat) : Prop := ∃ k : Fin 13, 2 ≤ k.val ∧ size = 2 ^ k.val

/-- What the manual states of one queue pair record at all times.
* Its two rings, once it is not EMPTY, hold 4 to 4096 records, a power of two (R137, R151, R176).
* Each index stands inside its ring (R137).
* The unconsumed count stays below the size of the completion ring, and the pending count below that of the submission ring
(R137, R140, R141, R146).
* Its depth limit is at most 16 (R137). -/
structure QueuePair.Ok (q : QueuePair) : Prop where
  rings : q.state ≠ .empty → RingSize q.sqSize ∧ RingSize q.cqSize
  submission : q.sqSize ≠ 0 → q.tail < q.sqSize ∧ q.fetchIndex < q.sqSize
  completion : q.cqSize ≠ 0 → q.writeIndex < q.cqSize ∧ q.head < q.cqSize
  pending : q.state ≠ .empty → ringDistance q.fetchIndex q.tail q.sqSize < q.sqSize
  unconsumed : q.state ≠ .empty → ringDistance q.head q.writeIndex q.cqSize < q.cqSize
  depth : q.depth ≤ 16

/-- What the manual states of the queue engine, the transfer table and the return buffer at all times.
* A client queue pair that is EMPTY holds the values after reset (R137, R152); QP0 has its record while the device is READY (R139).
* A client queue pair holds at most as many entries as its depth limit, and QP0 none (R2, R3).
* The in-flight list of a queue pair holds exactly its entries that are not FREE, each once (R3).
* At most 16 live segments belong to an entry (R1, R13).
* A queue pair holds at most 16 return slots (R61, R62). -/
structure State.AccountsOk (s : State) : Prop where
  queue : ∀ n, (s.qp n).Ok
  empty : ∀ n, n ≠ 0 → (s.qp n).state = .empty → s.qp n = {}
  admin : s.ctl.device = .ready → (s.qp 0).state ≠ .empty
  adminList : s.inflight 0 = []
  depth : ∀ n, n ≠ 0 → (s.inflight n).length ≤ (s.qp n).depth
  listed : ∀ n e, e ∈ s.inflight n ↔ (s.entry e).state ≠ .free ∧ (s.entry e).qp = n
  once : ∀ n, (s.inflight n).Nodup
  live : ∀ e, (s.entry e).live ≤ Config.liveLimit
  held : ∀ n, s.held n ≤ Config.slotCap

/-! ## The words of the claims -/

/-- A ring of `size` records of `record` bytes can stand at `base`: its size is a power of two in 4..4096, its base a
multiple of 64, and it ends at or below 2^64 (R151, R176). -/
abbrev RingFits (base size record : Nat) : Prop :=
  RingSize size ∧ base % 64 = 0 ∧ base + record * size ≤ 2 ^ 64

/-- A client queue pair is eligible for fetch, a FREE entry apart (R142). -/
structure State.Eligible (s : State) (n : QpId) : Prop where
  client : n ≠ 0
  ready : s.ctl.device = .ready
  running : (s.qp n).state = .running
  pending : 0 < s.pendingCount n
  depth : (s.inflight n).length < (s.qp n).depth
  clear : (s.qp n).fetching = false

/-- How many steps round robin lead from the queue pair served last to another one, less one (R142). -/
def fetchTurn (last n : QpId) : Nat := (n.val + 15 - last.val) % 16

/-- How many steps round robin lead from the entry granted last to another one, less one (R43). -/
def grantTurn (last e : EntryId) : Nat := (e.val + 47 - last.val) % 48

/-- The place of a kind of read in the order FETCH, WALK, DATA (R171). -/
def ReadKind.rank : ReadKind → Nat
  | .fetch => 0
  | .walk => 1
  | .data => 2

/-- How many steps round robin lead from the kind served last to another one, less one (R171). -/
def readTurn (last k : ReadKind) : Nat := (k.rank + 2 - last.rank) % 3

/-- The read in flight at place p is the executor's command read, and no lower place holds one (R156, R170). -/
structure State.CommandReadAt (s : State) (p : PlaceId) (r : ReadInFlight) : Prop where
  read : (s.place p).read = some r
  command : r.request.requester = .command
  first : ∀ q : PlaceId, q < p → ∀ x, (s.place q).read = some x → x.request.requester ≠ .command

/-- The state once the command read at place p has returned, before the command acts (R156): the place is free, QP0's
fetch outstanding flag is clear, and its fetch index has advanced. -/
def State.commandTaken (s : State) (p : PlaceId) : State :=
  (s.setPlace p { s.place p with read := none }).setQp 0
    { s.qp 0 with fetching := false, fetchIndex := ringNext (s.qp 0).fetchIndex (s.qp 0).sqSize }

/-! ## The words of the administration commands -/

/-- A byte names a logical spoke (R97). -/
def State.Names (s : State) (b : Byte) (k : SpokeId) : Prop := b.toNat = k.val ∧ s.headOf k = k

/-- Every parameter of a command is in the range its owning rule allows and names an object that exists (R157, with the rule
named at each command). -/
def State.ParamsOk (s : State) : AdminCommand → Prop
  | .createQueue p => -- R151
    (1 ≤ p.qp.toNat ∧ p.qp.toNat ≤ 15) ∧ RingFits p.sqBase.toNat p.sqSize.toNat 32 ∧
      RingFits p.cqBase.toNat p.cqSize.toNat 16 ∧ (∃ c : ContextId, p.context.toNat = c.val ∧ (s.context c).mode ≠ .off) ∧
      (1 ≤ p.depth.toNat ∧ p.depth.toNat ≤ 16) ∧ p.notify.toNat ≤ 2
  | .deleteQueue p => (1 ≤ p.qp.toNat ∧ p.qp.toNat ≤ 15) ∧ p.mode.toNat ≤ 1 -- R152
  | .setContext p => -- R87
    p.context.toNat ≤ 15 ∧
      (p.mode.toNat = 1 ∨
        (p.mode.toNat = 2 ∧ p.pageSize.toNat ≤ 2 ∧ p.dirBase.toNat % 8 = 0 ∧ 1 ≤ p.dirLength.toNat ∧
          p.dirLength.toNat ≤ 1048576 ∧ p.dirBase.toNat + 8 * p.dirLength.toNat ≤ 2 ^ 64))
  | .clearContext c => c.toNat ≤ 15 -- R88
  | .invalidatePages p => -- R89
    p.context.toNat ≤ 15 ∧ (1 ≤ p.count.toNat ∧ p.count.toNat ≤ 1048576) ∧ p.first.toNat + p.count.toNat ≤ 1048576
  | .invalidateContext c => c.toNat ≤ 15 -- R89
  | .setWindow p => -- R36
    p.window.toNat ≤ 7 ∧
      (∃ k : Fin 48, (if p.window.toNat < 2 then 26 else 12) ≤ k.val ∧ p.size.toNat = 2 ^ k.val) ∧
      p.base.toNat % p.size.toNat = 0 ∧ p.target.toNat ≤ 7 ∧ p.form.toNat ≤ 1 ∧ p.access.toNat ≤ 2
  | .clearWindow w => w.toNat ≤ 7 -- R36
  | .setBundle h l => h.toNat ≤ 1 ∧ l.toNat ≤ 4 -- R99
  | .spokeStart p => (∃ k, s.Names p.spoke k) ∧ p.timeout ≠ 0 -- R100
  | .spokeStop k => ∃ j, s.Names k j -- R103
  | .spokeReset k => ∃ j, s.Names k j -- R105
  | .query p => -- R161
    (p.subject.toNat = 0 ∧ (∃ k, s.Names p.object k) ∧ p.buffer.toNat + 64 ≤ 2 ^ 64 ∨
        p.subject.toNat = 1 ∧ p.object.toNat ≤ 15 ∧ p.buffer.toNat + 576 ≤ 2 ^ 64 ∨
        p.subject.toNat = 2 ∧ p.object.toNat = 0 ∧ p.buffer.toNat + 256 ≤ 2 ^ 64 ∨
        p.subject.toNat = 3 ∧ p.object.toNat ≤ 15 ∧ p.buffer.toNat + 64 ≤ 2 ^ 64) ∧
      p.buffer.toNat % 64 = 0

/-- The object a command names is bound or held by other work (R87, R88, R151). -/
def State.Busy (s : State) : AdminCommand → Prop
  | .createQueue p => ∃ n : QpId, p.qp.toNat = n.val ∧ (s.qp n).state ≠ .empty
  | .setContext p => ∃ n : QpId, n ≠ 0 ∧ (s.qp n).state ≠ .empty ∧ p.context.toNat = (s.qp n).context.val
  | .clearContext c => ∃ n : QpId, n ≠ 0 ∧ (s.qp n).state ≠ .empty ∧ c.toNat = (s.qp n).context.val
  | _ => False

/-- The spoke or queue pair a command names is in a state in which the command cannot act (R99, R100, R103, R105, R152; log entry
10 for a queue pair being deleted and a spoke in TRAINING or RESETTING). -/
def State.Unfit (s : State) : AdminCommand → Prop
  | .deleteQueue p => ∃ n : QpId, p.qp.toNat = n.val ∧ (s.qp n).state ≠ .running ∧ (s.qp n).state ≠ .failed
  | .setBundle h _ => ∃ k : SpokeId, k.val / 4 = h.toNat ∧ s.headOf k = k ∧ (s.spoke k).state ≠ .off
  | .spokeStart p => ∃ k : SpokeId, p.spoke.toNat = k.val ∧ (s.spoke k).state ≠ .off
  | .spokeStop b => ∃ k : SpokeId, b.toNat = k.val ∧ (s.spoke k).state ≠ .up
  | .spokeReset b => ∃ k : SpokeId, b.toNat = k.val ∧
      (s.spoke k).state ≠ .up ∧ (s.spoke k).state ≠ .draining ∧ (s.spoke k).state ≠ .faulted
  | _ => False

/-- A SET_WINDOW's new range shares an address with the range of another enabled window of the same class (R36): each of the
two ranges begins below the other's end. -/
def State.Collides (s : State) : AdminCommand → Prop
  | .setWindow p => ∃ w : WindowId, w.val ≠ p.window.toNat ∧ (w.val < 2 ↔ p.window.toNat < 2) ∧ (s.window w).enabled = true ∧
      p.base.toNat < (s.window w).base + (s.window w).size ∧ (s.window w).base < p.base.toNat + p.size.toNat
  | _ => False

/-- A command passes every check of R157. -/
structure State.Accepts (s : State) (head : CommandHead) (c : AdminCommand) : Prop where
  reserved : head.reserved = false
  params : s.ParamsOk c
  free : ¬s.Busy c
  fit : ¬s.Unfit c
  apart : ¬s.Collides c

/-- What the executor holds of a command (R155): its opcode, tag, submission index, and the object it names. -/
def State.heldOf (s : State) (head : CommandHead) (c : AdminCommand) : HeldCommand :=
  { opcode := c.opcode, tag := head.tag, subIndex := (s.qp 0).fetchIndex, object := objectOf c }

/-- The state a command's row answers once the command has had its effect: the rows whose command can bring internal rows
about run them (log entry 5). -/
def afterRow (c : AdminCommand) (u : State) : State :=
  match c with
  | .deleteQueue _ => u.settle
  | .invalidatePages _ => u.settle
  | .invalidateContext _ => u.settle
  | .setWindow _ => u.settle
  | .clearWindow _ => u.settle
  | .spokeStop _ => u.settle
  | .spokeReset _ => u.settle
  | _ => u

end Sys2Proof.Machine

namespace Sys2Proof

/-- The command that carries an administration command's record, as the table's row (11.4). -/
def AdminCommand.row (head : CommandHead) : AdminCommand → Instr
  | .createQueue p => .createQueue head p
  | .deleteQueue p => .deleteQueue head p
  | .setContext p => .setContext head p
  | .clearContext c => .clearContext head c
  | .invalidatePages p => .invalidatePages head p
  | .invalidateContext c => .invalidateContext head c
  | .setWindow p => .setWindow head p
  | .clearWindow w => .clearWindow head w
  | .setBundle h l => .setBundle head h l
  | .spokeStart p => .spokeStart head p
  | .spokeStop k => .spokeStop head k
  | .spokeReset k => .spokeReset head k
  | .query p => .query head p

/-- The command that carries a received frame on a physical spoke, as the table's row (R126). -/
def RxFrame.row (p : SpokeId) : RxFrame → Instr
  | .trainAck version grant => .trainAck p version grant
  | .resetAck => .resetAck p
  | .readResponse tag status payload => .readResponse p tag status payload
  | .writeAck tag status => .writeAck p tag status
  | .flushAck tag => .flushAck p tag
  | .credit count => .credit p count

/-- A frame's payload is at most 256 bytes (R119). -/
def RxFrame.fits : RxFrame → Prop
  | .readResponse _ _ payload => payload.length ≤ 256
  | _ => True

end Sys2Proof

namespace Sys2Proof.Machine

/-- A sent message's fields are in the ranges R123 gives them. -/
def TxMessage.fits : TxMessage → Prop
  | .writeRequest _ _ payload => payload.length ≤ 256
  | _ => True

/-- The rows that a run of internal steps carries out, one after the other, from one state to another: each step's
conditions hold, and its row answers the state after it. -/
inductive RunRows : State → List Internal → State → Prop where
  | done (s : State) : RunRows s [] s
  | more {s t u : State} (i : Internal) (l : List Internal) :
      s.internal? i = some t → exec i.row s = .next t → RunRows t l u → RunRows s (i :: l) u

/-- What an operation on one spoke leaves of another: its link state, timeout, grant, credits, training attempt, and error
and timeout counts. -/
def State.sameLink (s t : State) (j : SpokeId) : Prop :=
  (t.spoke j).state = (s.spoke j).state ∧ (t.spoke j).timeout = (s.spoke j).timeout ∧
    (t.spoke j).grant = (s.spoke j).grant ∧ (t.spoke j).credits = (s.spoke j).credits ∧
    (t.spoke j).attempt = (s.spoke j).attempt ∧ (t.spoke j).linkErrors = (s.spoke j).linkErrors ∧
    (t.spoke j).drainTimeouts = (s.spoke j).drainTimeouts

/-- The blocks that no step of the spoke ports or of a segment touches: device control, the queue engine, the window table,
the contexts, the layouts and the carrier in pins, the reads in flight and the fetch list, the messages, and the queue of
commands; and posted writes handed over before stay ahead of those handed over since. -/
structure State.Elsewhere (s t : State) : Prop where
  ctl : t.ctl = s.ctl
  qe : t.qe = s.qe
  windows : t.wu.windows = s.wu.windows
  contexts : t.tu.contexts = s.tu.contexts
  low : t.sp.low = s.sp.low
  high : t.sp.high = s.sp.high
  places : t.hp.places = s.hp.places
  fetchList : t.hp.fetchList = s.hp.fetchList
  messagesEnabled : t.hp.messagesEnabled = s.hp.messagesEnabled
  messagePending : t.hp.messagePending = s.hp.messagePending
  writes : ∃ l, t.hp.writes = s.hp.writes ++ l
  sent : t.wire.writes = s.wire.writes
  pending : t.pending = s.pending

/-- A fence's member spoke fails at fence start with a status, if it does (R10): with its mark's, or with SPOKE_UNAVAILABLE
when it is no UP logical spoke. -/
def State.memberFails (s : State) (n : QpId) (k : SpokeId) : Option Status :=
  match (s.posted n)[k] with
  | .absent => none
  | .marked status => some status
  | .member => if (s.spoke k).state = .up ∧ s.isLogical k = true then none else some .spokeUnavailable

/-- A fence's member spoke takes a flush request at fence start (R10). -/
def State.memberFlushes (s : State) (n : QpId) (k : SpokeId) : Bool :=
  (s.posted n)[k] == .member && (s.spoke k).state == .up && s.isLogical k

/-! ## Safe states and runs -/

/-- A safe state: links, event list, window table, and the accounts of queue pairs, entries and slots are as the manual states them
at all times. -/
structure State.Safe (s : State) : Prop where
  links : s.LinksOk
  events : s.EventsOk
  windows : s.WindowsOk
  accounts : s.AccountsOk

/-- A run of `n` steps that all answer a next state. -/
inductive Run : Nat → State → State → Prop where
  | stay (s : State) : Run 0 s s
  | more {n : Nat} {s t u : State} : Run n s t → step t = .next u → Run (n + 1) s u

/-- A run is safe when it ends in a safe state. -/
def SafeRun (n : Nat) (s t : State) : Prop := Run n s t ∧ t.Safe

end Sys2Proof.Machine
end

