-- ==== Sys2Proof/Certificates/Slice0/Obligations.lean ====
section
/-! DEFINITION. The statements about the model, for the provers. A row's statement gives the state the row answers by the
words of Machine/Ops.lean (setQp, setEntry, setSeg, ... replace one member; takeWrite, handRead, sendFrame hand over one
write, read or message), so that everything it does not name is left as it stands; a shared operation that such a state
names (retire, joinIssue, raise, fault, ...) has a statement of its own below. `settle` is the run of internal rows that
`SettlingRunsInternalRows` speaks of. -/

open Sys2Proof
open Sys2Proof.Machine

/-! ## The machine as a whole -/

/-- A step carries out the command at the front of the queue on the state with the rest of the queue; with no command
waiting the block idles (the idling is the model's choice, log entry 8). -/
def Obligations.StepRunsFrontCommand : Prop :=
  (∀ (c : Instr) (rest : List Instr) (s : State), s.pending = c :: rest → step s = exec c { s with pending := rest }) ∧
    ∀ s : State, s.pending = [] → step s = .next s

/-- Power-on reset and function reset: every block takes its reset values at once (R180, with the reset values of R1, R3, R12,
R25, R37, R42, R43, R50, R61 to R63, R75, R80 to R82, R86, R90, R97, R98, R137, R142, R148, R150, R155, R165, R170, R171).
The slots' bytes stay (R61, R74); the input pins, the message interrupt input, what has left the part and the commands
waiting are the outside's and stay (log entries 1 to 4). Every carrier out is dropped: what a spoke is still sending is cut short
at a free value (R121, log entry 26). -/
def Obligations.ResetsTakeResetValues : Prop :=
  ∀ s : State, ∃ u, exec .powerOnReset s = .next u ∧ exec .functionReset s = .next u ∧
    u.ctl = { device := .disabled, haltReason := .none, adminSqBase := 0, adminCqBase := 0, adminSizes := 0 } ∧
    (∀ n, u.qp n =
      { state := .empty, sqBase := 0, sqSize := 0, cqBase := 0, cqSize := 0, context := 0, depth := 0, vector := 0
        notify := .none, tail := 0, fetchIndex := 0, fetching := false, writeIndex := 0, head := 0, lap := true }) ∧
    u.qe.fetchPtr = 15 ∧ (∀ v : VectorId, u.qe.arms[v] = .armed) ∧
    (∀ e, u.entry e =
      { qp := 0, subIndex := 0, kind := none, ordered := false, notify := false, tag := 0, length := 0, fabric := 0
        near := 0, state := .free, cursor := 0, live := 0, failed := none, dropped := false, stop := none, flushes := 0 }) ∧
    (∀ n, u.inflight n = []) ∧ (∀ n, ∀ k : SpokeId, (u.posted n)[k] = .absent) ∧
    (∀ i, u.seg i =
      { entry := 0, offset := 0, length := 0, leg := .source, source := none, destination := none, host := none
        translation := none, retranslate := false, slot := none, tag := none, state := .retired }) ∧
    (∀ k, u.issue k = []) ∧ u.su.grantPtr = 47 ∧
    (∀ w, u.window w =
      { enabled := false, base := 0, size := 0, target := 0, form := .full, access := .readWrite, posted := false }) ∧
    u.wu.quiesce = none ∧
    (∀ c, u.context c = { mode := .off, pageSize := .k4, dirBase := 0, dirLength := 0 }) ∧
    (∀ c : CacheId, u.tu.cache[c] = none) ∧ u.tu.victim = 0 ∧ (∀ w, u.walk w = none) ∧ u.tu.walkWait = [] ∧
    u.tu.invalidation = none ∧
    (∀ j, u.slot j = { s.slot j with holder := none }) ∧ (∀ n, u.held n = 0) ∧ u.rb.waiting = [] ∧
    u.sp.low = .single ∧ u.sp.high = .single ∧
    (∀ k, u.spoke k =
      { state := .off, timeout := 0, grant := 0, credits := 0, tags := Vector.replicate 32 .free, attempt := 0
        linkErrors := 0, drainTimeouts := 0, flushList := [] }) ∧
    (∀ p, u.carrierOut p = false) ∧ u.sp.carrierIn = s.sp.carrierIn ∧
    u.au = { executor := .idle, events := [], overflow := false } ∧
    (∀ p, u.place p = { nextG := 0, read := none }) ∧ u.hp.fetchList = [] ∧ u.hp.walkList = [] ∧ u.hp.dataList = [] ∧
    u.hp.lastKind = .data ∧ u.hp.writes = [] ∧ (∀ v : VectorId, u.hp.messagePending[v] = false) ∧
    u.hp.messagesEnabled = s.hp.messagesEnabled ∧ u.pending = s.pending ∧
    u.wire.frames = s.wire.frames ∧ u.wire.writes = s.wire.writes ∧ u.wire.cuts = s.wire.cuts + 1 ∧
    ∀ p : SpokeId, u.wire.lanes[p] =
      { gone := s.wire.lanes[p].gone ++ s.wire.lanes[p].going.take (Config.cutPoint s.wire.cuts p), going := [] }

/-- The state after power-on reset is safe: links, event list, window table, and the accounts of queue pairs, entries and slots are
as the manual states them. -/
def Obligations.ResetStateIsSafe : Prop := State.reset.Safe

/-- Every step keeps the links (R98, R102, R103 to R108), the event list (R165), the window table (R25, R36) and the accounts as
the manual states them at all times. The accounts: a queue pair's indices stand inside its rings, and its unconsumed count stays
below its completion ring's size (R137, R140, R141, R146); an EMPTY one holds the values after reset (R152); its in-flight list
holds each of its entries that are not FREE once, and at most as many as its depth limit (R2, R3); at most 16 segments of an entry
live (R13); and a queue pair holds at most 16 return slots (R62). -/
def Obligations.StepKeepsSafe : Prop := ∀ s t : State, s.Safe → step s = .next t → t.Safe

/-- Posted writes leave in the order in which they were taken (R173): whatever command is carried out but a reset, the writes
sent and the writes waiting, in this order, are those of before with new ones behind them. A reset discards the writes
waiting. The messages on the spoke links, too, only come behind those sent before (R121). -/
def Obligations.PostedWritesStayInOrder : Prop :=
  ∀ (s t : State) (c : Instr) (rest : List Instr), s.pending = c :: rest → step s = .next t →
    (∃ l, t.wire.frames = s.wire.frames ++ l) ∧
      if c = .powerOnReset ∨ c = .functionReset then t.wire.writes = s.wire.writes ∧ t.hp.writes = []
      else ∃ l, t.wire.writes ++ t.hp.writes = s.wire.writes ++ s.hp.writes ++ l

/-- The administration ring registers change by a reset, which makes them 0, and by a register write alone (R175). -/
def Obligations.AdminRegistersKept : Prop :=
  ∀ (s t : State) (c : Instr) (rest : List Instr), s.pending = c :: rest → step s = .next t →
    (∀ offset value, c ≠ .registerWriteOther offset value) →
    if c = .powerOnReset ∨ c = .functionReset then
      t.ctl.adminSqBase = 0 ∧ t.ctl.adminCqBase = 0 ∧ t.ctl.adminSizes = 0
    else t.ctl.adminSqBase = s.ctl.adminSqBase ∧ t.ctl.adminCqBase = s.ctl.adminCqBase ∧ t.ctl.adminSizes = s.ctl.adminSizes

/-- What a command brings about in the same step is a run of the internal rows, each carried out with its conditions met; the
run ends when no internal row can act, or after 1024 of them (the order and the bound are the model's, log entry 5). A
settled state has nothing to run. -/
def Obligations.SettlingRunsInternalRows : Prop :=
  (∀ s : State, ∃ l : List Internal, RunRows s l s.settle ∧ (s.settle.settled = true ∨ l.length = Config.settleBound)) ∧
    ∀ s : State, s.settled = true → (∀ i ∈ s.internals, s.internal? i = none) ∧ s.settle = s

/-- The return of the executor's command read with a command's 32 bytes, whole in one completion, does what that command's row
does, with the internal rows either brings about (R156, R172, R184): the bytes are read as the record they encode. That a command's
row is the whole return of its read is the model's choice (log entry 12). -/
def Obligations.CommandReadRunsItsRow : Prop :=
  ∀ (s : State) (p : PlaceId) (r : ReadInFlight) (ident : BitVec 8) (tag : BitVec 32) (c : AdminCommand),
    s.CommandReadAt p r → r.request.length = 32 → r.returned = 0 → r.buffer.length = 32 →
    ident.toNat = p.val + 32 * r.g.val →
    ∃ u, exec (.hostReadCompletion ident true 0 (encodeCommand tag c)) s = .next u.settle ∧
      (exec (c.row { tag := tag, reserved := false }) s = .next u ∨
        exec (c.row { tag := tag, reserved := false }) s = .next u.settle)

/-! ## Records and frames -/

/-- The record software writes for a command (11.4) is read back as that command, its tag and no reserved bit; and the descriptor
software writes (11.1) is read back field by field. A 32-byte record that is read as a command with no reserved bit set is the
record of that command to the last bit: the check of R184 reaches every byte and bit that the command's row gives no field. -/
def Obligations.SoftwareRecordsReadBack : Prop :=
  ((∀ (tag : BitVec 32) (c : AdminCommand), (encodeCommand tag c).length = 32 ∧
     decodeCommand (encodeCommand tag c) =
       { opcode := c.opcode, head := { tag := tag, reserved := false }, command := some c }) ∧
   ∀ d : Descriptor, d.length < 2 ^ 32 → d.fabric < 2 ^ 64 → d.near < 2 ^ 64 →
     (encodeDescriptor d).length = 32 ∧ decodeDescriptor (encodeDescriptor d) = d) ∧
  ∀ (rec : List Byte) (tag : BitVec 32) (c : AdminCommand), rec.length = 32 → (decodeCommand rec).command = some c →
    (decodeCommand rec).head = { tag := tag, reserved := false } → rec = encodeCommand tag c

/-- A frame as the far end is required to send it (R119, R120) passes the frame check and is sorted as the message it is, with its
fields; a frame the part sends is 20 to 276 bytes long, passes the frame check too (R125), and is of unknown kind to a
receiver of the part's own kind (R126, R185). On each member of a link the frames are the bytes between their delimiters
(R121): a start delimiter inside a frame ends it as received, and bytes outside a frame are discarded. Frames sent one after
another, each dealt to the members of a logical spoke between its delimiters, are received as the same frames, and a frame
cut short behind them is not received. A message sent on a logical spoke adds to each member its part, between its delimiters,
behind what it carries, and to no other spoke anything; where carrier out is dropped, each member's symbols still going are cut
short at a free value (log entry 26), and no other spoke's. -/
def Obligations.FramesCrossTheLink : Prop :=
  ((∀ f : RxFrame, f.fits → decodeFrame (encodeFrame f) = some f) ∧
     ∀ m : TxMessage, m.fits → 20 ≤ (frameBytes m).length ∧ (frameBytes m).length ≤ 276 ∧ frameCheck (frameBytes m) = true ∧
       decodeFrame (frameBytes m) = none) ∧
  (∀ (f : List Byte) (rest : List LaneSymbol),
    splitFrames none (LaneSymbol.start :: f.map LaneSymbol.byte ++ LaneSymbol.start :: rest) =
      f :: splitFrames none (LaneSymbol.start :: rest)) ∧
  (∀ (stray : List Byte) (rest : List LaneSymbol),
    splitFrames none (stray.map LaneSymbol.byte ++ rest) = splitFrames none rest) ∧
  (∀ (n : Nat) (frames : List (List Byte)) (unfinished : Nat → List LaneSymbol), n = 1 ∨ n = 2 ∨ n = 4 →
    (∀ j, unfinished j = [] ∨ ∃ bytes : List Byte, unfinished j = LaneSymbol.start :: bytes.map LaneSymbol.byte) →
    receiveFrames ((List.range n).map fun j => (frames.flatMap fun f => (frameLanes n f).getD j []) ++ unfinished j) =
      frames.map some) ∧
  ∀ (s : State) (k : SpokeId) (m : TxMessage) (mark : Status),
    let n := (s.members k).length
    (∀ (j : Nat) (p : SpokeId), (s.members k)[j]? = some p →
      (s.sendFrame k m).wire.lanes[p] =
        { gone := s.wire.lanes[p].gone
          going := s.wire.lanes[p].going ++
            (LaneSymbol.start :: ((List.range (frameBytes m).length).filter (fun b => b % n = j)).map fun b =>
              LaneSymbol.byte ((frameBytes m).getD b 0)) ++ [LaneSymbol.stop] } ∧
      (s.enterOff k mark).wire.lanes[p] =
        { gone := s.wire.lanes[p].gone ++ s.wire.lanes[p].going.take (Config.cutPoint s.wire.cuts p), going := [] }) ∧
    ∀ p : SpokeId, s.headOf p ≠ k →
      (s.sendFrame k m).wire.lanes[p] = s.wire.lanes[p] ∧ (s.enterOff k mark).wire.lanes[p] = s.wire.lanes[p]

/-- The records the part writes carry their contents at the positions of 11.2, with 0 in every other byte and bit (R182); a status,
an event's kind and its reason stand as their codes of 11.3. -/
def Obligations.WrittenRecordsHoldTheirFields : Prop :=
  (∀ (x : Entry) (lap : Bool) (next : Nat), x.length ≤ 2 ^ 20 → x.errorOffset < 2 ^ 20 → x.outcome.detail < 2 ^ 16 →
    next < 2 ^ 12 →
    let r := transferRecord x lap next
    r.length = 16 ∧ field r 0 4 = x.tag.toNat ∧ field r 4 3 = x.bytesDone ∧
      ([.ok, .badDescriptor, .unmapped, .windowAccess, .translationFault, .hostReadError, .spokeUnavailable, .spokeTimeout,
        .spokeReset, .linkLost, .targetError, .noTarget] : List Status)[field r 7 1]? = some x.outcome.status ∧
      field r 8 3 = x.errorOffset ∧ field r 11 1 = (if lap then 1 else 0) + (if x.dropped then 2 else 0) ∧
      field r 12 2 = x.outcome.detail ∧ field r 14 2 = next) ∧
  (∀ (c : HeldCommand) (status : AdminStatus) (info : Nat) (lap : Bool) (next : Nat), info < 2 ^ 32 → next < 2 ^ 12 →
    let r := commandRecord c status info lap next
    r.length = 16 ∧ field r 0 4 = c.tag.toNat ∧ field r 4 4 = info ∧
      ([.ok, .badCommand, .badParameter, .inUse, .wrongState, .overlap, .trainFailed] : List AdminStatus)[field r 8 1]? =
        some status ∧
      field r 9 1 = c.opcode.toNat ∧ field r 10 2 = 0 ∧ field r 12 2 = next ∧ field r 14 1 = 0 ∧
      field r 15 1 = if lap then 1 else 0) ∧
  ∀ (e : Event) (overflow lap : Bool) (next : Nat), e.count ≤ 255 → next < 2 ^ 12 →
    let r := eventRecord e overflow lap next
    r.length = 16 ∧
      field r 0 1 = (match e.source with
        | .spoke k => k.val
        | .queue n => n.val) ∧
      ([none, some .spokeUp, some .spokeTrainFailed, some .spokeFaulted, some .spokeLinkLost, some .queueFailed] :
        List (Option EventKind))[field r 1 1]? = some (some e.kind) ∧
      ([.none, .timeout, .creditStall, .linkErrors, .fetchError, .badIndex] : List EventReason)[field r 2 1]? = some e.reason ∧
      field r 3 1 = e.count ∧ field r 4 8 = 0 ∧ field r 12 2 = next ∧ field r 14 1 = 0 ∧
      field r 15 1 = (if lap then 1 else 0) + 2 + if overflow then 4 else 0

/-! ## The transfer table's account -/

/-- The checks of a descriptor in their order; the first that holds gives the detail of 11.3 (R6). What a FETCHING entry holds
once its descriptor is validated and admitted (R6, R7): the descriptor's contents, but for a field whose value lies outside
the range of R1, which keeps the value 0 of R2; DONE with BAD_DESCRIPTOR at offset 0, DONE for a MARK, and GATED for a FENCE
and a data kind. What is kept of a descriptor of none of the six kinds, an absent kind and a near field of 0, of a RELAY's near
field that is no fabric address, and of the near field of a FENCE or MARK, stored as read, is the model's choice (log entry 15). -/
def Obligations.DescriptorValidatedAndAdmitted : Prop :=
  (∀ d : Descriptor, descriptorFault d =
     if d.kind.toNat = 0 ∨ 6 < d.kind.toNat then some 1
     else if (if d.kind.toNat ≤ 4 then d.length < 1 ∨ 1048576 < d.length else d.length ≠ 0) then some 2
     else if 4 ≤ d.flags.toNat then some 3
     else if 5 ≤ d.kind.toNat ∧ (d.fabric ≠ 0 ∨ d.near ≠ 0) then some 4
     else if 2 ^ 48 < d.fabric + d.length ∨ (d.kind.toNat = 3 ∧ 2 ^ 48 < d.near + d.length) then some 5
     else if d.kind.toNat ≤ 2 ∧ 2 ^ 64 < d.near + d.length then some 6
     else none) ∧
  ∀ (n : QpId) (i : Nat) (d : Descriptor),
    ({ qp := n, subIndex := i, state := .fetching } : Entry).admitted d =
      { qp := n
        subIndex := i
        kind := [none, some .gather, some .scatter, some .relay, some .fill, some .fence, some .mark].getD d.kind.toNat none
        ordered := d.flags.getLsbD 0
        notify := d.flags.getLsbD 1
        tag := d.tag
        length := if d.length ≤ 1048576 then d.length else 0
        fabric := if d.fabric < 2 ^ 48 then d.fabric else 0
        near :=
          if d.kind.toNat = 0 ∨ 6 < d.kind.toNat then 0
          else if d.kind.toNat = 3 then (if d.near < 2 ^ 48 then d.near else 0)
          else if d.kind.toNat = 4 then d.near % 2 ^ 32
          else d.near
        state := if (descriptorFault d).isSome ∨ d.kind.toNat = 6 then .done else .gated
        failed := (descriptorFault d).map fun k => { offset := 0, failure := { status := .badDescriptor, detail := k } } }

/-- What an entry reports (R17, R18): bytes done is the smallest present of lowest failed offset, stop offset and length; the
status and detail are those of the lowest failed offset, or OK and 0; the error offset is the lowest failed offset of a failed
data kind, and 0 otherwise. What an entry keeps of two failures does not depend on the order in which they arrive: of two
segments it keeps the one at the lower offset (R15, R17), and a fence keeps the lower-numbered of two failing spokes (R11). -/
def Obligations.EntryKeepsItsAccount : Prop :=
  (∀ x : Entry,
     IsLeast {n | n = x.length ∨ (∃ l, x.failed = some l ∧ n = l.offset) ∨ x.stop = some n} x.bytesDone ∧
       (x.failed = none → x.outcome = { status := .ok, detail := 0 } ∧ x.errorOffset = 0) ∧
       ∀ l, x.failed = some l → x.outcome = l.failure ∧
         x.errorOffset =
           if x.kind = some .gather ∨ x.kind = some .scatter ∨ x.kind = some .relay ∨ x.kind = some .fill then l.offset else 0) ∧
  (∀ (x : Entry) (o₁ o₂ : Nat) (f₁ f₂ : Failure), o₁ ≠ o₂ →
    ({ x with failed := x.recordFailure o₁ f₁ } : Entry).recordFailure o₂ f₂ =
      ({ x with failed := x.recordFailure o₂ f₂ } : Entry).recordFailure o₁ f₁) ∧
  (∀ (x : Entry) (o₁ o₂ : Nat) (f₁ f₂ : Failure), x.failed = none → o₁ < o₂ →
    ({ x with failed := x.recordFailure o₁ f₁ } : Entry).recordFailure o₂ f₂ = some { offset := o₁, failure := f₁ }) ∧
  (∀ (x : Entry) (k₁ k₂ : SpokeId) (s₁ s₂ : Status), k₁ ≠ k₂ →
    ({ x with failed := x.recordSpoke k₁ s₁ } : Entry).recordSpoke k₂ s₂ =
      ({ x with failed := x.recordSpoke k₂ s₂ } : Entry).recordSpoke k₁ s₁) ∧
  ∀ (x : Entry) (k₁ k₂ : SpokeId) (s₁ s₂ : Status), x.failed = none → k₁ < k₂ →
    ({ x with failed := x.recordSpoke k₁ s₁ } : Entry).recordSpoke k₂ s₂ =
      some { offset := 0, failure := { status := s₁, detail := k₁.val } }

/-! ## Windows and resolution -/

/-- Which region an address resolves to, and which logical spoke it leads to. An enabled pinned window that holds the address
resolves it first, then an enabled striped one by its slice, and an address in neither is unmapped (R26, R31); the region
holds the address and its ends are multiples of 4 KiB (R26). A physical spoke leads to its logical spoke by the table of
the two halves' layouts (R27, R97). -/
def Obligations.WindowsLeadToSpokes : Prop :=
  (∀ (t : WindowTable) (a : Nat), TableOk t →
    (∀ id : WindowId, 2 ≤ id.val → t[id].enabled = true → t[id].base ≤ a → a < t[id].base + t[id].size →
      regionAt t a =
        some { window := id, base := t[id].base, limit := t[id].base + t[id].size, spoke := t[id].target }) ∧
    ((∀ id : WindowId, 2 ≤ id.val → t[id].enabled = true → ¬(t[id].base ≤ a ∧ a < t[id].base + t[id].size)) →
      (∀ id : WindowId, id.val < 2 → t[id].enabled = true → t[id].base ≤ a → a < t[id].base + t[id].size →
        ∃ (k : Fin 8) (p : SpokeId), t[id].base + k.val * (t[id].size / 8) ≤ a ∧
          a < t[id].base + (k.val + 1) * (t[id].size / 8) ∧ p.val = (k.val + t[id].target.val) % 8 ∧
          regionAt t a =
            some
              { window := id, base := t[id].base + k.val * (t[id].size / 8)
                limit := t[id].base + (k.val + 1) * (t[id].size / 8), spoke := p }) ∧
      ((∀ id : WindowId, id.val < 2 → t[id].enabled = true → ¬(t[id].base ≤ a ∧ a < t[id].base + t[id].size)) →
        regionAt t a = none)) ∧
    ∀ r, regionAt t a = some r → r.base ≤ a ∧ a < r.limit ∧ r.base % 4096 = 0 ∧ r.limit % 4096 = 0) ∧
  ∀ low high : Layout,
    let half : Layout → List Nat := fun l => match l with
      | .single => [0, 1, 2, 3]
      | .pairLow => [0, 0, 2, 3]
      | .pairHigh => [0, 1, 2, 2]
      | .pairBoth => [0, 0, 2, 2]
      | .quad => [0, 0, 0, 0]
    (List.finRange 8).map (fun p => (logicalSpoke low high p).val) = half low ++ (half high).map fun k => 4 + k

/-- The resolution boundary (R35): under a table it is the lowest address above the start at which the resolution changes, or
2^48 when it does not change before; and the window unit answers with the lower of the one under the table as it stands
and the one under the table with the pending change applied. -/
def Obligations.BoundaryEndsTheRegion : Prop :=
  (∀ (t : WindowTable) (a : Nat), TableOk t → a < 2 ^ 48 →
    a < boundary t a ∧ boundary t a ≤ 2 ^ 48 ∧ (∀ x, a ≤ x → x < boundary t a → regionAt t x = regionAt t a) ∧
      (boundary t a < 2 ^ 48 → regionAt t (boundary t a) ≠ regionAt t a)) ∧
  ∀ (s : State) (a : Nat),
    (s.wu.quiesce = none → s.boundaryAt a = boundary s.wu.windows a) ∧
      ∀ q, s.wu.quiesce = some q →
        s.boundaryAt a = min (boundary s.wu.windows a) (boundary (s.wu.windows.set q.window q.contents) a)

/-- One side of a segment (R28 to R30, R32, R33): a side whose bytes all lie in the region of its first byte is routed, refused or
dropped by the access of that region's window, with the spoke address its delivery form gives; an unmapped first byte
fails with UNMAPPED and offset 0, and a byte outside the region of the first with UNMAPPED and the offset of the first such
byte. Bit 8 of a detail gives the side (11.3). -/
def Obligations.SideResolvesByItsRegion : Prop :=
  ∀ (t : WindowTable) (low high : Layout) (write : Bool) (a len : Nat), TableOk t → a < 2 ^ 48 → 0 < len →
    let side : Leg := if write then .destination else .source
    let bit : Nat := if write then 256 else 0
    (regionAt t a = none →
      resolveSide t low high side write a len = .failed { status := .unmapped, detail := bit }) ∧
    ∀ r, regionAt t a = some r →
      (∀ o, 0 < o → o < len → (∀ x, x < o → regionAt t (a + x) = some r) → regionAt t (a + o) ≠ some r →
        resolveSide t low high side write a len = .failed { status := .unmapped, detail := bit + o }) ∧
      ((∀ x, x < len → regionAt t (a + x) = some r) →
        resolveSide t low high side write a len =
          if write = true ∧ t[r.window].access = .readOnly then
            .failed { status := .windowAccess, detail := 256 + r.window.val }
          else if write = true ∧ t[r.window].access = .writeDrop then .dropped
          else
            .routed
              { window := r.window
                spoke := logicalSpoke low high r.spoke
                address := if t[r.window].form = .full then a else a - r.base
                posted := t[r.window].posted
                earlier := false })

/-- A segment's request for resolution. Its sides are those of its kind (R4, R43); the destination side decides first, and a
dropped destination suppresses the source (R34). A segment that touches the old or the new range of a pending change is
held (R38), and any other takes its answer at once (R44, R45): it retires as failed or as dropped, or stores its routes
and goes on to translation (GATHER, SCATTER), the slot wait list (RELAY) or its issue list (FILL). -/
def Obligations.SegmentAsksResolution : Prop :=
  ∀ (s : State) (i : SegId),
    let x := s.entry (s.seg i).entry
    let t := s.wu.windows
    let len := (s.seg i).length
    let read : Nat → SideOutcome := fun a => resolveSide t s.sp.low s.sp.high .source false a len
    let write : Nat → SideOutcome := fun a => resolveSide t s.sp.low s.sp.high .destination true a len
    let from_ := x.fabric + (s.seg i).offset
    let to_ := if x.kind = some .relay then x.near + (s.seg i).offset else x.fabric + (s.seg i).offset
    let reads := x.kind = some .gather ∨ x.kind = some .relay
    let writes := x.kind = some .scatter ∨ x.kind = some .fill ∨ x.kind = some .relay
    (∀ f, writes → write to_ = .failed f → s.answerFor i = .failed f) ∧
    (writes → write to_ = .dropped → s.answerFor i = .dropped) ∧
    (∀ d, writes → ¬reads → write to_ = .routed d → s.answerFor i = .routed none (some d)) ∧
    (∀ d f, writes → reads → write to_ = .routed d → read from_ = .failed f → s.answerFor i = .failed f) ∧
    (∀ d r, writes → reads → write to_ = .routed d → read from_ = .routed r → s.answerFor i = .routed (some r) (some d)) ∧
    (∀ f, reads → ¬writes → read from_ = .failed f → s.answerFor i = .failed f) ∧
    (∀ r, reads → ¬writes → read from_ = .routed r → s.answerFor i = .routed (some r) none) ∧
    (∀ q, s.wu.quiesce = some q → 0 < len → (∀ r, q.old = some r ∨ q.new = some r → 0 < r.size) →
      let touches := ∃ r, (q.old = some r ∨ q.new = some r) ∧
        ((reads ∧ from_ < r.base + r.size ∧ r.base < from_ + len) ∨ (writes ∧ to_ < r.base + r.size ∧ r.base < to_ + len))
      (touches → s.requestResolution i = { s with wu.quiesce := some { q with held := q.held ++ [i] } }) ∧
        (¬touches → s.requestResolution i = s.takeResolution i (s.answerFor i))) ∧
    (s.wu.quiesce = none → s.requestResolution i = s.takeResolution i (s.answerFor i)) ∧
    (∀ f, s.takeResolution i (.failed f) = s.retire i (.failure f)) ∧
    s.takeResolution i .dropped = s.retire i (.success true none) ∧
    ∀ r d,
      let u := s.setSeg i { s.seg i with source := r, destination := d }
      s.takeResolution i (.routed r d) =
        if x.kind = some .relay then
          (u.setWaiting (s.rb.waiting ++ [i])).setSeg i { s.seg i with source := r, destination := d, state := .slotWait }
        else if x.kind = some .fill then u.joinIssue i
        else
          (s.setSeg i
            { s.seg i with
              source := r, destination := d, state := .translating, host := none, translation := none
              retranslate := false }).ask i

/-! ## Segments, slots and translation -/

/-- A segment retires (R58): its record takes the values after reset, its slot is freed and its queue pair's held-slot count
falls (R62, R65, R71), a pending change counts it no more (R39), and its entry takes the report (R12, R14 to R16): the live
segment count falls, a dropped write sets the dropped flag, a posted write adds its spoke to the queue pair's posted-spoke
set, the failure at the lowest offset is kept and stops generation; a WINDING entry without live segments goes to DONE, or
is freed if it was stopped. Nothing else changes. -/
def Obligations.SegmentRetires : Prop :=
  ∀ (s : State) (i : SegId) (how : SegEnd),
    let e := (s.seg i).entry
    let x := s.entry e
    let u := s.retire i how
    let y : Entry := match how with
      | .success dropped _ => { x with live := x.live - 1, dropped := x.dropped || dropped }
      | .failure f =>
        { x with
          live := x.live - 1
          failed :=
            if (∃ l ∈ x.failed, l.offset ≤ (s.seg i).offset) then x.failed else some { offset := (s.seg i).offset, failure := f }
          state := if x.state = .running then .winding else x.state }
    let freed := y.state = .winding ∧ y.live = 0 ∧ y.stop.isSome = true
    u.seg i = {} ∧ (∀ j, j ≠ i → u.seg j = s.seg j) ∧ u.su.issue = s.su.issue ∧ u.su.grantPtr = s.su.grantPtr ∧
    (∀ j, u.slot j = if (s.seg i).slot = some j then { s.slot j with holder := none } else s.slot j) ∧
    (∀ n, u.held n = if (s.seg i).slot.isSome = true ∧ n = x.qp then s.held n - 1 else s.held n) ∧
    u.rb.waiting = s.rb.waiting ∧
    u.wu = { s.wu with quiesce := s.wu.quiesce.map fun q => { q with counted := q.counted.erase i } } ∧
    (∀ f, f ≠ e → u.entry f = s.entry f) ∧
    (freed → u.entry e = {}) ∧
    (¬freed → u.entry e = { y with state := if y.state = .winding ∧ y.live = 0 then .done else y.state }) ∧
    (∀ n, (freed ∧ n = x.qp → u.inflight n = (s.inflight n).erase e) ∧
      (¬(freed ∧ n = x.qp) → u.inflight n = s.inflight n)) ∧
    (∀ n, ∀ k : SpokeId, (u.posted n)[k] =
      match how with
      | .success _ (some j) => if n = x.qp ∧ k = j ∧ (s.posted n)[k] = .absent then .member else (s.posted n)[k]
      | _ => (s.posted n)[k]) ∧
    u.ctl = s.ctl ∧ u.qe = s.qe ∧ u.tu = s.tu ∧ u.sp = s.sp ∧ u.au = s.au ∧ u.hp = s.hp ∧ u.wire = s.wire ∧
    u.pending = s.pending

/-- A segment asks to join the issue list of the route it is to use (R50): it joins the tail while that route's spoke is an UP
logical spoke and the route carries no earlier-layout mark, and retires with SPOKE_UNAVAILABLE otherwise. The source route
is used by a GATHER and by a RELAY on its SOURCE leg, the destination route otherwise. -/
def Obligations.SegmentJoinsIssueList : Prop :=
  ∀ (s : State) (i : SegId) (r : Route),
    let k := (s.entry (s.seg i).entry).kind
    (if k = some .gather ∨ (k = some .relay ∧ (s.seg i).leg = .source) then (s.seg i).source = some r
      else (s.seg i).destination = some r) →
    s.joinIssue i =
      if (s.spoke r.spoke).state = .up ∧ s.headOf r.spoke = r.spoke ∧ r.earlier = false then
        (s.setIssue r.spoke (s.issue r.spoke ++ [i])).setSeg i { s.seg i with state := .issueWait }
      else s.retire i (.failure { status := .spokeUnavailable, detail := r.spoke.val })

/-- SLOT_GRANT (R48, R64): the lowest-numbered free slot goes to the waiter nearest the head whose queue pair holds fewer than 16
slots; the segment leaves the list, stores the slot, and goes on: a GATHER or RELAY asks to join its issue list, a SCATTER
retranslates if it is marked and reads host memory otherwise (R47, R49). Without a free slot or an eligible waiter nothing
changes (log entry 5). The grants that follow a freeing or a joining at once are such rows, one after the other, until none can
act; each takes one waiter from the list (their place among what else stands in the same step is the model's, log entry 18). -/
def Obligations.SlotGrantServesOldestEligible : Prop :=
  ∀ s : State,
    (∀ (j : SlotId) (i : SegId) (a b : List SegId), (s.slot j).holder = none → (∀ f, f < j → (s.slot f).holder ≠ none) →
      s.rb.waiting = a ++ i :: b → (∀ h ∈ a, 16 ≤ s.held (s.entry (s.seg h).entry).qp) →
      s.held (s.entry (s.seg i).entry).qp < 16 →
      let n := (s.entry (s.seg i).entry).qp
      let t := (((s.setWaiting (a ++ b)).setSlot j { s.slot j with holder := some i }).setHeld n (s.held n + 1)).setSeg i
        { s.seg i with slot := some j }
      ((s.entry (s.seg i).entry).kind ≠ some .scatter → exec .slotGrant s = .next (t.joinIssue i)) ∧
      ((s.entry (s.seg i).entry).kind = some .scatter →
        ((s.seg i).retranslate = true →
          exec .slotGrant s =
            .next ((t.setSeg i
              { s.seg i with
                slot := some j, state := .translating, host := none, translation := none, retranslate := false }).ask i)) ∧
        ∀ h, (s.seg i).retranslate = false → (s.seg i).host = some h →
          exec .slotGrant s =
            .next ((t.setSeg i { s.seg i with slot := some j, state := .hostReading }).handRead
              { requester := .data i, address := h, length := (s.seg i).length }))) ∧
    ((∀ j, (s.slot j).holder ≠ none) ∨ (∀ h ∈ s.rb.waiting, 16 ≤ s.held (s.entry (s.seg h).entry).qp) →
      exec .slotGrant s = .next s) ∧
    ∃ n : Nat, RunRows s (List.replicate n .slotGrant) s.grantSlots ∧ exec .slotGrant s.grantSlots = .next s.grantSlots ∧
      s.grantSlots.slotGrant? = none ∧ s.grantSlots.rb.waiting.length + n = s.rb.waiting.length

/-- A segment asks for translation (R46, R76 to R78, R80, R82, R83): the answer under its context's mode, from the cache on a hit
with the access of its kind, and a miss is given to a walk: it joins the walk of its key that is not stale, or starts one in
the lowest free place, or waits at the tail of the walk wait list. A segment takes a translation or a fault (R46, R47): a
fault retires it; with a translation a segment that holds no slot goes to the slot wait list, and one that was retranslating
begins its host access: a GATHER hands its slot's bytes over as a posted write and retires as successful (R56, R68), a SCATTER
hands a read over (R49). -/
def Obligations.SegmentTranslates : Prop :=
  (∀ (s : State) (i : SegId),
     let x := s.entry (s.seg i).entry
     let id := (s.qp x.qp).context
     let c := s.context id
     let iova := x.near + (s.seg i).offset
     let size : Nat := match c.pageSize with
       | .k4 => 4096
       | .k64 => 65536
       | .m2 => 2097152
     let key : Key := { context := id, page := iova / size }
     let hit := ∃ (j : CacheId) (e : CacheEntry), s.tu.cache[j] = some e ∧ e.key = key
     let fault : Nat → TransAnswer := fun d => .failed { status := .translationFault, detail := d }
     (c.mode = .off → s.ask i = s.takeAnswer i (fault 1)) ∧
     (c.mode = .bypass → iova < 2 ^ 48 → s.ask i = s.takeAnswer i (.translated iova none)) ∧
     (c.mode = .bypass → 2 ^ 48 ≤ iova → s.ask i = s.takeAnswer i (fault 1)) ∧
     (c.mode = .translate → c.dirLength ≤ iova / size → s.ask i = s.takeAnswer i (fault 1)) ∧
     (c.mode = .translate → iova / size < c.dirLength →
       (∀ (j : CacheId) (e : CacheEntry), s.tu.cache[j] = some e → e.key = key →
         (∀ (h : CacheId) (f : CacheEntry), h < j → s.tu.cache[h] = some f → f.key ≠ key) →
         s.ask i =
           s.takeAnswer i
             (if size * e.frame < 2 ^ 64 then
               if (if x.kind = some .gather then e.writable else e.readable) = true then
                 .translated (e.frame * size + iova % size) (some key)
               else fault 3
             else fault 2)) ∧
       (¬hit →
         (∀ (w : WalkId) (y : Walk), s.walk w = some y → y.key = key → y.stale = false →
           (∀ (v : WalkId) (z : Walk), v < w → s.walk v = some z → z.key = key → z.stale = true) →
           s.ask i = s.setWalk w (some { y with joined := y.joined ++ [i] })) ∧
         ((∀ (w : WalkId) (y : Walk), s.walk w = some y → y.key = key → y.stale = true) →
           (∀ w : WalkId, s.walk w = none → (∀ v, v < w → s.walk v ≠ none) →
             s.ask i =
               (s.setWalk w (some { key := key, address := c.dirBase + 8 * (iova / size), stale := false, joined := [i] })).handRead
                 { requester := .walk w, address := c.dirBase + 8 * (iova / size), length := 8 }) ∧
           ((∀ w, s.walk w ≠ none) → s.ask i = { s with tu.walkWait := s.tu.walkWait ++ [i] }))))) ∧
  ∀ (s : State) (i : SegId),
    (∀ f, s.takeAnswer i (.failed f) = s.retire i (.failure f)) ∧
    ∀ (h : Nat) (key : Option Key),
      let g : Segment := { s.seg i with host := some h, translation := key, retranslate := false }
      ((s.seg i).slot = none →
        s.takeAnswer i (.translated h key) = (s.setWaiting (s.rb.waiting ++ [i])).setSeg i { g with state := .slotWait }) ∧
      ∀ j, (s.seg i).slot = some j →
        ((s.entry (s.seg i).entry).kind = some .gather →
          s.takeAnswer i (.translated h key) =
            ((s.setSeg i g).takeWrite (.memory .gatherData h ((s.slot j).data.take (s.seg i).length))).retire i
              (.success false none)) ∧
        ((s.entry (s.seg i).entry).kind = some .scatter →
          s.takeAnswer i (.translated h key) =
            (s.setSeg i { g with state := .hostReading }).handRead
              { requester := .data i, address := h, length := (s.seg i).length })

/-! ## Events and messages -/

/-- An event is raised (R166): with its key in the list the entry's count rises by one, up to 255, and its place and reason
stay; with the key absent a new entry joins the tail of a list of fewer than 8, and on a full list the event is lost and
the overflow flag set. The list takes events in every device state but DISABLED. -/
def Obligations.EventRaised : Prop :=
  ∀ (s : State) (source : EventSource) (kind : EventKind) (reason : EventReason), s.EventsOk →
    (s.ctl.device = .disabled → s.raise source kind reason = s) ∧
    (s.ctl.device ≠ .disabled →
      (∀ (a b : List Event) (e : Event), s.au.events = a ++ e :: b → e.source = source → e.kind = kind →
        s.raise source kind reason =
          { s with au.events := a ++ { e with count := if e.count = 255 then 255 else e.count + 1 } :: b }) ∧
      ((∀ e ∈ s.au.events, ¬(e.source = source ∧ e.kind = kind)) →
        (s.au.events.length < 8 →
          s.raise source kind reason =
            { s with au.events := s.au.events ++ [{ source := source, kind := kind, reason := reason, count := 1 }] }) ∧
        (s.au.events.length = 8 → s.raise source kind reason = { s with au.overflow := true })))

/-- Messages (R148, R150). A qualifying record on an ARMED vector hands the vector's message over and fires the vector; on a
FIRED one it does nothing. A message handed over is a posted write while message interrupts are enabled, and sets the
vector's pending flag while they are disabled. On enabling, each vector with its flag set sends one message, in ascending
order, behind the posted writes taken before, and the flags are cleared. -/
def Obligations.InterruptMessages : Prop :=
  ∀ s : State,
    (∀ v : VectorId,
      (s.qe.arms[v] = .fired → s.signal v = s) ∧
      (s.qe.arms[v] = .armed → s.hp.messagesEnabled = true →
        s.signal v = { s with qe.arms := s.qe.arms.set v .fired, hp.writes := s.hp.writes ++ [.message v] }) ∧
      (s.qe.arms[v] = .armed → s.hp.messagesEnabled = false →
        s.signal v = { s with qe.arms := s.qe.arms.set v .fired, hp.messagePending := s.hp.messagePending.set v true })) ∧
    exec (.interruptEnableChange false) s = .next { s with hp.messagesEnabled := false } ∧
    ∃ l : List VectorId, l.Pairwise (· < ·) ∧ (∀ v : VectorId, v ∈ l ↔ s.hp.messagePending[v] = true) ∧
      exec (.interruptEnableChange true) s =
        .next
          { s with
            hp.messagesEnabled := true
            hp.writes := s.hp.writes ++ l.map .message
            hp.messagePending := Vector.replicate 16 false }

/-! ## Register writes and the device state -/

/-- SQ_TAIL_WRITE (R140): taken by the state of the queue pair, which QP0 takes from the device state (R138). In RUNNING a value
below the submission ring size becomes the tail; a bad one fails a client queue pair with BAD_INDEX (R145) and halts the
device on QP0 (R177). In every other state, and while the device is DISABLED or STOPPING, the write is ignored. -/
def Obligations.SqTailWrite : Prop :=
  ∀ (s : State) (n : QpId) (value : BitVec 32),
    let running := (n = 0 ∧ s.ctl.device = .ready) ∨ (n ≠ 0 ∧ (s.qp n).state = .running)
    (s.ctl.device = .disabled ∨ s.ctl.device = .stopping ∨ ¬running → exec (.sqTailWrite n value) s = .next s) ∧
    (s.ctl.device = .ready ∨ s.ctl.device = .halted → running →
      (value.toNat < (s.qp n).sqSize →
        exec (.sqTailWrite n value) s = .next (s.setQp n { s.qp n with tail := value.toNat })) ∧
      ((s.qp n).sqSize ≤ value.toNat → n ≠ 0 →
        exec (.sqTailWrite n value) s =
          .next ((s.setQp n { s.qp n with state := .failed }).raise (.queue n) .queueFailed .badIndex)) ∧
      ((s.qp n).sqSize ≤ value.toNat → n = 0 →
        exec (.sqTailWrite n value) s = .next { s with ctl.device := .halted, ctl.haltReason := .adminIndex }))

/-- CQ_HEAD_WRITE (R141, R149): a good value becomes the completion head and re-arms the vector in every state but EMPTY; a bad
one, at or above the ring size or claiming more records than were written, changes nothing but in RUNNING, where it fails a
client queue pair (R145) and halts the device on QP0 (R177). -/
def Obligations.CqHeadWrite : Prop :=
  ∀ (s : State) (n : QpId) (value : BitVec 32),
    let q := s.qp n
    let empty := if n = 0 then s.ctl.device = .disabled ∨ s.ctl.device = .stopping else q.state = .empty
    let running := if n = 0 then s.ctl.device = .ready else q.state = .running
    let good := value.toNat < q.cqSize ∧
      (value.toNat + q.cqSize - q.head) % q.cqSize ≤ (q.writeIndex + q.cqSize - q.head) % q.cqSize
    (s.ctl.device = .disabled ∨ s.ctl.device = .stopping ∨ empty → exec (.cqHeadWrite n value) s = .next s) ∧
    (s.ctl.device = .ready ∨ s.ctl.device = .halted → ¬empty →
      (good →
        exec (.cqHeadWrite n value) s =
          .next ({ s with qe.arms := s.qe.arms.set q.vector .armed } |>.setQp n { q with head := value.toNat })) ∧
      (¬good → ¬running → exec (.cqHeadWrite n value) s = .next s) ∧
      (¬good → running → n ≠ 0 →
        exec (.cqHeadWrite n value) s =
          .next ((s.setQp n { q with state := .failed }).raise (.queue n) .queueFailed .badIndex)) ∧
      (¬good → running → n = 0 →
        exec (.cqHeadWrite n value) s = .next { s with ctl.device := .halted, ctl.haltReason := .adminIndex }))

/-- REGISTER_WRITE_OTHER (R174, R175, R186): the administration ring registers take every value in every device state, the 64-bit
ones by halves; a write to STATUS, or to an offset that holds no register, is ignored. A write at the offset of CONTROL or of
an index register is that register's write (the model's reading of a row for the other registers, log entry 12). What the
registers read as (R174, R175, 11.8): CONTROL gives ENABLE, STATUS the device state and the halt reason, the administration
ring registers what was written, an index register the tail or head of a queue pair that is not EMPTY and 0 for an EMPTY one;
an offset that holds no register reads as 0. -/
def Obligations.RegisterWindow : Prop :=
  (∀ (s : State) (offset : BitVec 12) (value : BitVec 32),
     exec (.registerWriteOther 0x008 value) s = .next { s with ctl.adminSizes := value } ∧
     exec (.registerWriteOther 0x010 value) s =
       .next { s with ctl.adminSqBase := s.ctl.adminSqBase.extractLsb' 32 32 ++ value } ∧
     exec (.registerWriteOther 0x014 value) s =
       .next { s with ctl.adminSqBase := value ++ s.ctl.adminSqBase.extractLsb' 0 32 } ∧
     exec (.registerWriteOther 0x018 value) s =
       .next { s with ctl.adminCqBase := s.ctl.adminCqBase.extractLsb' 32 32 ++ value } ∧
     exec (.registerWriteOther 0x01C value) s =
       .next { s with ctl.adminCqBase := value ++ s.ctl.adminCqBase.extractLsb' 0 32 } ∧
     (offset ∉ [0x000, 0x008, 0x010, 0x014, 0x018, 0x01C] →
       ¬(0x100 ≤ offset.toNat ∧ offset.toNat < 0x180 ∧ offset.toNat % 4 = 0) →
       exec (.registerWriteOther offset value) s = .next s) ∧
     exec (.registerWriteOther 0x000 value) s = (if value.getLsbD 0 then exec .enableSet s else exec .enableClear s) ∧
     ∀ n : QpId,
       exec (.registerWriteOther (BitVec.ofNat 12 (0x100 + 8 * n.val)) value) s = exec (.sqTailWrite n value) s ∧
         exec (.registerWriteOther (BitVec.ofNat 12 (0x104 + 8 * n.val)) value) s = exec (.cqHeadWrite n value) s) ∧
  ∀ s : State,
    s.readRegister 0x000 = (if s.ctl.device = .ready ∨ s.ctl.device = .halted then 1 else 0) ∧
    (s.readRegister 0x004).toNat =
      (match s.ctl.device with
        | .disabled => 0
        | .ready => 1
        | .halted => 2
        | .stopping => 3) +
        256 *
          (match s.ctl.haltReason with
            | .none => 0
            | .badAdminConfig => 1
            | .adminFetch => 2
            | .adminIndex => 3) ∧
    s.readRegister 0x008 = s.ctl.adminSizes ∧
    s.readRegister 0x014 ++ s.readRegister 0x010 = s.ctl.adminSqBase ∧
    s.readRegister 0x01C ++ s.readRegister 0x018 = s.ctl.adminCqBase ∧
    (∀ n : QpId,
      let empty := if n = 0 then s.ctl.device = .disabled ∨ s.ctl.device = .stopping else (s.qp n).state = .empty
      (empty → s.readRegister (BitVec.ofNat 12 (0x100 + 8 * n.val)) = 0 ∧
        s.readRegister (BitVec.ofNat 12 (0x104 + 8 * n.val)) = 0) ∧
      (¬empty → s.readRegister (BitVec.ofNat 12 (0x100 + 8 * n.val)) = BitVec.ofNat 32 (s.qp n).tail ∧
        s.readRegister (BitVec.ofNat 12 (0x104 + 8 * n.val)) = BitVec.ofNat 32 (s.qp n).head)) ∧
    ∀ offset : BitVec 12, offset ∉ [0x000, 0x004, 0x008, 0x010, 0x014, 0x018, 0x01C] →
      ¬(0x100 ≤ offset.toNat ∧ offset.toNat < 0x180 ∧ offset.toNat % 4 = 0) → s.readRegister offset = 0

/-- ENABLE_SET (R139, R176): from DISABLED the administration configuration is checked. A valid one makes the device READY, and
QP0 takes its record from the registers; any other halts the device with BAD_ADMIN_CONFIG. In every other device state nothing
changes. STOPPING_END (R179, R175): STOPPING ends when every logical spoke is OFF, every segment record RETIRED and every
entry FREE, no read is in flight or waiting, and every posted write has been sent. Every block then takes its values after
reset, as a function reset gives them; the administration ring registers keep theirs, the halt reason is NONE and the device
DISABLED. Every logical spoke is OFF by then, so no carrier out drops and what has left the part stays as it is (R96). Until then
nothing changes (log entry 5). -/
def Obligations.DeviceEntersAndLeavesService : Prop :=
  (∀ s : State,
     let sqSize := s.ctl.adminSizes.toNat % 65536
     let cqSize := s.ctl.adminSizes.toNat / 65536
     let valid := RingFits s.ctl.adminSqBase.toNat sqSize 32 ∧ RingFits s.ctl.adminCqBase.toNat cqSize 16
     (s.ctl.device ≠ .disabled → exec .enableSet s = .next s) ∧
     (s.ctl.device = .disabled → ¬valid →
       exec .enableSet s = .next { s with ctl.device := .halted, ctl.haltReason := .badAdminConfig }) ∧
     (s.ctl.device = .disabled → valid →
       exec .enableSet s =
         .next
           ({ s with ctl.device := .ready } |>.setQp 0
             { state := .running, sqBase := s.ctl.adminSqBase.toNat, sqSize := sqSize, cqBase := s.ctl.adminCqBase.toNat
               cqSize := cqSize, context := 0, depth := 0, vector := 0, notify := .all, tail := 0, fetchIndex := 0
               fetching := false, writeIndex := 0, head := 0, lap := true }))) ∧
  ∀ s : State,
    let ended := s.ctl.device = .stopping ∧ (∀ k, (s.spoke k).state = .off) ∧ (∀ i, (s.seg i).state = .retired) ∧
      (∀ e, (s.entry e).state = .free) ∧ (∀ p, (s.place p).read = none) ∧ s.hp.fetchList = [] ∧ s.hp.walkList = [] ∧
      s.hp.dataList = [] ∧ s.hp.writes = []
    ∃ v, exec .functionReset s = .next v ∧
      (ended → exec .stoppingEnd s =
        .next { v with ctl := { s.ctl with device := .disabled, haltReason := .none }, wire := s.wire }) ∧
      (¬ended → exec .stoppingEnd s = .next s)

/-- ENABLE_CLEAR (R178): STOPPING begins from READY and HALTED. The fetch list is withdrawn, a withdrawn descriptor fetch's entry
being freed; every listed entry is treated as an ABORT deletion treats it, a fetch already issued staying until its read ends
(R23): a GATED, FLUSHING or DONE one is freed, a RUNNING or WINDING one records its cursor as its stop offset and winds down, freed
at once without live segments. The executor abandons its command (R169), and with it the pending window change, whose held
segments are answered (R41), and the invalidation (R94, section 5.7); every logical spoke that is neither OFF nor RESETTING begins
the reset sequence (R117): its outstanding and its waiting work ends with SPOKE_RESET, the posted writes sent on it take the
link-end mark, and a LINK_RESET is sent. No request waits or is outstanding on a spoke that is reset. Windows, contexts, layouts,
carriers and reads in flight stay. In DISABLED and STOPPING the write is ignored. The order of these happenings, the spokes in
ascending order among them, is the model's choice (log entry 17); so is that the slot grants and joins that one held segment's
answer brings about come before the next one's answer (log entry 24); and a TRAINING spoke keeps its training attempt into
RESETTING (deduced, log entry 14). -/
def Obligations.EnableClearBeginsStopping : Prop :=
  ∀ s : State,
    (s.ctl.device = .disabled ∨ s.ctl.device = .stopping → exec .enableClear s = .next s) ∧
    (s.ctl.device = .ready ∨ s.ctl.device = .halted →
      let withdraw : State → ReadRequest → State := fun t r =>
        match r.requester with
        | .descriptor n =>
          let t1 := t.setQp n { t.qp n with fetching := false }
          match (t.inflight n).find? fun e => (t.entry e).state == .fetching with
          | some e => (t1.setInflight (t.entry e).qp ((t1.inflight (t.entry e).qp).erase e)).setEntry e {}
          | none => t1
        | .command => (t.setQp 0 { t.qp 0 with fetching := false }).setExecutor .idle
        | _ => t
      let withdrawn : State := s.hp.fetchList.foldl withdraw { s with ctl.device := .stopping, hp.fetchList := [] }
      let stopped : State := (List.finRange 16).foldl (fun t n => (t.inflight n).foldl State.abortEntry t) withdrawn
      let left : State := match stopped.au.executor with
        | .idle => stopped
        | .fetching => stopped
        | _ => stopped.setExecutor .idle
      let released : State := match s.wu.quiesce with
        | some q => q.held.foldl (fun (t : State) i => (t.takeResolution i (t.answerFor i)).grantSlots) { left with wu.quiesce := none }
        | none => left
      let reset : State → SpokeId → State := fun t k =>
        if (t.spoke k).state = .off ∨ (t.spoke k).state = .resetting then t
        else ((((t.setSpoke k { t.spoke k with state := .resetting, credits := 0 }).endOutstanding k .spokeReset).failWaiting k
          .spokeReset).markPosted k .spokeReset).sendFrame k .linkReset
      let u : State := (List.finRange 8).foldl reset { released with tu.invalidation := none }
      exec .enableClear s = .next u.settle ∧
      (∀ n, ∀ e ∈ s.inflight n,
        let x := s.entry e
        let runs := x.state = .running ∨ x.state = .winding
        (x.state = .gated ∨ x.state = .flushing ∨ x.state = .done ∨ (runs ∧ x.live = 0) → stopped.entry e = {}) ∧
        (runs → x.live ≠ 0 → stopped.entry e = { x with state := .winding, stop := some x.cursor })) ∧
      u.ctl = { s.ctl with device := .stopping } ∧ u.hp.fetchList = [] ∧
      u.hp.places = s.hp.places ∧ u.wu = { windows := s.wu.windows, quiesce := none } ∧ u.tu.invalidation = none ∧
      u.tu.contexts = s.tu.contexts ∧ u.sp.low = s.sp.low ∧ u.sp.high = s.sp.high ∧ u.sp.carrierIn = s.sp.carrierIn ∧
      u.au.events = s.au.events ∧ u.au.overflow = s.au.overflow ∧ u.qe.arms = s.qe.arms ∧ u.qe.fetchPtr = s.qe.fetchPtr ∧
      (∀ n, u.qp n =
        { s.qp n with
          fetching :=
            if ∃ r ∈ s.hp.fetchList, r.requester = .descriptor n ∨ (n = 0 ∧ r.requester = .command) then false
            else (s.qp n).fetching }) ∧
      u.au.executor =
        (if s.au.executor = .fetching ∧ ∀ r ∈ s.hp.fetchList, r.requester ≠ .command then .fetching else .idle) ∧
      (∀ n, ∀ e ∈ s.inflight n,
        (u.entry e).state = .free ∨ (u.entry e).state = .fetching ∨
          ((u.entry e).state = .winding ∧ (u.entry e).stop.isSome = true)) ∧
      (∀ k, if (s.spoke k).state = .off then (u.spoke k).state = .off else (u.spoke k).state = .resetting) ∧
      (∀ k, (s.spoke k).state ≠ .off → (s.spoke k).state ≠ .resetting →
        (u.spoke k).credits = 0 ∧ (∀ g : TagId, (u.spoke k).tags[g] = .free) ∧ (u.spoke k).flushList = [] ∧
          u.issue k = [] ∧ ∀ n, (s.posted n)[k] = .member → (u.posted n)[k] = .marked .spokeReset) ∧
      u.wire.writes = s.wire.writes ∧
      ∃ l : List SpokeId, l.Pairwise (· < ·) ∧
        (∀ k, k ∈ l ↔ (s.spoke k).state ≠ .off ∧ (s.spoke k).state ≠ .resetting) ∧
        u.wire.frames = s.wire.frames ++ l.map fun k => { spoke := k, message := .linkReset })

/-! ## Fetches, host reads and host writes -/

/-- FETCH_ISSUE and COMMAND_FETCH_ISSUE (R2, R142, R143, R156). The fetch arbiter serves the eligible client queue pair nearest
after the one served last: the lowest-numbered FREE entry becomes its FETCHING entry at the tail of its in-flight list,
its fetch outstanding flag is set, and a read of its next submission slot is handed over. An IDLE executor of a READY
device fetches QP0's next command. Where nothing can be fetched the row changes nothing (log entry 5). -/
def Obligations.FetchesServeTheirTurn : Prop :=
  ∀ s : State,
    (∀ (n : QpId) (e : EntryId), s.Eligible n →
      (∀ m, s.Eligible m → fetchTurn s.qe.fetchPtr n ≤ fetchTurn s.qe.fetchPtr m) →
      (s.entry e).state = .free → (∀ f, f < e → (s.entry f).state ≠ .free) →
      exec .fetchIssue s =
        .next
          (({ s with qe.fetchPtr := n } |>.setEntry e
              { qp := n, subIndex := (s.qp n).fetchIndex, kind := none, ordered := false, notify := false, tag := 0, length := 0
                fabric := 0, near := 0, state := .fetching, cursor := 0, live := 0, failed := none, dropped := false
                stop := none, flushes := 0 }
            |>.setInflight n (s.inflight n ++ [e])
            |>.setQp n { s.qp n with fetching := true }).handRead
            { requester := .descriptor n, address := (s.qp n).sqBase + 32 * (s.qp n).fetchIndex, length := 32 })) ∧
    ((∀ n, ¬s.Eligible n) ∨ (∀ e, (s.entry e).state ≠ .free) → exec .fetchIssue s = .next s) ∧
    (s.au.executor = .idle → s.ctl.device = .ready → 0 < s.pendingCount 0 →
      exec .commandFetchIssue s =
        .next
          (((s.setExecutor .fetching).setQp 0 { s.qp 0 with fetching := true }).handRead
            { requester := .command, address := (s.qp 0).sqBase + 32 * (s.qp 0).fetchIndex, length := 32 })) ∧
    (s.au.executor ≠ .idle ∨ s.ctl.device ≠ .ready ∨ s.pendingCount 0 = 0 → exec .commandFetchIssue s = .next s)

/-- HOST_READ_ISSUE and HOST_WRITE_SENT (R170, R171, R173). The kind next in turn after the one served last is served: its oldest
request leaves its list and takes the lowest-numbered free place, with the place's next identifier (the first of a place
carries g = 0, log entry 6). The oldest posted write is sent. With no free place, no request or no write the row changes
nothing (log entry 5). -/
def Obligations.HostPortServesInTurn : Prop :=
  ∀ s : State,
    (∀ (p : PlaceId) (k : ReadKind) (r : ReadRequest) (rest : List ReadRequest), (s.place p).read = none →
      (∀ q, q < p → (s.place q).read ≠ none) → s.requests k = r :: rest →
      (∀ j, s.requests j ≠ [] → readTurn s.hp.lastKind k ≤ readTurn s.hp.lastKind j) →
      let read : ReadInFlight :=
        { request := r, g := (s.place p).nextG, returned := 0
          buffer := match r.requester with
            | .data _ => []
            | _ => List.replicate r.length 0 }
      exec .hostReadIssue s =
        .next (({ s with hp.lastKind := k } |>.setRequests k rest).setPlace p { nextG := (s.place p).nextG + 1, read := read })) ∧
    ((∀ p, (s.place p).read ≠ none) ∨ (∀ k, s.requests k = []) → exec .hostReadIssue s = .next s) ∧
    (∀ (w : HostWrite) (rest : List HostWrite), s.hp.writes = w :: rest →
      exec .hostWriteSent s = .next { s with hp.writes := rest, wire.writes := s.wire.writes ++ [w] }) ∧
    (s.hp.writes = [] → exec .hostWriteSent s = .next s)

/-- HOST_READ_COMPLETION and HOST_READ_TIMEOUT (R66, R67, R170, R172). A completion belongs to the read that carries its
identifier and holds its place now, and any other is discarded. An error completion and the timer end the read; bytes are
placed at their position in the slot of a data read, and otherwise in the record being read; the read ends when the bytes
returned reach its length. However it ends, its place is free and its requester is told in the same step. That a completion
with the identifier of the read in its place always belongs to that read is in part the model's choice (DESIGN CHOICE, log
entry 23): it takes in the late completion of a read that a reset ended, which R24, R95 and R180 discard, and that of a read
that ended by timeout or error before a reset or the end of STOPPING. So is it (DESIGN CHOICE, log entry 7) that bytes past
the end of the read are cut off, and that bytes of parts that overlap are counted twice in the bytes returned. -/
def Obligations.ReadCompletionsPlaceBytes : Prop :=
  ∀ (s : State) (ident : BitVec 8) (position : Nat) (bytes : List Byte) (p : PlaceId), p.val = ident.toNat % 32 →
    let completion := fun ok => exec (.hostReadCompletion ident ok position bytes) s
    let timeout := exec (.hostReadTimeout p) s
    let free := { s.place p with read := none }
    ((s.place p).read = none → timeout = .next s.settle) ∧
    ((∀ r, (s.place p).read = some r → r.g.val ≠ ident.toNat / 32) → ∀ ok, completion ok = .next s.settle) ∧
    ∀ r, (s.place p).read = some r →
      timeout = .next ((s.setPlace p free).readEnd r false).settle ∧
      (r.g.val = ident.toNat / 32 →
        completion false = .next ((s.setPlace p free).readEnd r false).settle ∧
        let b := bytes.take (r.request.length - position)
        let place : List Byte → List Byte := fun d => d.take position ++ b ++ d.drop (position + b.length)
        let returned := r.returned + b.length
        (∀ (i : SegId) (j : SlotId), r.request.requester = .data i → (s.seg i).slot = some j →
          let t := s.setSlot j { s.slot j with data := place (s.slot j).data }
          let x := { r with returned := returned }
          (returned < r.request.length → completion true = .next (t.setPlace p { s.place p with read := some x }).settle) ∧
            (r.request.length ≤ returned → completion true = .next ((t.setPlace p free).readEnd x true).settle)) ∧
        ((∀ i, r.request.requester ≠ .data i) →
          let x := { r with returned := returned, buffer := place r.buffer }
          (returned < r.request.length → completion true = .next (s.setPlace p { s.place p with read := some x }).settle) ∧
            (r.request.length ≤ returned → completion true = .next ((s.setPlace p free).readEnd x true).settle)))

/-- The end of a descriptor read and of a SCATTER's data read. A descriptor goes to the FETCHING entry of its queue pair (R6, R7,
R143): validated and admitted, the fetch index advancing, while the queue pair is RUNNING, FAILED or DRAINING and the
device is not STOPPING; otherwise discarded, its entry freed (R22, R23). HOST_READ_ERROR frees the entry (R8, R144) and
fails a RUNNING queue pair with FETCH_ERROR (R145). A data read leaves the awaited reads (R92), and its segment joins its
issue list or retires with HOST_READ_ERROR, detail DATA (R49, R67). -/
def Obligations.FetchAndDataReadsEnd : Prop :=
  (∀ (s : State) (n : QpId) (r : ReadInFlight) (e : EntryId) (a b : List EntryId), n ≠ 0 → r.request.requester = .descriptor n →
    s.inflight n = a ++ e :: b → (s.entry e).state = .fetching → (s.entry e).qp = n →
    (∀ f ∈ a, (s.entry f).state ≠ .fetching) → e ∉ a →
    let q := s.qp n
    let dropped := ((s.setQp n { q with fetching := false }).setInflight n (a ++ b)).setEntry e {}
    let discards := s.ctl.device = .stopping ∨ q.state = .aborting ∨ q.state = .empty
    (discards → ∀ ok, s.readEnd r ok = dropped) ∧
    (¬discards →
      s.readEnd r true =
        (s.setQp n
          { q with
            fetching := false
            fetchIndex := if q.fetchIndex + 1 = q.sqSize then 0 else q.fetchIndex + 1 }).setEntry e
          ((s.entry e).admitted (decodeDescriptor r.buffer)) ∧
      (q.state ≠ .running → s.readEnd r false = dropped) ∧
      (q.state = .running →
        s.readEnd r false =
          (dropped.setQp n { q with fetching := false, state := .failed }).raise (.queue n) .queueFailed .fetchError))) ∧
  ∀ (s : State) (i : SegId) (r : ReadInFlight), r.request.requester = .data i →
    let t : State := { s with tu.invalidation := s.tu.invalidation.map fun v => { v with awaited := v.awaited.erase i } }
    s.readEnd r true = t.joinIssue i ∧
      s.readEnd r false = t.retire i (.failure { status := .hostReadError, detail := 2 })

/-- The end of the executor's command read (R156, R157): the record is taken while the device is READY, with QP0's fetch index
advanced; an opcode that is not defined is refused BAD_COMMAND. HOST_READ_ERROR halts a READY device with ADMIN_FETCH. While
the device is not READY the return is discarded and the executor returns to IDLE: so a command's row in these states, and
without a command read in flight it changes nothing (log entry 12). -/
def Obligations.CommandReadEnds : Prop :=
  (∀ (s : State) (r : ReadInFlight), r.request.requester = .command →
    let q := s.qp 0
    let kept := (s.setQp 0 { q with fetching := false }).setExecutor .idle
    let record := decodeCommand r.buffer
    (s.ctl.device = .ready →
      (record.command = none →
        s.readEnd r true =
          (s.setQp 0
            { q with
              fetching := false
              fetchIndex := if q.fetchIndex + 1 = q.sqSize then 0 else q.fetchIndex + 1 }).setExecutor
            (.posting { opcode := record.opcode, tag := record.head.tag, subIndex := q.fetchIndex, object := 0 } .badCommand 0)) ∧
      s.readEnd r false = { kept with ctl.device := .halted, ctl.haltReason := .adminFetch }) ∧
    (s.ctl.device ≠ .ready → ∀ ok, s.readEnd r ok = kept)) ∧
  ∀ (s : State) (head : CommandHead) (c : AdminCommand),
    ((∀ p r, (s.place p).read = some r → r.request.requester ≠ .command) → exec (c.row head) s = .next (afterRow c s)) ∧
    ∀ p r, s.CommandReadAt p r → s.ctl.device ≠ .ready →
      exec (c.row head) s =
        .next (afterRow c
          (((s.setPlace p { s.place p with read := none }).setQp 0 { s.qp 0 with fetching := false }).setExecutor .idle))

/-- COMPLETION_POST (R20, R146): the head entry of a client queue pair's list is posted when it is DONE, the queue pair is not
ABORTING, its completion ring has space, and the device writes records (10.4): the record is handed over for the slot at
the write index, which advances, the lap value changing at the wrap; a qualifying record signals the vector (R148); the
entry is freed and leaves the list. Otherwise nothing changes (log entry 5). -/
def Obligations.HeadEntryPosted : Prop :=
  ∀ (s : State) (n : QpId),
    let q := s.qp n
    let space := (q.writeIndex + q.cqSize - q.head) % q.cqSize + 1 < q.cqSize
    (∀ (e : EntryId) (rest : List EntryId), n ≠ 0 → s.ctl.device = .ready ∨ s.ctl.device = .halted →
      s.inflight n = e :: rest → (s.entry e).state = .done → (s.entry e).qp = n → q.state ≠ .aborting → space →
      let record := transferRecord (s.entry e) q.lap
        (if (s.entry e).subIndex + 1 = q.sqSize then 0 else (s.entry e).subIndex + 1)
      let wraps := q.writeIndex + 1 = q.cqSize
      let t := (s.takeWrite (.memory .completion (q.cqBase + 16 * q.writeIndex) record)).setQp n
        { q with writeIndex := if wraps then 0 else q.writeIndex + 1, lap := if wraps then !q.lap else q.lap }
      let qualifies := q.notify = .all ∨ (q.notify = .flagged ∧ (s.entry e).notify = true)
      (qualifies →
        exec (.completionPost n) s = .next (((t.signal q.vector).setInflight n rest).setEntry e {}).settle) ∧
      (¬qualifies → exec (.completionPost n) s = .next ((t.setInflight n rest).setEntry e {}).settle)) ∧
    (n = 0 ∨ s.ctl.device = .disabled ∨ s.ctl.device = .stopping ∨ q.state = .aborting ∨ ¬space ∨
        (∀ e ∈ (s.inflight n).head?, (s.entry e).state ≠ .done) →
      exec (.completionPost n) s = .next s)

/-- ADMIN_COMPLETION_WRITE and EVENT_RECORD_WRITE (R159, R160, R167): while the device is READY and QP0's completion ring has
space, the completion a POSTING executor holds is written, and the executor becomes IDLE; the oldest event is written when
no completion waits, with the overflow flag, which it clears. Each record is handed over for the slot at QP0's write index,
which advances with the lap value, and signals QP0's vector (R146, R148). Otherwise nothing changes (log entry 5). -/
def Obligations.AdminRecordsWritten : Prop :=
  ∀ s : State,
    let q := s.qp 0
    let open_ := s.ctl.device = .ready ∧ (q.writeIndex + q.cqSize - q.head) % q.cqSize + 1 < q.cqSize
    let wraps := q.writeIndex + 1 = q.cqSize
    let written : List Byte → State := fun bytes =>
      ((s.takeWrite (.memory .adminRecord (q.cqBase + 16 * q.writeIndex) bytes)).setQp 0
        { q with writeIndex := if wraps then 0 else q.writeIndex + 1, lap := if wraps then !q.lap else q.lap }).signal q.vector
    (∀ c status info, s.au.executor = .posting c status info →
      exec .eventRecordWrite s = .next s ∧
      (open_ →
        exec .adminCompletionWrite s =
          .next
            ((written (commandRecord c status info q.lap (if c.subIndex + 1 = q.sqSize then 0 else c.subIndex + 1))).setExecutor
              .idle))) ∧
    ((∀ c status info, s.au.executor ≠ .posting c status info) →
      exec .adminCompletionWrite s = .next s ∧
      (s.au.events = [] → exec .eventRecordWrite s = .next s) ∧
      ∀ e rest, s.au.events = e :: rest → open_ →
        exec .eventRecordWrite s =
          .next { written (eventRecord e s.au.overflow q.lap q.fetchIndex) with au.events := rest, au.overflow := false }) ∧
    (¬open_ → exec .adminCompletionWrite s = .next s ∧ exec .eventRecordWrite s = .next s)

/-! ## Administration commands -/

/-- A fetched command is checked in the order of R157, with each command's own conditions (R36, R87 to R89, R99, R100, R103, R105,
R151, R152, R161): the first check that fails gives the status, with info 0, and a refused command changes nothing but the
executor. That DELETE_QUEUE of a DRAINING or ABORTING queue pair and SPOKE_RESET of a TRAINING or RESETTING spoke are refused with
WRONG_STATE is deduced (log entry 10). -/
def Obligations.CommandsCheckedInOrder : Prop :=
  ∀ (s : State) (p : PlaceId) (r : ReadInFlight) (head : CommandHead) (c : AdminCommand), s.CommandReadAt p r →
    s.ctl.device = .ready →
    let refused : AdminStatus → Result := fun status =>
      .next (afterRow c ((s.commandTaken p).setExecutor (.posting (s.heldOf head c) status 0)))
    (head.reserved = true → exec (c.row head) s = refused .badCommand) ∧
    (head.reserved = false → ¬s.ParamsOk c → exec (c.row head) s = refused .badParameter) ∧
    (head.reserved = false → s.ParamsOk c → s.Busy c → exec (c.row head) s = refused .inUse) ∧
    (head.reserved = false → s.ParamsOk c → ¬s.Busy c → s.Unfit c → exec (c.row head) s = refused .wrongState) ∧
    (head.reserved = false → s.ParamsOk c → ¬s.Busy c → ¬s.Unfit c → s.Collides c → exec (c.row head) s = refused .overlap)

/-- CREATE_QUEUE accepted (R151): the queue pair's record takes the command's fields and is RUNNING with empty rings and lap 1,
its posted-spoke set is emptied, and the completion is ready with info 0. -/
def Obligations.CreateQueueMakesRecord : Prop :=
  ∀ (s : State) (p : PlaceId) (r : ReadInFlight) (head : CommandHead) (c : CreateQueue) (n : QpId) (x : ContextId) (v : VectorId),
    s.CommandReadAt p r → s.ctl.device = .ready → s.Accepts head (.createQueue c) → c.qp.toNat = n.val →
    c.context.toNat = x.val → c.vector.toNat = v.val →
    exec (.createQueue head c) s =
      .next
        ((((s.commandTaken p).setQp n
            { state := .running, sqBase := c.sqBase.toNat, sqSize := c.sqSize.toNat, cqBase := c.cqBase.toNat
              cqSize := c.cqSize.toNat, context := x, depth := c.depth.toNat, vector := v
              notify := if c.notify = 0 then .none else if c.notify = 1 then .flagged else .all
              tail := 0, fetchIndex := 0, fetching := false, writeIndex := 0, head := 0, lap := true }).setPosted n
          (Vector.replicate 8 .absent)).setExecutor (.posting (s.heldOf head (.createQueue c)) .ok 0))

/-- DELETE_QUEUE accepted (R22, R152, R153). In mode DRAIN the queue pair becomes DRAINING; in mode ABORT it becomes ABORTING and
its entries are treated in list order: a GATED, FLUSHING or DONE one is freed, a RUNNING or WINDING one records its stop
offset and winds down, freed at once without live segments, and a FETCHING one stays. A freed fence's pending flush
requests are withdrawn and its outstanding ones orphaned (R109). The executor waits. -/
def Obligations.DeleteQueueStopsEntries : Prop :=
  (∀ (s : State) (p : PlaceId) (r : ReadInFlight) (head : CommandHead) (c : DeleteQueue) (n : QpId),
    s.CommandReadAt p r → s.ctl.device = .ready → s.Accepts head (.deleteQueue c) → c.qp.toNat = n.val →
    let t := (s.commandTaken p).setExecutor (.waiting (s.heldOf head (.deleteQueue c)))
    (c.mode = 0 → exec (.deleteQueue head c) s = .next (t.setQp n { s.qp n with state := .draining }).settle) ∧
    (c.mode = 1 →
      exec (.deleteQueue head c) s =
        .next ((s.inflight n).foldl State.abortEntry (t.setQp n { s.qp n with state := .aborting })).settle)) ∧
  ∀ (s : State) (e : EntryId),
    let x := s.entry e
    let freed := (s.setInflight x.qp ((s.inflight x.qp).erase e)).setEntry e {}
    let stopped := s.setEntry e { x with state := .winding, stop := some x.cursor }
    (x.state = .free ∨ x.state = .fetching → s.abortEntry e = s) ∧
    (x.state = .gated ∨ x.state = .done → s.abortEntry e = freed) ∧
    (x.state = .running ∨ x.state = .winding →
      (x.live = 0 → s.abortEntry e = freed) ∧ (x.live ≠ 0 → s.abortEntry e = stopped)) ∧
    (x.state = .flushing →
      ∃ spokes : Vector Spoke 8, s.abortEntry e = { freed with sp.spokes := spokes } ∧
        ∀ k : SpokeId, ∃ tags : Vector Tag 32,
          spokes[k] = { s.spoke k with flushList := (s.spoke k).flushList.filter (· ≠ e), tags := tags } ∧
          ∀ g : TagId, tags[g] =
            if (s.spoke k).tags[g] = .outstanding (.flush (some e)) then .outstanding (.flush none) else (s.spoke k).tags[g])

/-- SET_CONTEXT and CLEAR_CONTEXT accepted (R75, R87, R88): the context record takes the command's mode, and in TRANSLATE its page
size and directory, or the values after reset; the context's cache entries become invalid in the same step, and their
number is the info word. -/
def Obligations.ContextCommandsChangeRecord : Prop :=
  ∀ (s : State) (p : PlaceId) (r : ReadInFlight) (head : CommandHead) (c : AdminCommand) (n : ContextId) (x : Context),
    s.CommandReadAt p r → s.ctl.device = .ready → s.Accepts head c →
    ((∃ d : SetContext, c = .setContext d ∧ d.context.toNat = n.val ∧
        ((d.mode = 1 ∧ x = { mode := .bypass, pageSize := .k4, dirBase := 0, dirLength := 0 }) ∨
          (d.mode = 2 ∧
            x =
              { mode := .translate
                pageSize := if d.pageSize = 0 then .k4 else if d.pageSize = 1 then .k64 else .m2
                dirBase := d.dirBase.toNat, dirLength := d.dirLength.toNat }))) ∨
      ∃ b : Byte, c = .clearContext b ∧ b.toNat = n.val ∧ x = { mode := .off, pageSize := .k4, dirBase := 0, dirLength := 0 }) →
    ∃ (cache : Vector (Option CacheEntry) 32) (removed : List CacheId),
      exec (c.row head) s =
        .next
          ({ s.commandTaken p with tu.contexts := s.tu.contexts.set n x, tu.cache := cache }.setExecutor
            (.posting (s.heldOf head c) .ok removed.length)) ∧
      (∀ (j : CacheId) (e : CacheEntry), cache[j] = some e ↔ s.tu.cache[j] = some e ∧ e.key.context ≠ n) ∧
      removed.Nodup ∧ ∀ j : CacheId, j ∈ removed ↔ ∃ e, s.tu.cache[j] = some e ∧ e.key.context = n

/-- INVALIDATE_PAGES and INVALIDATE_CONTEXT accepted (R89 to R91): covered cache entries become invalid, covered walks stale, and
the segments that hold a covered translation and have not begun their host access take the retranslate mark; the
invalidation record counts the stale walks, the reads awaited and the entries removed. The executor waits. -/
def Obligations.InvalidationsMarkCovered : Prop :=
  ∀ (s : State) (p : PlaceId) (r : ReadInFlight) (head : CommandHead) (c : AdminCommand) (covers : Key → Prop),
    s.CommandReadAt p r → s.ctl.device = .ready → s.Accepts head c →
    ((∃ d : InvalidatePages, c = .invalidatePages d ∧ ∀ k, covers k ↔ k.context.val = d.context.toNat ∧
        d.first.toNat ≤ k.page ∧ k.page < d.first.toNat + d.count.toNat) ∨
      ∃ b : Byte, c = .invalidateContext b ∧ ∀ k, covers k ↔ k.context.val = b.toNat) →
    ∃ (cache : Vector (Option CacheEntry) 32) (walks : Vector (Option Walk) 4) (segments : Vector Segment 128)
        (removed : List CacheId) (stale : List WalkId) (awaited : List SegId),
      exec (c.row head) s =
        .next
          (State.settle
            { (s.commandTaken p).setExecutor (.waiting (s.heldOf head c)) with
              tu.cache := cache
              tu.walks := walks
              tu.invalidation := some { stale := stale.length, awaited := awaited, removed := removed.length }
              su.segments := segments }) ∧
      (∀ (j : CacheId) (e : CacheEntry), cache[j] = some e ↔ s.tu.cache[j] = some e ∧ ¬covers e.key) ∧
      removed.Nodup ∧ (∀ j : CacheId, j ∈ removed ↔ ∃ e, s.tu.cache[j] = some e ∧ covers e.key) ∧
      (∀ w : WalkId, (s.walk w = none → walks[w] = none) ∧
        ∀ x, s.walk w = some x →
          ∃ b, walks[w] = some { x with stale := b } ∧ (b = true ↔ x.stale = true ∨ covers x.key)) ∧
      stale.Nodup ∧ (∀ w : WalkId, w ∈ stale ↔ ∃ x, walks[w] = some x ∧ x.stale = true) ∧
      awaited.Nodup ∧
      (∀ i, i ∈ awaited ↔ (s.seg i).state = .hostReading ∧ ∃ k, (s.seg i).translation = some k ∧ covers k) ∧
      ∀ i : SegId,
        let x := s.seg i
        let kind := (s.entry x.entry).kind
        ∃ b, segments[i] = { x with retranslate := b } ∧
          (b = true ↔ x.retranslate = true ∨
            ((∃ k, x.translation = some k ∧ covers k) ∧
              ((kind = some .gather ∧ (x.state = .slotWait ∨ x.state = .issueWait ∨ x.state = .outstanding)) ∨
                (kind = some .scatter ∧ x.state = .slotWait))))

/-- SET_WINDOW and CLEAR_WINDOW accepted (R36, R37): the change becomes the pending one, with the window's present range and its
new one, the new contents, and the live segments counted that hold a route to an address in either range, each once. No
record changes yet; the executor waits. -/
def Obligations.WindowCommandsQuiesce : Prop :=
  ∀ (s : State) (p : PlaceId) (r : ReadInFlight) (head : CommandHead) (c : AdminCommand) (w : WindowId) (x : Window),
    s.CommandReadAt p r → s.ctl.device = .ready → s.Accepts head c →
    ((∃ d : SetWindow, c = .setWindow d ∧ d.window.toNat = w.val ∧ x.enabled = true ∧ x.base = d.base.toNat ∧
        x.size = d.size.toNat ∧ x.target.val = d.target.toNat ∧ x.form = (if d.form = 0 then .full else .loc) ∧
        x.access = (if d.access = 0 then .readWrite else if d.access = 1 then .readOnly else .writeDrop) ∧
        x.posted = d.posted) ∨
      ∃ b : Byte, c = .clearWindow b ∧ b.toNat = w.val ∧
        x = { enabled := false, base := 0, size := 0, target := 0, form := .full, access := .readWrite, posted := false }) →
    let range : Window → Option Range := fun y => if y.enabled = true then some { base := y.base, size := y.size } else none
    ∃ counted : List SegId,
      exec (c.row head) s =
        .next
          (State.settle
            { (s.commandTaken p).setExecutor (.waiting (s.heldOf head c)) with
              wu.quiesce := some
                { window := w, old := range (s.window w), new := range x, contents := x, waited := counted.length
                  counted := counted, held := [] } }) ∧
      counted.Nodup ∧
      ∀ i, i ∈ counted ↔
        let g := s.seg i
        let y := s.entry g.entry
        let to_ := if y.kind = some .relay then y.near + g.offset else y.fabric + g.offset
        g.state ≠ .retired ∧ ∃ q, (range (s.window w) = some q ∨ range x = some q) ∧
          ((g.source ≠ none ∧ (y.kind = some .gather ∨ y.kind = some .relay) ∧ y.fabric + g.offset < q.base + q.size ∧
              q.base < y.fabric + g.offset + g.length) ∨
            (g.destination ≠ none ∧ (y.kind = some .scatter ∨ y.kind = some .fill ∨ y.kind = some .relay) ∧
              to_ < q.base + q.size ∧ q.base < to_ + g.length))

/-- SET_BUNDLE accepted (R97, R99): the half takes its layout, its four spoke records take their values after reset, every route
into the half takes the earlier-layout mark, and the info word is the code of the layout the half held before (11.4). -/
def Obligations.SetBundleChangesLayout : Prop :=
  ∀ (s : State) (p : PlaceId) (r : ReadInFlight) (head : CommandHead) (h l : Byte),
    s.CommandReadAt p r → s.ctl.device = .ready → s.Accepts head (.setBundle h l) →
    let layouts : List Layout := [.single, .pairLow, .pairHigh, .pairBoth, .quad]
    let mark : Route → Route := fun r => { r with earlier := r.earlier || decide (r.spoke.val / 4 = h.toNat) }
    ∀ layout old : Layout, layouts[l.toNat]? = some layout → old = (if h = 0 then s.sp.low else s.sp.high) →
    ∃ (info : Nat) (spokes : Vector Spoke 8) (segments : Vector Segment 128), layouts[info]? = some old ∧
      exec (.setBundle head h l) s =
        .next
          ({ s.commandTaken p with
              sp.low := if h = 0 then layout else s.sp.low
              sp.high := if h = 0 then s.sp.high else layout
              sp.spokes := spokes
              su.segments := segments }.setExecutor (.posting (s.heldOf head (.setBundle h l)) .ok info)) ∧
      (∀ k : SpokeId, spokes[k] =
        if k.val / 4 = h.toNat then
          { state := .off, timeout := 0, grant := 0, credits := 0, tags := Vector.replicate 32 .free, attempt := 0
            linkErrors := 0, drainTimeouts := 0, flushList := [] }
        else s.spoke k) ∧
      ∀ i : SegId, segments[i] =
        { s.seg i with source := (s.seg i).source.map mark, destination := (s.seg i).destination.map mark }

/-- SPOKE_START accepted (R100, R101): the spoke's timeout is set and its error counts cleared. With carrier in present on every
member the first training attempt begins with a TRAIN, and the executor waits; with carrier in absent the completion is ready
with TRAIN_FAILED, CARRIER. SPOKE_STOP and SPOKE_RESET accepted (R103, R105). Stopping makes the spoke DRAINING with no
credits and no drain timeouts counted, and its waiting work ends with SPOKE_UNAVAILABLE. Resetting makes it RESETTING with no
credits; its outstanding requests and then its waiting work end with SPOKE_RESET, posted writes sent on it take the link-end
mark, and LINK_RESET is sent. The executor waits. -/
def Obligations.SpokeCommandsAct : Prop :=
  (∀ (s : State) (p : PlaceId) (r : ReadInFlight) (head : CommandHead) (c : SpokeStart) (k : SpokeId),
     s.CommandReadAt p r → s.ctl.device = .ready → s.Accepts head (.spokeStart c) → c.spoke.toNat = k.val →
     let h := s.heldOf head (.spokeStart c)
     let x := { s.spoke k with timeout := c.timeout, linkErrors := 0, drainTimeouts := 0 }
     ((∀ m : SpokeId, s.headOf m = k → s.sp.carrierIn[m] = true) →
       exec (.spokeStart head c) s =
         .next
           ((((s.commandTaken p).setExecutor (.waiting h)).setSpoke k { x with state := .training, attempt := 1 }).sendFrame k
             .train)) ∧
     ((∃ m : SpokeId, s.headOf m = k ∧ s.sp.carrierIn[m] = false) →
       exec (.spokeStart head c) s = .next (((s.commandTaken p).setSpoke k x).setExecutor (.posting h .trainFailed 1)))) ∧
  ∀ (s : State) (p : PlaceId) (r : ReadInFlight) (head : CommandHead) (b : Byte) (k : SpokeId),
    s.CommandReadAt p r → s.ctl.device = .ready → b.toNat = k.val →
    (s.Accepts head (.spokeStop b) →
      exec (.spokeStop head b) s =
        .next
          (((((s.commandTaken p).setExecutor (.waiting (s.heldOf head (.spokeStop b)))).setSpoke k
              { s.spoke k with state := .draining, credits := 0, drainTimeouts := 0 }).failWaiting k
            .spokeUnavailable).settle)) ∧
    (s.Accepts head (.spokeReset b) →
      exec (.spokeReset head b) s =
        .next
          ((((((s.commandTaken p).setExecutor (.waiting (s.heldOf head (.spokeReset b)))).setSpoke k
              { s.spoke k with state := .resetting, credits := 0 }).endOutstanding k .spokeReset).failWaiting k
            .spokeReset).markPosted k .spokeReset |>.sendFrame k .linkReset).settle)

/-- QUERY accepted (R161): the snapshot of the subject as it stands in that step is handed over as a posted write, and the
completion is ready with its length: 64 bytes for a SPOKE, 64 and 32 for each entry in flight for a QUEUE, 256 for the
WINDOWS, 64 for a CONTEXT. -/
def Obligations.QueryWritesSnapshot : Prop :=
  ∀ (s : State) (p : PlaceId) (r : ReadInFlight) (head : CommandHead) (c : Query) (bytes : List Byte) (len : Nat),
    s.CommandReadAt p r → s.ctl.device = .ready → s.Accepts head (.query c) →
    let t := s.commandTaken p
    ((∃ k : SpokeId, c.subject = 0 ∧ c.object.toNat = k.val ∧ bytes = t.spokeSnapshot k ∧ len = 64) ∨
      (∃ n : QpId, c.subject = 1 ∧ c.object.toNat = n.val ∧ bytes = t.queueSnapshot n ∧ len = 64 + 32 * (s.inflight n).length) ∨
      (c.subject = 2 ∧ bytes = t.windowsSnapshot ∧ len = 256) ∨
      ∃ x : ContextId, c.subject = 3 ∧ c.object.toNat = x.val ∧ bytes = t.contextSnapshot x ∧ len = 64) →
    bytes.length = len ∧
      exec (.query head c) s =
        .next
          ((t.takeWrite (.memory .snapshot c.buffer.toNat bytes)).setExecutor (.posting (s.heldOf head (.query c)) .ok len))

/-- The snapshots carry the contents of 11.7 at their positions, little-endian, with 0 in every byte that is no field (R162 to R164,
R182); a number is written by its low bytes, which hold
every value the records allow. -/
def Obligations.SnapshotsHoldTheirFields : Prop :=
  (∀ (s : State) (k : SpokeId),
    let r := s.spokeSnapshot k
    let x := s.spoke k
    r.length = 64 ∧ field r 0 1 = k.val ∧
      ([.off, .training, .up, .draining, .faulted, .resetting] : List SpokeState)[field r 1 1]? = some x.state ∧
      ([.single, .pairLow, .pairHigh, .pairBoth, .quad] : List Layout)[field r 2 1]? =
        some (if k.val < 4 then s.sp.low else s.sp.high) ∧
      ((field r 3 1).testBit 0 = true ↔ ∀ m : SpokeId, s.headOf m = k → s.sp.carrierIn[m] = true) ∧
      ((field r 3 1).testBit 1 = true ↔ (s.spoke (s.headOf k)).state ≠ .off) ∧
      ((field r 3 1).testBit 2 = true ↔ x.state = .up ∧ x.credits = 0 ∧ (s.issue k ≠ [] ∨ x.flushList ≠ [])) ∧
      field r 3 1 < 8 ∧ field r 4 2 = x.timeout.toNat ∧ field r 6 1 = x.grant % 256 ∧ field r 7 1 = x.credits % 256 ∧
      field r 8 1 = ((List.finRange 32).filter fun g => ((x.tags[g] : Tag).isOutstanding)).length ∧
      field r 9 1 = ((List.finRange 32).filter fun g => x.tags[g] = .quarantined).length ∧
      field r 10 1 = x.linkErrors % 256 ∧ field r 11 1 = x.drainTimeouts % 256 ∧ field r 12 1 = x.attempt % 256 ∧
      field r 13 1 = x.flushList.length % 256 ∧ field r 14 2 = (s.issue k).length % 65536 ∧ field r 16 48 = 0) ∧
  (∀ (s : State) (n : QpId),
    let r := s.queueSnapshot n
    let q := s.qp n
    r.length = 64 + 32 * (s.inflight n).length ∧ field r 0 1 = n.val ∧
      ([.empty, .running, .failed, .draining, .aborting] : List QpState)[field r 1 1]? = some (s.qpState n) ∧
      field r 2 1 = q.context.val ∧ field r 3 1 = q.depth % 256 ∧ field r 4 1 = q.vector.val ∧
      ([.none, .flagged, .all] : List Notify)[field r 5 1]? = some q.notify ∧ field r 6 1 < 16 ∧
      (field r 6 1).testBit 0 = q.fetching ∧ (field r 6 1).testBit 1 = q.lap ∧
      ((field r 6 1).testBit 2 = true ↔ s.qe.arms[q.vector] = .fired) ∧
      (field r 6 1).testBit 3 = s.hp.messagePending[q.vector] ∧
      (∀ k : SpokeId, (field r 7 1).testBit k.val = true ↔ (s.posted n)[k] ≠ .absent) ∧
      field r 8 2 = q.sqSize % 65536 ∧ field r 10 2 = q.cqSize % 65536 ∧ field r 12 2 = q.tail % 65536 ∧
      field r 14 2 = q.fetchIndex % 65536 ∧ field r 16 2 = q.writeIndex % 65536 ∧ field r 18 2 = q.head % 65536 ∧
      field r 20 2 = (q.writeIndex + q.cqSize - q.head) % q.cqSize % 65536 ∧
      field r 22 2 = (q.tail + q.sqSize - q.fetchIndex) % q.sqSize % 65536 ∧
      field r 24 1 = (s.inflight n).length % 256 ∧ field r 25 1 = s.held n % 256 ∧ field r 26 6 = 0 ∧
      field r 32 8 = q.sqBase % 2 ^ 64 ∧ field r 40 8 = q.cqBase % 2 ^ 64 ∧ field r 48 16 = 0 ∧
      ∀ (j : Nat) (e : EntryId), (s.inflight n)[j]? = some e →
        let b := (r.drop (64 + 32 * j)).take 32
        let x := s.entry e
        field b 0 1 = e.val ∧
          ([.free, .fetching, .gated, .running, .winding, .flushing, .done] : List EntryState)[field b 1 1]? = some x.state ∧
          ([none, some .gather, some .scatter, some .relay, some .fill, some .fence, some .mark] : List (Option Kind))[field b 2
            1]? = some x.kind ∧
          field b 3 1 < 32 ∧ (field b 3 1).testBit 0 = x.ordered ∧ (field b 3 1).testBit 1 = x.notify ∧
          (field b 3 1).testBit 2 = x.dropped ∧ (field b 3 1).testBit 3 = x.failed.isSome ∧
          (field b 3 1).testBit 4 = x.stop.isSome ∧ field b 4 2 = x.subIndex % 65536 ∧ field b 6 1 = x.live % 256 ∧
          field b 7 1 = x.flushes % 256 ∧ field b 8 4 = x.tag.toNat ∧ field b 12 3 = x.length % 2 ^ 24 ∧
          ([.ok, .badDescriptor, .unmapped, .windowAccess, .translationFault, .hostReadError, .spokeUnavailable, .spokeTimeout,
            .spokeReset, .linkLost, .targetError, .noTarget] : List Status)[field b 15 1]? = some x.outcome.status ∧
          field b 16 3 = x.cursor % 2 ^ 24 ∧
          field b 19 3 = ((x.failed.map LowestFailure.offset).getD 0) % 2 ^ 24 ∧ field b 22 3 = x.stop.getD 0 % 2 ^ 24 ∧
          field b 25 3 = x.bytesDone % 2 ^ 24 ∧ field b 28 2 = x.outcome.detail % 65536 ∧ field b 30 2 = 0) ∧
  (∀ (s : State) (w : WindowId),
    let r := s.windowsSnapshot
    let b := (r.drop (32 * w.val)).take 32
    let x := s.window w
    r.length = 256 ∧ field b 0 1 = w.val ∧ field b 1 1 = (if x.enabled = true then 1 else 0) ∧ field b 2 1 = x.target.val ∧
      ([.full, .loc] : List Form)[field b 3 1]? = some x.form ∧
      ([.readWrite, .readOnly, .writeDrop] : List Access)[field b 4 1]? = some x.access ∧
      field b 5 1 = (if x.posted = true then 1 else 0) ∧ field b 6 2 = 0 ∧ field b 8 8 = x.base % 2 ^ 64 ∧
      field b 16 8 = x.size % 2 ^ 64 ∧ field b 24 8 = 0) ∧
  ∀ (s : State) (c : ContextId),
    let r := s.contextSnapshot c
    let x := s.context c
    r.length = 64 ∧ field r 0 1 = c.val ∧ ([.off, .bypass, .translate] : List ContextMode)[field r 1 1]? = some x.mode ∧
      ([.k4, .k64, .m2] : List PageSize)[field r 2 1]? = some x.pageSize ∧ field r 3 1 = 0 ∧
      field r 4 4 = x.dirLength % 2 ^ 32 ∧ field r 8 8 = x.dirBase % 2 ^ 64 ∧
      field r 16 1 = ((List.finRange 32).filter fun j => (s.tu.cache[j]).any fun e => e.key.context == c).length ∧
      field r 17 1 = ((List.finRange 4).filter fun w => (s.walk w).any fun e => e.key.context == c).length ∧
      field r 18 1 =
        ((List.finRange 16).filter fun n => decide (n ≠ 0 ∧ (s.qp n).state ≠ .empty ∧ (s.qp n).context = c)).length ∧
      field r 19 1 = s.tu.victim.val ∧ field r 20 1 = ((List.finRange 32).filter fun j => (s.tu.cache[j]).isSome).length ∧
      field r 21 43 = 0

/-! ## Walks -/

/-- The read of a walk ends (R78, R79, R81, R84, R85, R92). With data, a present entry of a walk that is not stale is installed in
the lowest-numbered invalid cache entry, or in the one the victim pointer names, which then advances; every joined segment is
answered in order, with the retranslate mark when the walk is stale. With HOST_READ_ERROR every joined segment retires, detail
DIRECTORY. Then the place is free, a stale walk is counted as ended, and the wait list is served from its head. The slots that an
answer frees, or makes a waiter for, are granted before the next one (R64), and the ended walk takes no segment any more: what
stands between two answers is the model's (log entry 18). WALK_START and the steps it and a stale walk share (R46, R47, R83, R84,
R86). A segment whose page lies in its context's directory, come to on the wait list, leaves it and does what a segment that asks
does, if the cache or a walk that is not stale holds its key or a place is free, and keeps its place otherwise. A segment
answered by a stale walk retires on a fault; with a
translation it takes the retranslate mark and goes to the slot wait list, or asks again at once when it holds a slot. The row
serves the wait list while a walk place is free; otherwise nothing changes (log entry 5). -/
def Obligations.WalksEndAndServeWaiters : Prop :=
  (∀ (s : State) (w : WalkId) (x : Walk) (r : ReadInFlight), r.request.requester = .walk w → s.walk w = some x →
     let size : Nat := match (s.context x.key.context).pageSize with
       | .k4 => 4096
       | .k64 => 65536
       | .m2 => 2097152
     let v := field r.buffer 0 8
     let frame := v / 4096
     let present := v.testBit 0 = true ∧ size * frame < 2 ^ 64
     let entry : CacheEntry := { key := x.key, frame := frame, readable := v.testBit 1, writable := v.testBit 2 }
     let answer : State → SegId → TransAnswer := fun t i =>
       let y := t.entry (t.seg i).entry
       if present then
         if (if y.kind = some .gather then v.testBit 2 else v.testBit 1) = true then
           .translated (frame * size + (y.near + (t.seg i).offset) % size) (some x.key)
         else .failed { status := .translationFault, detail := 3 }
       else .failed { status := .translationFault, detail := 2 }
     let close : State → State := fun t =>
       let t := t.setWalk w none
       let t : State :=
         if x.stale = true then { t with tu.invalidation := t.tu.invalidation.map fun c => { c with stale := c.stale - 1 } } else t
       t.tu.walkWait.foldl (fun t i => (t.serveWaiter i).grantSlots) t
     let ended := s.setWalk w (some { x with stale := true, joined := [] })
     s.readEnd r false =
       close (x.joined.foldl (fun t i => (t.retire i (.failure { status := .hostReadError, detail := 1 })).grantSlots) ended) ∧
     (x.stale = true →
       s.readEnd r true = close (x.joined.foldl (fun t i => (t.takeStaleAnswer i (answer t i)).grantSlots) ended)) ∧
     (x.stale = false →
       let answered : State → State := fun t => close (x.joined.foldl (fun t i => (t.takeAnswer i (answer t i)).grantSlots) t)
       (¬present → s.readEnd r true = answered ended) ∧
       (present →
         (∀ c : CacheId, s.tu.cache[c] = none → (∀ d : CacheId, d < c → s.tu.cache[d] ≠ none) →
           s.readEnd r true = answered { ended with tu.cache := s.tu.cache.set c (some entry) }) ∧
         ((∀ c : CacheId, s.tu.cache[c] ≠ none) →
           s.readEnd r true =
             answered { ended with tu.cache := s.tu.cache.set s.tu.victim (some entry), tu.victim := s.tu.victim + 1 })))) ∧
  (∀ (s : State) (i : SegId),
    let id := (s.qp (s.entry (s.seg i).entry).qp).context
    let c := s.context id
    let size : Nat := match c.pageSize with
      | .k4 => 4096
      | .k64 => 65536
      | .m2 => 2097152
    let page := ((s.entry (s.seg i).entry).near + (s.seg i).offset) / size
    let key : Key := { context := id, page := page }
    let served := (∃ (j : CacheId) (e : CacheEntry), s.tu.cache[j] = some e ∧ e.key = key) ∨
      (∃ (w : WalkId) (y : Walk), s.walk w = some y ∧ y.key = key ∧ y.stale = false) ∨ ∃ w : WalkId, s.walk w = none
    c.mode = .translate → page < c.dirLength →
      (served → s.serveWaiter i = State.ask { s with tu.walkWait := s.tu.walkWait.erase i } i) ∧
      (¬served → s.serveWaiter i = s)) ∧
  (∀ (s : State) (i : SegId),
    (∀ f, s.takeStaleAnswer i (.failed f) = s.retire i (.failure f)) ∧
    ∀ (h : Nat) (key : Option Key),
      ((s.seg i).slot = none →
        s.takeStaleAnswer i (.translated h key) =
          (s.setWaiting (s.rb.waiting ++ [i])).setSeg i
            { s.seg i with host := some h, translation := key, retranslate := true, state := .slotWait }) ∧
      ((s.seg i).slot ≠ none →
        s.takeStaleAnswer i (.translated h key) =
          (s.setSeg i
            { s.seg i with state := .translating, host := none, translation := none, retranslate := false }).ask i)) ∧
  ∀ s : State,
    ((∃ w, s.walk w = none) → s.tu.walkWait ≠ [] →
      exec .walkStart s = .next (s.tu.walkWait.foldl (fun t i => (t.serveWaiter i).grantSlots) s)) ∧
    ((∀ w, s.walk w ≠ none) ∨ s.tu.walkWait = [] → exec .walkStart s = .next s)

/-! ## Gates and generation -/

/-- GATE_RELEASE (R9): a GATED entry of a data kind goes to RUNNING when no FENCE ahead of it in its in-flight list is in any
state but DONE and, if it carries ORDERED, every entry ahead is DONE. Otherwise nothing changes (log entry 5). FENCE_START
(R10, R12): a GATED FENCE starts when every entry ahead of it is DONE. It takes and clears its queue pair's posted-spoke set;
each member without a mark that is an UP logical spoke takes a flush request at the tail of its flush list and is counted;
every other member fails, with its mark's status or SPOKE_UNAVAILABLE, the lowest-numbered one's being kept (R11). The entry
goes to FLUSHING, or to DONE when no flush request was handed. Otherwise nothing changes (log entry 5). -/
def Obligations.GatesOpenInOrder : Prop :=
  (∀ (s : State) (e : EntryId) (a b : List EntryId), s.inflight (s.entry e).qp = a ++ e :: b → e ∉ a →
     let x := s.entry e
     let released := x.state = .gated ∧ (x.kind = some .gather ∨ x.kind = some .scatter ∨ x.kind = some .relay ∨ x.kind = some .fill) ∧
       (∀ f ∈ a, (s.entry f).kind = some .fence → (s.entry f).state = .done) ∧
       (x.ordered = true → ∀ f ∈ a, (s.entry f).state = .done)
     (released → exec (.gateRelease e) s = .next (s.setEntry e { x with state := .running })) ∧
       (¬released → exec (.gateRelease e) s = .next s)) ∧
  ∀ (s : State) (e : EntryId) (a b : List EntryId), s.inflight (s.entry e).qp = a ++ e :: b → e ∉ a →
    let x := s.entry e
    let starts := x.state = .gated ∧ x.kind = some .fence ∧ ∀ f ∈ a, (s.entry f).state = .done
    (¬starts → exec (.fenceStart e) s = .next s) ∧
    (starts →
      ∃ (spokes : Vector Spoke 8) (failed : Option LowestFailure) (flushed : List SpokeId),
        exec (.fenceStart e) s =
          .next
            (({ s with sp.spokes := spokes }.setPosted x.qp (Vector.replicate 8 .absent)).setEntry e
              { x with
                failed := failed
                flushes := x.flushes + flushed.length
                state := if x.flushes + flushed.length = 0 then .done else .flushing }) ∧
        flushed.Nodup ∧ (∀ k, k ∈ flushed ↔ s.memberFlushes x.qp k = true) ∧
        (∀ k : SpokeId, spokes[k] =
          { s.spoke k with
            flushList := if s.memberFlushes x.qp k = true then (s.spoke k).flushList ++ [e] else (s.spoke k).flushList }) ∧
        ((∀ k, s.memberFails x.qp k = none) → failed = x.failed) ∧
        ∀ (k : SpokeId) (status : Status), s.memberFails x.qp k = some status →
          (∀ j, j < k → s.memberFails x.qp j = none) → failed = x.recordSpoke k status)

/-- GENERATION_GRANT (R13, R35, R43): the RUNNING entry with fewer than 16 live segments that is next in turn is granted the
lowest-numbered RETIRED record. The segment runs from the cursor to the nearest of the split points: 256 bytes, the end of
the transfer, the next multiple of 4 KiB of IOVA on a host side, and the resolution boundary of each fabric side. The
cursor advances, the live segment count rises, an entry wholly generated goes to WINDING, and the segment asks for
resolution. With no candidate or no record nothing changes (log entry 5). -/
def Obligations.GenerationCutsNextSegment : Prop :=
  ∀ s : State,
    let candidate : EntryId → Prop := fun e => (s.entry e).state = .running ∧ (s.entry e).live < 16
    (∀ (e : EntryId) (i : SegId) (len : Nat), candidate e →
      (∀ f, candidate f → grantTurn s.su.grantPtr e ≤ grantTurn s.su.grantPtr f) → (s.seg i).state = .retired →
      (∀ j, j < i → (s.seg j).state ≠ .retired) →
      let x := s.entry e
      let from_ := x.fabric + x.cursor
      let to_ := if x.kind = some .relay then x.near + x.cursor else x.fabric + x.cursor
      IsLeast
        {n | n = 256 ∨ n = x.length - x.cursor ∨
          ((x.kind = some .gather ∨ x.kind = some .scatter) ∧ n = 4096 - (x.near + x.cursor) % 4096) ∨
          ((x.kind = some .gather ∨ x.kind = some .relay) ∧ n = s.boundaryAt from_ - from_) ∨
          ((x.kind = some .scatter ∨ x.kind = some .fill ∨ x.kind = some .relay) ∧ n = s.boundaryAt to_ - to_)} len →
      exec .generationGrant s =
        .next
          ((({ s with su.grantPtr := e }.setSeg i
                { entry := e, offset := x.cursor, length := len, leg := .source, source := none, destination := none
                  host := none, translation := none, retranslate := false, slot := none, tag := none, state := .resolving }).setEntry
              e
              { x with
                cursor := x.cursor + len
                live := x.live + 1
                state := if x.cursor + len = x.length then .winding else .running }).requestResolution i).settle) ∧
    ((∀ e, ¬candidate e) ∨ (∀ i, (s.seg i).state ≠ .retired) → exec .generationGrant s = .next s)

/-! ## Sending -/

/-- REQUEST_SEND (R4, R51, R109, R123): the head of an UP spoke's issue list is sent when a credit is available, a tag too if it
is not a posted write, and no flush request can go before it. It leaves the list and takes a credit. A read and a non-posted
write take the lowest-numbered free tag and are outstanding; a write carries its slot's bytes, or a FILL's pattern from its
offset, and frees its slot; a posted write retires as sent. Otherwise nothing changes (log entry 5). FLUSH_SEND (R109, R124):
the head flush request of an UP spoke is sent as a FLUSH with a credit and the lowest-numbered free tag, and is outstanding
for its fence. Otherwise nothing changes (log entry 5). -/
def Obligations.SpokeSendsHeads : Prop :=
  (∀ (s : State) (k : SpokeId),
     let x := s.spoke k
     let free : TagId → Prop := fun g => x.tags[g] = .free ∧ ∀ h : TagId, h < g → x.tags[h] ≠ .free
     (x.state ≠ .up ∨ x.credits = 0 ∨ s.issue k = [] ∨ (x.flushList ≠ [] ∧ ∃ g : TagId, x.tags[g] = .free) →
       exec (.requestSend k) s = .next s) ∧
     ∀ (i : SegId) (rest : List SegId) (r : Route), x.state = .up → 0 < x.credits → s.issue k = i :: rest →
       x.flushList = [] ∨ (∀ g : TagId, x.tags[g] ≠ .free) →
       let y := s.entry (s.seg i).entry
       let reads := y.kind = some .gather ∨ (y.kind = some .relay ∧ (s.seg i).leg = .source)
       (if reads then (s.seg i).source = some r else (s.seg i).destination = some r) →
       let payload : List Byte :=
         if y.kind = some .fill then
           (List.range (s.seg i).length).map fun j => BitVec.ofNat 8 (y.near / 256 ^ (((s.seg i).offset + j) % 4))
         else match (s.seg i).slot with
           | some j => (s.slot j).data.take (s.seg i).length
           | none => []
       let left := s.setIssue k rest
       (¬reads → r.posted = true →
         exec (.requestSend k) s =
           .next
             (((left.setSpoke k { x with credits := x.credits - 1 }).sendFrame k (.writeRequest none r.address payload)).retire i
               (.success false (some k)))) ∧
       (reads ∨ r.posted = false → (∀ g : TagId, x.tags[g] ≠ .free) → exec (.requestSend k) s = .next s) ∧
       (reads → ∀ g : TagId, free g →
         exec (.requestSend k) s =
           .next
             (((left.setSeg i { s.seg i with state := .outstanding, tag := some g }).setSpoke k
               { x with credits := x.credits - 1, tags := x.tags.set g (.outstanding (.read i)) }).sendFrame k
               (.readRequest g r.address (s.seg i).length))) ∧
       (¬reads → r.posted = false → ∀ g : TagId, free g →
         let sent := ((left.setSeg i { s.seg i with state := .outstanding, tag := some g, slot := none }).setSpoke k
           { x with credits := x.credits - 1, tags := x.tags.set g (.outstanding (.write i)) }).sendFrame k
           (.writeRequest (some g) r.address payload)
         ((s.seg i).slot = none → exec (.requestSend k) s = .next sent) ∧
         ∀ j, (s.seg i).slot = some j →
           exec (.requestSend k) s = .next ((sent.setSlot j { s.slot j with holder := none }).setHeld y.qp (s.held y.qp - 1)))) ∧
  ∀ (s : State) (k : SpokeId),
    let x := s.spoke k
    (∀ (e : EntryId) (rest : List EntryId) (g : TagId), x.state = .up → 0 < x.credits → x.flushList = e :: rest →
      x.tags[g] = .free → (∀ h : TagId, h < g → x.tags[h] ≠ .free) →
      exec (.flushSend k) s =
        .next
          ((s.setSpoke k
            { x with credits := x.credits - 1, flushList := rest, tags := x.tags.set g (.outstanding (.flush (some e))) }).sendFrame
            k (.flush g))) ∧
    (x.state ≠ .up ∨ x.credits = 0 ∨ x.flushList = [] ∨ (∀ g : TagId, x.tags[g] ≠ .free) → exec (.flushSend k) s = .next s)

/-! ## The ends of long commands -/

/-- WINDOW_CHANGE_APPLY, INVALIDATION_COMPLETE, QUEUE_DELETE_COMPLETE and DRAIN_COMPLETE (R40, R92, R103, R152, R153). A pending
change whose counted segments have all retired is applied: the record takes its contents, the held segments are answered in
order, each with the slot grants it brings about (log entry 24), and the info word is the count at acceptance. An invalidation without stale walks and awaited reads ends with the
number of entries removed. A deleting queue pair with an empty list and no fetch outstanding becomes EMPTY, with its fetch
index, but for one that STOPPING abandoned (log entry 11). A DRAINING spoke with no outstanding tag enters OFF, with its drain
timeout count. Otherwise nothing changes (log entry 5). The end of a long command is reported to the executor (R158): the one
that WAITs on it holds its completion with the status and info word; an executor that does not wait on that command is left as
it is. -/
def Obligations.LongCommandsEnd : Prop :=
  (∀ s : State,
     (∀ q, s.wu.quiesce = some q → q.counted = [] →
       exec .windowChangeApply s =
         .next
           ((q.held.foldl (fun (t : State) i => (t.takeResolution i (t.answerFor i)).grantSlots)
             { s with wu := { windows := s.wu.windows.set q.window q.contents, quiesce := none } }).endCommand [0x07, 0x08] 0 .ok
             q.waited)) ∧
     ((∀ q, s.wu.quiesce = some q → q.counted ≠ []) → exec .windowChangeApply s = .next s) ∧
     (∀ v, s.tu.invalidation = some v → v.stale = 0 → v.awaited = [] →
       exec .invalidationComplete s =
         .next (State.endCommand { s with tu.invalidation := none } [0x05, 0x06] 0 .ok v.removed)) ∧
     ((∀ v, s.tu.invalidation = some v → v.stale ≠ 0 ∨ v.awaited ≠ []) → exec .invalidationComplete s = .next s) ∧
     (∀ n : QpId,
       let ends := n ≠ 0 ∧ s.ctl.device ≠ .stopping ∧ ((s.qp n).state = .draining ∨ (s.qp n).state = .aborting) ∧
         s.inflight n = [] ∧ (s.qp n).fetching = false
       (ends →
         exec (.queueDeleteComplete n) s =
           .next
             (((s.setQp n {}).setPosted n (Vector.replicate 8 .absent)).endCommand [0x02] n.val .ok (s.qp n).fetchIndex)) ∧
       (¬ends → exec (.queueDeleteComplete n) s = .next s)) ∧
     ∀ k : SpokeId,
       let ends := (s.spoke k).state = .draining ∧ ∀ (g : TagId) (r : Request), (s.spoke k).tags[g] ≠ .outstanding r
       (ends →
         exec (.drainComplete k) s =
           .next ((s.enterOff k .spokeUnavailable).endCommand [0x0B] k.val .ok (s.spoke k).drainTimeouts)) ∧
       (¬ends → exec (.drainComplete k) s = .next s)) ∧
  ∀ (s : State) (opcodes : List Byte) (object : Nat) (status : AdminStatus) (info : Nat),
    (∀ c, s.au.executor = .waiting c → c.opcode ∈ opcodes → c.object = object →
      s.endCommand opcodes object status info = s.setExecutor (.posting c status info)) ∧
    ((∀ c, s.au.executor = .waiting c → c.opcode ∉ opcodes ∨ c.object ≠ object) →
      s.endCommand opcodes object status info = s)

/-! ## What the ends of a spoke's requests do -/

/-- One flush request ends (R11), and posted writes lose their link (R12). A FLUSHING fence's count falls by one, it keeps the
status of the lowest-numbered failing spoke, and goes to DONE at 0; an entry that is not FLUSHING takes no end, and an
orphaned flush request reports to none (R109): whatever it ends with, nothing changes. At a link's end every member with its number and a clear mark is marked in
every posted-spoke set. A spoke that enters OFF has grant, credits and training attempt 0 and every tag free (R98), and its posted
writes lose their link; of the messages sent and the posted writes nothing is lost from the record of what has left (what a
member has not sent of a frame is cut short, FramesCrossTheLink). -/
def Obligations.FlushAndPostedEnds : Prop :=
  (∀ (s : State) (e : EntryId) (k : SpokeId) (status : Option Status),
    let x := s.entry e
    (x.state ≠ .flushing → s.endFlush e k status = s) ∧
    (x.state = .flushing →
      s.endFlush e k status =
        s.setEntry e
          { x with
            flushes := x.flushes - 1
            failed :=
              (match status with
                | some st => if (∃ l ∈ x.failed, l.failure.detail ≤ k.val) then x.failed
                  else some { offset := 0, failure := { status := st, detail := k.val } }
                | none => x.failed)
            state := if x.flushes ≤ 1 then .done else .flushing })) ∧
  (∀ (s : State) (k : SpokeId) (status : Status),
    s.endRequest k (.flush none) status = s ∧ ∀ e, s.endRequest k (.flush (some e)) status = s.endFlush e k (some status)) ∧
  ∀ (s : State) (k : SpokeId) (status : Status),
    ∃ posted : Vector (Vector Posted 8) 16, s.markPosted k status = { s with tt.posted := posted } ∧
      (∀ (n : QpId) (j : SpokeId), (posted[n])[j] =
        if j = k ∧ (s.posted n)[j] = .member then .marked status else (s.posted n)[j]) ∧
      ∃ wire : Wire, wire.frames = s.wire.frames ∧ wire.writes = s.wire.writes ∧ wire.cuts = s.wire.cuts + 1 ∧
        s.enterOff k status =
          { (s.setSpoke k
              { s.spoke k with
                state := .off, grant := 0, credits := 0, attempt := 0, tags := Vector.replicate 32 .free }).markPosted k status with
            wire := wire }

/-- The waiting work of a spoke ends (R52, R103, R104): every segment of its issue list retires with the status, from the head to
the tail, then every pending flush request ends with it. The outstanding requests of a spoke end (R55, R105, R106, R109): each
ends with the status, in tag order (the order is the model's, log entry 18), a segment retiring and a flush request reported to
its fence; every tag, the quarantined ones too, becomes free. A slot that a segment frees is granted before the next one ends
(R64). The two lists of a spoke that is not UP are empty then, and no segment that a grant takes on has joined them. The segments
that end are RETIRED; of the others only those on the slot wait list, which the grants take on, change; another spoke's issue list
only grows, and not while that spoke is not UP (R50); and nothing is sent. -/
def Obligations.SpokeWorkEnds : Prop :=
  (∀ (s : State) (k : SpokeId) (status : Status),
     let u := s.failWaiting k status
     let retired := (s.issue k).foldl
       (fun (t : State) i => (t.retire i (.failure { status := status, detail := k.val })).grantSlots) (s.setIssue k [])
     u = (s.spoke k).flushList.foldl (fun (t : State) e => t.endFlush e k (some status))
         (retired.setSpoke k { s.spoke k with flushList := [] }) ∧
       u.spoke k = { s.spoke k with flushList := [] } ∧ (∀ j, j ≠ k → u.spoke j = s.spoke j) ∧
       ((s.spoke k).state ≠ .up → u.issue k = []) ∧
       (∀ j, j ≠ k → ∃ l, u.issue j = s.issue j ++ l ∧ ((s.spoke j).state ≠ .up → l = [])) ∧
       (∀ i ∈ s.issue k, i ∉ s.rb.waiting → u.seg i = {}) ∧
       (∀ i, i ∉ s.issue k → i ∉ s.rb.waiting → u.seg i = s.seg i) ∧
       u.wire = s.wire ∧ u.hp.writes = s.hp.writes ∧ u.au = s.au ∧ s.Elsewhere u) ∧
  ∀ (s : State) (k : SpokeId) (status : Status),
    let end_ : State → TagId → State := fun t g =>
      match (s.spoke k).tags[g] with
      | .outstanding (.read i) => (t.retire i (.failure { status := status, detail := k.val })).grantSlots
      | .outstanding (.write i) => (t.retire i (.failure { status := status, detail := k.val })).grantSlots
      | .outstanding (.flush (some e)) => (t.endFlush e k (some status)).grantSlots
      | .outstanding (.flush none) => t.grantSlots
      | _ => t
    let ended : SegId → Prop := fun i => ∃ g : TagId,
      (s.spoke k).tags[g] = .outstanding (.read i) ∨ (s.spoke k).tags[g] = .outstanding (.write i)
    let u := s.endOutstanding k status
    u = (List.finRange 32).foldl end_ (s.setSpoke k { s.spoke k with tags := Vector.replicate 32 .free }) ∧
      u.spoke k = { s.spoke k with tags := Vector.replicate 32 .free } ∧ (∀ j, j ≠ k → u.spoke j = s.spoke j) ∧
      (∀ j, ∃ l, u.issue j = s.issue j ++ l ∧ ((s.spoke j).state ≠ .up → l = [])) ∧
      (∀ i, ended i → i ∉ s.rb.waiting → u.seg i = {}) ∧ (∀ i, ¬ended i → i ∉ s.rb.waiting → u.seg i = s.seg i) ∧
      u.wire = s.wire ∧ u.hp.writes = s.hp.writes ∧ u.au = s.au ∧ s.Elsewhere u

/-- A fault and a link error (R104, R115, R116). A faulted spoke has no credits, its waiting work ends with SPOKE_UNAVAILABLE, and
SPOKE_FAULTED is raised. A link error is counted in UP, DRAINING and FAULTED, up to 16; the sixteenth faults an UP spoke; in
OFF, TRAINING and RESETTING none is counted. RESPONSE_TIMER_EXPIRY and CREDIT_WAIT_TIMER_EXPIRY (R55, R104, R109 to R111). The
request of an outstanding tag ends with SPOKE_TIMEOUT and the tag is quarantined; an UP spoke is faulted with TIMEOUT, and a
DRAINING one counts a drain timeout; a slot that the end frees is granted first (R64; log entry 18). A spoke that waits for a credit, UP with none and with a request waiting, is faulted with
CREDIT_STALL. A timer that does not run does not run out. -/
def Obligations.SpokeFaults : Prop :=
  (∀ (s : State) (k : SpokeId),
     let x := s.spoke k
     let counted := s.setSpoke k { x with linkErrors := if x.linkErrors < 16 then x.linkErrors + 1 else 16 }
     (∀ reason,
       s.fault k reason =
         ((s.setSpoke k { x with state := .faulted, credits := 0 }).failWaiting k .spokeUnavailable).raise (.spoke k) .spokeFaulted
           reason) ∧
     (x.state = .off ∨ x.state = .training ∨ x.state = .resetting → s.linkError k = s) ∧
     (x.state = .draining ∨ x.state = .faulted ∨ (x.state = .up ∧ x.linkErrors < 15) → s.linkError k = counted) ∧
     (x.state = .up → 15 ≤ x.linkErrors → s.linkError k = counted.fault k .linkErrors)) ∧
  ∀ (s : State) (k : SpokeId),
    let x := s.spoke k
    (∀ (g : TagId) (r : Request), x.tags[g] = .outstanding r →
      let t := s.setSpoke k { x with tags := x.tags.set g .quarantined }
      let timeout : SegEnd := .failure { status := .spokeTimeout, detail := k.val }
      let u := State.grantSlots (match r with
        | .read i => t.retire i timeout
        | .write i => t.retire i timeout
        | .flush (some e) => t.endFlush e k (some .spokeTimeout)
        | .flush none => t)
      let answer := exec (.responseTimerExpiry k g) s
      (x.state = .up → answer = .next (u.fault k .timeout).settle) ∧
      (x.state = .draining →
        answer =
          .next
            (u.setSpoke k { x with tags := x.tags.set g .quarantined, drainTimeouts := x.drainTimeouts + 1 }).settle) ∧
      (x.state ≠ .up → x.state ≠ .draining → answer = .next u.settle)) ∧
    (∀ g : TagId, (∀ r, x.tags[g] ≠ .outstanding r) → exec (.responseTimerExpiry k g) s = .next s.settle) ∧
    let waits := x.state = .up ∧ x.credits = 0 ∧ (s.issue k ≠ [] ∨ x.flushList ≠ [])
    (waits → exec (.creditWaitTimerExpiry k) s = .next (s.fault k .creditStall).settle) ∧
      (¬waits → exec (.creditWaitTimerExpiry k) s = .next s.settle)

/-- The data of a READ_RESPONSE lands (R47, R53, R56, R57, R66): the bytes stand in the slot from position 0 and the tag is given
up. A RELAY turns to its DESTINATION leg and asks to join its destination list; a GATHER that is marked asks for
translation again; any other GATHER hands its slot's bytes over as a posted write and retires as successful. -/
def Obligations.ReadDataLands : Prop :=
  ∀ (s : State) (i : SegId) (j : SlotId) (bytes : List Byte), (s.seg i).slot = some j →
    let x := s.seg i
    let kind := (s.entry x.entry).kind
    let data := bytes ++ (s.slot j).data.drop bytes.length
    let t := s.setSlot j { s.slot j with data := data }
    (kind = some .relay →
      s.land i bytes = (t.setSeg i { x with state := .landed, tag := none, leg := .destination }).joinIssue i) ∧
    (kind = some .gather →
      (x.retranslate = true →
        s.land i bytes =
          (t.setSeg i
            { x with state := .translating, tag := none, host := none, translation := none, retranslate := false }).ask i) ∧
      ∀ h, x.retranslate = false → x.host = some h →
        s.land i bytes =
          ((t.setSeg i { x with state := .landed, tag := none }).takeWrite (.memory .gatherData h (data.take x.length))).retire i
            (.success false none))

/-! ## Received frames -/

/-- TRAIN_ACK (R101, R102, R115, R116, R127), on the logical spoke of the physical one it arrives on. In TRAINING version 1 with a
grant of 1 to 16 brings the spoke UP with that many credits, and any other fields fail the attempt: the next one begins
with a TRAIN, and after the third the spoke is OFF and the command ends with TRAIN_FAILED, NO_ANSWER. In UP, DRAINING and
FAULTED it is a link error; in OFF and RESETTING it is discarded. The attempt timer fails the attempt of a TRAINING spoke. -/
def Obligations.TrainingAnswersOrFails : Prop :=
  ∀ s : State,
    let failed : SpokeId → State := fun k =>
      if (s.spoke k).attempt < 3 then
        (s.setSpoke k { s.spoke k with state := .training, attempt := (s.spoke k).attempt + 1 }).sendFrame k .train
      else
        ((s.enterOff k .spokeUnavailable).raise (.spoke k) .spokeTrainFailed .none).endCommand [0x0A] k.val .trainFailed 2
    (∀ k, ((s.spoke k).state = .training → exec (.trainingAttemptTimerExpiry k) s = .next (failed k)) ∧
      ((s.spoke k).state ≠ .training → exec (.trainingAttemptTimerExpiry k) s = .next s)) ∧
    ∀ (p : SpokeId) (version grant : Byte),
      let k := s.headOf p
      let x := s.spoke k
      let answered := version = 1 ∧ 1 ≤ grant.toNat ∧ grant.toNat ≤ 16
      (x.state = .training → answered →
        exec (.trainAck p version grant) s =
          .next
            (((s.setSpoke k { x with state := .up, grant := grant.toNat, credits := grant.toNat, attempt := 0 }).raise (.spoke k)
              .spokeUp .none).endCommand [0x0A] k.val .ok grant.toNat).settle) ∧
      (x.state = .training → ¬answered → exec (.trainAck p version grant) s = .next (failed k).settle) ∧
      (x.state = .up ∨ x.state = .draining ∨ x.state = .faulted →
        exec (.trainAck p version grant) s = .next (s.linkError k).settle) ∧
      (x.state = .off ∨ x.state = .resetting → exec (.trainAck p version grant) s = .next s.settle)

/-- RESET_ACK (R131): in RESETTING the spoke enters OFF and SPOKE_RESET ends with info 1; in every other state it is discarded and
no link error is counted. RESET_TIMER_EXPIRY (R105): the reset timer of a RESETTING spoke ends the reset sequence with info 0;
in another state it does not run. -/
def Obligations.ResetSequenceEnds : Prop :=
  (∀ (s : State) (p : SpokeId),
     let k := s.headOf p
     ((s.spoke k).state = .resetting →
       exec (.resetAck p) s = .next ((s.enterOff k .spokeUnavailable).endCommand [0x0C] k.val .ok 1)) ∧
     ((s.spoke k).state ≠ .resetting → exec (.resetAck p) s = .next s)) ∧
  ∀ (s : State) (k : SpokeId),
    ((s.spoke k).state = .resetting →
      exec (.resetTimerExpiry k) s = .next ((s.enterOff k .spokeUnavailable).endCommand [0x0C] k.val .ok 0)) ∧
    ((s.spoke k).state ≠ .resetting → exec (.resetTimerExpiry k) s = .next s)

/-- READ_RESPONSE, WRITE_ACK and FLUSH_ACK that do not match (R112, R114, R116): in UP, DRAINING and FAULTED a response whose tag
is free or above 31, or outstanding for a request of another kind, is a link error and its request runs on; one with a
quarantined tag frees the tag. In OFF, TRAINING and RESETTING a response is discarded. READ_RESPONSE, WRITE_ACK and FLUSH_ACK
that match (R11, R53, R54, R112, R113, R128, R129): the tag becomes free and the request takes the answer. OK data of the
request's length lands, and of another length fails the segment, detail LENGTH, with a link error behind the slot grant it brings
about (log entry 18); OK to a write retires its
segment as successful; NO_TARGET, and TARGET_ERROR or any other status, fail the segment with the spoke's number. A FLUSH_ACK
ends its flush request as successful, an orphaned one being reported to none. -/
def Obligations.ResponsesMatchedByTag : Prop :=
  (∀ (s : State) (p : SpokeId) (f : RxFrame) (tag : Byte), f.fits →
     (∃ status payload, f = .readResponse tag status payload) ∨ (∃ status, f = .writeAck tag status) ∨ f = .flushAck tag →
     let answers : Request → Prop := fun r =>
       match f, r with
       | .readResponse _ _ _, .read _ => True
       | .writeAck _ _, .write _ => True
       | .flushAck _, .flush _ => True
       | _, _ => False
     let k := s.headOf p
     let x := s.spoke k
     let answer := exec (f.row p) s
     (x.state = .off ∨ x.state = .training ∨ x.state = .resetting → answer = .next s.settle) ∧
     (x.state = .up ∨ x.state = .draining ∨ x.state = .faulted →
       (32 ≤ tag.toNat → answer = .next (s.linkError k).settle) ∧
       ∀ g : TagId, tag.toNat = g.val →
         (x.tags[g] = .free → answer = .next (s.linkError k).settle) ∧
         (x.tags[g] = .quarantined → answer = .next (s.setSpoke k { x with tags := x.tags.set g .free }).settle) ∧
         ∀ r, x.tags[g] = .outstanding r → ¬answers r → answer = .next (s.linkError k).settle)) ∧
  ∀ (s : State) (p : SpokeId) (tag status : Byte) (g : TagId), tag.toNat = g.val →
    let k := s.headOf p
    let x := s.spoke k
    let t := s.setSpoke k { x with tags := x.tags.set g .free }
    let failure : SegEnd := .failure { status := if status = 2 then .noTarget else .targetError, detail := k.val }
    x.state = .up ∨ x.state = .draining ∨ x.state = .faulted →
    (∀ (i : SegId) (payload : List Byte), x.tags[g] = .outstanding (.read i) → payload.length ≤ 256 →
      let answer := exec (.readResponse p tag status payload) s
      (status = 0 → payload.length = (s.seg i).length → answer = .next (t.land i payload).settle) ∧
      (status = 0 → payload.length ≠ (s.seg i).length →
        answer =
          .next ((t.retire i (.failure { status := .targetError, detail := k.val + 256 })).grantSlots.linkError k).settle) ∧
      (status ≠ 0 → answer = .next (t.retire i failure).settle)) ∧
    (∀ i, x.tags[g] = .outstanding (.write i) →
      (status = 0 → exec (.writeAck p tag status) s = .next (t.retire i (.success false none)).settle) ∧
        (status ≠ 0 → exec (.writeAck p tag status) s = .next (t.retire i failure).settle)) ∧
    (∀ e, x.tags[g] = .outstanding (.flush (some e)) → exec (.flushAck p tag) s = .next (t.endFlush e k none).settle) ∧
    (x.tags[g] = .outstanding (.flush none) → exec (.flushAck p tag) s = .next t.settle)

/-- CREDIT (R108, R116, R130): in UP the count is added to the credit count; a count of 0 is a link error, and so is a sum above the
grant, which leaves the grant. In every other state it is discarded. -/
def Obligations.CreditsReturn : Prop :=
  ∀ (s : State) (p : SpokeId) (count : Byte),
    let k := s.headOf p
    let x := s.spoke k
    let sum := x.credits + count.toNat
    (x.state ≠ .up → exec (.credit p count) s = .next s.settle) ∧
    (x.state = .up →
      (count = 0 → exec (.credit p count) s = .next (s.linkError k).settle) ∧
      (count ≠ 0 → sum ≤ x.grant → exec (.credit p count) s = .next (s.setSpoke k { x with credits := sum }).settle) ∧
      (count ≠ 0 → x.grant < sum →
        exec (.credit p count) s = .next ((s.setSpoke k { x with credits := x.grant }).linkError k).settle))

/-- INVALID_FRAME_RECEIVE (R115, R116, R121, R125, R126), with what the members of the logical spoke carried. A frame dealt to the
members whose bytes fail the frame check (length, payload length, length for its payload, check word) or are of unknown kind is
discarded whole and counts a link error; so is one whose members carried numbers of bytes that no dealt frame has (log entry 25).
Several frames are taken one after the other, and a frame that has not ended on its members is discarded unread. The bytes of a
good frame are taken as the frame they are, and a READ_RESPONSE with more than 256 payload bytes fails the check (both deduced, log
entry 16). -/
def Obligations.InvalidFramesDiscarded : Prop :=
  (∀ bytes : List Byte,
    let n := field bytes 4 2
    let good := 20 ≤ bytes.length ∧ n ≤ 256 ∧ bytes.length = 20 + n ∧
      field bytes (16 + n) 4 = (checkWord (bytes.take (16 + n))).toNat
    let kind := (byteAt bytes 0).toNat
    let known := kind = 0x83 ∨ (n = 0 ∧ (kind = 0x81 ∨ kind = 0x82 ∨ kind = 0x84 ∨ kind = 0x85 ∨ kind = 0x86))
    decodeFrame bytes = none ↔ ¬good ∨ ¬known) ∧
  ∀ (s : State) (p : SpokeId),
    let k := s.headOf p
    let n := (s.members k).length
    let carried : List (List Byte) → List (List LaneSymbol) := fun frames =>
      (List.range n).map fun j => frames.flatMap fun f => (frameLanes n f).getD j []
    (∀ bytes, decodeFrame bytes = none →
      exec (.invalidFrameReceive p (carried [bytes])) s = .next (s.linkError k).settle) ∧
    (∀ bytes f, decodeFrame bytes = some f →
      ∃ u : State, exec (.invalidFrameReceive p (carried [bytes])) s = .next u.settle ∧
        exec (f.row p) s = (if f = .resetAck then .next u else .next u.settle)) ∧
    (∀ parts : List (List Byte), parts.length = n → (∀ f, dealBytes n f ≠ parts) →
      exec (.invalidFrameReceive p (parts.map laneFrame)) s = .next (s.linkError k).settle) ∧
    exec (.invalidFrameReceive p (carried [])) s = .next s ∧
    (∀ f rest, ∃ t, exec (.invalidFrameReceive p (carried [f])) s = .next t ∧
      exec (.invalidFrameReceive p (carried (f :: rest))) s = exec (.invalidFrameReceive p (carried rest)) t) ∧
    (∀ (frames : List (List Byte)) (parts : List (List Byte)), parts.length = n →
      exec (.invalidFrameReceive p
        ((carried frames).zipWith (fun lane part => lane ++ .start :: part.map .byte) parts)) s =
      exec (.invalidFrameReceive p (carried frames)) s) ∧
    ∀ tag status payload, 256 < payload.length →
      exec (.readResponse p tag status payload) s = .next (s.linkError k).settle

/-! ## Timers and carriers -/

/-- CARRIER_LOSS and CARRIER_RETURN (R96, R106). When carrier in was present on every member of the bundle, its logical spoke loses
its carrier: a spoke that is not OFF enters OFF with LINK_LOST for its posted writes and the event SPOKE_LINK_LOST; UP,
DRAINING and FAULTED end their outstanding and waiting work with LINK_LOST first, the spoke having left its state by then (the
model's choice, log entry 18); and the command working on the spoke ends. A return changes the pin and no spoke. -/
def Obligations.CarrierLossEndsLink : Prop :=
  ∀ (s : State) (p : SpokeId),
    let k := s.headOf p
    let t : State := { s with sp.carrierIn := s.sp.carrierIn.set p false }
    let lost : State → State := fun u => (u.enterOff k .linkLost).raise (.spoke k) .spokeLinkLost .none
    let answer := exec (.carrierLoss p) s
    exec (.carrierReturn p) s = .next { s with sp.carrierIn := s.sp.carrierIn.set p true } ∧
    ((∃ m : SpokeId, s.headOf m = k ∧ s.sp.carrierIn[m] = false) ∨ (s.spoke k).state = .off → answer = .next t.settle) ∧
    ((∀ m : SpokeId, s.headOf m = k → s.sp.carrierIn[m] = true) →
      ((s.spoke k).state = .training → answer = .next ((lost t).endCommand [0x0A] k.val .trainFailed 1).settle) ∧
      ((s.spoke k).state = .resetting → answer = .next ((lost t).endCommand [0x0C] k.val .ok 0).settle) ∧
      ((s.spoke k).state = .up ∨ (s.spoke k).state = .draining ∨ (s.spoke k).state = .faulted →
        answer =
          .next
            ((lost (((t.setSpoke k { s.spoke k with state := .off, credits := 0 }).endOutstanding k .linkLost).failWaiting k
              .linkLost)).endCommand [0x0B] k.val .ok (s.spoke k).drainTimeouts).settle))
end

