-- ==== Sys2Proof/Laws/State.lean ====
section
/-! SUPPORT. The small lemmas of the state's updates: for each update, what each block, each collection and each field of its
own block reads afterwards. All but the indexed reads are true by rfl. -/

namespace Sys2Proof.Machine.State

variable (s : State)


/-! ## setQp -/

@[simp] theorem setQp_ctl (n : QpId) (x : QueuePair) : (s.setQp n x).ctl = s.ctl := rfl
@[simp] theorem setQp_tt (n : QpId) (x : QueuePair) : (s.setQp n x).tt = s.tt := rfl
@[simp] theorem setQp_su (n : QpId) (x : QueuePair) : (s.setQp n x).su = s.su := rfl
@[simp] theorem setQp_wu (n : QpId) (x : QueuePair) : (s.setQp n x).wu = s.wu := rfl
@[simp] theorem setQp_tu (n : QpId) (x : QueuePair) : (s.setQp n x).tu = s.tu := rfl
@[simp] theorem setQp_rb (n : QpId) (x : QueuePair) : (s.setQp n x).rb = s.rb := rfl
@[simp] theorem setQp_sp (n : QpId) (x : QueuePair) : (s.setQp n x).sp = s.sp := rfl
@[simp] theorem setQp_au (n : QpId) (x : QueuePair) : (s.setQp n x).au = s.au := rfl
@[simp] theorem setQp_hp (n : QpId) (x : QueuePair) : (s.setQp n x).hp = s.hp := rfl
@[simp] theorem setQp_wire (n : QpId) (x : QueuePair) : (s.setQp n x).wire = s.wire := rfl
@[simp] theorem setQp_pending (n : QpId) (x : QueuePair) : (s.setQp n x).pending = s.pending := rfl
@[simp] theorem setQp_qe_fetchPtr (n : QpId) (x : QueuePair) : (s.setQp n x).qe.fetchPtr = s.qe.fetchPtr := rfl
@[simp] theorem setQp_qe_arms (n : QpId) (x : QueuePair) : (s.setQp n x).qe.arms = s.qe.arms := rfl
@[simp] theorem setQp_qp_self (n : QpId) (x : QueuePair) : (s.setQp n x).qp n = x := by simp [setQp, qp]
theorem setQp_qp (n : QpId) (x : QueuePair) (y : QpId) : (s.setQp n x).qp y = if y = n then x else s.qp y := by
  simp only [setQp, qp, Fin.getElem_fin, Vector.getElem_set, Fin.ext_iff, eq_comm]
@[simp] theorem setQp_entry (n : QpId) (x : QueuePair) (y : EntryId) : (s.setQp n x).entry y = s.entry y := rfl
@[simp] theorem setQp_inflight (n : QpId) (x : QueuePair) (y : QpId) : (s.setQp n x).inflight y = s.inflight y := rfl
@[simp] theorem setQp_posted (n : QpId) (x : QueuePair) (y : QpId) : (s.setQp n x).posted y = s.posted y := rfl
@[simp] theorem setQp_seg (n : QpId) (x : QueuePair) (y : SegId) : (s.setQp n x).seg y = s.seg y := rfl
@[simp] theorem setQp_issue (n : QpId) (x : QueuePair) (y : SpokeId) : (s.setQp n x).issue y = s.issue y := rfl
@[simp] theorem setQp_window (n : QpId) (x : QueuePair) (y : WindowId) : (s.setQp n x).window y = s.window y := rfl
@[simp] theorem setQp_context (n : QpId) (x : QueuePair) (y : ContextId) : (s.setQp n x).context y = s.context y := rfl
@[simp] theorem setQp_walk (n : QpId) (x : QueuePair) (y : WalkId) : (s.setQp n x).walk y = s.walk y := rfl
@[simp] theorem setQp_slot (n : QpId) (x : QueuePair) (y : SlotId) : (s.setQp n x).slot y = s.slot y := rfl
@[simp] theorem setQp_held (n : QpId) (x : QueuePair) (y : QpId) : (s.setQp n x).held y = s.held y := rfl
@[simp] theorem setQp_spoke (n : QpId) (x : QueuePair) (y : SpokeId) : (s.setQp n x).spoke y = s.spoke y := rfl
@[simp] theorem setQp_place (n : QpId) (x : QueuePair) (y : PlaceId) : (s.setQp n x).place y = s.place y := rfl

/-! ## modQp -/

@[simp] theorem modQp_ctl (n : QpId) (f : QueuePair → QueuePair) : (s.modQp n f).ctl = s.ctl := rfl
@[simp] theorem modQp_tt (n : QpId) (f : QueuePair → QueuePair) : (s.modQp n f).tt = s.tt := rfl
@[simp] theorem modQp_su (n : QpId) (f : QueuePair → QueuePair) : (s.modQp n f).su = s.su := rfl
@[simp] theorem modQp_wu (n : QpId) (f : QueuePair → QueuePair) : (s.modQp n f).wu = s.wu := rfl
@[simp] theorem modQp_tu (n : QpId) (f : QueuePair → QueuePair) : (s.modQp n f).tu = s.tu := rfl
@[simp] theorem modQp_rb (n : QpId) (f : QueuePair → QueuePair) : (s.modQp n f).rb = s.rb := rfl
@[simp] theorem modQp_sp (n : QpId) (f : QueuePair → QueuePair) : (s.modQp n f).sp = s.sp := rfl
@[simp] theorem modQp_au (n : QpId) (f : QueuePair → QueuePair) : (s.modQp n f).au = s.au := rfl
@[simp] theorem modQp_hp (n : QpId) (f : QueuePair → QueuePair) : (s.modQp n f).hp = s.hp := rfl
@[simp] theorem modQp_wire (n : QpId) (f : QueuePair → QueuePair) : (s.modQp n f).wire = s.wire := rfl
@[simp] theorem modQp_pending (n : QpId) (f : QueuePair → QueuePair) : (s.modQp n f).pending = s.pending := rfl
@[simp] theorem modQp_qe_fetchPtr (n : QpId) (f : QueuePair → QueuePair) : (s.modQp n f).qe.fetchPtr = s.qe.fetchPtr := rfl
@[simp] theorem modQp_qe_arms (n : QpId) (f : QueuePair → QueuePair) : (s.modQp n f).qe.arms = s.qe.arms := rfl
@[simp] theorem modQp_qp_self (n : QpId) (f : QueuePair → QueuePair) : (s.modQp n f).qp n = f (s.qp n) := by simp [modQp]
theorem modQp_qp (n : QpId) (f : QueuePair → QueuePair) (y : QpId) : (s.modQp n f).qp y = if y = n then f (s.qp n) else s.qp y := by
  simp only [modQp, setQp_qp]
@[simp] theorem modQp_entry (n : QpId) (f : QueuePair → QueuePair) (y : EntryId) : (s.modQp n f).entry y = s.entry y := rfl
@[simp] theorem modQp_inflight (n : QpId) (f : QueuePair → QueuePair) (y : QpId) : (s.modQp n f).inflight y = s.inflight y := rfl
@[simp] theorem modQp_posted (n : QpId) (f : QueuePair → QueuePair) (y : QpId) : (s.modQp n f).posted y = s.posted y := rfl
@[simp] theorem modQp_seg (n : QpId) (f : QueuePair → QueuePair) (y : SegId) : (s.modQp n f).seg y = s.seg y := rfl
@[simp] theorem modQp_issue (n : QpId) (f : QueuePair → QueuePair) (y : SpokeId) : (s.modQp n f).issue y = s.issue y := rfl
@[simp] theorem modQp_window (n : QpId) (f : QueuePair → QueuePair) (y : WindowId) : (s.modQp n f).window y = s.window y := rfl
@[simp] theorem modQp_context (n : QpId) (f : QueuePair → QueuePair) (y : ContextId) : (s.modQp n f).context y = s.context y := rfl
@[simp] theorem modQp_walk (n : QpId) (f : QueuePair → QueuePair) (y : WalkId) : (s.modQp n f).walk y = s.walk y := rfl
@[simp] theorem modQp_slot (n : QpId) (f : QueuePair → QueuePair) (y : SlotId) : (s.modQp n f).slot y = s.slot y := rfl
@[simp] theorem modQp_held (n : QpId) (f : QueuePair → QueuePair) (y : QpId) : (s.modQp n f).held y = s.held y := rfl
@[simp] theorem modQp_spoke (n : QpId) (f : QueuePair → QueuePair) (y : SpokeId) : (s.modQp n f).spoke y = s.spoke y := rfl
@[simp] theorem modQp_place (n : QpId) (f : QueuePair → QueuePair) (y : PlaceId) : (s.modQp n f).place y = s.place y := rfl

/-! ## setEntry -/

@[simp] theorem setEntry_ctl (e : EntryId) (x : Entry) : (s.setEntry e x).ctl = s.ctl := rfl
@[simp] theorem setEntry_qe (e : EntryId) (x : Entry) : (s.setEntry e x).qe = s.qe := rfl
@[simp] theorem setEntry_su (e : EntryId) (x : Entry) : (s.setEntry e x).su = s.su := rfl
@[simp] theorem setEntry_wu (e : EntryId) (x : Entry) : (s.setEntry e x).wu = s.wu := rfl
@[simp] theorem setEntry_tu (e : EntryId) (x : Entry) : (s.setEntry e x).tu = s.tu := rfl
@[simp] theorem setEntry_rb (e : EntryId) (x : Entry) : (s.setEntry e x).rb = s.rb := rfl
@[simp] theorem setEntry_sp (e : EntryId) (x : Entry) : (s.setEntry e x).sp = s.sp := rfl
@[simp] theorem setEntry_au (e : EntryId) (x : Entry) : (s.setEntry e x).au = s.au := rfl
@[simp] theorem setEntry_hp (e : EntryId) (x : Entry) : (s.setEntry e x).hp = s.hp := rfl
@[simp] theorem setEntry_wire (e : EntryId) (x : Entry) : (s.setEntry e x).wire = s.wire := rfl
@[simp] theorem setEntry_pending (e : EntryId) (x : Entry) : (s.setEntry e x).pending = s.pending := rfl
@[simp] theorem setEntry_tt_inflight (e : EntryId) (x : Entry) : (s.setEntry e x).tt.inflight = s.tt.inflight := rfl
@[simp] theorem setEntry_tt_posted (e : EntryId) (x : Entry) : (s.setEntry e x).tt.posted = s.tt.posted := rfl
@[simp] theorem setEntry_qp (e : EntryId) (x : Entry) (y : QpId) : (s.setEntry e x).qp y = s.qp y := rfl
@[simp] theorem setEntry_entry_self (e : EntryId) (x : Entry) : (s.setEntry e x).entry e = x := by simp [setEntry, entry]
theorem setEntry_entry (e : EntryId) (x : Entry) (y : EntryId) : (s.setEntry e x).entry y = if y = e then x else s.entry y := by
  simp only [setEntry, entry, Fin.getElem_fin, Vector.getElem_set, Fin.ext_iff, eq_comm]
@[simp] theorem setEntry_inflight (e : EntryId) (x : Entry) (y : QpId) : (s.setEntry e x).inflight y = s.inflight y := rfl
@[simp] theorem setEntry_posted (e : EntryId) (x : Entry) (y : QpId) : (s.setEntry e x).posted y = s.posted y := rfl
@[simp] theorem setEntry_seg (e : EntryId) (x : Entry) (y : SegId) : (s.setEntry e x).seg y = s.seg y := rfl
@[simp] theorem setEntry_issue (e : EntryId) (x : Entry) (y : SpokeId) : (s.setEntry e x).issue y = s.issue y := rfl
@[simp] theorem setEntry_window (e : EntryId) (x : Entry) (y : WindowId) : (s.setEntry e x).window y = s.window y := rfl
@[simp] theorem setEntry_context (e : EntryId) (x : Entry) (y : ContextId) : (s.setEntry e x).context y = s.context y := rfl
@[simp] theorem setEntry_walk (e : EntryId) (x : Entry) (y : WalkId) : (s.setEntry e x).walk y = s.walk y := rfl
@[simp] theorem setEntry_slot (e : EntryId) (x : Entry) (y : SlotId) : (s.setEntry e x).slot y = s.slot y := rfl
@[simp] theorem setEntry_held (e : EntryId) (x : Entry) (y : QpId) : (s.setEntry e x).held y = s.held y := rfl
@[simp] theorem setEntry_spoke (e : EntryId) (x : Entry) (y : SpokeId) : (s.setEntry e x).spoke y = s.spoke y := rfl
@[simp] theorem setEntry_place (e : EntryId) (x : Entry) (y : PlaceId) : (s.setEntry e x).place y = s.place y := rfl

/-! ## modEntry -/

@[simp] theorem modEntry_ctl (e : EntryId) (f : Entry → Entry) : (s.modEntry e f).ctl = s.ctl := rfl
@[simp] theorem modEntry_qe (e : EntryId) (f : Entry → Entry) : (s.modEntry e f).qe = s.qe := rfl
@[simp] theorem modEntry_su (e : EntryId) (f : Entry → Entry) : (s.modEntry e f).su = s.su := rfl
@[simp] theorem modEntry_wu (e : EntryId) (f : Entry → Entry) : (s.modEntry e f).wu = s.wu := rfl
@[simp] theorem modEntry_tu (e : EntryId) (f : Entry → Entry) : (s.modEntry e f).tu = s.tu := rfl
@[simp] theorem modEntry_rb (e : EntryId) (f : Entry → Entry) : (s.modEntry e f).rb = s.rb := rfl
@[simp] theorem modEntry_sp (e : EntryId) (f : Entry → Entry) : (s.modEntry e f).sp = s.sp := rfl
@[simp] theorem modEntry_au (e : EntryId) (f : Entry → Entry) : (s.modEntry e f).au = s.au := rfl
@[simp] theorem modEntry_hp (e : EntryId) (f : Entry → Entry) : (s.modEntry e f).hp = s.hp := rfl
@[simp] theorem modEntry_wire (e : EntryId) (f : Entry → Entry) : (s.modEntry e f).wire = s.wire := rfl
@[simp] theorem modEntry_pending (e : EntryId) (f : Entry → Entry) : (s.modEntry e f).pending = s.pending := rfl
@[simp] theorem modEntry_tt_inflight (e : EntryId) (f : Entry → Entry) : (s.modEntry e f).tt.inflight = s.tt.inflight := rfl
@[simp] theorem modEntry_tt_posted (e : EntryId) (f : Entry → Entry) : (s.modEntry e f).tt.posted = s.tt.posted := rfl
@[simp] theorem modEntry_qp (e : EntryId) (f : Entry → Entry) (y : QpId) : (s.modEntry e f).qp y = s.qp y := rfl
@[simp] theorem modEntry_entry_self (e : EntryId) (f : Entry → Entry) : (s.modEntry e f).entry e = f (s.entry e) := by simp [modEntry]
theorem modEntry_entry (e : EntryId) (f : Entry → Entry) (y : EntryId) : (s.modEntry e f).entry y = if y = e then f (s.entry e) else s.entry y := by
  simp only [modEntry, setEntry_entry]
@[simp] theorem modEntry_inflight (e : EntryId) (f : Entry → Entry) (y : QpId) : (s.modEntry e f).inflight y = s.inflight y := rfl
@[simp] theorem modEntry_posted (e : EntryId) (f : Entry → Entry) (y : QpId) : (s.modEntry e f).posted y = s.posted y := rfl
@[simp] theorem modEntry_seg (e : EntryId) (f : Entry → Entry) (y : SegId) : (s.modEntry e f).seg y = s.seg y := rfl
@[simp] theorem modEntry_issue (e : EntryId) (f : Entry → Entry) (y : SpokeId) : (s.modEntry e f).issue y = s.issue y := rfl
@[simp] theorem modEntry_window (e : EntryId) (f : Entry → Entry) (y : WindowId) : (s.modEntry e f).window y = s.window y := rfl
@[simp] theorem modEntry_context (e : EntryId) (f : Entry → Entry) (y : ContextId) : (s.modEntry e f).context y = s.context y := rfl
@[simp] theorem modEntry_walk (e : EntryId) (f : Entry → Entry) (y : WalkId) : (s.modEntry e f).walk y = s.walk y := rfl
@[simp] theorem modEntry_slot (e : EntryId) (f : Entry → Entry) (y : SlotId) : (s.modEntry e f).slot y = s.slot y := rfl
@[simp] theorem modEntry_held (e : EntryId) (f : Entry → Entry) (y : QpId) : (s.modEntry e f).held y = s.held y := rfl
@[simp] theorem modEntry_spoke (e : EntryId) (f : Entry → Entry) (y : SpokeId) : (s.modEntry e f).spoke y = s.spoke y := rfl
@[simp] theorem modEntry_place (e : EntryId) (f : Entry → Entry) (y : PlaceId) : (s.modEntry e f).place y = s.place y := rfl

/-! ## setInflight -/

@[simp] theorem setInflight_ctl (n : QpId) (l : List EntryId) : (s.setInflight n l).ctl = s.ctl := rfl
@[simp] theorem setInflight_qe (n : QpId) (l : List EntryId) : (s.setInflight n l).qe = s.qe := rfl
@[simp] theorem setInflight_su (n : QpId) (l : List EntryId) : (s.setInflight n l).su = s.su := rfl
@[simp] theorem setInflight_wu (n : QpId) (l : List EntryId) : (s.setInflight n l).wu = s.wu := rfl
@[simp] theorem setInflight_tu (n : QpId) (l : List EntryId) : (s.setInflight n l).tu = s.tu := rfl
@[simp] theorem setInflight_rb (n : QpId) (l : List EntryId) : (s.setInflight n l).rb = s.rb := rfl
@[simp] theorem setInflight_sp (n : QpId) (l : List EntryId) : (s.setInflight n l).sp = s.sp := rfl
@[simp] theorem setInflight_au (n : QpId) (l : List EntryId) : (s.setInflight n l).au = s.au := rfl
@[simp] theorem setInflight_hp (n : QpId) (l : List EntryId) : (s.setInflight n l).hp = s.hp := rfl
@[simp] theorem setInflight_wire (n : QpId) (l : List EntryId) : (s.setInflight n l).wire = s.wire := rfl
@[simp] theorem setInflight_pending (n : QpId) (l : List EntryId) : (s.setInflight n l).pending = s.pending := rfl
@[simp] theorem setInflight_tt_entries (n : QpId) (l : List EntryId) : (s.setInflight n l).tt.entries = s.tt.entries := rfl
@[simp] theorem setInflight_tt_posted (n : QpId) (l : List EntryId) : (s.setInflight n l).tt.posted = s.tt.posted := rfl
@[simp] theorem setInflight_qp (n : QpId) (l : List EntryId) (y : QpId) : (s.setInflight n l).qp y = s.qp y := rfl
@[simp] theorem setInflight_entry (n : QpId) (l : List EntryId) (y : EntryId) : (s.setInflight n l).entry y = s.entry y := rfl
@[simp] theorem setInflight_inflight_self (n : QpId) (l : List EntryId) : (s.setInflight n l).inflight n = l := by simp [setInflight, inflight]
theorem setInflight_inflight (n : QpId) (l : List EntryId) (y : QpId) : (s.setInflight n l).inflight y = if y = n then l else s.inflight y := by
  simp only [setInflight, inflight, Fin.getElem_fin, Vector.getElem_set, Fin.ext_iff, eq_comm]
@[simp] theorem setInflight_posted (n : QpId) (l : List EntryId) (y : QpId) : (s.setInflight n l).posted y = s.posted y := rfl
@[simp] theorem setInflight_seg (n : QpId) (l : List EntryId) (y : SegId) : (s.setInflight n l).seg y = s.seg y := rfl
@[simp] theorem setInflight_issue (n : QpId) (l : List EntryId) (y : SpokeId) : (s.setInflight n l).issue y = s.issue y := rfl
@[simp] theorem setInflight_window (n : QpId) (l : List EntryId) (y : WindowId) : (s.setInflight n l).window y = s.window y := rfl
@[simp] theorem setInflight_context (n : QpId) (l : List EntryId) (y : ContextId) : (s.setInflight n l).context y = s.context y := rfl
@[simp] theorem setInflight_walk (n : QpId) (l : List EntryId) (y : WalkId) : (s.setInflight n l).walk y = s.walk y := rfl
@[simp] theorem setInflight_slot (n : QpId) (l : List EntryId) (y : SlotId) : (s.setInflight n l).slot y = s.slot y := rfl
@[simp] theorem setInflight_held (n : QpId) (l : List EntryId) (y : QpId) : (s.setInflight n l).held y = s.held y := rfl
@[simp] theorem setInflight_spoke (n : QpId) (l : List EntryId) (y : SpokeId) : (s.setInflight n l).spoke y = s.spoke y := rfl
@[simp] theorem setInflight_place (n : QpId) (l : List EntryId) (y : PlaceId) : (s.setInflight n l).place y = s.place y := rfl

/-! ## setPosted -/

@[simp] theorem setPosted_ctl (n : QpId) (v : Vector Posted 8) : (s.setPosted n v).ctl = s.ctl := rfl
@[simp] theorem setPosted_qe (n : QpId) (v : Vector Posted 8) : (s.setPosted n v).qe = s.qe := rfl
@[simp] theorem setPosted_su (n : QpId) (v : Vector Posted 8) : (s.setPosted n v).su = s.su := rfl
@[simp] theorem setPosted_wu (n : QpId) (v : Vector Posted 8) : (s.setPosted n v).wu = s.wu := rfl
@[simp] theorem setPosted_tu (n : QpId) (v : Vector Posted 8) : (s.setPosted n v).tu = s.tu := rfl
@[simp] theorem setPosted_rb (n : QpId) (v : Vector Posted 8) : (s.setPosted n v).rb = s.rb := rfl
@[simp] theorem setPosted_sp (n : QpId) (v : Vector Posted 8) : (s.setPosted n v).sp = s.sp := rfl
@[simp] theorem setPosted_au (n : QpId) (v : Vector Posted 8) : (s.setPosted n v).au = s.au := rfl
@[simp] theorem setPosted_hp (n : QpId) (v : Vector Posted 8) : (s.setPosted n v).hp = s.hp := rfl
@[simp] theorem setPosted_wire (n : QpId) (v : Vector Posted 8) : (s.setPosted n v).wire = s.wire := rfl
@[simp] theorem setPosted_pending (n : QpId) (v : Vector Posted 8) : (s.setPosted n v).pending = s.pending := rfl
@[simp] theorem setPosted_tt_entries (n : QpId) (v : Vector Posted 8) : (s.setPosted n v).tt.entries = s.tt.entries := rfl
@[simp] theorem setPosted_tt_inflight (n : QpId) (v : Vector Posted 8) : (s.setPosted n v).tt.inflight = s.tt.inflight := rfl
@[simp] theorem setPosted_qp (n : QpId) (v : Vector Posted 8) (y : QpId) : (s.setPosted n v).qp y = s.qp y := rfl
@[simp] theorem setPosted_entry (n : QpId) (v : Vector Posted 8) (y : EntryId) : (s.setPosted n v).entry y = s.entry y := rfl
@[simp] theorem setPosted_inflight (n : QpId) (v : Vector Posted 8) (y : QpId) : (s.setPosted n v).inflight y = s.inflight y := rfl
@[simp] theorem setPosted_posted_self (n : QpId) (v : Vector Posted 8) : (s.setPosted n v).posted n = v := by simp [setPosted, posted]
theorem setPosted_posted (n : QpId) (v : Vector Posted 8) (y : QpId) : (s.setPosted n v).posted y = if y = n then v else s.posted y := by
  simp only [setPosted, posted, Fin.getElem_fin, Vector.getElem_set, Fin.ext_iff, eq_comm]
@[simp] theorem setPosted_seg (n : QpId) (v : Vector Posted 8) (y : SegId) : (s.setPosted n v).seg y = s.seg y := rfl
@[simp] theorem setPosted_issue (n : QpId) (v : Vector Posted 8) (y : SpokeId) : (s.setPosted n v).issue y = s.issue y := rfl
@[simp] theorem setPosted_window (n : QpId) (v : Vector Posted 8) (y : WindowId) : (s.setPosted n v).window y = s.window y := rfl
@[simp] theorem setPosted_context (n : QpId) (v : Vector Posted 8) (y : ContextId) : (s.setPosted n v).context y = s.context y := rfl
@[simp] theorem setPosted_walk (n : QpId) (v : Vector Posted 8) (y : WalkId) : (s.setPosted n v).walk y = s.walk y := rfl
@[simp] theorem setPosted_slot (n : QpId) (v : Vector Posted 8) (y : SlotId) : (s.setPosted n v).slot y = s.slot y := rfl
@[simp] theorem setPosted_held (n : QpId) (v : Vector Posted 8) (y : QpId) : (s.setPosted n v).held y = s.held y := rfl
@[simp] theorem setPosted_spoke (n : QpId) (v : Vector Posted 8) (y : SpokeId) : (s.setPosted n v).spoke y = s.spoke y := rfl
@[simp] theorem setPosted_place (n : QpId) (v : Vector Posted 8) (y : PlaceId) : (s.setPosted n v).place y = s.place y := rfl

/-! ## setSeg -/

@[simp] theorem setSeg_ctl (i : SegId) (x : Segment) : (s.setSeg i x).ctl = s.ctl := rfl
@[simp] theorem setSeg_qe (i : SegId) (x : Segment) : (s.setSeg i x).qe = s.qe := rfl
@[simp] theorem setSeg_tt (i : SegId) (x : Segment) : (s.setSeg i x).tt = s.tt := rfl
@[simp] theorem setSeg_wu (i : SegId) (x : Segment) : (s.setSeg i x).wu = s.wu := rfl
@[simp] theorem setSeg_tu (i : SegId) (x : Segment) : (s.setSeg i x).tu = s.tu := rfl
@[simp] theorem setSeg_rb (i : SegId) (x : Segment) : (s.setSeg i x).rb = s.rb := rfl
@[simp] theorem setSeg_sp (i : SegId) (x : Segment) : (s.setSeg i x).sp = s.sp := rfl
@[simp] theorem setSeg_au (i : SegId) (x : Segment) : (s.setSeg i x).au = s.au := rfl
@[simp] theorem setSeg_hp (i : SegId) (x : Segment) : (s.setSeg i x).hp = s.hp := rfl
@[simp] theorem setSeg_wire (i : SegId) (x : Segment) : (s.setSeg i x).wire = s.wire := rfl
@[simp] theorem setSeg_pending (i : SegId) (x : Segment) : (s.setSeg i x).pending = s.pending := rfl
@[simp] theorem setSeg_su_issue (i : SegId) (x : Segment) : (s.setSeg i x).su.issue = s.su.issue := rfl
@[simp] theorem setSeg_su_grantPtr (i : SegId) (x : Segment) : (s.setSeg i x).su.grantPtr = s.su.grantPtr := rfl
@[simp] theorem setSeg_qp (i : SegId) (x : Segment) (y : QpId) : (s.setSeg i x).qp y = s.qp y := rfl
@[simp] theorem setSeg_entry (i : SegId) (x : Segment) (y : EntryId) : (s.setSeg i x).entry y = s.entry y := rfl
@[simp] theorem setSeg_inflight (i : SegId) (x : Segment) (y : QpId) : (s.setSeg i x).inflight y = s.inflight y := rfl
@[simp] theorem setSeg_posted (i : SegId) (x : Segment) (y : QpId) : (s.setSeg i x).posted y = s.posted y := rfl
@[simp] theorem setSeg_seg_self (i : SegId) (x : Segment) : (s.setSeg i x).seg i = x := by simp [setSeg, seg]
theorem setSeg_seg (i : SegId) (x : Segment) (y : SegId) : (s.setSeg i x).seg y = if y = i then x else s.seg y := by
  simp only [setSeg, seg, Fin.getElem_fin, Vector.getElem_set, Fin.ext_iff, eq_comm]
@[simp] theorem setSeg_issue (i : SegId) (x : Segment) (y : SpokeId) : (s.setSeg i x).issue y = s.issue y := rfl
@[simp] theorem setSeg_window (i : SegId) (x : Segment) (y : WindowId) : (s.setSeg i x).window y = s.window y := rfl
@[simp] theorem setSeg_context (i : SegId) (x : Segment) (y : ContextId) : (s.setSeg i x).context y = s.context y := rfl
@[simp] theorem setSeg_walk (i : SegId) (x : Segment) (y : WalkId) : (s.setSeg i x).walk y = s.walk y := rfl
@[simp] theorem setSeg_slot (i : SegId) (x : Segment) (y : SlotId) : (s.setSeg i x).slot y = s.slot y := rfl
@[simp] theorem setSeg_held (i : SegId) (x : Segment) (y : QpId) : (s.setSeg i x).held y = s.held y := rfl
@[simp] theorem setSeg_spoke (i : SegId) (x : Segment) (y : SpokeId) : (s.setSeg i x).spoke y = s.spoke y := rfl
@[simp] theorem setSeg_place (i : SegId) (x : Segment) (y : PlaceId) : (s.setSeg i x).place y = s.place y := rfl

/-! ## modSeg -/

@[simp] theorem modSeg_ctl (i : SegId) (f : Segment → Segment) : (s.modSeg i f).ctl = s.ctl := rfl
@[simp] theorem modSeg_qe (i : SegId) (f : Segment → Segment) : (s.modSeg i f).qe = s.qe := rfl
@[simp] theorem modSeg_tt (i : SegId) (f : Segment → Segment) : (s.modSeg i f).tt = s.tt := rfl
@[simp] theorem modSeg_wu (i : SegId) (f : Segment → Segment) : (s.modSeg i f).wu = s.wu := rfl
@[simp] theorem modSeg_tu (i : SegId) (f : Segment → Segment) : (s.modSeg i f).tu = s.tu := rfl
@[simp] theorem modSeg_rb (i : SegId) (f : Segment → Segment) : (s.modSeg i f).rb = s.rb := rfl
@[simp] theorem modSeg_sp (i : SegId) (f : Segment → Segment) : (s.modSeg i f).sp = s.sp := rfl
@[simp] theorem modSeg_au (i : SegId) (f : Segment → Segment) : (s.modSeg i f).au = s.au := rfl
@[simp] theorem modSeg_hp (i : SegId) (f : Segment → Segment) : (s.modSeg i f).hp = s.hp := rfl
@[simp] theorem modSeg_wire (i : SegId) (f : Segment → Segment) : (s.modSeg i f).wire = s.wire := rfl
@[simp] theorem modSeg_pending (i : SegId) (f : Segment → Segment) : (s.modSeg i f).pending = s.pending := rfl
@[simp] theorem modSeg_su_issue (i : SegId) (f : Segment → Segment) : (s.modSeg i f).su.issue = s.su.issue := rfl
@[simp] theorem modSeg_su_grantPtr (i : SegId) (f : Segment → Segment) : (s.modSeg i f).su.grantPtr = s.su.grantPtr := rfl
@[simp] theorem modSeg_qp (i : SegId) (f : Segment → Segment) (y : QpId) : (s.modSeg i f).qp y = s.qp y := rfl
@[simp] theorem modSeg_entry (i : SegId) (f : Segment → Segment) (y : EntryId) : (s.modSeg i f).entry y = s.entry y := rfl
@[simp] theorem modSeg_inflight (i : SegId) (f : Segment → Segment) (y : QpId) : (s.modSeg i f).inflight y = s.inflight y := rfl
@[simp] theorem modSeg_posted (i : SegId) (f : Segment → Segment) (y : QpId) : (s.modSeg i f).posted y = s.posted y := rfl
@[simp] theorem modSeg_seg_self (i : SegId) (f : Segment → Segment) : (s.modSeg i f).seg i = f (s.seg i) := by simp [modSeg]
theorem modSeg_seg (i : SegId) (f : Segment → Segment) (y : SegId) : (s.modSeg i f).seg y = if y = i then f (s.seg i) else s.seg y := by
  simp only [modSeg, setSeg_seg]
@[simp] theorem modSeg_issue (i : SegId) (f : Segment → Segment) (y : SpokeId) : (s.modSeg i f).issue y = s.issue y := rfl
@[simp] theorem modSeg_window (i : SegId) (f : Segment → Segment) (y : WindowId) : (s.modSeg i f).window y = s.window y := rfl
@[simp] theorem modSeg_context (i : SegId) (f : Segment → Segment) (y : ContextId) : (s.modSeg i f).context y = s.context y := rfl
@[simp] theorem modSeg_walk (i : SegId) (f : Segment → Segment) (y : WalkId) : (s.modSeg i f).walk y = s.walk y := rfl
@[simp] theorem modSeg_slot (i : SegId) (f : Segment → Segment) (y : SlotId) : (s.modSeg i f).slot y = s.slot y := rfl
@[simp] theorem modSeg_held (i : SegId) (f : Segment → Segment) (y : QpId) : (s.modSeg i f).held y = s.held y := rfl
@[simp] theorem modSeg_spoke (i : SegId) (f : Segment → Segment) (y : SpokeId) : (s.modSeg i f).spoke y = s.spoke y := rfl
@[simp] theorem modSeg_place (i : SegId) (f : Segment → Segment) (y : PlaceId) : (s.modSeg i f).place y = s.place y := rfl

/-! ## setIssue -/

@[simp] theorem setIssue_ctl (k : SpokeId) (l : List SegId) : (s.setIssue k l).ctl = s.ctl := rfl
@[simp] theorem setIssue_qe (k : SpokeId) (l : List SegId) : (s.setIssue k l).qe = s.qe := rfl
@[simp] theorem setIssue_tt (k : SpokeId) (l : List SegId) : (s.setIssue k l).tt = s.tt := rfl
@[simp] theorem setIssue_wu (k : SpokeId) (l : List SegId) : (s.setIssue k l).wu = s.wu := rfl
@[simp] theorem setIssue_tu (k : SpokeId) (l : List SegId) : (s.setIssue k l).tu = s.tu := rfl
@[simp] theorem setIssue_rb (k : SpokeId) (l : List SegId) : (s.setIssue k l).rb = s.rb := rfl
@[simp] theorem setIssue_sp (k : SpokeId) (l : List SegId) : (s.setIssue k l).sp = s.sp := rfl
@[simp] theorem setIssue_au (k : SpokeId) (l : List SegId) : (s.setIssue k l).au = s.au := rfl
@[simp] theorem setIssue_hp (k : SpokeId) (l : List SegId) : (s.setIssue k l).hp = s.hp := rfl
@[simp] theorem setIssue_wire (k : SpokeId) (l : List SegId) : (s.setIssue k l).wire = s.wire := rfl
@[simp] theorem setIssue_pending (k : SpokeId) (l : List SegId) : (s.setIssue k l).pending = s.pending := rfl
@[simp] theorem setIssue_su_segments (k : SpokeId) (l : List SegId) : (s.setIssue k l).su.segments = s.su.segments := rfl
@[simp] theorem setIssue_su_grantPtr (k : SpokeId) (l : List SegId) : (s.setIssue k l).su.grantPtr = s.su.grantPtr := rfl
@[simp] theorem setIssue_qp (k : SpokeId) (l : List SegId) (y : QpId) : (s.setIssue k l).qp y = s.qp y := rfl
@[simp] theorem setIssue_entry (k : SpokeId) (l : List SegId) (y : EntryId) : (s.setIssue k l).entry y = s.entry y := rfl
@[simp] theorem setIssue_inflight (k : SpokeId) (l : List SegId) (y : QpId) : (s.setIssue k l).inflight y = s.inflight y := rfl
@[simp] theorem setIssue_posted (k : SpokeId) (l : List SegId) (y : QpId) : (s.setIssue k l).posted y = s.posted y := rfl
@[simp] theorem setIssue_seg (k : SpokeId) (l : List SegId) (y : SegId) : (s.setIssue k l).seg y = s.seg y := rfl
@[simp] theorem setIssue_issue_self (k : SpokeId) (l : List SegId) : (s.setIssue k l).issue k = l := by simp [setIssue, issue]
theorem setIssue_issue (k : SpokeId) (l : List SegId) (y : SpokeId) : (s.setIssue k l).issue y = if y = k then l else s.issue y := by
  simp only [setIssue, issue, Fin.getElem_fin, Vector.getElem_set, Fin.ext_iff, eq_comm]
@[simp] theorem setIssue_window (k : SpokeId) (l : List SegId) (y : WindowId) : (s.setIssue k l).window y = s.window y := rfl
@[simp] theorem setIssue_context (k : SpokeId) (l : List SegId) (y : ContextId) : (s.setIssue k l).context y = s.context y := rfl
@[simp] theorem setIssue_walk (k : SpokeId) (l : List SegId) (y : WalkId) : (s.setIssue k l).walk y = s.walk y := rfl
@[simp] theorem setIssue_slot (k : SpokeId) (l : List SegId) (y : SlotId) : (s.setIssue k l).slot y = s.slot y := rfl
@[simp] theorem setIssue_held (k : SpokeId) (l : List SegId) (y : QpId) : (s.setIssue k l).held y = s.held y := rfl
@[simp] theorem setIssue_spoke (k : SpokeId) (l : List SegId) (y : SpokeId) : (s.setIssue k l).spoke y = s.spoke y := rfl
@[simp] theorem setIssue_place (k : SpokeId) (l : List SegId) (y : PlaceId) : (s.setIssue k l).place y = s.place y := rfl

/-! ## setWalk -/

@[simp] theorem setWalk_ctl (w : WalkId) (x : Option Walk) : (s.setWalk w x).ctl = s.ctl := rfl
@[simp] theorem setWalk_qe (w : WalkId) (x : Option Walk) : (s.setWalk w x).qe = s.qe := rfl
@[simp] theorem setWalk_tt (w : WalkId) (x : Option Walk) : (s.setWalk w x).tt = s.tt := rfl
@[simp] theorem setWalk_su (w : WalkId) (x : Option Walk) : (s.setWalk w x).su = s.su := rfl
@[simp] theorem setWalk_wu (w : WalkId) (x : Option Walk) : (s.setWalk w x).wu = s.wu := rfl
@[simp] theorem setWalk_rb (w : WalkId) (x : Option Walk) : (s.setWalk w x).rb = s.rb := rfl
@[simp] theorem setWalk_sp (w : WalkId) (x : Option Walk) : (s.setWalk w x).sp = s.sp := rfl
@[simp] theorem setWalk_au (w : WalkId) (x : Option Walk) : (s.setWalk w x).au = s.au := rfl
@[simp] theorem setWalk_hp (w : WalkId) (x : Option Walk) : (s.setWalk w x).hp = s.hp := rfl
@[simp] theorem setWalk_wire (w : WalkId) (x : Option Walk) : (s.setWalk w x).wire = s.wire := rfl
@[simp] theorem setWalk_pending (w : WalkId) (x : Option Walk) : (s.setWalk w x).pending = s.pending := rfl
@[simp] theorem setWalk_tu_contexts (w : WalkId) (x : Option Walk) : (s.setWalk w x).tu.contexts = s.tu.contexts := rfl
@[simp] theorem setWalk_tu_cache (w : WalkId) (x : Option Walk) : (s.setWalk w x).tu.cache = s.tu.cache := rfl
@[simp] theorem setWalk_tu_victim (w : WalkId) (x : Option Walk) : (s.setWalk w x).tu.victim = s.tu.victim := rfl
@[simp] theorem setWalk_tu_walkWait (w : WalkId) (x : Option Walk) : (s.setWalk w x).tu.walkWait = s.tu.walkWait := rfl
@[simp] theorem setWalk_tu_invalidation (w : WalkId) (x : Option Walk) : (s.setWalk w x).tu.invalidation = s.tu.invalidation := rfl
@[simp] theorem setWalk_qp (w : WalkId) (x : Option Walk) (y : QpId) : (s.setWalk w x).qp y = s.qp y := rfl
@[simp] theorem setWalk_entry (w : WalkId) (x : Option Walk) (y : EntryId) : (s.setWalk w x).entry y = s.entry y := rfl
@[simp] theorem setWalk_inflight (w : WalkId) (x : Option Walk) (y : QpId) : (s.setWalk w x).inflight y = s.inflight y := rfl
@[simp] theorem setWalk_posted (w : WalkId) (x : Option Walk) (y : QpId) : (s.setWalk w x).posted y = s.posted y := rfl
@[simp] theorem setWalk_seg (w : WalkId) (x : Option Walk) (y : SegId) : (s.setWalk w x).seg y = s.seg y := rfl
@[simp] theorem setWalk_issue (w : WalkId) (x : Option Walk) (y : SpokeId) : (s.setWalk w x).issue y = s.issue y := rfl
@[simp] theorem setWalk_window (w : WalkId) (x : Option Walk) (y : WindowId) : (s.setWalk w x).window y = s.window y := rfl
@[simp] theorem setWalk_context (w : WalkId) (x : Option Walk) (y : ContextId) : (s.setWalk w x).context y = s.context y := rfl
@[simp] theorem setWalk_walk_self (w : WalkId) (x : Option Walk) : (s.setWalk w x).walk w = x := by simp [setWalk, walk]
theorem setWalk_walk (w : WalkId) (x : Option Walk) (y : WalkId) : (s.setWalk w x).walk y = if y = w then x else s.walk y := by
  simp only [setWalk, walk, Fin.getElem_fin, Vector.getElem_set, Fin.ext_iff, eq_comm]
@[simp] theorem setWalk_slot (w : WalkId) (x : Option Walk) (y : SlotId) : (s.setWalk w x).slot y = s.slot y := rfl
@[simp] theorem setWalk_held (w : WalkId) (x : Option Walk) (y : QpId) : (s.setWalk w x).held y = s.held y := rfl
@[simp] theorem setWalk_spoke (w : WalkId) (x : Option Walk) (y : SpokeId) : (s.setWalk w x).spoke y = s.spoke y := rfl
@[simp] theorem setWalk_place (w : WalkId) (x : Option Walk) (y : PlaceId) : (s.setWalk w x).place y = s.place y := rfl

/-! ## setSlot -/

@[simp] theorem setSlot_ctl (j : SlotId) (x : Slot) : (s.setSlot j x).ctl = s.ctl := rfl
@[simp] theorem setSlot_qe (j : SlotId) (x : Slot) : (s.setSlot j x).qe = s.qe := rfl
@[simp] theorem setSlot_tt (j : SlotId) (x : Slot) : (s.setSlot j x).tt = s.tt := rfl
@[simp] theorem setSlot_su (j : SlotId) (x : Slot) : (s.setSlot j x).su = s.su := rfl
@[simp] theorem setSlot_wu (j : SlotId) (x : Slot) : (s.setSlot j x).wu = s.wu := rfl
@[simp] theorem setSlot_tu (j : SlotId) (x : Slot) : (s.setSlot j x).tu = s.tu := rfl
@[simp] theorem setSlot_sp (j : SlotId) (x : Slot) : (s.setSlot j x).sp = s.sp := rfl
@[simp] theorem setSlot_au (j : SlotId) (x : Slot) : (s.setSlot j x).au = s.au := rfl
@[simp] theorem setSlot_hp (j : SlotId) (x : Slot) : (s.setSlot j x).hp = s.hp := rfl
@[simp] theorem setSlot_wire (j : SlotId) (x : Slot) : (s.setSlot j x).wire = s.wire := rfl
@[simp] theorem setSlot_pending (j : SlotId) (x : Slot) : (s.setSlot j x).pending = s.pending := rfl
@[simp] theorem setSlot_rb_held (j : SlotId) (x : Slot) : (s.setSlot j x).rb.held = s.rb.held := rfl
@[simp] theorem setSlot_rb_waiting (j : SlotId) (x : Slot) : (s.setSlot j x).rb.waiting = s.rb.waiting := rfl
@[simp] theorem setSlot_qp (j : SlotId) (x : Slot) (y : QpId) : (s.setSlot j x).qp y = s.qp y := rfl
@[simp] theorem setSlot_entry (j : SlotId) (x : Slot) (y : EntryId) : (s.setSlot j x).entry y = s.entry y := rfl
@[simp] theorem setSlot_inflight (j : SlotId) (x : Slot) (y : QpId) : (s.setSlot j x).inflight y = s.inflight y := rfl
@[simp] theorem setSlot_posted (j : SlotId) (x : Slot) (y : QpId) : (s.setSlot j x).posted y = s.posted y := rfl
@[simp] theorem setSlot_seg (j : SlotId) (x : Slot) (y : SegId) : (s.setSlot j x).seg y = s.seg y := rfl
@[simp] theorem setSlot_issue (j : SlotId) (x : Slot) (y : SpokeId) : (s.setSlot j x).issue y = s.issue y := rfl
@[simp] theorem setSlot_window (j : SlotId) (x : Slot) (y : WindowId) : (s.setSlot j x).window y = s.window y := rfl
@[simp] theorem setSlot_context (j : SlotId) (x : Slot) (y : ContextId) : (s.setSlot j x).context y = s.context y := rfl
@[simp] theorem setSlot_walk (j : SlotId) (x : Slot) (y : WalkId) : (s.setSlot j x).walk y = s.walk y := rfl
@[simp] theorem setSlot_slot_self (j : SlotId) (x : Slot) : (s.setSlot j x).slot j = x := by simp [setSlot, slot]
theorem setSlot_slot (j : SlotId) (x : Slot) (y : SlotId) : (s.setSlot j x).slot y = if y = j then x else s.slot y := by
  simp only [setSlot, slot, Fin.getElem_fin, Vector.getElem_set, Fin.ext_iff, eq_comm]
@[simp] theorem setSlot_held (j : SlotId) (x : Slot) (y : QpId) : (s.setSlot j x).held y = s.held y := rfl
@[simp] theorem setSlot_spoke (j : SlotId) (x : Slot) (y : SpokeId) : (s.setSlot j x).spoke y = s.spoke y := rfl
@[simp] theorem setSlot_place (j : SlotId) (x : Slot) (y : PlaceId) : (s.setSlot j x).place y = s.place y := rfl

/-! ## setHeld -/

@[simp] theorem setHeld_ctl (n : QpId) (c : Nat) : (s.setHeld n c).ctl = s.ctl := rfl
@[simp] theorem setHeld_qe (n : QpId) (c : Nat) : (s.setHeld n c).qe = s.qe := rfl
@[simp] theorem setHeld_tt (n : QpId) (c : Nat) : (s.setHeld n c).tt = s.tt := rfl
@[simp] theorem setHeld_su (n : QpId) (c : Nat) : (s.setHeld n c).su = s.su := rfl
@[simp] theorem setHeld_wu (n : QpId) (c : Nat) : (s.setHeld n c).wu = s.wu := rfl
@[simp] theorem setHeld_tu (n : QpId) (c : Nat) : (s.setHeld n c).tu = s.tu := rfl
@[simp] theorem setHeld_sp (n : QpId) (c : Nat) : (s.setHeld n c).sp = s.sp := rfl
@[simp] theorem setHeld_au (n : QpId) (c : Nat) : (s.setHeld n c).au = s.au := rfl
@[simp] theorem setHeld_hp (n : QpId) (c : Nat) : (s.setHeld n c).hp = s.hp := rfl
@[simp] theorem setHeld_wire (n : QpId) (c : Nat) : (s.setHeld n c).wire = s.wire := rfl
@[simp] theorem setHeld_pending (n : QpId) (c : Nat) : (s.setHeld n c).pending = s.pending := rfl
@[simp] theorem setHeld_rb_slots (n : QpId) (c : Nat) : (s.setHeld n c).rb.slots = s.rb.slots := rfl
@[simp] theorem setHeld_rb_waiting (n : QpId) (c : Nat) : (s.setHeld n c).rb.waiting = s.rb.waiting := rfl
@[simp] theorem setHeld_qp (n : QpId) (c : Nat) (y : QpId) : (s.setHeld n c).qp y = s.qp y := rfl
@[simp] theorem setHeld_entry (n : QpId) (c : Nat) (y : EntryId) : (s.setHeld n c).entry y = s.entry y := rfl
@[simp] theorem setHeld_inflight (n : QpId) (c : Nat) (y : QpId) : (s.setHeld n c).inflight y = s.inflight y := rfl
@[simp] theorem setHeld_posted (n : QpId) (c : Nat) (y : QpId) : (s.setHeld n c).posted y = s.posted y := rfl
@[simp] theorem setHeld_seg (n : QpId) (c : Nat) (y : SegId) : (s.setHeld n c).seg y = s.seg y := rfl
@[simp] theorem setHeld_issue (n : QpId) (c : Nat) (y : SpokeId) : (s.setHeld n c).issue y = s.issue y := rfl
@[simp] theorem setHeld_window (n : QpId) (c : Nat) (y : WindowId) : (s.setHeld n c).window y = s.window y := rfl
@[simp] theorem setHeld_context (n : QpId) (c : Nat) (y : ContextId) : (s.setHeld n c).context y = s.context y := rfl
@[simp] theorem setHeld_walk (n : QpId) (c : Nat) (y : WalkId) : (s.setHeld n c).walk y = s.walk y := rfl
@[simp] theorem setHeld_slot (n : QpId) (c : Nat) (y : SlotId) : (s.setHeld n c).slot y = s.slot y := rfl
@[simp] theorem setHeld_held_self (n : QpId) (c : Nat) : (s.setHeld n c).held n = c := by simp [setHeld, held]
theorem setHeld_held (n : QpId) (c : Nat) (y : QpId) : (s.setHeld n c).held y = if y = n then c else s.held y := by
  simp only [setHeld, held, Fin.getElem_fin, Vector.getElem_set, Fin.ext_iff, eq_comm]
@[simp] theorem setHeld_spoke (n : QpId) (c : Nat) (y : SpokeId) : (s.setHeld n c).spoke y = s.spoke y := rfl
@[simp] theorem setHeld_place (n : QpId) (c : Nat) (y : PlaceId) : (s.setHeld n c).place y = s.place y := rfl

/-! ## setWaiting -/

@[simp] theorem setWaiting_ctl (l : List SegId) : (s.setWaiting l).ctl = s.ctl := rfl
@[simp] theorem setWaiting_qe (l : List SegId) : (s.setWaiting l).qe = s.qe := rfl
@[simp] theorem setWaiting_tt (l : List SegId) : (s.setWaiting l).tt = s.tt := rfl
@[simp] theorem setWaiting_su (l : List SegId) : (s.setWaiting l).su = s.su := rfl
@[simp] theorem setWaiting_wu (l : List SegId) : (s.setWaiting l).wu = s.wu := rfl
@[simp] theorem setWaiting_tu (l : List SegId) : (s.setWaiting l).tu = s.tu := rfl
@[simp] theorem setWaiting_sp (l : List SegId) : (s.setWaiting l).sp = s.sp := rfl
@[simp] theorem setWaiting_au (l : List SegId) : (s.setWaiting l).au = s.au := rfl
@[simp] theorem setWaiting_hp (l : List SegId) : (s.setWaiting l).hp = s.hp := rfl
@[simp] theorem setWaiting_wire (l : List SegId) : (s.setWaiting l).wire = s.wire := rfl
@[simp] theorem setWaiting_pending (l : List SegId) : (s.setWaiting l).pending = s.pending := rfl
@[simp] theorem setWaiting_rb_slots (l : List SegId) : (s.setWaiting l).rb.slots = s.rb.slots := rfl
@[simp] theorem setWaiting_rb_held (l : List SegId) : (s.setWaiting l).rb.held = s.rb.held := rfl
@[simp] theorem setWaiting_rb_waiting (l : List SegId) : (s.setWaiting l).rb.waiting = l := rfl
@[simp] theorem setWaiting_qp (l : List SegId) (y : QpId) : (s.setWaiting l).qp y = s.qp y := rfl
@[simp] theorem setWaiting_entry (l : List SegId) (y : EntryId) : (s.setWaiting l).entry y = s.entry y := rfl
@[simp] theorem setWaiting_inflight (l : List SegId) (y : QpId) : (s.setWaiting l).inflight y = s.inflight y := rfl
@[simp] theorem setWaiting_posted (l : List SegId) (y : QpId) : (s.setWaiting l).posted y = s.posted y := rfl
@[simp] theorem setWaiting_seg (l : List SegId) (y : SegId) : (s.setWaiting l).seg y = s.seg y := rfl
@[simp] theorem setWaiting_issue (l : List SegId) (y : SpokeId) : (s.setWaiting l).issue y = s.issue y := rfl
@[simp] theorem setWaiting_window (l : List SegId) (y : WindowId) : (s.setWaiting l).window y = s.window y := rfl
@[simp] theorem setWaiting_context (l : List SegId) (y : ContextId) : (s.setWaiting l).context y = s.context y := rfl
@[simp] theorem setWaiting_walk (l : List SegId) (y : WalkId) : (s.setWaiting l).walk y = s.walk y := rfl
@[simp] theorem setWaiting_slot (l : List SegId) (y : SlotId) : (s.setWaiting l).slot y = s.slot y := rfl
@[simp] theorem setWaiting_held (l : List SegId) (y : QpId) : (s.setWaiting l).held y = s.held y := rfl
@[simp] theorem setWaiting_spoke (l : List SegId) (y : SpokeId) : (s.setWaiting l).spoke y = s.spoke y := rfl
@[simp] theorem setWaiting_place (l : List SegId) (y : PlaceId) : (s.setWaiting l).place y = s.place y := rfl

/-! ## setSpoke -/

@[simp] theorem setSpoke_ctl (k : SpokeId) (x : Spoke) : (s.setSpoke k x).ctl = s.ctl := rfl
@[simp] theorem setSpoke_qe (k : SpokeId) (x : Spoke) : (s.setSpoke k x).qe = s.qe := rfl
@[simp] theorem setSpoke_tt (k : SpokeId) (x : Spoke) : (s.setSpoke k x).tt = s.tt := rfl
@[simp] theorem setSpoke_su (k : SpokeId) (x : Spoke) : (s.setSpoke k x).su = s.su := rfl
@[simp] theorem setSpoke_wu (k : SpokeId) (x : Spoke) : (s.setSpoke k x).wu = s.wu := rfl
@[simp] theorem setSpoke_tu (k : SpokeId) (x : Spoke) : (s.setSpoke k x).tu = s.tu := rfl
@[simp] theorem setSpoke_rb (k : SpokeId) (x : Spoke) : (s.setSpoke k x).rb = s.rb := rfl
@[simp] theorem setSpoke_au (k : SpokeId) (x : Spoke) : (s.setSpoke k x).au = s.au := rfl
@[simp] theorem setSpoke_hp (k : SpokeId) (x : Spoke) : (s.setSpoke k x).hp = s.hp := rfl
@[simp] theorem setSpoke_wire (k : SpokeId) (x : Spoke) : (s.setSpoke k x).wire = s.wire := rfl
@[simp] theorem setSpoke_pending (k : SpokeId) (x : Spoke) : (s.setSpoke k x).pending = s.pending := rfl
@[simp] theorem setSpoke_sp_low (k : SpokeId) (x : Spoke) : (s.setSpoke k x).sp.low = s.sp.low := rfl
@[simp] theorem setSpoke_sp_high (k : SpokeId) (x : Spoke) : (s.setSpoke k x).sp.high = s.sp.high := rfl
@[simp] theorem setSpoke_sp_carrierIn (k : SpokeId) (x : Spoke) : (s.setSpoke k x).sp.carrierIn = s.sp.carrierIn := rfl
@[simp] theorem setSpoke_qp (k : SpokeId) (x : Spoke) (y : QpId) : (s.setSpoke k x).qp y = s.qp y := rfl
@[simp] theorem setSpoke_entry (k : SpokeId) (x : Spoke) (y : EntryId) : (s.setSpoke k x).entry y = s.entry y := rfl
@[simp] theorem setSpoke_inflight (k : SpokeId) (x : Spoke) (y : QpId) : (s.setSpoke k x).inflight y = s.inflight y := rfl
@[simp] theorem setSpoke_posted (k : SpokeId) (x : Spoke) (y : QpId) : (s.setSpoke k x).posted y = s.posted y := rfl
@[simp] theorem setSpoke_seg (k : SpokeId) (x : Spoke) (y : SegId) : (s.setSpoke k x).seg y = s.seg y := rfl
@[simp] theorem setSpoke_issue (k : SpokeId) (x : Spoke) (y : SpokeId) : (s.setSpoke k x).issue y = s.issue y := rfl
@[simp] theorem setSpoke_window (k : SpokeId) (x : Spoke) (y : WindowId) : (s.setSpoke k x).window y = s.window y := rfl
@[simp] theorem setSpoke_context (k : SpokeId) (x : Spoke) (y : ContextId) : (s.setSpoke k x).context y = s.context y := rfl
@[simp] theorem setSpoke_walk (k : SpokeId) (x : Spoke) (y : WalkId) : (s.setSpoke k x).walk y = s.walk y := rfl
@[simp] theorem setSpoke_slot (k : SpokeId) (x : Spoke) (y : SlotId) : (s.setSpoke k x).slot y = s.slot y := rfl
@[simp] theorem setSpoke_held (k : SpokeId) (x : Spoke) (y : QpId) : (s.setSpoke k x).held y = s.held y := rfl
@[simp] theorem setSpoke_spoke_self (k : SpokeId) (x : Spoke) : (s.setSpoke k x).spoke k = x := by simp [setSpoke, spoke]
theorem setSpoke_spoke (k : SpokeId) (x : Spoke) (y : SpokeId) : (s.setSpoke k x).spoke y = if y = k then x else s.spoke y := by
  simp only [setSpoke, spoke, Fin.getElem_fin, Vector.getElem_set, Fin.ext_iff, eq_comm]
@[simp] theorem setSpoke_place (k : SpokeId) (x : Spoke) (y : PlaceId) : (s.setSpoke k x).place y = s.place y := rfl

/-! ## modSpoke -/

@[simp] theorem modSpoke_ctl (k : SpokeId) (f : Spoke → Spoke) : (s.modSpoke k f).ctl = s.ctl := rfl
@[simp] theorem modSpoke_qe (k : SpokeId) (f : Spoke → Spoke) : (s.modSpoke k f).qe = s.qe := rfl
@[simp] theorem modSpoke_tt (k : SpokeId) (f : Spoke → Spoke) : (s.modSpoke k f).tt = s.tt := rfl
@[simp] theorem modSpoke_su (k : SpokeId) (f : Spoke → Spoke) : (s.modSpoke k f).su = s.su := rfl
@[simp] theorem modSpoke_wu (k : SpokeId) (f : Spoke → Spoke) : (s.modSpoke k f).wu = s.wu := rfl
@[simp] theorem modSpoke_tu (k : SpokeId) (f : Spoke → Spoke) : (s.modSpoke k f).tu = s.tu := rfl
@[simp] theorem modSpoke_rb (k : SpokeId) (f : Spoke → Spoke) : (s.modSpoke k f).rb = s.rb := rfl
@[simp] theorem modSpoke_au (k : SpokeId) (f : Spoke → Spoke) : (s.modSpoke k f).au = s.au := rfl
@[simp] theorem modSpoke_hp (k : SpokeId) (f : Spoke → Spoke) : (s.modSpoke k f).hp = s.hp := rfl
@[simp] theorem modSpoke_wire (k : SpokeId) (f : Spoke → Spoke) : (s.modSpoke k f).wire = s.wire := rfl
@[simp] theorem modSpoke_pending (k : SpokeId) (f : Spoke → Spoke) : (s.modSpoke k f).pending = s.pending := rfl
@[simp] theorem modSpoke_sp_low (k : SpokeId) (f : Spoke → Spoke) : (s.modSpoke k f).sp.low = s.sp.low := rfl
@[simp] theorem modSpoke_sp_high (k : SpokeId) (f : Spoke → Spoke) : (s.modSpoke k f).sp.high = s.sp.high := rfl
@[simp] theorem modSpoke_sp_carrierIn (k : SpokeId) (f : Spoke → Spoke) : (s.modSpoke k f).sp.carrierIn = s.sp.carrierIn := rfl
@[simp] theorem modSpoke_qp (k : SpokeId) (f : Spoke → Spoke) (y : QpId) : (s.modSpoke k f).qp y = s.qp y := rfl
@[simp] theorem modSpoke_entry (k : SpokeId) (f : Spoke → Spoke) (y : EntryId) : (s.modSpoke k f).entry y = s.entry y := rfl
@[simp] theorem modSpoke_inflight (k : SpokeId) (f : Spoke → Spoke) (y : QpId) : (s.modSpoke k f).inflight y = s.inflight y := rfl
@[simp] theorem modSpoke_posted (k : SpokeId) (f : Spoke → Spoke) (y : QpId) : (s.modSpoke k f).posted y = s.posted y := rfl
@[simp] theorem modSpoke_seg (k : SpokeId) (f : Spoke → Spoke) (y : SegId) : (s.modSpoke k f).seg y = s.seg y := rfl
@[simp] theorem modSpoke_issue (k : SpokeId) (f : Spoke → Spoke) (y : SpokeId) : (s.modSpoke k f).issue y = s.issue y := rfl
@[simp] theorem modSpoke_window (k : SpokeId) (f : Spoke → Spoke) (y : WindowId) : (s.modSpoke k f).window y = s.window y := rfl
@[simp] theorem modSpoke_context (k : SpokeId) (f : Spoke → Spoke) (y : ContextId) : (s.modSpoke k f).context y = s.context y := rfl
@[simp] theorem modSpoke_walk (k : SpokeId) (f : Spoke → Spoke) (y : WalkId) : (s.modSpoke k f).walk y = s.walk y := rfl
@[simp] theorem modSpoke_slot (k : SpokeId) (f : Spoke → Spoke) (y : SlotId) : (s.modSpoke k f).slot y = s.slot y := rfl
@[simp] theorem modSpoke_held (k : SpokeId) (f : Spoke → Spoke) (y : QpId) : (s.modSpoke k f).held y = s.held y := rfl
@[simp] theorem modSpoke_spoke_self (k : SpokeId) (f : Spoke → Spoke) : (s.modSpoke k f).spoke k = f (s.spoke k) := by simp [modSpoke]
theorem modSpoke_spoke (k : SpokeId) (f : Spoke → Spoke) (y : SpokeId) : (s.modSpoke k f).spoke y = if y = k then f (s.spoke k) else s.spoke y := by
  simp only [modSpoke, setSpoke_spoke]
@[simp] theorem modSpoke_place (k : SpokeId) (f : Spoke → Spoke) (y : PlaceId) : (s.modSpoke k f).place y = s.place y := rfl

/-! ## setExecutor -/

@[simp] theorem setExecutor_ctl (x : Executor) : (s.setExecutor x).ctl = s.ctl := rfl
@[simp] theorem setExecutor_qe (x : Executor) : (s.setExecutor x).qe = s.qe := rfl
@[simp] theorem setExecutor_tt (x : Executor) : (s.setExecutor x).tt = s.tt := rfl
@[simp] theorem setExecutor_su (x : Executor) : (s.setExecutor x).su = s.su := rfl
@[simp] theorem setExecutor_wu (x : Executor) : (s.setExecutor x).wu = s.wu := rfl
@[simp] theorem setExecutor_tu (x : Executor) : (s.setExecutor x).tu = s.tu := rfl
@[simp] theorem setExecutor_rb (x : Executor) : (s.setExecutor x).rb = s.rb := rfl
@[simp] theorem setExecutor_sp (x : Executor) : (s.setExecutor x).sp = s.sp := rfl
@[simp] theorem setExecutor_hp (x : Executor) : (s.setExecutor x).hp = s.hp := rfl
@[simp] theorem setExecutor_wire (x : Executor) : (s.setExecutor x).wire = s.wire := rfl
@[simp] theorem setExecutor_pending (x : Executor) : (s.setExecutor x).pending = s.pending := rfl
@[simp] theorem setExecutor_au_events (x : Executor) : (s.setExecutor x).au.events = s.au.events := rfl
@[simp] theorem setExecutor_au_overflow (x : Executor) : (s.setExecutor x).au.overflow = s.au.overflow := rfl
@[simp] theorem setExecutor_au_executor (x : Executor) : (s.setExecutor x).au.executor = x := rfl
@[simp] theorem setExecutor_qp (x : Executor) (y : QpId) : (s.setExecutor x).qp y = s.qp y := rfl
@[simp] theorem setExecutor_entry (x : Executor) (y : EntryId) : (s.setExecutor x).entry y = s.entry y := rfl
@[simp] theorem setExecutor_inflight (x : Executor) (y : QpId) : (s.setExecutor x).inflight y = s.inflight y := rfl
@[simp] theorem setExecutor_posted (x : Executor) (y : QpId) : (s.setExecutor x).posted y = s.posted y := rfl
@[simp] theorem setExecutor_seg (x : Executor) (y : SegId) : (s.setExecutor x).seg y = s.seg y := rfl
@[simp] theorem setExecutor_issue (x : Executor) (y : SpokeId) : (s.setExecutor x).issue y = s.issue y := rfl
@[simp] theorem setExecutor_window (x : Executor) (y : WindowId) : (s.setExecutor x).window y = s.window y := rfl
@[simp] theorem setExecutor_context (x : Executor) (y : ContextId) : (s.setExecutor x).context y = s.context y := rfl
@[simp] theorem setExecutor_walk (x : Executor) (y : WalkId) : (s.setExecutor x).walk y = s.walk y := rfl
@[simp] theorem setExecutor_slot (x : Executor) (y : SlotId) : (s.setExecutor x).slot y = s.slot y := rfl
@[simp] theorem setExecutor_held (x : Executor) (y : QpId) : (s.setExecutor x).held y = s.held y := rfl
@[simp] theorem setExecutor_spoke (x : Executor) (y : SpokeId) : (s.setExecutor x).spoke y = s.spoke y := rfl
@[simp] theorem setExecutor_place (x : Executor) (y : PlaceId) : (s.setExecutor x).place y = s.place y := rfl

/-! ## setPlace -/

@[simp] theorem setPlace_ctl (p : PlaceId) (x : Place) : (s.setPlace p x).ctl = s.ctl := rfl
@[simp] theorem setPlace_qe (p : PlaceId) (x : Place) : (s.setPlace p x).qe = s.qe := rfl
@[simp] theorem setPlace_tt (p : PlaceId) (x : Place) : (s.setPlace p x).tt = s.tt := rfl
@[simp] theorem setPlace_su (p : PlaceId) (x : Place) : (s.setPlace p x).su = s.su := rfl
@[simp] theorem setPlace_wu (p : PlaceId) (x : Place) : (s.setPlace p x).wu = s.wu := rfl
@[simp] theorem setPlace_tu (p : PlaceId) (x : Place) : (s.setPlace p x).tu = s.tu := rfl
@[simp] theorem setPlace_rb (p : PlaceId) (x : Place) : (s.setPlace p x).rb = s.rb := rfl
@[simp] theorem setPlace_sp (p : PlaceId) (x : Place) : (s.setPlace p x).sp = s.sp := rfl
@[simp] theorem setPlace_au (p : PlaceId) (x : Place) : (s.setPlace p x).au = s.au := rfl
@[simp] theorem setPlace_wire (p : PlaceId) (x : Place) : (s.setPlace p x).wire = s.wire := rfl
@[simp] theorem setPlace_pending (p : PlaceId) (x : Place) : (s.setPlace p x).pending = s.pending := rfl
@[simp] theorem setPlace_hp_fetchList (p : PlaceId) (x : Place) : (s.setPlace p x).hp.fetchList = s.hp.fetchList := rfl
@[simp] theorem setPlace_hp_walkList (p : PlaceId) (x : Place) : (s.setPlace p x).hp.walkList = s.hp.walkList := rfl
@[simp] theorem setPlace_hp_dataList (p : PlaceId) (x : Place) : (s.setPlace p x).hp.dataList = s.hp.dataList := rfl
@[simp] theorem setPlace_hp_lastKind (p : PlaceId) (x : Place) : (s.setPlace p x).hp.lastKind = s.hp.lastKind := rfl
@[simp] theorem setPlace_hp_writes (p : PlaceId) (x : Place) : (s.setPlace p x).hp.writes = s.hp.writes := rfl
@[simp] theorem setPlace_hp_messagesEnabled (p : PlaceId) (x : Place) : (s.setPlace p x).hp.messagesEnabled = s.hp.messagesEnabled := rfl
@[simp] theorem setPlace_hp_messagePending (p : PlaceId) (x : Place) : (s.setPlace p x).hp.messagePending = s.hp.messagePending := rfl
@[simp] theorem setPlace_qp (p : PlaceId) (x : Place) (y : QpId) : (s.setPlace p x).qp y = s.qp y := rfl
@[simp] theorem setPlace_entry (p : PlaceId) (x : Place) (y : EntryId) : (s.setPlace p x).entry y = s.entry y := rfl
@[simp] theorem setPlace_inflight (p : PlaceId) (x : Place) (y : QpId) : (s.setPlace p x).inflight y = s.inflight y := rfl
@[simp] theorem setPlace_posted (p : PlaceId) (x : Place) (y : QpId) : (s.setPlace p x).posted y = s.posted y := rfl
@[simp] theorem setPlace_seg (p : PlaceId) (x : Place) (y : SegId) : (s.setPlace p x).seg y = s.seg y := rfl
@[simp] theorem setPlace_issue (p : PlaceId) (x : Place) (y : SpokeId) : (s.setPlace p x).issue y = s.issue y := rfl
@[simp] theorem setPlace_window (p : PlaceId) (x : Place) (y : WindowId) : (s.setPlace p x).window y = s.window y := rfl
@[simp] theorem setPlace_context (p : PlaceId) (x : Place) (y : ContextId) : (s.setPlace p x).context y = s.context y := rfl
@[simp] theorem setPlace_walk (p : PlaceId) (x : Place) (y : WalkId) : (s.setPlace p x).walk y = s.walk y := rfl
@[simp] theorem setPlace_slot (p : PlaceId) (x : Place) (y : SlotId) : (s.setPlace p x).slot y = s.slot y := rfl
@[simp] theorem setPlace_held (p : PlaceId) (x : Place) (y : QpId) : (s.setPlace p x).held y = s.held y := rfl
@[simp] theorem setPlace_spoke (p : PlaceId) (x : Place) (y : SpokeId) : (s.setPlace p x).spoke y = s.spoke y := rfl
@[simp] theorem setPlace_place_self (p : PlaceId) (x : Place) : (s.setPlace p x).place p = x := by simp [setPlace, place]
theorem setPlace_place (p : PlaceId) (x : Place) (y : PlaceId) : (s.setPlace p x).place y = if y = p then x else s.place y := by
  simp only [setPlace, place, Fin.getElem_fin, Vector.getElem_set, Fin.ext_iff, eq_comm]

/-! ## takeWrite -/

@[simp] theorem takeWrite_ctl (w : HostWrite) : (s.takeWrite w).ctl = s.ctl := rfl
@[simp] theorem takeWrite_qe (w : HostWrite) : (s.takeWrite w).qe = s.qe := rfl
@[simp] theorem takeWrite_tt (w : HostWrite) : (s.takeWrite w).tt = s.tt := rfl
@[simp] theorem takeWrite_su (w : HostWrite) : (s.takeWrite w).su = s.su := rfl
@[simp] theorem takeWrite_wu (w : HostWrite) : (s.takeWrite w).wu = s.wu := rfl
@[simp] theorem takeWrite_tu (w : HostWrite) : (s.takeWrite w).tu = s.tu := rfl
@[simp] theorem takeWrite_rb (w : HostWrite) : (s.takeWrite w).rb = s.rb := rfl
@[simp] theorem takeWrite_sp (w : HostWrite) : (s.takeWrite w).sp = s.sp := rfl
@[simp] theorem takeWrite_au (w : HostWrite) : (s.takeWrite w).au = s.au := rfl
@[simp] theorem takeWrite_wire (w : HostWrite) : (s.takeWrite w).wire = s.wire := rfl
@[simp] theorem takeWrite_pending (w : HostWrite) : (s.takeWrite w).pending = s.pending := rfl
@[simp] theorem takeWrite_hp_places (w : HostWrite) : (s.takeWrite w).hp.places = s.hp.places := rfl
@[simp] theorem takeWrite_hp_fetchList (w : HostWrite) : (s.takeWrite w).hp.fetchList = s.hp.fetchList := rfl
@[simp] theorem takeWrite_hp_walkList (w : HostWrite) : (s.takeWrite w).hp.walkList = s.hp.walkList := rfl
@[simp] theorem takeWrite_hp_dataList (w : HostWrite) : (s.takeWrite w).hp.dataList = s.hp.dataList := rfl
@[simp] theorem takeWrite_hp_lastKind (w : HostWrite) : (s.takeWrite w).hp.lastKind = s.hp.lastKind := rfl
@[simp] theorem takeWrite_hp_messagesEnabled (w : HostWrite) : (s.takeWrite w).hp.messagesEnabled = s.hp.messagesEnabled := rfl
@[simp] theorem takeWrite_hp_messagePending (w : HostWrite) : (s.takeWrite w).hp.messagePending = s.hp.messagePending := rfl
@[simp] theorem takeWrite_hp_writes (w : HostWrite) : (s.takeWrite w).hp.writes = s.hp.writes ++ [w] := rfl
@[simp] theorem takeWrite_qp (w : HostWrite) (y : QpId) : (s.takeWrite w).qp y = s.qp y := rfl
@[simp] theorem takeWrite_entry (w : HostWrite) (y : EntryId) : (s.takeWrite w).entry y = s.entry y := rfl
@[simp] theorem takeWrite_inflight (w : HostWrite) (y : QpId) : (s.takeWrite w).inflight y = s.inflight y := rfl
@[simp] theorem takeWrite_posted (w : HostWrite) (y : QpId) : (s.takeWrite w).posted y = s.posted y := rfl
@[simp] theorem takeWrite_seg (w : HostWrite) (y : SegId) : (s.takeWrite w).seg y = s.seg y := rfl
@[simp] theorem takeWrite_issue (w : HostWrite) (y : SpokeId) : (s.takeWrite w).issue y = s.issue y := rfl
@[simp] theorem takeWrite_window (w : HostWrite) (y : WindowId) : (s.takeWrite w).window y = s.window y := rfl
@[simp] theorem takeWrite_context (w : HostWrite) (y : ContextId) : (s.takeWrite w).context y = s.context y := rfl
@[simp] theorem takeWrite_walk (w : HostWrite) (y : WalkId) : (s.takeWrite w).walk y = s.walk y := rfl
@[simp] theorem takeWrite_slot (w : HostWrite) (y : SlotId) : (s.takeWrite w).slot y = s.slot y := rfl
@[simp] theorem takeWrite_held (w : HostWrite) (y : QpId) : (s.takeWrite w).held y = s.held y := rfl
@[simp] theorem takeWrite_spoke (w : HostWrite) (y : SpokeId) : (s.takeWrite w).spoke y = s.spoke y := rfl
@[simp] theorem takeWrite_place (w : HostWrite) (y : PlaceId) : (s.takeWrite w).place y = s.place y := rfl

/-! ## sendFrame -/

@[simp] theorem sendFrame_ctl (k : SpokeId) (m : TxMessage) : (s.sendFrame k m).ctl = s.ctl := rfl
@[simp] theorem sendFrame_qe (k : SpokeId) (m : TxMessage) : (s.sendFrame k m).qe = s.qe := rfl
@[simp] theorem sendFrame_tt (k : SpokeId) (m : TxMessage) : (s.sendFrame k m).tt = s.tt := rfl
@[simp] theorem sendFrame_su (k : SpokeId) (m : TxMessage) : (s.sendFrame k m).su = s.su := rfl
@[simp] theorem sendFrame_wu (k : SpokeId) (m : TxMessage) : (s.sendFrame k m).wu = s.wu := rfl
@[simp] theorem sendFrame_tu (k : SpokeId) (m : TxMessage) : (s.sendFrame k m).tu = s.tu := rfl
@[simp] theorem sendFrame_rb (k : SpokeId) (m : TxMessage) : (s.sendFrame k m).rb = s.rb := rfl
@[simp] theorem sendFrame_sp (k : SpokeId) (m : TxMessage) : (s.sendFrame k m).sp = s.sp := rfl
@[simp] theorem sendFrame_au (k : SpokeId) (m : TxMessage) : (s.sendFrame k m).au = s.au := rfl
@[simp] theorem sendFrame_hp (k : SpokeId) (m : TxMessage) : (s.sendFrame k m).hp = s.hp := rfl
@[simp] theorem sendFrame_pending (k : SpokeId) (m : TxMessage) : (s.sendFrame k m).pending = s.pending := rfl
@[simp] theorem sendFrame_wire_writes (k : SpokeId) (m : TxMessage) : (s.sendFrame k m).wire.writes = s.wire.writes := rfl
@[simp] theorem sendFrame_wire_cuts (k : SpokeId) (m : TxMessage) : (s.sendFrame k m).wire.cuts = s.wire.cuts := rfl
@[simp] theorem sendFrame_wire_frames (k : SpokeId) (m : TxMessage) : (s.sendFrame k m).wire.frames = s.wire.frames ++ [{ spoke := k, message := m }] := rfl
@[simp] theorem sendFrame_qp (k : SpokeId) (m : TxMessage) (y : QpId) : (s.sendFrame k m).qp y = s.qp y := rfl
@[simp] theorem sendFrame_entry (k : SpokeId) (m : TxMessage) (y : EntryId) : (s.sendFrame k m).entry y = s.entry y := rfl
@[simp] theorem sendFrame_inflight (k : SpokeId) (m : TxMessage) (y : QpId) : (s.sendFrame k m).inflight y = s.inflight y := rfl
@[simp] theorem sendFrame_posted (k : SpokeId) (m : TxMessage) (y : QpId) : (s.sendFrame k m).posted y = s.posted y := rfl
@[simp] theorem sendFrame_seg (k : SpokeId) (m : TxMessage) (y : SegId) : (s.sendFrame k m).seg y = s.seg y := rfl
@[simp] theorem sendFrame_issue (k : SpokeId) (m : TxMessage) (y : SpokeId) : (s.sendFrame k m).issue y = s.issue y := rfl
@[simp] theorem sendFrame_window (k : SpokeId) (m : TxMessage) (y : WindowId) : (s.sendFrame k m).window y = s.window y := rfl
@[simp] theorem sendFrame_context (k : SpokeId) (m : TxMessage) (y : ContextId) : (s.sendFrame k m).context y = s.context y := rfl
@[simp] theorem sendFrame_walk (k : SpokeId) (m : TxMessage) (y : WalkId) : (s.sendFrame k m).walk y = s.walk y := rfl
@[simp] theorem sendFrame_slot (k : SpokeId) (m : TxMessage) (y : SlotId) : (s.sendFrame k m).slot y = s.slot y := rfl
@[simp] theorem sendFrame_held (k : SpokeId) (m : TxMessage) (y : QpId) : (s.sendFrame k m).held y = s.held y := rfl
@[simp] theorem sendFrame_spoke (k : SpokeId) (m : TxMessage) (y : SpokeId) : (s.sendFrame k m).spoke y = s.spoke y := rfl
@[simp] theorem sendFrame_place (k : SpokeId) (m : TxMessage) (y : PlaceId) : (s.sendFrame k m).place y = s.place y := rfl

/-! ## dropCarrierOut -/

@[simp] theorem dropCarrierOut_ctl (k : SpokeId) : (s.dropCarrierOut k).ctl = s.ctl := rfl
@[simp] theorem dropCarrierOut_qe (k : SpokeId) : (s.dropCarrierOut k).qe = s.qe := rfl
@[simp] theorem dropCarrierOut_tt (k : SpokeId) : (s.dropCarrierOut k).tt = s.tt := rfl
@[simp] theorem dropCarrierOut_su (k : SpokeId) : (s.dropCarrierOut k).su = s.su := rfl
@[simp] theorem dropCarrierOut_wu (k : SpokeId) : (s.dropCarrierOut k).wu = s.wu := rfl
@[simp] theorem dropCarrierOut_tu (k : SpokeId) : (s.dropCarrierOut k).tu = s.tu := rfl
@[simp] theorem dropCarrierOut_rb (k : SpokeId) : (s.dropCarrierOut k).rb = s.rb := rfl
@[simp] theorem dropCarrierOut_sp (k : SpokeId) : (s.dropCarrierOut k).sp = s.sp := rfl
@[simp] theorem dropCarrierOut_au (k : SpokeId) : (s.dropCarrierOut k).au = s.au := rfl
@[simp] theorem dropCarrierOut_hp (k : SpokeId) : (s.dropCarrierOut k).hp = s.hp := rfl
@[simp] theorem dropCarrierOut_pending (k : SpokeId) : (s.dropCarrierOut k).pending = s.pending := rfl
@[simp] theorem dropCarrierOut_wire_writes (k : SpokeId) : (s.dropCarrierOut k).wire.writes = s.wire.writes := rfl
@[simp] theorem dropCarrierOut_wire_frames (k : SpokeId) : (s.dropCarrierOut k).wire.frames = s.wire.frames := rfl
@[simp] theorem dropCarrierOut_wire_cuts (k : SpokeId) : (s.dropCarrierOut k).wire.cuts = s.wire.cuts + 1 := rfl
@[simp] theorem dropCarrierOut_qp (k : SpokeId) (y : QpId) : (s.dropCarrierOut k).qp y = s.qp y := rfl
@[simp] theorem dropCarrierOut_entry (k : SpokeId) (y : EntryId) : (s.dropCarrierOut k).entry y = s.entry y := rfl
@[simp] theorem dropCarrierOut_inflight (k : SpokeId) (y : QpId) : (s.dropCarrierOut k).inflight y = s.inflight y := rfl
@[simp] theorem dropCarrierOut_posted (k : SpokeId) (y : QpId) : (s.dropCarrierOut k).posted y = s.posted y := rfl
@[simp] theorem dropCarrierOut_seg (k : SpokeId) (y : SegId) : (s.dropCarrierOut k).seg y = s.seg y := rfl
@[simp] theorem dropCarrierOut_issue (k : SpokeId) (y : SpokeId) : (s.dropCarrierOut k).issue y = s.issue y := rfl
@[simp] theorem dropCarrierOut_window (k : SpokeId) (y : WindowId) : (s.dropCarrierOut k).window y = s.window y := rfl
@[simp] theorem dropCarrierOut_context (k : SpokeId) (y : ContextId) : (s.dropCarrierOut k).context y = s.context y := rfl
@[simp] theorem dropCarrierOut_walk (k : SpokeId) (y : WalkId) : (s.dropCarrierOut k).walk y = s.walk y := rfl
@[simp] theorem dropCarrierOut_slot (k : SpokeId) (y : SlotId) : (s.dropCarrierOut k).slot y = s.slot y := rfl
@[simp] theorem dropCarrierOut_held (k : SpokeId) (y : QpId) : (s.dropCarrierOut k).held y = s.held y := rfl
@[simp] theorem dropCarrierOut_spoke (k : SpokeId) (y : SpokeId) : (s.dropCarrierOut k).spoke y = s.spoke y := rfl
@[simp] theorem dropCarrierOut_place (k : SpokeId) (y : PlaceId) : (s.dropCarrierOut k).place y = s.place y := rfl

/-! ## vmap -/

end Sys2Proof.Machine.State

namespace Sys2Proof.Machine

/-- A member of a mapped vector is the function of that member. -/
@[simp] theorem vmap_getElem {α β : Type} {n : Nat} (f : α → β) (v : Vector α n) (i : Nat) (h : i < n) :
    (vmap f v)[i] = f v[i] := by
  simp [vmap, Vector.getElem_mk]

end Sys2Proof.Machine
end

