-- ==== Sys2Proof/Laws/Accounts.lean ====
section
/-! SUPPORT. When a change of the state keeps the accounts of queue pairs, entries and slots as the manual states them
(`State.AccountsOk`): one lemma for each kind of change. -/

namespace Sys2Proof.Machine

/-! ## Rings -/

theorem ringSizeOk_size {n : Nat} (h : ringSizeOk n = true) : RingSize n := by
  simp only [ringSizeOk, List.any_eq_true, List.mem_range'_1, beq_iff_eq] at h
  obtain ⟨k, hk, e⟩ := h
  exact ⟨⟨k, by omega⟩, hk.1, e⟩

theorem RingSize.pos {n : Nat} (h : RingSize n) : 0 < n := by
  obtain ⟨k, _, rfl⟩ := h
  exact Nat.pow_pos (by omega)

theorem ringNext_lt {i n : Nat} (h : i < n) : ringNext i n < n := by
  unfold ringNext
  split <;> omega

/-- A record that is EMPTY, as after reset (R137). -/
theorem QueuePair.Ok.reset : ({} : QueuePair).Ok where
  rings h := absurd rfl h
  submission h := absurd rfl h
  completion h := absurd rfl h
  pending h := absurd rfl h
  unconsumed h := absurd rfl h
  depth := by simp

/-- The bounds on the counts follow from the sizes. -/
theorem QueuePair.Ok.of_sizes {q : QueuePair} (rings : q.state ≠ .empty → RingSize q.sqSize ∧ RingSize q.cqSize)
    (submission : q.sqSize ≠ 0 → q.tail < q.sqSize ∧ q.fetchIndex < q.sqSize)
    (completion : q.cqSize ≠ 0 → q.writeIndex < q.cqSize ∧ q.head < q.cqSize) (depth : q.depth ≤ 16) : q.Ok where
  rings := rings
  submission := submission
  completion := completion
  pending h := Nat.mod_lt _ (rings h).1.pos
  unconsumed h := Nat.mod_lt _ (rings h).2.pos
  depth := depth

namespace State.AccountsOk

variable {s t : State}

/-- Nothing the accounts speak of has changed, but that the device may have left READY. -/
theorem of_same (h : s.AccountsOk) (hq : t.qe.qps = s.qe.qps) (he : t.tt.entries = s.tt.entries)
    (hl : t.tt.inflight = s.tt.inflight) (hh : t.rb.held = s.rb.held) (hd : t.ctl.device = .ready → s.ctl.device = .ready) :
    t.AccountsOk := by
  have q : ∀ n, t.qp n = s.qp n := fun n => by unfold qp; rw [hq]
  have e : ∀ n, t.entry n = s.entry n := fun n => by unfold entry; rw [he]
  have l : ∀ n, t.inflight n = s.inflight n := fun n => by unfold inflight; rw [hl]
  have c : ∀ n, t.held n = s.held n := fun n => by unfold State.held; rw [hh]
  exact
    { queue := fun n => by rw [q]; exact h.queue n
      empty := fun n => by rw [q]; exact h.empty n
      admin := fun d => by rw [q]; exact h.admin (hd d)
      adminList := by rw [l]; exact h.adminList
      depth := fun n => by rw [q, l]; exact h.depth n
      listed := fun n x => by rw [l, e]; exact h.listed n x
      once := fun n => by rw [l]; exact h.once n
      live := fun x => by rw [e]; exact h.live x
      held := fun n => by rw [c]; exact h.held n }

/-- One queue pair record changes: it stays as the manual states records, it becomes EMPTY only as the record after reset, and
its depth limit leaves room for the entries held. -/
theorem setQp (h : s.AccountsOk) (n : QpId) (x : QueuePair) (ok : x.Ok) (empty : n ≠ 0 → x.state = .empty → x = {})
    (admin : n = 0 → s.ctl.device = .ready → x.state ≠ .empty) (depth : n ≠ 0 → (s.inflight n).length ≤ x.depth) :
    (s.setQp n x).AccountsOk where
  queue m := by
    rw [setQp_qp]
    split
    · exact ok
    · exact h.queue m
  empty m hm := by
    rw [setQp_qp]
    split
    · rename_i e; exact empty (e ▸ hm)
    · exact h.empty m hm
  admin d := by
    rw [setQp_qp]
    split
    · rename_i e; exact admin e.symm d
    · exact h.admin d
  adminList := h.adminList
  depth m hm := by
    rw [setQp_qp]
    split
    · rename_i e; subst e; exact depth hm
    · exact h.depth m hm
  listed := h.listed
  once := h.once
  live := h.live
  held := h.held

/-- A queue pair's record changes within its rings: it is EMPTY before and after, or neither, and a client's that changes is not
EMPTY. -/
theorem edit (h : s.AccountsOk) (n : QpId) (x : QueuePair) (state : x.state = .empty ↔ (s.qp n).state = .empty)
    (client : n ≠ 0 → (s.qp n).state ≠ .empty) (sq : x.sqSize = (s.qp n).sqSize) (cq : x.cqSize = (s.qp n).cqSize)
    (depth : x.depth = (s.qp n).depth)
    (submission : x.sqSize ≠ 0 → (s.qp n).tail < x.sqSize → (s.qp n).fetchIndex < x.sqSize →
      x.tail < x.sqSize ∧ x.fetchIndex < x.sqSize)
    (completion : x.cqSize ≠ 0 → (s.qp n).writeIndex < x.cqSize → (s.qp n).head < x.cqSize →
      x.writeIndex < x.cqSize ∧ x.head < x.cqSize) :
    (s.setQp n x).AccountsOk := by
  have q := h.queue n
  refine h.setQp n x ?_ (fun e g => absurd (state.mp g) (client e)) (fun e d g => h.admin d (e ▸ state.mp g)) fun e => ?_
  · refine .of_sizes (fun g => ?_) (fun g => ?_) (fun g => ?_) ?_
    · rw [sq, cq]
      exact q.rings fun e => g (state.mpr e)
    · have := q.submission (sq ▸ g)
      rw [← sq] at this
      exact submission g this.1 this.2
    · have := q.completion (cq ▸ g)
      rw [← cq] at this
      exact completion g this.1 this.2
    · rw [depth]
      exact q.depth
  · rw [depth]
    exact h.depth n e

/-- A queue pair's fetch outstanding flag changes: an EMPTY client's is clear. -/
theorem fetching (h : s.AccountsOk) (n : QpId) (b : Bool) (hb : b = true → n ≠ 0 → (s.qp n).state ≠ .empty) :
    (s.modQp n fun q => { q with fetching := b }).AccountsOk := by
  by_cases g : n ≠ 0 ∧ (s.qp n).state = .empty
  · have e : (s.modQp n fun q => { q with fetching := b }) = s.setQp n {} := by
      unfold modQp
      rw [h.empty n g.1 g.2]
      cases b with
      | false => rfl
      | true => exact absurd g.2 (hb rfl g.1)
    rw [e]
    refine h.setQp n {} .reset (fun _ _ => rfl) (fun q => absurd q g.1) fun q => ?_
    have := h.depth n q
    rw [h.empty n g.1 g.2] at this
    exact this
  · exact h.edit n _ Iff.rfl (fun q e => g ⟨q, e⟩) rfl rfl rfl (fun _ a b => ⟨a, b⟩) fun _ a b => ⟨a, b⟩

/-- A queue pair that is RUNNING has its record (R138, R139). -/
theorem running (h : s.AccountsOk) {n : QpId} (e : s.qpState n = .running) : (s.qp n).state ≠ .empty := by
  unfold qpState at e
  split at e
  · rename_i g
    subst g
    refine h.admin ?_
    cases d : s.ctl.device <;> simp [d] at e ⊢
  · rw [e]
    simp

/-- One entry changes and keeps its owner; it is FREE before and after, or neither (R3), and at most 16 segments of it live. -/
theorem setEntry (h : s.AccountsOk) (e : EntryId) (x : Entry) (qp : x.qp = (s.entry e).qp)
    (free : x.state = .free ↔ (s.entry e).state = .free) (live : x.live ≤ Config.liveLimit) : (s.setEntry e x).AccountsOk where
  queue := h.queue
  empty := h.empty
  admin := h.admin
  adminList := h.adminList
  depth := h.depth
  listed n d := by
    rw [setEntry_entry, setEntry_inflight]
    split
    · rename_i g; subst g
      rw [qp, ne_eq, free]
      exact h.listed n d
    · exact h.listed n d
  once := h.once
  live d := by
    rw [setEntry_entry]
    split
    · exact live
    · exact h.live d
  held := h.held

/-- A held-slot count changes, and stays at most 16. -/
theorem setHeld (h : s.AccountsOk) (n : QpId) (c : Nat) (hc : c ≤ Config.slotCap) : (s.setHeld n c).AccountsOk where
  queue := h.queue
  empty := h.empty
  admin := h.admin
  adminList := h.adminList
  depth := h.depth
  listed := h.listed
  once := h.once
  live := h.live
  held m := by
    rw [setHeld_held]
    split
    · exact hc
    · exact h.held m

/-- An entry becomes FREE, with the values after reset, and leaves its in-flight list (R3). -/
theorem free (h : s.AccountsOk) (e : EntryId) :
    ((s.setInflight (s.entry e).qp ((s.inflight (s.entry e).qp).erase e)).setEntry e {}).AccountsOk where
  queue := h.queue
  empty := h.empty
  admin := h.admin
  adminList := by
    rw [setEntry_inflight, setInflight_inflight]
    split
    · rename_i g; rw [← g, h.adminList]; rfl
    · exact h.adminList
  depth n hn := by
    rw [setEntry_inflight, setInflight_inflight]
    refine Nat.le_trans ?_ (h.depth n hn)
    split
    · rename_i g; subst g; exact List.erase_sublist.length_le
    · exact Nat.le_refl _
  listed n d := by
    rw [setEntry_entry, setEntry_inflight, setInflight_inflight, setInflight_entry]
    by_cases ed : d = e
    · subst ed
      rw [if_pos rfl]
      refine ⟨fun m => ?_, fun m => absurd rfl m.1⟩
      split at m
      · exact absurd m (List.Nodup.not_mem_erase (h.once _))
      · rename_i g
        exact absurd ((h.listed n d).mp m).2.symm g
    · rw [if_neg ed]
      split
      · rename_i g
        subst g
        rw [List.mem_erase_of_ne ed]
        exact h.listed _ d
      · exact h.listed n d
  once n := by
    rw [setEntry_inflight, setInflight_inflight]
    split
    · exact (h.once _).erase e
    · exact h.once n
  live d := by
    rw [setEntry_entry]
    split
    · exact Nat.zero_le _
    · exact h.live d
  held := h.held

/-- A FREE entry is taken for a client queue pair that may hold one more, and joins the tail of its in-flight list (R2, R3). -/
theorem take (h : s.AccountsOk) (e : EntryId) (n : QpId) (x : Entry) (free : (s.entry e).state = .free) (hn : n ≠ 0)
    (room : (s.inflight n).length < (s.qp n).depth) (qp : x.qp = n) (taken : x.state ≠ .free) (live : x.live = 0) :
    ((s.setEntry e x).setInflight n (s.inflight n ++ [e])).AccountsOk := by
  have out : ∀ m, e ∉ s.inflight m := fun m i => ((h.listed m e).mp i).1 free
  exact
    { queue := h.queue
      empty := h.empty
      admin := h.admin
      adminList := by
        rw [setInflight_inflight, if_neg (Ne.symm hn)]
        exact h.adminList
      depth := fun m hm => by
        rw [setInflight_inflight]
        split
        · rename_i g
          subst g
          rw [List.length_append]
          exact room
        · exact h.depth m hm
      listed := fun m d => by
        rw [setInflight_inflight, setInflight_entry, setEntry_entry]
        by_cases ed : d = e
        · subst ed
          rw [if_pos rfl, qp]
          split
          · rename_i g
            exact ⟨fun _ => ⟨taken, g.symm⟩, fun _ => List.mem_append_right _ (List.mem_singleton_self _)⟩
          · rename_i g
            exact ⟨fun i => absurd i (out m), fun i => absurd i.2.symm g⟩
        · rw [if_neg ed]
          split
          · rename_i g
            subst g
            rw [List.mem_append, List.mem_singleton, or_iff_left ed]
            exact h.listed m d
          · exact h.listed m d
      once := fun m => by
        rw [setInflight_inflight]
        split
        · exact List.nodup_append.mpr ⟨h.once n, List.nodup_singleton e, fun a ha b hb => by
            rw [List.mem_singleton] at hb
            subst hb
            exact fun q => out n (q ▸ ha)⟩
        · exact h.once m
      live := fun d => by
        rw [setInflight_entry, setEntry_entry]
        split
        · rw [live]; exact Nat.zero_le _
        · exact h.live d
      held := h.held }

end State.AccountsOk

namespace State

variable (s : State)

/-- The blocks' values after reset (R180, R179). -/
theorem resetBlocks_accounts (c : Control) (h : c.device ≠ .ready) : (s.resetBlocks c).AccountsOk := by
  have q : ∀ n, (s.resetBlocks c).qp n = {} := fun n => Vector.getElem_replicate _
  have e : ∀ n, (s.resetBlocks c).entry n = {} := fun n => Vector.getElem_replicate _
  have l : ∀ n, (s.resetBlocks c).inflight n = [] := fun n => Vector.getElem_replicate _
  have k : ∀ n, (s.resetBlocks c).held n = 0 := fun n => Vector.getElem_replicate _
  exact
    { queue := fun n => by rw [q]; exact .reset
      empty := fun n _ _ => q n
      admin := fun d => absurd d h
      adminList := l 0
      depth := fun n _ => by rw [l]; exact Nat.zero_le _
      listed := fun n x => by rw [l, e]; simp
      once := fun n => by rw [l]; exact List.nodup_nil
      live := fun x => by rw [e]; exact Nat.zero_le _
      held := fun n => by rw [k]; exact Nat.zero_le _ }

end State

end Sys2Proof.Machine
end

