-- ==== Sys2Proof/Laws/Segments.lean ====
section
/-! SUPPORT. What a segment's steps leave alone, said once: `Keeps` names every piece of state that no operation of
Machine/Segments.lean changes, and each operation has the lemma that it keeps them. -/

namespace Sys2Proof.Machine

/-- What a logical spoke record holds of its link, apart from its tags and its flush list. -/
def Spoke.link (x : Spoke) : SpokeState × BitVec 16 × Nat × Nat × Nat × Nat × Nat :=
  (x.state, x.timeout, x.grant, x.credits, x.attempt, x.linkErrors, x.drainTimeouts)

/-- A tag with its request left out. -/
def Tag.plain : Tag → Tag
  | .outstanding _ => .outstanding (.flush none)
  | t => t

/-- What a pending window change holds from its acceptance on. -/
def Quiesce.plan (q : Quiesce) : WindowId × Option Range × Option Range × Window × Nat :=
  (q.window, q.old, q.new, q.contents, q.waited)

/-- What the steps of segments leave as it stands: device control, the queue engine, the window table and the plan of a
pending change, the contexts, the links with their tags, the lists of a spoke that is not UP (those of others only grow), the
administration unit, the reads in flight and the messages; posted writes are only added behind the ones taken before; and the
accounts of queue pairs, entries and slots stay as the manual states them. -/
structure Keeps (s t : State) : Prop where
  ctl : t.ctl = s.ctl
  qe : t.qe = s.qe
  grantPtr : t.su.grantPtr = s.su.grantPtr
  windows : t.wu.windows = s.wu.windows
  plan : t.wu.quiesce.map Quiesce.plan = s.wu.quiesce.map Quiesce.plan
  contexts : t.tu.contexts = s.tu.contexts
  low : t.sp.low = s.sp.low
  high : t.sp.high = s.sp.high
  carrierIn : t.sp.carrierIn = s.sp.carrierIn
  link : ∀ k, (t.spoke k).link = (s.spoke k).link
  tags : ∀ k, vmap Tag.plain (t.spoke k).tags = vmap Tag.plain (s.spoke k).tags
  flush : ∀ k, (s.spoke k).flushList = [] → (t.spoke k).flushList = []
  grow : ∀ k, ∃ l, t.issue k = s.issue k ++ l ∧ ((s.spoke k).state ≠ .up → l = [])
  au : t.au = s.au
  places : t.hp.places = s.hp.places
  fetchList : t.hp.fetchList = s.hp.fetchList
  lastKind : t.hp.lastKind = s.hp.lastKind
  messagesEnabled : t.hp.messagesEnabled = s.hp.messagesEnabled
  messagePending : t.hp.messagePending = s.hp.messagePending
  writes : ∃ l, t.hp.writes = s.hp.writes ++ l
  wire : t.wire = s.wire
  pending : t.pending = s.pending
  accounts : s.AccountsOk → t.AccountsOk

/-- An issue list that has not changed has not grown. -/
theorem stays (s : State) (k : SpokeId) : ∃ l, s.issue k = s.issue k ++ l ∧ ((s.spoke k).state ≠ .up → l = []) :=
  ⟨[], (List.append_nil _).symm, fun _ => rfl⟩

namespace Keeps

theorem refl (s : State) : Keeps s s :=
  ⟨rfl, rfl, rfl, rfl, rfl, rfl, rfl, rfl, rfl, fun _ => rfl, fun _ => rfl, fun _ h => h, stays s,
    rfl, rfl, rfl, rfl, rfl, rfl, ⟨[], by simp⟩, rfl, rfl, fun h => h.of_same rfl rfl rfl rfl id⟩

theorem trans {s t u : State} (h : Keeps s t) (g : Keeps t u) : Keeps s u where
  ctl := g.ctl.trans h.ctl
  qe := g.qe.trans h.qe
  grantPtr := g.grantPtr.trans h.grantPtr
  windows := g.windows.trans h.windows
  plan := g.plan.trans h.plan
  contexts := g.contexts.trans h.contexts
  low := g.low.trans h.low
  high := g.high.trans h.high
  carrierIn := g.carrierIn.trans h.carrierIn
  link k := (g.link k).trans (h.link k)
  tags k := (g.tags k).trans (h.tags k)
  flush k e := g.flush k (h.flush k e)
  grow k := by
    have hs : (t.spoke k).state = (s.spoke k).state := congrArg (·.1) (h.link k)
    obtain ⟨a, ha, ea⟩ := h.grow k
    obtain ⟨b, hb, eb⟩ := g.grow k
    exact ⟨a ++ b, by rw [hb, ha, List.append_assoc], fun e => by rw [ea e, eb (by rw [hs]; exact e)]; rfl⟩
  au := g.au.trans h.au
  places := g.places.trans h.places
  fetchList := g.fetchList.trans h.fetchList
  lastKind := g.lastKind.trans h.lastKind
  messagesEnabled := g.messagesEnabled.trans h.messagesEnabled
  messagePending := g.messagePending.trans h.messagePending
  writes := by
    obtain ⟨a, ha⟩ := h.writes
    obtain ⟨b, hb⟩ := g.writes
    exact ⟨a ++ b, by rw [hb, ha, List.append_assoc]⟩
  wire := g.wire.trans h.wire
  pending := g.pending.trans h.pending
  accounts := g.accounts ∘ h.accounts

/-- The issue list of a spoke that is not UP stays as it is. -/
theorem issue {s t : State} (h : Keeps s t) (k : SpokeId) (e : (s.spoke k).state ≠ .up) : t.issue k = s.issue k := by
  obtain ⟨l, hl, el⟩ := h.grow k
  rw [hl, el e, List.append_nil]

/-- A chain of operations over a list keeps what each of them keeps. -/
theorem foldl {α : Type} (f : State → α → State) (h : ∀ s a, Keeps s (f s a)) (l : List α) (s : State) :
    Keeps s (l.foldl f s) := by
  induction l generalizing s with
  | nil => exact refl s
  | cons a l ih => exact (h s a).trans (ih (f s a))

/-- A change of entries, lists or sets of the transfer table alone. -/
theorem of_tt (s : State) (x : TransferTable) (h : s.AccountsOk → ({ s with tt := x } : State).AccountsOk) :
    Keeps s { s with tt := x } :=
  ⟨rfl, rfl, rfl, rfl, rfl, rfl, rfl, rfl, rfl, fun _ => rfl, fun _ => rfl, fun _ h => h, stays s,
    rfl, rfl, rfl, rfl, rfl, rfl, ⟨[], by simp⟩, rfl, rfl, h⟩

/-- A change of segment records, or of the issue lists of UP spokes, alone. -/
theorem of_su (s : State) (x : SegmentUnit) (h : x.grantPtr = s.su.grantPtr)
    (hi : ∀ k : SpokeId, ∃ l, x.issue[k] = s.su.issue[k] ++ l ∧ ((s.spoke k).state ≠ .up → l = [])) :
    Keeps s { s with su := x } :=
  ⟨rfl, rfl, h, rfl, rfl, rfl, rfl, rfl, rfl, fun _ => rfl, fun _ => rfl, fun _ h => h, hi, rfl, rfl, rfl, rfl, rfl, rfl, ⟨[], by simp⟩, rfl, rfl, fun h => h.of_same rfl rfl rfl rfl id⟩

/-- A change of the return buffer alone. -/
theorem of_rb (s : State) (x : ReturnBuffer) (h : s.AccountsOk → ({ s with rb := x } : State).AccountsOk) :
    Keeps s { s with rb := x } :=
  ⟨rfl, rfl, rfl, rfl, rfl, rfl, rfl, rfl, rfl, fun _ => rfl, fun _ => rfl, fun _ h => h, stays s,
    rfl, rfl, rfl, rfl, rfl, rfl, ⟨[], by simp⟩, rfl, rfl, h⟩

/-- A change of the translation unit alone, its context records apart. -/
theorem of_tu (s : State) (x : TranslationUnit) (h : x.contexts = s.tu.contexts) : Keeps s { s with tu := x } :=
  ⟨rfl, rfl, rfl, rfl, rfl, h, rfl, rfl, rfl, fun _ => rfl, fun _ => rfl, fun _ h => h, stays s,
    rfl, rfl, rfl, rfl, rfl, rfl, ⟨[], by simp⟩, rfl, rfl, fun h => h.of_same rfl rfl rfl rfl id⟩

end Keeps

namespace State

variable (s : State) (i : SegId) (e : EntryId)

theorem setSeg_keeps (x : Segment) : Keeps s (s.setSeg i x) :=
  .of_su s _ rfl (stays s)
theorem modSeg_keeps (f : Segment → Segment) : Keeps s (s.modSeg i f) := setSeg_keeps s i _
/-- A segment joins the issue list of an UP spoke. -/
theorem joinList_keeps (k : SpokeId) (h : (s.spoke k).state = .up) : Keeps s (s.setIssue k (s.issue k ++ [i])) :=
  .of_su s _ rfl fun k' => by
    by_cases e : k' = k
    · subst e
      exact ⟨[i], setIssue_issue_self s k' _, fun n => absurd h n⟩
    · exact ⟨[], ((setIssue_issue s k _ k').trans (if_neg e)).trans (List.append_nil _).symm, fun _ => rfl⟩
theorem setEntry_keeps (x : Entry) (h : s.AccountsOk → (s.setEntry e x).AccountsOk) : Keeps s (s.setEntry e x) := .of_tt s _ h

/-- An entry changes, and keeps its owner, its freedom and its bound of live segments. -/
theorem modEntry_keeps (f : Entry → Entry) (qp : (f (s.entry e)).qp = (s.entry e).qp)
    (free : (f (s.entry e)).state = .free ↔ (s.entry e).state = .free)
    (live : (f (s.entry e)).live ≤ (s.entry e).live) : Keeps s (s.modEntry e f) :=
  setEntry_keeps s e _ fun h => h.setEntry e _ qp free (Nat.le_trans live (h.live e))
theorem setPosted_keeps (n : QpId) (v : Vector Posted 8) : Keeps s (s.setPosted n v) :=
  .of_tt s _ fun h => h.of_same rfl rfl rfl rfl id
theorem setSlot_keeps (j : SlotId) (x : Slot) : Keeps s (s.setSlot j x) := .of_rb s _ fun h => h.of_same rfl rfl rfl rfl id
theorem setHeld_keeps (n : QpId) (c : Nat) (hc : s.AccountsOk → c ≤ Config.slotCap) : Keeps s (s.setHeld n c) :=
  .of_rb s _ fun h => h.setHeld n c (hc h)
theorem setWaiting_keeps (l : List SegId) : Keeps s (s.setWaiting l) := .of_rb s _ fun h => h.of_same rfl rfl rfl rfl id
theorem setWalk_keeps (w : WalkId) (x : Option Walk) : Keeps s (s.setWalk w x) := .of_tu s _ rfl

theorem takeWrite_keeps (w : HostWrite) : Keeps s (s.takeWrite w) :=
  ⟨rfl, rfl, rfl, rfl, rfl, rfl, rfl, rfl, rfl, fun _ => rfl, fun _ => rfl, fun _ h => h, stays s,
    rfl, rfl, rfl, rfl, rfl, rfl, ⟨[w], rfl⟩, rfl, rfl, fun h => h.of_same rfl rfl rfl rfl id⟩

/-- A walk's or a data read joins a list other than the fetch list (R171). -/
theorem handRead_keeps (r : ReadRequest) (h : r.requester.kind ≠ .fetch) : Keeps s (s.handRead r) := by
  unfold handRead
  split
  · contradiction
  all_goals
    exact ⟨rfl, rfl, rfl, rfl, rfl, rfl, rfl, rfl, rfl, fun _ => rfl, fun _ => rfl, fun _ h => h, stays s,
    rfl, rfl, rfl, rfl, rfl, rfl, ⟨[], by simp⟩, rfl, rfl, fun h => h.of_same rfl rfl rfl rfl id⟩

theorem withdrawFlushes_keeps : Keeps s (s.withdrawFlushes e) :=
  ⟨rfl, rfl, rfl, rfl, rfl, rfl, rfl, rfl, rfl, fun k => by simp [withdrawFlushes, spoke, Spoke.link],
    fun k => by
      apply Vector.ext
      intro j hj
      simp only [withdrawFlushes, spoke, Fin.getElem_fin, vmap_getElem]
      generalize s.sp.spokes[k.val].tags[j] = t
      cases t with
      | outstanding r => cases r with
        | flush f => cases f with
          | none => rfl
          | some f => simp only [Tag.orphan]; split <;> rfl
        | _ => rfl
      | _ => rfl,
    fun k h => by
      have h' : s.sp.spokes[k.val].flushList = [] := h
      simp [withdrawFlushes, spoke, h'],
    stays s, rfl, rfl, rfl, rfl, rfl, rfl, ⟨[], by simp [withdrawFlushes]⟩, rfl, rfl, fun h => h.of_same rfl rfl rfl rfl id⟩

theorem freeEntry_keeps : Keeps s (s.freeEntry e) := by
  have h (t : State) : Keeps t ((t.setInflight (t.entry e).qp ((t.inflight (t.entry e).qp).erase e)).setEntry e {}) :=
    .of_tt t _ fun h => h.free e
  unfold freeEntry
  split
  · exact (withdrawFlushes_keeps s e).trans (h _)
  · exact h s

theorem closeEntry_keeps : Keeps s (s.closeEntry e) := by
  unfold closeEntry
  split
  · rename_i h
    split
    · exact freeEntry_keeps s e
    · exact modEntry_keeps s e _ rfl (by simp [h.1]) (Nat.le_refl _)
  · exact .refl s

theorem entrySuccess_keeps (d : Bool) (k : Option SpokeId) : Keeps s (s.entrySuccess e d k) := by
  have h := modEntry_keeps s e (fun x => { x with live := x.live - 1, dropped := x.dropped || d }) rfl Iff.rfl (Nat.sub_le _ _)
  unfold entrySuccess
  cases k
  · exact h.trans (closeEntry_keeps _ e)
  · exact (h.trans (setPosted_keeps _ _ _)).trans (closeEntry_keeps _ e)

theorem entryFailure_keeps (o : Nat) (f : Failure) : Keeps s (s.entryFailure e o f) := by
  refine (modEntry_keeps s e _ rfl ?_ (Nat.sub_le _ _)).trans (closeEntry_keeps _ e)
  dsimp only
  split
  · rename_i h; simp [h]
  · exact Iff.rfl

theorem endFlush_keeps (k : SpokeId) (st : Option Status) : Keeps s (s.endFlush e k st) := by
  unfold endFlush
  split
  · rename_i h
    refine modEntry_keeps s e _ rfl ?_ (Nat.le_refl _)
    dsimp only
    split <;> simp [h]
  · exact .refl s

theorem freeSlot_keeps : Keeps s (s.freeSlot i) := by
  unfold freeSlot
  split
  · exact .refl s
  · exact ((setSlot_keeps s _ _).trans (setHeld_keeps _ _ _ fun h => Nat.le_trans (Nat.sub_le _ _) (h.held _))).trans
      (modSeg_keeps _ i _)

theorem uncount_keeps : Keeps s (s.uncount i) := by
  unfold uncount
  split
  · rename_i q h
    exact ⟨rfl, rfl, rfl, rfl, by simp [h, Quiesce.plan], rfl, rfl, rfl, rfl, fun _ => rfl, fun _ => rfl, fun _ h => h, stays s,
    rfl, rfl, rfl, rfl, rfl, rfl,
      ⟨[], by simp⟩, rfl, rfl, fun h => h.of_same rfl rfl rfl rfl id⟩
  · exact .refl s

/-- Retirement (R58). -/
theorem retire_keeps (how : SegEnd) : Keeps s (s.retire i how) := by
  unfold retire
  have h := ((freeSlot_keeps s i).trans (setSeg_keeps _ i {})).trans (uncount_keeps _ i)
  cases how
  · exact h.trans (entrySuccess_keeps _ _ _ _)
  · exact h.trans (entryFailure_keeps _ _ _ _)

theorem joinIssue_keeps : Keeps s (s.joinIssue i) := by
  unfold joinIssue
  split
  · exact .refl s
  · rename_i r _
    split
    · rename_i h
      have h' : (s.spoke r.spoke).state = .up := by simp only [routeOpen, Bool.and_eq_true, beq_iff_eq] at h; exact h.1.1
      exact (joinList_keeps s i _ h').trans (modSeg_keeps _ i _)
    · exact retire_keeps s i _

theorem joinSlotWait_keeps : Keeps s (s.joinSlotWait i) := (setWaiting_keeps s _).trans (modSeg_keeps _ i _)

theorem gatherWrite_keeps : Keeps s (s.gatherWrite i) := by
  unfold gatherWrite
  split
  · exact (takeWrite_keeps s _).trans (retire_keeps _ i _)
  · exact .refl s

theorem scatterRead_keeps : Keeps s (s.scatterRead i) := by
  unfold scatterRead
  split
  · exact (handRead_keeps s _ (by simp [Requester.kind])).trans (modSeg_keeps _ i _)
  · exact .refl s

theorem beginAccess_keeps : Keeps s (s.beginAccess i) := by
  unfold beginAccess
  split
  · exact gatherWrite_keeps s i
  · exact scatterRead_keeps s i
  · exact .refl s

theorem takeAnswer_keeps (a : TransAnswer) : Keeps s (s.takeAnswer i a) := by
  unfold takeAnswer
  split
  · exact retire_keeps s i _
  · dsimp only
    split
    · exact (modSeg_keeps s i _).trans (beginAccess_keeps _ i)
    · exact (modSeg_keeps s i _).trans (joinSlotWait_keeps _ i)

theorem startWalk_keeps (w : WalkId) (key : Key) : Keeps s (s.startWalk w key i) := by
  unfold startWalk
  exact (setWalk_keeps s w _).trans (handRead_keeps _ _ (by simp [Requester.kind]))

theorem joinWalk_keeps (w : WalkId) : Keeps s (s.joinWalk w i) := setWalk_keeps s w _

theorem giveToWalk_keeps (key : Key) : Keeps s (s.giveToWalk i key) := by
  unfold giveToWalk
  split
  · exact joinWalk_keeps s i _
  · split
    · exact startWalk_keeps s i _ _
    · exact .of_tu s _ rfl

theorem ask_keeps : Keeps s (s.ask i) := by
  unfold ask
  split
  · exact takeAnswer_keeps s i _
  · exact giveToWalk_keeps s i _

theorem translate_keeps : Keeps s (s.translate i) := (modSeg_keeps s i _).trans (ask_keeps _ i)

theorem takeStaleAnswer_keeps (a : TransAnswer) : Keeps s (s.takeStaleAnswer i a) := by
  unfold takeStaleAnswer
  split
  · exact retire_keeps s i _
  · split
    · exact translate_keeps s i
    · exact (modSeg_keeps s i _).trans (joinSlotWait_keeps _ i)

theorem grantSlot_keeps (j : SlotId) (hi : s.held (s.segQp i) < Config.slotCap) : Keeps s (s.grantSlot j i) := by
  have h := (((setWaiting_keeps s (s.rb.waiting.erase i)).trans (setSlot_keeps _ j { s.slot j with holder := some i })).trans
    (setHeld_keeps _ (s.segQp i) (s.held (s.segQp i) + 1) fun _ => hi)).trans (modSeg_keeps _ i fun x => { x with slot := some j })
  unfold grantSlot
  dsimp only
  split
  · split
    · exact h.trans (translate_keeps _ i)
    · exact h.trans (scatterRead_keeps _ i)
  · exact h.trans (joinIssue_keeps _ i)

/-- A slot grant is one of a waiter (R64). -/
theorem slotGrant_some {t : State} (h : s.slotGrant? = some t) :
    ∃ j i, s.freeSlotIndex = some j ∧ s.eligibleWaiter = some i ∧ t = s.grantSlot j i := by
  unfold slotGrant? at h
  split at h
  · rename_i j i hj hi
    exact ⟨j, i, hj, hi, by simpa using h.symm⟩
  · contradiction

/-- An eligible waiter waits, and its queue pair holds fewer than 16 slots (R64). -/
theorem eligibleWaiter_some {i : SegId} (h : s.eligibleWaiter = some i) :
    i ∈ s.rb.waiting ∧ s.held (s.segQp i) < Config.slotCap :=
  ⟨List.mem_of_find?_eq_some h, by simpa using List.find?_some h⟩

theorem slotGrant_keeps {t : State} (h : s.slotGrant? = some t) : Keeps s t := by
  obtain ⟨j, i, _, hi, rfl⟩ := slotGrant_some s h
  exact grantSlot_keeps s i j (eligibleWaiter_some s hi).2

theorem grantSlotsFor_keeps (n : Nat) : Keeps s (grantSlotsFor n s) := by
  induction n generalizing s with
  | zero => exact .refl s
  | succ n ih =>
    unfold grantSlotsFor
    split
    · rename_i t h
      exact (slotGrant_keeps s h).trans (ih _)
    · exact .refl s

/-- The grants after a freeing or a joining (R64). -/
theorem grantSlots_keeps : Keeps s s.grantSlots := grantSlotsFor_keeps s _

theorem leaveWalkWait_keeps : Keeps s (s.leaveWalkWait i) := .of_tu s _ rfl

theorem serveWaiter_keeps : Keeps s (s.serveWaiter i) := by
  unfold serveWaiter
  split
  · exact (leaveWalkWait_keeps s i).trans (takeAnswer_keeps _ i _)
  · split
    · exact (leaveWalkWait_keeps s i).trans (giveToWalk_keeps _ i _)
    · exact .refl s

theorem serveWalkWait_keeps : Keeps s s.serveWalkWait :=
  .foldl _ (fun t j => (serveWaiter_keeps t j).trans (grantSlots_keeps _)) _ _

theorem install_keeps (key : Key) (d : DirectoryEntry) : Keeps s (s.install key d) := by
  unfold install
  dsimp only
  split
  · exact .of_tu s _ rfl
  · exact .of_tu s _ rfl

theorem staleEnded_keeps : Keeps s s.staleEnded := .of_tu s _ rfl

theorem closeWalk_keeps (w : WalkId) (stale : Bool) : Keeps s (s.closeWalk w stale) := by
  unfold closeWalk
  cases stale
  · exact (setWalk_keeps s w none).trans (serveWalkWait_keeps _)
  · exact ((setWalk_keeps s w none).trans (staleEnded_keeps _)).trans (serveWalkWait_keeps _)

theorem installRead_keeps (x : Walk) (size : PageSize) (r : Option DirectoryEntry) : Keeps s (s.installRead x size r) := by
  unfold installRead
  split
  · split
    · exact install_keeps s _ _
    · exact .refl s
  · exact .refl s

theorem answerJoined_keeps (x : Walk) (size : PageSize) (r : Option DirectoryEntry) :
    Keeps s (answerJoined x size r s i) := by
  unfold answerJoined
  refine Keeps.trans ?_ (grantSlots_keeps _)
  split
  · exact retire_keeps s i _
  · dsimp only
    split
    · exact takeStaleAnswer_keeps s i _
    · exact takeAnswer_keeps s i _

/-- The end of a walk (R84, R85). -/
theorem walkEnd_keeps (w : WalkId) (bytes : Option (List Byte)) : Keeps s (s.walkEnd w bytes) := by
  unfold walkEnd
  split
  · exact .refl s
  · rename_i x _
    dsimp only
    exact (((setWalk_keeps s w _).trans (installRead_keeps _ x _ _)).trans
      (.foldl _ (fun t j => answerJoined_keeps t j x _ _) _ _)).trans (closeWalk_keeps _ w _)

theorem dataReadEnd_keeps (ok : Bool) : Keeps s (s.dataReadEnd i ok) := by
  have h := Keeps.of_tu s
    { s.tu with invalidation := s.tu.invalidation.map fun v => { v with awaited := v.awaited.erase i } } rfl
  unfold dataReadEnd
  dsimp only
  split
  · exact h.trans (joinIssue_keeps _ i)
  · exact h.trans (retire_keeps _ i _)

theorem fillSlot_keeps (position : Nat) (bytes : List Byte) : Keeps s (s.fillSlot i position bytes) := by
  unfold fillSlot
  split
  · exact setSlot_keeps s _ _
  · exact .refl s

theorem land_keeps (bytes : List Byte) : Keeps s (s.land i bytes) := by
  have h := (fillSlot_keeps s i 0 bytes).trans (modSeg_keeps _ i fun x => { x with state := .landed, tag := none })
  unfold land
  dsimp only
  split
  · exact (h.trans (modSeg_keeps _ i _)).trans (joinIssue_keeps _ i)
  · split
    · exact h.trans (translate_keeps _ i)
    · exact h.trans (gatherWrite_keeps _ i)

theorem takeResolution_keeps (a : Answer) : Keeps s (s.takeResolution i a) := by
  unfold takeResolution
  split
  · exact retire_keeps s i _
  · exact retire_keeps s i _
  · dsimp only
    split
    · exact (modSeg_keeps s i _).trans (joinSlotWait_keeps _ i)
    · exact (modSeg_keeps s i _).trans (joinIssue_keeps _ i)
    · exact (modSeg_keeps s i _).trans (translate_keeps _ i)

theorem requestResolution_keeps : Keeps s (s.requestResolution i) := by
  unfold requestResolution
  split
  · rename_i q h
    split
    · exact ⟨rfl, rfl, rfl, rfl, by simp [h, Quiesce.plan], rfl, rfl, rfl, rfl, fun _ => rfl, fun _ => rfl, fun _ h => h, stays s,
    rfl, rfl, rfl, rfl, rfl, rfl,
        ⟨[], by simp⟩, rfl, rfl, fun h => h.of_same rfl rfl rfl rfl id⟩
    · exact takeResolution_keeps s i _
  · exact takeResolution_keeps s i _

theorem releaseHeld_keeps (held : List SegId) : Keeps s (s.releaseHeld held) :=
  .foldl _ (fun t j => (takeResolution_keeps t j _).trans (grantSlots_keeps _)) _ _

end State

end Sys2Proof.Machine
end

