-- ==== Sys2Proof/Laws/Links.lean ====
section
/-! SUPPORT. What the operations of the spoke ports leave alone, and that each keeps every link as the manual states it
(`State.LinksOk`). `Quiet` names what no operation of the segments and the spoke ports changes; `On j` what an operation on
another spoke leaves of spoke j. -/

namespace Sys2Proof.Machine

/-- What an operation that is no reset, no register write, no window change and no bundle change leaves as it stands; what
it hands to the host port and puts on the links comes after what was there; and the event list stays within its bounds. -/
structure Quiet (s t : State) : Prop where
  pending : t.pending = s.pending
  sqBase : t.ctl.adminSqBase = s.ctl.adminSqBase
  cqBase : t.ctl.adminCqBase = s.ctl.adminCqBase
  sizes : t.ctl.adminSizes = s.ctl.adminSizes
  low : t.sp.low = s.sp.low
  high : t.sp.high = s.sp.high
  windows : t.wu.windows = s.wu.windows
  plan : t.wu.quiesce.map Quiesce.plan = s.wu.quiesce.map Quiesce.plan
  contexts : t.tu.contexts = s.tu.contexts
  writes : ∃ l, t.wire.writes ++ t.hp.writes = s.wire.writes ++ s.hp.writes ++ l
  frames : ∃ l, t.wire.frames = s.wire.frames ++ l
  events : s.EventsOk → t.EventsOk
  accounts : s.AccountsOk → t.AccountsOk

/-- What an operation that is not on spoke j leaves of it. -/
structure On (j : SpokeId) (s t : State) : Prop where
  link : (t.spoke j).link = (s.spoke j).link
  tags : vmap Tag.plain (t.spoke j).tags = vmap Tag.plain (s.spoke j).tags
  flush : (s.spoke j).flushList = [] → (t.spoke j).flushList = []
  issue : (s.spoke j).state ≠ .up → t.issue j = s.issue j

namespace Quiet

theorem refl (s : State) : Quiet s s :=
  ⟨rfl, rfl, rfl, rfl, rfl, rfl, rfl, rfl, rfl, ⟨[], by simp⟩, ⟨[], by simp⟩, id, id⟩

theorem trans {s t u : State} (h : Quiet s t) (g : Quiet t u) : Quiet s u where
  pending := g.pending.trans h.pending
  sqBase := g.sqBase.trans h.sqBase
  cqBase := g.cqBase.trans h.cqBase
  sizes := g.sizes.trans h.sizes
  low := g.low.trans h.low
  high := g.high.trans h.high
  windows := g.windows.trans h.windows
  plan := g.plan.trans h.plan
  contexts := g.contexts.trans h.contexts
  writes := by
    obtain ⟨a, ha⟩ := h.writes
    obtain ⟨b, hb⟩ := g.writes
    exact ⟨a ++ b, by rw [hb, ha, List.append_assoc]⟩
  frames := by
    obtain ⟨a, ha⟩ := h.frames
    obtain ⟨b, hb⟩ := g.frames
    exact ⟨a ++ b, by rw [hb, ha, List.append_assoc]⟩
  events := g.events ∘ h.events
  accounts := g.accounts ∘ h.accounts

theorem foldl {α : Type} (f : State → α → State) (h : ∀ s a, Quiet s (f s a)) (l : List α) (s : State) :
    Quiet s (l.foldl f s) := by
  induction l generalizing s with
  | nil => exact refl s
  | cons a l ih => exact (h s a).trans (ih (f s a))

/-- A change that leaves these blocks as they are is quiet. -/
theorem of_rest (s t : State) (hp : t.pending = s.pending) (hc : t.ctl = s.ctl) (hl : t.sp.low = s.sp.low)
    (hh : t.sp.high = s.sp.high) (hw : t.wu = s.wu) (hx : t.tu.contexts = s.tu.contexts) (hs : t.hp.writes = s.hp.writes)
    (hi : t.wire = s.wire) (he : t.au.events = s.au.events) (hq : t.qe.qps = s.qe.qps) (ht : t.tt.entries = s.tt.entries)
    (hn : t.tt.inflight = s.tt.inflight) (hr : t.rb.held = s.rb.held) : Quiet s t where
  pending := hp
  sqBase := by rw [hc]
  cqBase := by rw [hc]
  sizes := by rw [hc]
  low := hl
  high := hh
  windows := by rw [hw]
  plan := by rw [hw]
  contexts := hx
  writes := ⟨[], by rw [hs, hi]; simp⟩
  frames := ⟨[], by rw [hi]; simp⟩
  events h := ⟨by rw [he]; exact h.size, by rw [he]; exact h.keys, by rw [he]; exact h.counts⟩
  accounts h := h.of_same hq ht hn hr (by rw [hc]; exact id)

end Quiet

/-- What segments' steps keep is quiet. -/
theorem Keeps.quiet {s t : State} (h : Keeps s t) : Quiet s t where
  pending := h.pending
  sqBase := by rw [h.ctl]
  cqBase := by rw [h.ctl]
  sizes := by rw [h.ctl]
  low := h.low
  high := h.high
  windows := h.windows
  plan := h.plan
  contexts := h.contexts
  writes := by
    obtain ⟨l, hl⟩ := h.writes
    exact ⟨l, by rw [hl, h.wire, List.append_assoc]⟩
  frames := ⟨[], by rw [h.wire]; simp⟩
  events g := ⟨by rw [h.au]; exact g.size, by rw [h.au]; exact g.keys, by rw [h.au]; exact g.counts⟩
  accounts := h.accounts

theorem Keeps.on {s t : State} (h : Keeps s t) (j : SpokeId) : On j s t := ⟨h.link j, h.tags j, h.flush j, h.issue j⟩

namespace On

variable {j : SpokeId} {s t u : State}

theorem refl (j : SpokeId) (s : State) : On j s s := ⟨rfl, rfl, id, fun _ => rfl⟩

theorem state (h : On j s t) : (t.spoke j).state = (s.spoke j).state := congrArg (·.1) h.link
theorem timeout (h : On j s t) : (t.spoke j).timeout = (s.spoke j).timeout := congrArg (·.2.1) h.link
theorem grant (h : On j s t) : (t.spoke j).grant = (s.spoke j).grant := congrArg (·.2.2.1) h.link
theorem credits (h : On j s t) : (t.spoke j).credits = (s.spoke j).credits := congrArg (·.2.2.2.1) h.link
theorem attempt (h : On j s t) : (t.spoke j).attempt = (s.spoke j).attempt := congrArg (·.2.2.2.2.1) h.link

theorem trans (h : On j s t) (g : On j t u) : On j s u :=
  ⟨g.link.trans h.link, g.tags.trans h.tags, fun e => g.flush (h.flush e), fun e =>
    (g.issue (by rw [h.state]; exact e)).trans (h.issue e)⟩

theorem foldl {α : Type} (f : State → α → State) (h : ∀ s a, On j s (f s a)) (l : List α) (s : State) :
    On j s (l.foldl f s) := by
  induction l generalizing s with
  | nil => exact refl j s
  | cons a l ih => exact (h s a).trans (ih (f s a))

/-- A tag that is free, or quarantined, is that before and after. -/
theorem plain (h : On j s t) (g : TagId) : Tag.plain (t.spoke j).tags[g] = Tag.plain (s.spoke j).tags[g] := by
  have := congrArg (fun v : Vector Tag 32 => v[g.val]) h.tags
  simpa using this

theorem free (h : On j s t) (g : TagId) (hf : (s.spoke j).tags[g] = .free) : (t.spoke j).tags[g] = .free := by
  have := h.plain g
  rw [hf] at this
  generalize (t.spoke j).tags[g] = x at this
  cases x <;> simp_all [Tag.plain]

theorem quarantined (h : On j s t) (g : TagId) (hq : (t.spoke j).tags[g] = .quarantined) :
    (s.spoke j).tags[g] = .quarantined := by
  have := h.plain g
  rw [hq] at this
  generalize (s.spoke j).tags[g] = x at this
  cases x <;> simp_all [Tag.plain]

/-- What is stated of a link holds of it after an operation on another spoke. -/
theorem linkOk (h : On j s t) {b : Bool} (g : LinkOk b (s.spoke j) (s.issue j)) : LinkOk b (t.spoke j) (t.issue j) where
  logical e := by rw [h.state]; exact g.logical e
  credits := by rw [h.credits, h.grant]; exact g.credits
  grant := by rw [h.grant]; exact g.grant
  idle e := by
    rw [h.state] at e
    obtain ⟨a, b, c⟩ := g.idle e
    exact ⟨by rw [h.credits]; exact a, by rw [h.issue e]; exact b, h.flush c⟩
  closed e q := by
    rw [h.state] at e
    exact h.free q (g.closed e q)
  off e := by
    rw [h.state] at e
    obtain ⟨a, b⟩ := g.off e
    exact ⟨by rw [h.grant]; exact a, by rw [h.attempt]; exact b⟩
  up e q hq := by
    rw [h.state] at e
    exact g.up e q (h.quarantined q hq)

end On

/-- The logical spokes are those of the layouts alone. -/
theorem Quiet.isLogical {s t : State} (h : Quiet s t) (j : SpokeId) : t.isLogical j = s.isLogical j := by
  unfold State.isLogical State.headOf
  rw [h.low, h.high]

/-- Links are kept by an operation on one spoke when the others are left alone. -/
theorem State.LinksOk.of_one {s t : State} (h : s.LinksOk) (q : Quiet s t) (k : SpokeId) (o : ∀ j, j ≠ k → On j s t)
    (hk : LinkOk (s.isLogical k) (t.spoke k) (t.issue k)) : t.LinksOk := by
  intro j
  rw [q.isLogical j]
  by_cases e : j = k
  · subst e; exact hk
  · exact (o j e).linkOk (h j)

/-- Links are kept by what segments' steps keep. -/
theorem State.LinksOk.of_keeps {s t : State} (h : s.LinksOk) (q : Keeps s t) : t.LinksOk := fun j => by
  rw [q.quiet.isLogical j]
  exact (q.on j).linkOk (h j)

namespace State

variable (s : State) (k j : SpokeId)

/-! ## The primitive updates -/

theorem modSpoke_quiet (f : Spoke → Spoke) : Quiet s (s.modSpoke k f) :=
  .of_rest _ _ rfl rfl rfl rfl rfl rfl rfl rfl rfl rfl rfl rfl rfl

theorem setIssue_quiet (l : List SegId) : Quiet s (s.setIssue k l) := .of_rest _ _ rfl rfl rfl rfl rfl rfl rfl rfl rfl rfl rfl rfl rfl

theorem setExecutor_quiet (x : Executor) : Quiet s (s.setExecutor x) := .of_rest _ _ rfl rfl rfl rfl rfl rfl rfl rfl rfl rfl rfl rfl rfl

theorem markPosted_quiet (st : Status) : Quiet s (s.markPosted k st) := .of_rest _ _ rfl rfl rfl rfl rfl rfl rfl rfl rfl rfl rfl rfl rfl

theorem dropCarrierOut_quiet : Quiet s (s.dropCarrierOut k) :=
  ⟨rfl, rfl, rfl, rfl, rfl, rfl, rfl, rfl, rfl, ⟨[], by simp⟩, ⟨[], by simp⟩, fun h => ⟨h.size, h.keys, h.counts⟩, fun h => h.of_same rfl rfl rfl rfl id⟩

theorem sendFrame_quiet (m : TxMessage) : Quiet s (s.sendFrame k m) :=
  ⟨rfl, rfl, rfl, rfl, rfl, rfl, rfl, rfl, rfl, ⟨[], by simp⟩, ⟨_, rfl⟩, fun h => ⟨h.size, h.keys, h.counts⟩, fun h => h.of_same rfl rfl rfl rfl id⟩

theorem endCommand_quiet (ops : List Byte) (o : Nat) (st : AdminStatus) (i : Nat) : Quiet s (s.endCommand ops o st i) := by
  unfold endCommand
  split
  · split
    · exact setExecutor_quiet s _
    · exact .refl s
  · exact .refl s

/-- An event keeps the event list within its bounds (R165, R166). -/
theorem addEvent_ok (l : List Event) (b : Bool) (src : EventSource) (kind : EventKind) (r : EventReason)
    (size : l.length ≤ Config.eventSlots) (keys : l.Pairwise fun a b => ¬ (a.source = b.source ∧ a.kind = b.kind))
    (counts : ∀ e ∈ l, 1 ≤ e.count ∧ e.count ≤ Config.eventCountMax) :
    (addEvent l b src kind r).1.length ≤ Config.eventSlots ∧
      (addEvent l b src kind r).1.Pairwise (fun a b => ¬ (a.source = b.source ∧ a.kind = b.kind)) ∧
      ∀ e ∈ (addEvent l b src kind r).1, 1 ≤ e.count ∧ e.count ≤ Config.eventCountMax := by
  unfold addEvent
  split
  · refine ⟨by simpa using size, ?_, ?_⟩
    · rw [List.pairwise_map]
      refine keys.imp fun {a c} h => ?_
      split <;> split <;> exact h
    · intro e he
      simp only [List.mem_map] at he
      obtain ⟨a, ha, rfl⟩ := he
      have := counts a ha
      split
      · simp only [Config.eventCountMax] at this ⊢; omega
      · exact this
  · rename_i hn
    split
    · rename_i hl
      refine ⟨by simp only [List.length_append, List.length_singleton]; omega, ?_, ?_⟩
      · rw [List.pairwise_append]
        refine ⟨keys, List.pairwise_singleton _ _, ?_⟩
        intro a ha c hc
        simp only [List.mem_singleton] at hc
        subst hc
        intro h
        apply hn
        simp only [List.any_eq_true, Bool.and_eq_true, beq_iff_eq]
        exact ⟨a, ha, h⟩
      · intro e he
        rcases List.mem_append.mp he with he | he
        · exact counts e he
        · simp only [List.mem_singleton] at he
          subst he
          simp [Config.eventCountMax]
    · exact ⟨size, keys, counts⟩

theorem raise_quiet (src : EventSource) (kind : EventKind) (r : EventReason) : Quiet s (s.raise src kind r) := by
  unfold raise
  split
  · exact .refl s
  · refine ⟨rfl, rfl, rfl, rfl, rfl, rfl, rfl, rfl, rfl, ⟨[], by simp⟩, ⟨[], by simp⟩, fun h => ?_,
      fun h => h.of_same rfl rfl rfl rfl id⟩
    obtain ⟨a, b, c⟩ := addEvent_ok s.au.events s.au.overflow src kind r h.size h.keys h.counts
    exact ⟨a, b, c⟩

theorem modSpoke_on (f : Spoke → Spoke) (h : j ≠ k) : On j s (s.modSpoke k f) := by
  have e : (s.modSpoke k f).spoke j = s.spoke j := by rw [modSpoke_spoke, if_neg h]
  exact ⟨by rw [e], by rw [e], by rw [e]; exact id, fun _ => rfl⟩

theorem setIssue_on (l : List SegId) (h : j ≠ k) : On j s (s.setIssue k l) :=
  ⟨rfl, rfl, id, fun _ => by rw [setIssue_issue, if_neg h]⟩

/-- An operation that leaves the segment unit and the spoke ports alone leaves every spoke as it is. -/
theorem on_of_same (s t : State) (hsu : t.su.issue = s.su.issue) (hsp : t.sp.spokes = s.sp.spokes) : On j s t := by
  have e : t.spoke j = s.spoke j := by unfold spoke; rw [hsp]
  exact ⟨by rw [e], by rw [e], by rw [e]; exact id, fun _ => by unfold issue; rw [hsu]⟩

theorem raise_on (src : EventSource) (kind : EventKind) (r : EventReason) : On j s (s.raise src kind r) := by
  apply on_of_same <;> (unfold raise; split <;> rfl)

theorem endCommand_on (ops : List Byte) (o : Nat) (st : AdminStatus) (i : Nat) : On j s (s.endCommand ops o st i) := by
  apply on_of_same <;> (unfold endCommand; repeat' split) <;> rfl

@[simp] theorem markPosted_spoke (st : Status) : (s.markPosted k st).spoke j = s.spoke j := rfl
@[simp] theorem markPosted_issue (st : Status) : (s.markPosted k st).issue j = s.issue j := rfl

theorem markPosted_on (st : Status) : On j s (s.markPosted k st) := on_of_same j _ _ rfl rfl

theorem sendFrame_on (m : TxMessage) : On j s (s.sendFrame k m) := on_of_same j _ _ rfl rfl

theorem dropCarrierOut_on : On j s (s.dropCarrierOut k) := on_of_same j _ _ rfl rfl

/-! ## The ends of requests -/

theorem endRequest_keeps (r : Request) (st : Status) : Keeps s (s.endRequest k r st) := by
  unfold endRequest
  split
  · exact retire_keeps s _ _
  · exact retire_keeps s _ _
  · exact endFlush_keeps s _ _ _
  · exact .refl s

theorem endOutstanding_fold_keeps (v : Vector Tag 32) (st : Status) (l : List TagId) :
    Keeps s (l.foldl (fun t (g : TagId) => match v[g] with
      | .outstanding r => (t.endRequest k r st).grantSlots
      | _ => t) s) :=
  .foldl _ (fun t g => by
    split
    · exact (endRequest_keeps t k _ _).trans (grantSlots_keeps _)
    · exact .refl t) _ _

/-- The end of every outstanding request of k, on the spokes (R105, R106). -/
theorem endOutstanding_spec (st : Status) :
    Keeps (s.modSpoke k fun x => { x with tags := Vector.replicate 32 .free }) (s.endOutstanding k st) :=
  endOutstanding_fold_keeps _ _ _ _ _

theorem failIssue_spec (st : Status) : Keeps (s.setIssue k []) (s.failIssue k st) :=
  .foldl _ (fun t i => (retire_keeps t i _).trans (grantSlots_keeps _)) _ _

theorem failFlushes_spec (st : Status) : Keeps (s.modSpoke k fun x => { x with flushList := [] }) (s.failFlushes k st) :=
  .foldl _ (fun t e => endFlush_keeps t e k _) _ _

theorem endOutstanding_quiet (st : Status) : Quiet s (s.endOutstanding k st) :=
  (modSpoke_quiet s k _).trans (endOutstanding_spec s k st).quiet

theorem failWaiting_quiet (st : Status) : Quiet s (s.failWaiting k st) :=
  ((setIssue_quiet s k _).trans (failIssue_spec s k st).quiet).trans
    ((modSpoke_quiet _ k _).trans (failFlushes_spec _ k st).quiet)

theorem endOutstanding_on (st : Status) (h : j ≠ k) : On j s (s.endOutstanding k st) :=
  (modSpoke_on s k j _ h).trans ((endOutstanding_spec s k st).on j)

theorem failWaiting_on (st : Status) (h : j ≠ k) : On j s (s.failWaiting k st) :=
  ((setIssue_on s k j _ h).trans ((failIssue_spec s k st).on j)).trans
    ((modSpoke_on _ k j _ h).trans ((failFlushes_spec _ k st).on j))

/-- The waiting work of a spoke that is not UP is gone, and its link is as it was (R52, R103 to R106). -/
theorem failWaiting_here (st : Status) (h : (s.spoke k).state ≠ .up) :
    ((s.failWaiting k st).spoke k).link = (s.spoke k).link ∧
      vmap Tag.plain ((s.failWaiting k st).spoke k).tags = vmap Tag.plain (s.spoke k).tags ∧
      ((s.failWaiting k st).spoke k).flushList = [] ∧ (s.failWaiting k st).issue k = [] := by
  have a := (failIssue_spec s k st).on k
  have ha : ((s.failIssue k st).spoke k).state ≠ .up := by rw [a.state]; exact h
  have b := (failFlushes_spec (s.failIssue k st) k st).on k
  have hb : (((s.failIssue k st).modSpoke k fun x => { x with flushList := [] }).spoke k).link =
      ((s.failIssue k st).spoke k).link := by rw [modSpoke_spoke_self]; rfl
  have hs : (((s.failIssue k st).modSpoke k fun x => { x with flushList := [] }).spoke k).state ≠ .up := by
    rw [modSpoke_spoke_self]; exact ha
  refine ⟨b.link.trans (hb.trans a.link), ?_, b.flush (by rw [modSpoke_spoke_self]), ?_⟩
  · refine b.tags.trans ?_
    rw [modSpoke_spoke_self]
    exact a.tags
  · refine (b.issue hs).trans ?_
    show (s.failIssue k st).issue k = []
    rw [a.issue h, setIssue_issue_self]

/-! ## Faults and link errors -/

/-- What the manual states of a spoke in FAULTED or DRAINING, once its waiting work has ended. -/
theorem linkOk_of_ended {b : Bool} {x : Spoke} {l : List SegId} (hl : b = true) (hs : x.state = .faulted ∨ x.state = .draining)
    (hc : x.credits = 0) (hg : x.grant ≤ Config.maxGrant) (hi : l = []) (hf : x.flushList = []) : LinkOk b x l where
  logical e := by rw [hl] at e; contradiction
  credits := by rw [hc]; omega
  grant := hg
  idle _ := ⟨hc, hi, hf⟩
  closed e := by rcases hs with h | h <;> rw [h] at e <;> simp at e
  off e := by rcases hs with h | h <;> rw [h] at e <;> simp at e
  up e := by rcases hs with h | h <;> rw [h] at e <;> simp at e

/-- A logical spoke that is not OFF has a number that is a logical spoke (R98). -/
theorem LinksOk.isLogical {s : State} (h : s.LinksOk) {k : SpokeId} (hk : (s.spoke k).state ≠ .off) : s.isLogical k = true := by
  cases e : s.isLogical k with
  | true => rfl
  | false => exact absurd ((h k).logical e) hk

theorem fault_quiet (r : EventReason) : Quiet s (s.fault k r) :=
  ((modSpoke_quiet s k _).trans (failWaiting_quiet _ k _)).trans (raise_quiet _ _ _ _)

theorem fault_on (r : EventReason) (h : j ≠ k) : On j s (s.fault k r) :=
  ((modSpoke_on s k j _ h).trans (failWaiting_on _ k j _ h)).trans (raise_on _ j _ _ _)

/-- A faulted spoke: its link is FAULTED without credits, its tags are as they were, and nothing waits (R104). -/
theorem fault_here (r : EventReason) :
    ((s.fault k r).spoke k).state = .faulted ∧ ((s.fault k r).spoke k).credits = 0 ∧
      ((s.fault k r).spoke k).grant = (s.spoke k).grant ∧ ((s.fault k r).spoke k).flushList = [] ∧
      (s.fault k r).issue k = [] := by
  let s1 := s.modSpoke k fun x => { x with state := .faulted, credits := 0 }
  have h1 : s1.spoke k = { s.spoke k with state := .faulted, credits := 0 } := modSpoke_spoke_self _ _ _
  obtain ⟨a, b, c, d⟩ := failWaiting_here s1 k .spokeUnavailable (by rw [h1]; simp)
  have e := raise_on (s1.failWaiting k .spokeUnavailable) k (.spoke k) .spokeFaulted r
  have hl := e.link.trans a
  rw [h1] at hl
  refine ⟨congrArg (·.1) hl, congrArg (·.2.2.2.1) hl, congrArg (·.2.2.1) hl, e.flush c, ?_⟩
  refine (e.issue ?_).trans d
  have : ((s1.failWaiting k .spokeUnavailable).spoke k).state = .faulted := by
    have := congrArg (·.1) a
    rw [h1] at this
    exact this
  rw [this]; simp

theorem fault_links (r : EventReason) (h : s.LinksOk) (hk : (s.spoke k).state ≠ .off) : (s.fault k r).LinksOk := by
  obtain ⟨a, b, c, d, e⟩ := fault_here s k r
  exact h.of_one (fault_quiet s k r) k (fun j hj => fault_on s k j r hj)
    (linkOk_of_ended (h.isLogical hk) (.inl a) b (by rw [c]; exact (h k).grant) e d)

/-- A change of k's error and timeout counts alone. -/
theorem modSpoke_counts_links (f : Spoke → Spoke) (h : s.LinksOk)
    (hf : (f (s.spoke k)).state = (s.spoke k).state ∧ (f (s.spoke k)).grant = (s.spoke k).grant ∧
      (f (s.spoke k)).attempt = (s.spoke k).attempt ∧ (f (s.spoke k)).tags = (s.spoke k).tags ∧
      (f (s.spoke k)).flushList = (s.spoke k).flushList)
    (hc : (f (s.spoke k)).credits = (s.spoke k).credits ∨
      (s.spoke k).state = .up ∧ (f (s.spoke k)).credits ≤ (s.spoke k).grant) : (s.modSpoke k f).LinksOk := by
  refine h.of_one (modSpoke_quiet s k f) k (fun j hj => modSpoke_on s k j f hj) ?_
  rw [modSpoke_spoke_self, modSpoke_issue]
  obtain ⟨a, b, c, d, e⟩ := hf
  have g := h k
  exact
    { logical := fun q => by rw [a]; exact g.logical q
      credits := by
        rw [b]
        rcases hc with hc | hc
        · rw [hc]; exact g.credits
        · exact hc.2
      grant := by rw [b]; exact g.grant
      idle := fun q => by
        rw [a] at q
        rw [e]
        obtain ⟨x, y, z⟩ := g.idle q
        rcases hc with hc | hc
        · exact ⟨by rw [hc]; exact x, y, z⟩
        · exact absurd hc.1 q
      closed := fun q t => by rw [a] at q; rw [d]; exact g.closed q t
      off := fun q => by rw [a] at q; rw [b, c]; exact g.off q
      up := fun q t => by rw [a] at q; rw [d]; exact g.up q t }

theorem linkError_quiet : Quiet s (s.linkError k) := by
  unfold linkError
  split
  · dsimp only
    split
    · exact (modSpoke_quiet s k _).trans (fault_quiet _ k _)
    · exact modSpoke_quiet s k _
  · exact .refl s

theorem linkError_on (h : j ≠ k) : On j s (s.linkError k) := by
  unfold linkError
  split
  · dsimp only
    split
    · exact (modSpoke_on s k j _ h).trans (fault_on _ k j _ h)
    · exact modSpoke_on s k j _ h
  · exact .refl j s

theorem linkError_links (h : s.LinksOk) : (s.linkError k).LinksOk := by
  unfold linkError
  split
  · dsimp only
    have g : (s.modSpoke k fun x => { x with linkErrors := min (x.linkErrors + 1) Config.linkErrorLimit }).LinksOk :=
      modSpoke_counts_links s k _ h ⟨rfl, rfl, rfl, rfl, rfl⟩ (.inl rfl)
    split
    · rename_i e
      exact fault_links _ k _ g (by rw [e.1]; simp)
    · exact g
  · exact h

/-! ## Leaving the link -/

theorem enterOff_quiet (st : Status) : Quiet s (s.enterOff k st) :=
  ((modSpoke_quiet s k _).trans (markPosted_quiet _ k st)).trans (dropCarrierOut_quiet _ k)

theorem enterOff_on (st : Status) (h : j ≠ k) : On j s (s.enterOff k st) :=
  ((modSpoke_on s k j _ h).trans (markPosted_on _ k j st)).trans (dropCarrierOut_on _ k j)

/-- The record of a spoke that has entered OFF (R98). -/
theorem enterOff_spoke_self (st : Status) :
    (s.enterOff k st).spoke k =
      { s.spoke k with state := .off, grant := 0, credits := 0, attempt := 0, tags := Vector.replicate 32 .free } := by
  unfold enterOff
  rw [dropCarrierOut_spoke, markPosted_spoke, modSpoke_spoke_self]

@[simp] theorem enterOff_issue (st : Status) : (s.enterOff k st).issue j = s.issue j := rfl

/-- A spoke on which nothing waits enters OFF (R98). -/
theorem enterOff_links (st : Status) (h : s.LinksOk) (hi : s.issue k = []) (hf : (s.spoke k).flushList = []) :
    (s.enterOff k st).LinksOk := by
  refine h.of_one (enterOff_quiet s k st) k (fun j hj => enterOff_on s k j st hj) ?_
  have e := enterOff_spoke_self s k st
  have i : (s.enterOff k st).issue k = [] := hi
  rw [e, i]
  exact
    { logical := fun _ => rfl
      credits := Nat.le_refl _
      grant := by simp
      idle := fun _ => ⟨rfl, rfl, hf⟩
      closed := fun _ g => by simp
      off := fun _ => ⟨rfl, rfl⟩
      up := fun q => by simp at q }

theorem startReset_quiet : Quiet s (s.startReset k) :=
  ((((modSpoke_quiet s k _).trans (endOutstanding_quiet _ k _)).trans (failWaiting_quiet _ k _)).trans
    (markPosted_quiet _ k _)).trans (sendFrame_quiet _ k _)

theorem startReset_on (h : j ≠ k) : On j s (s.startReset k) :=
  ((((modSpoke_on s k j _ h).trans (endOutstanding_on _ k j _ h)).trans (failWaiting_on _ k j _ h)).trans
    (markPosted_on _ k j _)).trans (sendFrame_on _ k j _)

/-- A spoke whose requests have all ended: its tags are free, nothing waits, its link is as it was (R105, R106). -/
theorem endAll_here (st : Status) (h : (s.spoke k).state ≠ .up) :
    (((s.endOutstanding k st).failWaiting k st).spoke k).link = (s.spoke k).link ∧
      (∀ g : TagId, (((s.endOutstanding k st).failWaiting k st).spoke k).tags[g] = .free) ∧
      (((s.endOutstanding k st).failWaiting k st).spoke k).flushList = [] ∧
      ((s.endOutstanding k st).failWaiting k st).issue k = [] := by
  have a := (endOutstanding_spec s k st).on k
  have hl : ((s.endOutstanding k st).spoke k).link = (s.spoke k).link := by
    rw [a.link, modSpoke_spoke_self]; rfl
  have hs : ((s.endOutstanding k st).spoke k).state ≠ .up := by 
    have := congrArg (·.1) hl
    exact fun e => h (this.symm.trans e)
  obtain ⟨b, c, d, e⟩ := failWaiting_here (s.endOutstanding k st) k st hs
  refine ⟨b.trans hl, fun g => ?_, d, e⟩
  have hf : ((s.endOutstanding k st).spoke k).tags[g] = .free := a.free g (by rw [modSpoke_spoke_self]; simp)
  have := congrArg (fun v : Vector Tag 32 => v[g.val]) c
  simp only [vmap_getElem] at this
  have hf' : ((s.endOutstanding k st).spoke k).tags[g.val] = .free := hf
  rw [hf'] at this
  show (((s.endOutstanding k st).failWaiting k st).spoke k).tags[g.val] = .free
  generalize (((s.endOutstanding k st).failWaiting k st).spoke k).tags[g.val] = x at this
  cases x <;> simp_all [Tag.plain]

theorem startReset_links (h : s.LinksOk) (hk : (s.spoke k).state ≠ .off) : (s.startReset k).LinksOk := by
  refine h.of_one (startReset_quiet s k) k (fun j hj => startReset_on s k j hj) ?_
  let s1 := s.modSpoke k fun x => { x with state := .resetting, credits := 0 }
  have h1 : s1.spoke k = { s.spoke k with state := .resetting, credits := 0 } := modSpoke_spoke_self _ _ _
  obtain ⟨a, b, c, d⟩ := endAll_here s1 k .spokeReset (by rw [h1]; simp)
  rw [h1] at a
  unfold startReset
  rw [sendFrame_spoke, sendFrame_issue]
  rw [markPosted_spoke, markPosted_issue]
  generalize ((s1.endOutstanding k .spokeReset).failWaiting k .spokeReset).spoke k = x at a b c ⊢
  generalize ((s1.endOutstanding k .spokeReset).failWaiting k .spokeReset).issue k = l at d ⊢
  have st : x.state = .resetting := congrArg (·.1) a
  have cr : x.credits = 0 := congrArg (·.2.2.2.1) a
  have gr : x.grant = (s.spoke k).grant := congrArg (·.2.2.1) a
  exact
    { logical := fun q => by rw [h.isLogical hk] at q; contradiction
      credits := by rw [cr]; omega
      grant := by rw [gr]; exact (h k).grant
      idle := fun _ => ⟨cr, d, c⟩
      closed := fun _ => b
      off := fun q => by rw [st] at q; contradiction
      up := fun q => by rw [st] at q; contradiction }

theorem endReset_quiet (i : Nat) : Quiet s (s.endReset k i) := (enterOff_quiet s k _).trans (endCommand_quiet _ _ _ _ _)

/-- Links are kept by the end of a command. -/
theorem endCommand_links (ops : List Byte) (o : Nat) (st : AdminStatus) (i : Nat) (h : s.LinksOk) :
    (s.endCommand ops o st i).LinksOk := fun j => by
  rw [(endCommand_quiet s ops o st i).isLogical j]
  exact (endCommand_on s j ops o st i).linkOk (h j)

/-- Links are kept by an event. -/
theorem raise_links (src : EventSource) (kind : EventKind) (r : EventReason) (h : s.LinksOk) :
    (s.raise src kind r).LinksOk := fun j => by
  rw [(raise_quiet s src kind r).isLogical j]
  exact (raise_on s j src kind r).linkOk (h j)

/-- Links are kept by a message put on a link. -/
theorem sendFrame_links (m : TxMessage) (h : s.LinksOk) : (s.sendFrame k m).LinksOk := h

theorem endReset_links (i : Nat) (h : s.LinksOk) (hk : (s.spoke k).state ≠ .up) : (s.endReset k i).LinksOk := by
  obtain ⟨_, a, b⟩ := (h k).idle hk
  exact endCommand_links _ _ _ _ _ (enterOff_links s k _ h a b)

/-! ## Training -/

theorem startAttempt_quiet (a : Nat) : Quiet s (s.startAttempt k a) := (modSpoke_quiet s k _).trans (sendFrame_quiet _ k _)

theorem startAttempt_links (a : Nat) (h : s.LinksOk) (hl : s.isLogical k = true)
    (hk : (s.spoke k).state = .off ∨ (s.spoke k).state = .training) : (s.startAttempt k a).LinksOk := by
  have g := h k
  have hu : (s.spoke k).state ≠ .up := by rcases hk with e | e <;> rw [e] <;> simp
  refine h.of_one (startAttempt_quiet s k a) k (fun j hj => (modSpoke_on s k j _ hj).trans (sendFrame_on _ k j _)) ?_
  have e : (s.startAttempt k a).spoke k = { s.spoke k with state := .training, attempt := a } := by
    unfold startAttempt
    rw [sendFrame_spoke, modSpoke_spoke_self]
  have i : (s.startAttempt k a).issue k = s.issue k := rfl
  rw [e, i]
  exact
    { logical := fun q => by rw [hl] at q; contradiction
      credits := g.credits
      grant := g.grant
      idle := fun _ => g.idle hu
      closed := fun _ => g.closed (by rcases hk with e | e <;> simp [e])
      off := fun q => by simp at q
      up := fun q => by simp at q }

theorem attemptFailed_quiet : Quiet s (s.attemptFailed k) := by
  unfold attemptFailed
  split
  · exact startAttempt_quiet s k _
  · exact ((enterOff_quiet s k _).trans (raise_quiet _ _ _ _)).trans (endCommand_quiet _ _ _ _ _)

theorem attemptFailed_links (h : s.LinksOk) (hk : (s.spoke k).state = .training) : (s.attemptFailed k).LinksOk := by
  unfold attemptFailed
  split
  · exact startAttempt_links s k _ h (h.isLogical (by rw [hk]; simp)) (.inr hk)
  · obtain ⟨_, a, b⟩ := (h k).idle (by rw [hk]; simp)
    exact endCommand_links _ _ _ _ _ (raise_links _ _ _ _ (enterOff_links s k _ h a b))

theorem enterUp_quiet (g : Nat) : Quiet s (s.enterUp k g) :=
  ((modSpoke_quiet s k _).trans (raise_quiet _ _ _ _)).trans (endCommand_quiet _ _ _ _ _)

theorem enterUp_links (g : Nat) (h : s.LinksOk) (hk : (s.spoke k).state = .training) (hg : g ≤ Config.maxGrant) :
    (s.enterUp k g).LinksOk := by
  refine endCommand_links _ _ _ _ _ (raise_links _ _ _ _ ?_)
  have b := h k
  refine h.of_one (modSpoke_quiet s k _) k (fun j hj => modSpoke_on s k j _ hj) ?_
  rw [modSpoke_spoke_self]
  exact
    { logical := fun q => by rw [h.isLogical (k := k) (by rw [hk]; simp)] at q; contradiction
      credits := Nat.le_refl _
      grant := hg
      idle := fun q => absurd rfl q
      closed := fun q => by simp at q
      off := fun q => by simp at q
      up := fun _ t q => by
        have := b.closed (.inr (.inl hk)) t
        rw [this] at q
        contradiction }

/-! ## Carrier loss (R106) -/

theorem loseWork_quiet : Quiet s (s.loseWork k) :=
  ((modSpoke_quiet s k _).trans (endOutstanding_quiet _ k _)).trans (failWaiting_quiet _ k _)

theorem loseWork_on (h : j ≠ k) : On j s (s.loseWork k) :=
  ((modSpoke_on s k j _ h).trans (endOutstanding_on _ k j _ h)).trans (failWaiting_on _ k j _ h)

theorem loseCarrier_quiet : Quiet s (s.loseCarrier k) := by
  unfold loseCarrier
  split
  · exact .refl s
  · exact ((enterOff_quiet s k _).trans (raise_quiet _ _ _ _)).trans (endCommand_quiet _ _ _ _ _)
  · exact ((enterOff_quiet s k _).trans (raise_quiet _ _ _ _)).trans (endCommand_quiet _ _ _ _ _)
  · exact (((loseWork_quiet s k).trans (enterOff_quiet _ k _)).trans (raise_quiet _ _ _ _)).trans (endCommand_quiet _ _ _ _ _)

theorem loseCarrier_links (h : s.LinksOk) : (s.loseCarrier k).LinksOk := by
  unfold loseCarrier
  split
  · exact h
  · rename_i e
    obtain ⟨_, a, b⟩ := (h k).idle (by rw [e]; simp)
    exact endCommand_links _ _ _ _ _ (raise_links _ _ _ _ (enterOff_links s k _ h a b))
  · rename_i e
    obtain ⟨_, a, b⟩ := (h k).idle (by rw [e]; simp)
    exact endCommand_links _ _ _ _ _ (raise_links _ _ _ _ (enterOff_links s k _ h a b))
  · refine endCommand_links _ _ _ _ _ (raise_links _ _ _ _ ?_)
    refine h.of_one ((loseWork_quiet s k).trans (enterOff_quiet _ k .linkLost)) k
      (fun j hj => (loseWork_on s k j hj).trans (enterOff_on _ k j _ hj)) ?_
    rw [enterOff_spoke_self]
    rw [enterOff_issue]
    obtain ⟨_, _, x, y⟩ := endAll_here (s.modSpoke k fun x => { x with state := .off, credits := 0 }) k .linkLost
      (by rw [modSpoke_spoke_self]; simp)
    unfold loseWork
    rw [y]
    exact
      { logical := fun _ => rfl
        credits := Nat.le_refl _
        grant := by simp
        idle := fun _ => ⟨rfl, rfl, x⟩
        closed := fun _ g => by simp
        off := fun _ => ⟨rfl, rfl⟩
        up := fun q => by simp at q }

/-! ## Sending (R51, R109) -/

/-- A change of k's tags, lists and credits that only spends what an UP spoke holds. -/
theorem spend_links (t : State) (x : Spoke) (h : s.LinksOk) (q : Quiet s t) (o : ∀ j, j ≠ k → On j s t)
    (hk : (s.spoke k).state = .up) (hf : t.spoke k = x) (hs : x.state = .up)
    (hg : x.grant = (s.spoke k).grant) (hc : x.credits ≤ (s.spoke k).credits)
    (ht : ∀ g : TagId, x.tags[g] ≠ .quarantined) : t.LinksOk := by
  refine h.of_one q k o ?_
  rw [hf]
  have b := h k
  exact
    { logical := fun e => by rw [h.isLogical (k := k) (by rw [hk]; simp)] at e; contradiction
      credits := by rw [hg]; exact Nat.le_trans hc b.credits
      grant := by rw [hg]; exact b.grant
      idle := fun e => absurd hs e
      closed := fun e => by rw [hs] at e; simp at e
      off := fun e => by rw [hs] at e; simp at e
      up := fun _ => ht }

/-- A tag that has just been taken leaves none quarantined. -/
theorem set_outstanding (x : Spoke) (g : TagId) (r : Request) (h : ∀ q : TagId, x.tags[q] ≠ .quarantined) (q : TagId) :
    (x.tags.set g (.outstanding r))[q] ≠ .quarantined := by
  simp only [Fin.getElem_fin, Vector.getElem_set]
  split
  · simp
  · exact h q

theorem sendFlush_quiet {t : State} (h : s.sendFlush? k = some t) : Quiet s t := by
  unfold sendFlush? at h
  split at h
  · split at h
    · simp only [Option.some.injEq] at h
      subst h
      exact (modSpoke_quiet s k _).trans (sendFrame_quiet _ k _)
    · contradiction
  · contradiction

theorem sendFlush_links {t : State} (h : s.sendFlush? k = some t) (hl : s.LinksOk) : t.LinksOk := by
  have q := sendFlush_quiet s k h
  unfold sendFlush? at h
  split at h
  · rename_i hu
    split at h
    · simp only [Option.some.injEq] at h
      subst h
      refine spend_links s k _ _ hl q (fun j hj => (modSpoke_on s k j _ hj).trans (sendFrame_on _ k j _)) hu.1
        ((sendFrame_spoke _ _ _ _).trans (modSpoke_spoke_self _ _ _)) hu.1 rfl (Nat.sub_le _ _) ?_
      exact set_outstanding _ _ _ ((hl k).up hu.1)
    · contradiction
  · contradiction

theorem sendTagged_quiet (i : SegId) (a : Nat) (g : TagId) : Quiet s (s.sendTagged k i a g) := by
  unfold sendTagged
  split
  · exact (((sendFrame_quiet s k _).trans (freeSlot_keeps _ i).quiet).trans (modSeg_keeps _ i _).quiet).trans
      (modSpoke_quiet _ k _)
  · exact ((sendFrame_quiet s k _).trans (modSeg_keeps _ i _).quiet).trans (modSpoke_quiet _ k _)

theorem sendPosted_quiet (i : SegId) (a : Nat) : Quiet s (s.sendPosted k i a) :=
  ((sendFrame_quiet s k _).trans (modSpoke_quiet _ k _)).trans (retire_keeps _ i _).quiet

theorem sendRequest_quiet {t : State} (h : s.sendRequest? k = some t) : Quiet s t := by
  unfold sendRequest? at h
  split at h
  · split at h
    · contradiction
    · split at h
      · contradiction
      · split at h
        · simp only [Option.some.injEq] at h
          subst h
          exact (setIssue_quiet s k _).trans (sendPosted_quiet _ k _ _)
        · split at h
          · simp only [Option.some.injEq] at h
            subst h
            exact (setIssue_quiet s k _).trans (sendTagged_quiet _ k _ _ _)
          · contradiction
  · contradiction

/-- Links are kept by a send from the issue list of an UP spoke, whatever stays on the list. -/
theorem setIssue_up_links (l : List SegId) (h : s.LinksOk) (hk : (s.spoke k).state = .up) : (s.setIssue k l).LinksOk := by
  refine h.of_one (setIssue_quiet s k l) k (fun j hj => setIssue_on s k j l hj) ?_
  have b := h k
  exact
    { logical := b.logical
      credits := b.credits
      grant := b.grant
      idle := fun e => absurd hk e
      closed := b.closed
      off := b.off
      up := b.up }

theorem sendRequest_links {t : State} (h : s.sendRequest? k = some t) (hl : s.LinksOk) : t.LinksOk := by
  unfold sendRequest? at h
  split at h
  · rename_i hu
    split at h
    · contradiction
    · rename_i i rest _
      have hs : ((s.setIssue k rest).spoke k).state = .up := hu.1
      have hi := setIssue_up_links s k rest hl hu.1
      split at h
      · contradiction
      · rename_i r _
        split at h
        · simp only [Option.some.injEq] at h
          subst h
          unfold sendPosted
          refine LinksOk.of_keeps ?_ (retire_keeps _ i _)
          exact modSpoke_counts_links _ k _ (sendFrame_links _ k _ hi) ⟨rfl, rfl, rfl, rfl, rfl⟩
            (.inr ⟨hs, Nat.le_trans (Nat.sub_le _ _) (hi k).credits⟩)
        · split at h
          · rename_i g _
            simp only [Option.some.injEq] at h
            subst h
            have q := sendTagged_quiet (s.setIssue k rest) k i r.address g
            have up := (hi k).up hs
            unfold sendTagged at q ⊢
            split
            · rename_i hw
              rw [if_pos hw] at q
              have a := (freeSlot_keeps (((s.setIssue k rest).sendFrame k
                (.writeRequest (some g) r.address ((s.setIssue k rest).payload i)))) i).trans (modSeg_keeps _ i
                  fun x => { x with state := .outstanding, tag := some g })
              have au := (a.on k).state.trans hs
              refine spend_links _ k _ _ (LinksOk.of_keeps (sendFrame_links _ k _ hi) a) (modSpoke_quiet _ k _)
                (fun j hj => modSpoke_on _ k j _ hj) au (modSpoke_spoke_self _ _ _) au rfl (Nat.sub_le _ _) ?_
              exact set_outstanding _ _ _ ((LinksOk.of_keeps (sendFrame_links _ k _ hi) a k).up au)
            · have a := modSeg_keeps ((s.setIssue k rest).sendFrame k
                (.readRequest g r.address ((s.setIssue k rest).seg i).length)) i
                  fun x => { x with state := .outstanding, tag := some g }
              refine spend_links _ k _ _ (LinksOk.of_keeps (sendFrame_links _ k _ hi) a) (modSpoke_quiet _ k _)
                (fun j hj => modSpoke_on _ k j _ hj) hs (modSpoke_spoke_self _ _ _) hs rfl (Nat.sub_le _ _) ?_
              exact set_outstanding _ _ _ up
          · contradiction
  · contradiction

/-! ## The end of a drain (R103) -/

theorem drainEnd_quiet {t : State} (h : s.drainEnd? k = some t) : Quiet s t := by
  unfold drainEnd? at h
  split at h
  · simp only [Option.some.injEq] at h
    subst h
    exact (enterOff_quiet s k _).trans (endCommand_quiet _ _ _ _ _)
  · contradiction

theorem drainEnd_links {t : State} (h : s.drainEnd? k = some t) (hl : s.LinksOk) : t.LinksOk := by
  unfold drainEnd? at h
  split at h
  · rename_i e
    simp only [Option.some.injEq] at h
    subst h
    obtain ⟨_, a, b⟩ := (hl k).idle (by rw [e.1]; simp)
    exact endCommand_links _ _ _ _ _ (enterOff_links s k _ hl a b)
  · contradiction

/-! ## Received frames (R112 to R116, R127 to R131) -/

/-- A tag becomes free. -/
theorem freeTag_links (g : TagId) (h : s.LinksOk) : (s.modSpoke k fun x => { x with tags := x.tags.set g .free }).LinksOk := by
  refine h.of_one (modSpoke_quiet s k _) k (fun j hj => modSpoke_on s k j _ hj) ?_
  rw [modSpoke_spoke_self, modSpoke_issue]
  have b := h k
  exact
    { logical := b.logical
      credits := b.credits
      grant := b.grant
      idle := b.idle
      closed := fun e q => by
        simp only [Fin.getElem_fin, Vector.getElem_set]
        split
        · rfl
        · exact b.closed e q
      off := b.off
      up := fun e q => by
        simp only [Fin.getElem_fin, Vector.getElem_set]
        split
        · simp
        · exact b.up e q }

/-- What a response does is quiet, when what it does for its request is. -/
theorem takeResponse_quiet (tag : Byte) (m : Request → Option (State → State)) (h : ∀ r f, m r = some f → ∀ t, Quiet t (f t)) :
    Quiet s (s.takeResponse k tag m) := by
  unfold takeResponse
  split
  · split
    · dsimp only
      split
      · exact linkError_quiet s k
      · exact modSpoke_quiet s k _
      · split
        · rename_i r _ _ f e
          exact (modSpoke_quiet s k _).trans (h r f e _)
        · exact linkError_quiet s k
    · exact linkError_quiet s k
  · exact .refl s

theorem takeResponse_links (tag : Byte) (m : Request → Option (State → State))
    (h : ∀ r f, m r = some f → ∀ t : State, t.LinksOk → (f t).LinksOk) (hl : s.LinksOk) : (s.takeResponse k tag m).LinksOk := by
  unfold takeResponse
  split
  · split
    · rename_i ht
      dsimp only
      split
      · exact linkError_links s k hl
      · exact freeTag_links s k ⟨tag.toNat, ht⟩ hl
      · split
        · rename_i r _ _ f e
          exact h r f e _ (freeTag_links s k ⟨tag.toNat, ht⟩ hl)
        · exact linkError_links s k hl
    · exact linkError_links s k hl
  · exact hl

theorem takeReadResponse_quiet (tag st : Byte) (b : List Byte) : Quiet s (s.takeReadResponse k tag st b) := by
  refine takeResponse_quiet s k tag _ ?_
  intro r f e t
  split at e
  · simp only [Option.some.injEq] at e
    subst e
    dsimp only
    split
    · split
      · exact (land_keeps t _ b).quiet
      · exact ((retire_keeps t _ _).trans (grantSlots_keeps _)).quiet.trans (linkError_quiet _ k)
    · exact (retire_keeps t _ _).quiet
  · contradiction

theorem takeReadResponse_links (tag st : Byte) (b : List Byte) (h : s.LinksOk) : (s.takeReadResponse k tag st b).LinksOk := by
  refine takeResponse_links s k tag _ ?_ h
  intro r f e t ht
  split at e
  · simp only [Option.some.injEq] at e
    subst e
    dsimp only
    split
    · split
      · exact ht.of_keeps (land_keeps t _ b)
      · exact linkError_links _ k (ht.of_keeps ((retire_keeps t _ _).trans (grantSlots_keeps _)))
    · exact ht.of_keeps (retire_keeps t _ _)
  · contradiction

theorem takeWriteAck_quiet (tag st : Byte) : Quiet s (s.takeWriteAck k tag st) := by
  refine takeResponse_quiet s k tag _ ?_
  intro r f e t
  split at e
  · simp only [Option.some.injEq] at e
    subst e
    dsimp only
    split <;> exact (retire_keeps t _ _).quiet
  · contradiction

theorem takeWriteAck_links (tag st : Byte) (h : s.LinksOk) : (s.takeWriteAck k tag st).LinksOk := by
  refine takeResponse_links s k tag _ ?_ h
  intro r f e t ht
  split at e
  · simp only [Option.some.injEq] at e
    subst e
    dsimp only
    split <;> exact ht.of_keeps (retire_keeps t _ _)
  · contradiction

theorem takeFlushAck_quiet (tag : Byte) : Quiet s (s.takeFlushAck k tag) := by
  refine takeResponse_quiet s k tag _ ?_
  intro r f e t
  split at e
  · simp only [Option.some.injEq] at e
    subst e
    exact (endFlush_keeps t _ _ _).quiet
  · simp only [Option.some.injEq] at e
    subst e
    exact .refl t
  · contradiction

theorem takeFlushAck_links (tag : Byte) (h : s.LinksOk) : (s.takeFlushAck k tag).LinksOk := by
  refine takeResponse_links s k tag _ ?_ h
  intro r f e t ht
  split at e
  · simp only [Option.some.injEq] at e
    subst e
    exact ht.of_keeps (endFlush_keeps t _ _ _)
  · simp only [Option.some.injEq] at e
    subst e
    exact ht
  · contradiction

theorem takeTrainAck_quiet (v g : Byte) : Quiet s (s.takeTrainAck k v g) := by
  unfold takeTrainAck
  split
  · split
    · exact enterUp_quiet s k _
    · exact attemptFailed_quiet s k
  · exact linkError_quiet s k

theorem takeTrainAck_links (v g : Byte) (h : s.LinksOk) : (s.takeTrainAck k v g).LinksOk := by
  unfold takeTrainAck
  split
  · rename_i e
    split
    · rename_i b
      exact enterUp_links s k _ h e b.2.2
    · exact attemptFailed_links s k h e
  · exact linkError_links s k h

theorem takeResetAck_quiet : Quiet s (s.takeResetAck k) := by
  unfold takeResetAck
  split
  · exact endReset_quiet s k 1
  · exact .refl s

theorem takeResetAck_links (h : s.LinksOk) : (s.takeResetAck k).LinksOk := by
  unfold takeResetAck
  split
  · rename_i e
    exact endReset_links s k 1 h (by rw [e]; simp)
  · exact h

theorem takeCredit_quiet (c : Byte) : Quiet s (s.takeCredit k c) := by
  unfold takeCredit
  split
  · split
    · exact linkError_quiet s k
    · split
      · exact (modSpoke_quiet s k _).trans (linkError_quiet _ k)
      · exact modSpoke_quiet s k _
  · exact .refl s

theorem takeCredit_links (c : Byte) (h : s.LinksOk) : (s.takeCredit k c).LinksOk := by
  unfold takeCredit
  split
  · rename_i e
    split
    · exact linkError_links s k h
    · split
      · exact linkError_links _ k (modSpoke_counts_links s k _ h ⟨rfl, rfl, rfl, rfl, rfl⟩ (.inr ⟨e, Nat.le_refl _⟩))
      · rename_i n
        exact modSpoke_counts_links s k _ h ⟨rfl, rfl, rfl, rfl, rfl⟩ (.inr ⟨e, Nat.le_of_not_lt n⟩)
  · exact h

theorem takeFrame_quiet (f : RxFrame) : Quiet s (s.takeFrame k f) := by
  cases f with
  | trainAck v g => exact takeTrainAck_quiet s k v g
  | resetAck => exact takeResetAck_quiet s k
  | readResponse t st b => exact takeReadResponse_quiet s k t st b
  | writeAck t st => exact takeWriteAck_quiet s k t st
  | flushAck t => exact takeFlushAck_quiet s k t
  | credit c => exact takeCredit_quiet s k c

theorem takeFrame_links (f : RxFrame) (h : s.LinksOk) : (s.takeFrame k f).LinksOk := by
  cases f with
  | trainAck v g => exact takeTrainAck_links s k v g h
  | resetAck => exact takeResetAck_links s k h
  | readResponse t st b => exact takeReadResponse_links s k t st b h
  | writeAck t st => exact takeWriteAck_links s k t st h
  | flushAck t => exact takeFlushAck_links s k t h
  | credit c => exact takeCredit_links s k c h

theorem takeBytes_quiet (b : Option (List Byte)) : Quiet s (s.takeBytes k b) := by
  unfold takeBytes
  split
  · exact takeFrame_quiet s k _
  · exact linkError_quiet s k

theorem takeBytes_links (b : Option (List Byte)) (h : s.LinksOk) : (s.takeBytes k b).LinksOk := by
  unfold takeBytes
  split
  · exact takeFrame_links s k _ h
  · exact linkError_links s k h

/-! ## Timers and carriers (R101, R105, R106, R110, R111) -/

theorem expireTag_quiet (g : TagId) : Quiet s (s.expireTag k g) := by
  unfold expireTag
  split
  · dsimp only
    have h := fun r => (modSpoke_quiet s k fun x => { x with tags := x.tags.set g .quarantined }).trans
      ((endRequest_keeps _ k r .spokeTimeout).trans (grantSlots_keeps _)).quiet
    split
    · exact (h _).trans (fault_quiet _ k _)
    · exact (h _).trans (modSpoke_quiet _ k _)
    · exact h _
  · exact .refl s

theorem expireTag_links (g : TagId) (h : s.LinksOk) : (s.expireTag k g).LinksOk := by
  unfold expireTag
  split
  · rename_i r er
    dsimp only
    let s1 := s.modSpoke k fun x => { x with tags := x.tags.set g .quarantined }
    have e1 : s1.spoke k = { s.spoke k with tags := (s.spoke k).tags.set g .quarantined } := modSpoke_spoke_self _ _ _
    have q1 : Quiet s s1 := modSpoke_quiet s k _
    have o1 : ∀ j, j ≠ k → On j s s1 := fun j hj => modSpoke_on s k j _ hj
    have b := h k
    have k2 := (endRequest_keeps s1 k r .spokeTimeout).trans (grantSlots_keeps _)
    have hn : ¬ ((s.spoke k).state = .off ∨ (s.spoke k).state = .training ∨ (s.spoke k).state = .resetting) := fun e => by
      rw [b.closed e g] at er
      contradiction
    by_cases up : (s.spoke k).state = .up
    · rw [up]
      dsimp only
      refine h.of_one ((q1.trans k2.quiet).trans (fault_quiet _ k _)) k
        (fun j hj => ((o1 j hj).trans (k2.on j)).trans (fault_on _ k j _ hj)) ?_
      obtain ⟨a, c, d, e, f⟩ := fault_here (s1.endRequest k r .spokeTimeout).grantSlots k .timeout
      refine linkOk_of_ended (h.isLogical (by rw [up]; simp)) (.inl a) c ?_ f e
      rw [d, (k2.on k).grant, e1]
      exact b.grant
    · have l1 : s1.LinksOk := by
        refine h.of_one q1 k o1 ?_
        rw [e1]
        exact
          { logical := b.logical
            credits := b.credits
            grant := b.grant
            idle := b.idle
            closed := fun e => absurd e hn
            off := b.off
            up := fun e => absurd e up }
      have l2 := l1.of_keeps k2
      split
      · rename_i e
        exact absurd e up
      · exact modSpoke_counts_links _ k _ l2 ⟨rfl, rfl, rfl, rfl, rfl⟩ (.inl rfl)
      · exact l2
  · exact h

theorem expireCreditWait_quiet : Quiet s (s.expireCreditWait k) := by
  unfold expireCreditWait
  split
  · exact fault_quiet s k _
  · exact .refl s

theorem expireCreditWait_links (h : s.LinksOk) : (s.expireCreditWait k).LinksOk := by
  unfold expireCreditWait
  split
  · rename_i e
    simp only [creditWaitRunning, Bool.and_eq_true, beq_iff_eq] at e
    exact fault_links s k _ h (by rw [e.1.1]; simp)
  · exact h

theorem expireAttempt_quiet : Quiet s (s.expireAttempt k) := by
  unfold expireAttempt
  split
  · exact attemptFailed_quiet s k
  · exact .refl s

theorem expireAttempt_links (h : s.LinksOk) : (s.expireAttempt k).LinksOk := by
  unfold expireAttempt
  split
  · rename_i e
    exact attemptFailed_links s k h e
  · exact h

theorem expireReset_quiet : Quiet s (s.expireReset k) := by
  unfold expireReset
  split
  · exact endReset_quiet s k 0
  · exact .refl s

theorem expireReset_links (h : s.LinksOk) : (s.expireReset k).LinksOk := by
  unfold expireReset
  split
  · rename_i e
    exact endReset_links s k 0 h (by rw [e]; simp)
  · exact h

theorem carrierIn_quiet (v : Vector Bool 8) : Quiet s { s with sp.carrierIn := v } :=
  .of_rest _ _ rfl rfl rfl rfl rfl rfl rfl rfl rfl rfl rfl rfl rfl

theorem dropCarrier_quiet (p : SpokeId) : Quiet s (s.dropCarrier p) := by
  unfold dropCarrier
  dsimp only
  split
  · exact (carrierIn_quiet s _).trans (loseCarrier_quiet _ _)
  · exact carrierIn_quiet s _

theorem dropCarrier_links (p : SpokeId) (h : s.LinksOk) : (s.dropCarrier p).LinksOk := by
  unfold dropCarrier
  dsimp only
  split
  · exact loseCarrier_links _ _ h
  · exact h

end State

end Sys2Proof.Machine
end

