-- ==== Sys2Proof/Laws/Search.lean ====
section
/-! SUPPORT. What the searches over a fixed collection find: the lowest index with a property, and the first one after
another in ascending order and wrapping. -/

namespace Sys2Proof.Machine

/-- A sorted list's first member with a property is the least one. -/
theorem find_sorted {n : Nat} (l : List (Fin n)) (h : l.Pairwise (· < ·)) (p : Fin n → Bool) (i : Fin n) :
    l.find? p = some i ↔ i ∈ l ∧ p i = true ∧ ∀ j ∈ l, j < i → p j = false := by
  induction l with
  | nil => simp
  | cons a l ih =>
    rw [List.pairwise_cons] at h
    cases ha : p a with
    | true =>
      rw [List.find?_cons_of_pos ha]
      constructor
      · rintro ⟨⟩
        refine ⟨List.mem_cons_self, ha, ?_⟩
        rintro j hj hlt
        rcases List.mem_cons.1 hj with rfl | hj
        · exact absurd hlt (lt_irrefl _)
        · exact absurd (lt_trans hlt (h.1 j hj)) (lt_irrefl _)
      · rintro ⟨hm, hp, hall⟩
        rcases List.mem_cons.1 hm with rfl | hm
        · rfl
        · have := hall a List.mem_cons_self (h.1 i hm)
          rw [ha] at this
          cases this
    | false =>
      rw [List.find?_cons_of_neg (by rw [ha]; exact Bool.false_ne_true), ih h.2]
      constructor
      · rintro ⟨hm, hp, hall⟩
        refine ⟨List.mem_cons_of_mem _ hm, hp, ?_⟩
        intro j hj hlt
        rcases List.mem_cons.1 hj with rfl | hj
        · exact ha
        · exact hall j hj hlt
      · rintro ⟨hm, hp, hall⟩
        rcases List.mem_cons.1 hm with rfl | hm
        · rw [ha] at hp
          cases hp
        · exact ⟨hm, hp, fun j hj => hall j (List.mem_cons_of_mem _ hj)⟩

theorem finRange_sorted (n : Nat) : (List.finRange n).Pairwise (· < ·) := List.pairwise_lt_finRange n

/-- The index found satisfies `p`. -/
theorem firstIndex_holds {n : Nat} {p : Fin n → Bool} {i : Fin n} (h : firstIndex n p = some i) : p i = true :=
  List.find?_some h

theorem firstAfter_holds {n : Nat} [NeZero n] {start : Fin n} {p : Fin n → Bool} {i : Fin n} (h : firstAfter start p = some i) :
    p i = true := List.find?_some h

/-- The lowest index that satisfies `p`. -/
theorem firstIndex_eq_some {n : Nat} {p : Fin n → Bool} {i : Fin n} :
    firstIndex n p = some i ↔ p i = true ∧ ∀ j, j < i → p j = false := by
  rw [firstIndex, find_sorted _ (finRange_sorted n)]
  simp

/-- No index satisfies `p`. -/
theorem firstIndex_eq_none {n : Nat} {p : Fin n → Bool} : firstIndex n p = none ↔ ∀ i, p i = false := by
  simp [firstIndex, List.find?_eq_none]

end Sys2Proof.Machine
end

