-- ==== Sys2Proof/Laws/Moves.lean ====
section
/-! SUPPORT. What every operation but a reset, the end of STOPPING and a register write does to the state as a whole:
`Moves` says that the commands waiting and the administration ring registers stay, that posted writes and messages only
come behind those handed over before, and that links, event list, window table and the accounts stay as the manual states
them. -/

namespace Sys2Proof.Machine

/-- What an operation does to the state as a whole. -/
structure Moves (s t : State) : Prop where
  pending : t.pending = s.pending
  sqBase : t.ctl.adminSqBase = s.ctl.adminSqBase
  cqBase : t.ctl.adminCqBase = s.ctl.adminCqBase
  sizes : t.ctl.adminSizes = s.ctl.adminSizes
  writes : ∃ l, t.wire.writes ++ t.hp.writes = s.wire.writes ++ s.hp.writes ++ l
  frames : ∃ l, t.wire.frames = s.wire.frames ++ l
  links : s.LinksOk → t.LinksOk
  events : s.EventsOk → t.EventsOk
  windows : s.WindowsOk → t.WindowsOk
  accounts : s.AccountsOk → t.AccountsOk

/-- The table to follow is that of the window records and the plan of the pending change. -/
theorem nextTable_eq {s t : State} (h : t.wu.windows = s.wu.windows)
    (p : t.wu.quiesce.map Quiesce.plan = s.wu.quiesce.map Quiesce.plan) : t.nextTable = s.nextTable := by
  unfold State.nextTable
  rw [h]
  generalize t.wu.quiesce = a at p
  generalize s.wu.quiesce = b at p
  cases a with
  | none => cases b with
    | none => rfl
    | some y => simp at p
  | some x => cases b with
    | none => simp at p
    | some y =>
      simp only [Option.map_some, Option.some.injEq, Quiesce.plan, Prod.mk.injEq] at p
      obtain ⟨a, _, _, c, _⟩ := p
      simp only [a, c]

theorem Quiet.windowsOk {s t : State} (h : Quiet s t) (w : s.WindowsOk) : t.WindowsOk := by
  unfold State.WindowsOk
  rw [nextTable_eq h.windows h.plan, h.windows]
  exact w

/-- A quiet operation that keeps the links moves. -/
theorem Quiet.moves {s t : State} (h : Quiet s t) (l : s.LinksOk → t.LinksOk) : Moves s t where
  pending := h.pending
  sqBase := h.sqBase
  cqBase := h.cqBase
  sizes := h.sizes
  writes := h.writes
  frames := h.frames
  links := l
  events := h.events
  windows := h.windowsOk
  accounts := h.accounts

theorem Keeps.moves {s t : State} (h : Keeps s t) : Moves s t := h.quiet.moves fun l => l.of_keeps h

namespace Moves

theorem refl (s : State) : Moves s s := (Keeps.refl s).moves

theorem trans {s t u : State} (h : Moves s t) (g : Moves t u) : Moves s u where
  pending := g.pending.trans h.pending
  sqBase := g.sqBase.trans h.sqBase
  cqBase := g.cqBase.trans h.cqBase
  sizes := g.sizes.trans h.sizes
  writes := by
    obtain ⟨a, ha⟩ := h.writes
    obtain ⟨b, hb⟩ := g.writes
    exact ⟨a ++ b, by rw [hb, ha, List.append_assoc]⟩
  frames := by
    obtain ⟨a, ha⟩ := h.frames
    obtain ⟨b, hb⟩ := g.frames
    exact ⟨a ++ b, by rw [hb, ha, List.append_assoc]⟩
  links := g.links ∘ h.links
  events := g.events ∘ h.events
  windows := g.windows ∘ h.windows
  accounts := g.accounts ∘ h.accounts

theorem foldl {α : Type} (f : State → α → State) (h : ∀ s a, Moves s (f s a)) (l : List α) (s : State) :
    Moves s (l.foldl f s) := by
  induction l generalizing s with
  | nil => exact refl s
  | cons a l ih => exact (h s a).trans (ih (f s a))

/-- A change that leaves links, windows, events and everything handed over as they are. -/
theorem of_rest (s t : State) (hp : t.pending = s.pending) (ha : t.ctl.adminSqBase = s.ctl.adminSqBase)
    (hb : t.ctl.adminCqBase = s.ctl.adminCqBase) (hc : t.ctl.adminSizes = s.ctl.adminSizes) (hsp : t.sp = s.sp)
    (hsu : t.su.issue = s.su.issue) (hw : t.wu = s.wu) (hs : t.hp.writes = s.hp.writes) (hi : t.wire = s.wire)
    (he : t.au.events = s.au.events) (hq : t.qe.qps = s.qe.qps) (ht : t.tt.entries = s.tt.entries)
    (hn : t.tt.inflight = s.tt.inflight) (hr : t.rb.held = s.rb.held)
    (hd : t.ctl.device = .ready → s.ctl.device = .ready) : Moves s t where
  pending := hp
  sqBase := ha
  cqBase := hb
  sizes := hc
  writes := ⟨[], by rw [hs, hi]; simp⟩
  frames := ⟨[], by rw [hi]; simp⟩
  links h k := by
    have a : t.isLogical k = s.isLogical k := by unfold State.isLogical State.headOf; rw [hsp]
    have b : t.spoke k = s.spoke k := by unfold State.spoke; rw [hsp]
    have c : t.issue k = s.issue k := by unfold State.issue; rw [hsu]
    rw [a, b, c]
    exact h k
  events h := ⟨by rw [he]; exact h.size, by rw [he]; exact h.keys, by rw [he]; exact h.counts⟩
  windows h := by
    unfold State.WindowsOk State.nextTable
    rw [hw]
    exact h
  accounts h := h.of_same hq ht hn hr hd

/-- A posted write is handed to the host port behind the ones before. -/
theorem of_writes (s t : State) (l : List HostWrite) (hp : t.pending = s.pending) (ha : t.ctl = s.ctl) (hsp : t.sp = s.sp)
    (hsu : t.su.issue = s.su.issue) (hw : t.wu = s.wu) (hs : t.hp.writes = s.hp.writes ++ l) (hi : t.wire = s.wire)
    (he : t.au.events = s.au.events) (hq : t.qe.qps = s.qe.qps) (ht : t.tt.entries = s.tt.entries)
    (hn : t.tt.inflight = s.tt.inflight) (hr : t.rb.held = s.rb.held) : Moves s t := by
  have h := of_rest s { t with hp.writes := s.hp.writes } hp (by rw [ha]) (by rw [ha]) (by rw [ha]) hsp hsu hw rfl hi he hq
    ht hn hr (by rw [ha]; exact id)
  exact
    { pending := h.pending
      sqBase := h.sqBase
      cqBase := h.cqBase
      sizes := h.sizes
      writes := ⟨l, by rw [hs, hi, List.append_assoc]⟩
      frames := h.frames
      links := h.links
      events := fun e => ⟨by rw [he]; exact e.size, by rw [he]; exact e.keys, by rw [he]; exact e.counts⟩
      windows := h.windows
      accounts := fun a => a.of_same hq ht hn hr (by rw [ha]; exact id) }

/-- A change of queue pair records alone. -/
theorem of_qps (s : State) (x : Vector QueuePair 16) (h : s.AccountsOk → ({ s with qe.qps := x } : State).AccountsOk) :
    Moves s { s with qe.qps := x } :=
  ⟨rfl, rfl, rfl, rfl, ⟨[], by simp⟩, ⟨[], by simp⟩, id, fun e => ⟨e.size, e.keys, e.counts⟩, id, h⟩

end Moves

namespace State

variable (s : State)

/-! ## Primitive updates -/

theorem setQp_moves (n : QpId) (x : QueuePair) (h : s.AccountsOk → (s.setQp n x).AccountsOk) : Moves s (s.setQp n x) :=
  .of_qps s _ h

theorem modQp_moves (n : QpId) (f : QueuePair → QueuePair) (h : s.AccountsOk → (s.modQp n f).AccountsOk) :
    Moves s (s.modQp n f) := .of_qps s _ h

/-- A fetch is no longer outstanding (R143, R144). -/
theorem fetched_moves (n : QpId) : Moves s (s.modQp n fun q => { q with fetching := false }) :=
  modQp_moves s n _ fun h => h.fetching n false fun e => by contradiction

theorem setExecutor_moves (x : Executor) : Moves s (s.setExecutor x) :=
  .of_rest _ _ rfl rfl rfl rfl rfl rfl rfl rfl rfl rfl rfl rfl rfl rfl id

theorem setPlace_moves (p : PlaceId) (x : Place) : Moves s (s.setPlace p x) :=
  .of_rest _ _ rfl rfl rfl rfl rfl rfl rfl rfl rfl rfl rfl rfl rfl rfl id

theorem setRequests_moves (k : ReadKind) (l : List ReadRequest) : Moves s (s.setRequests k l) := by
  cases k <;> exact .of_rest _ _ rfl rfl rfl rfl rfl rfl rfl rfl rfl rfl rfl rfl rfl rfl id

theorem handRead_moves (r : ReadRequest) : Moves s (s.handRead r) := by
  unfold handRead
  split <;> exact .of_rest _ _ rfl rfl rfl rfl rfl rfl rfl rfl rfl rfl rfl rfl rfl rfl id

theorem halt_moves (r : HaltReason) : Moves s (s.halt r) := by
  unfold halt
  split
  · exact .of_rest _ _ rfl rfl rfl rfl rfl rfl rfl rfl rfl rfl rfl rfl rfl rfl (fun e => nomatch e)
  · exact .refl s

theorem endCommand_moves (ops : List Byte) (o : Nat) (st : AdminStatus) (i : Nat) : Moves s (s.endCommand ops o st i) :=
  (endCommand_quiet s ops o st i).moves (endCommand_links s ops o st i)

theorem raise_moves (src : EventSource) (kind : EventKind) (r : EventReason) : Moves s (s.raise src kind r) :=
  (raise_quiet s src kind r).moves (raise_links s src kind r)

theorem failQueue_moves (n : QpId) (r : EventReason) (hn : s.AccountsOk → (s.qp n).state ≠ .empty) :
    Moves s (s.failQueue n r) :=
  (modQp_moves s n _ fun h => h.edit n _ (by simp [hn h]) (fun _ => hn h) rfl rfl rfl (fun _ a b => ⟨a, b⟩)
    fun _ a b => ⟨a, b⟩).trans (raise_moves _ _ _ _)

theorem handMessage_moves (v : VectorId) : Moves s (s.handMessage v) := by
  unfold handMessage
  split
  · exact .of_writes _ _ [.message v] rfl rfl rfl rfl rfl rfl rfl rfl rfl rfl rfl rfl
  · exact .of_rest _ _ rfl rfl rfl rfl rfl rfl rfl rfl rfl rfl rfl rfl rfl rfl id

theorem signal_moves (v : VectorId) : Moves s (s.signal v) := by
  unfold signal
  split
  · exact (Moves.of_rest s { s with qe.arms := s.qe.arms.set v .fired } rfl rfl rfl rfl rfl rfl rfl rfl rfl rfl rfl rfl rfl rfl id).trans
      (handMessage_moves _ v)
  · exact .refl s

/-! ## The transfer table -/

theorem gateRelease_moves (e : EntryId) {t : State} (h : s.gateRelease? e = some t) : Moves s t := by
  unfold gateRelease? at h
  split at h
  · rename_i g
    simp only [Option.some.injEq] at h
    subst h
    simp only [dataGateOpen, Bool.and_eq_true, beq_iff_eq] at g
    exact (modEntry_keeps s e _ rfl (by simp [g.1.1.1]) (Nat.le_refl _)).moves
  · contradiction

/-- A flush request joins the list of an UP spoke. -/
theorem joinFlush_links (k : SpokeId) (e : EntryId) (h : s.LinksOk) (hk : (s.spoke k).state = .up) :
    (s.modSpoke k fun x => { x with flushList := x.flushList ++ [e] }).LinksOk := by
  refine h.of_one (modSpoke_quiet s k _) k (fun j hj => modSpoke_on s k j _ hj) ?_
  rw [modSpoke_spoke_self, modSpoke_issue]
  have b := h k
  exact
    { logical := b.logical
      credits := b.credits
      grant := b.grant
      idle := fun e => absurd hk e
      closed := b.closed
      off := b.off
      up := b.up }

theorem fenceMember_moves (v : Vector Posted 8) (e : EntryId) (k : SpokeId) : Moves s (fenceMember v e s k) := by
  unfold fenceMember
  split
  · exact .refl s
  · exact (modEntry_keeps s e _ rfl Iff.rfl (Nat.le_refl _)).moves
  · split
    · rename_i h
      exact ((modSpoke_quiet s k _).moves fun l => joinFlush_links s k e l h.1).trans
        (modEntry_keeps _ e _ rfl Iff.rfl (Nat.le_refl _)).moves
    · exact (modEntry_keeps s e _ rfl Iff.rfl (Nat.le_refl _)).moves

/-- A fence's treatment of its members leaves its state (R10). -/
theorem fenceMember_state (v : Vector Posted 8) (e : EntryId) (k : SpokeId) :
    ((fenceMember v e s k).entry e).state = (s.entry e).state := by
  unfold fenceMember
  split
  · rfl
  · rw [modEntry_entry_self]
  · split
    · rw [modEntry_entry_self]; rfl
    · rw [modEntry_entry_self]

theorem fenceMembers_state (v : Vector Posted 8) (e : EntryId) (l : List SpokeId) :
    ((l.foldl (fenceMember v e) s).entry e).state = (s.entry e).state := by
  induction l generalizing s with
  | nil => rfl
  | cons k l ih => exact (ih _).trans (fenceMember_state s v e k)

theorem fenceStart_moves (e : EntryId) {t : State} (h : s.fenceStart? e = some t) : Moves s t := by
  unfold fenceStart? at h
  split at h
  · rename_i g
    simp only [Option.some.injEq] at h
    subst h
    simp only [fenceGateOpen, Bool.and_eq_true, beq_iff_eq] at g
    refine (((setPosted_keeps s _ _).moves).trans (.foldl _ (fun t k => fenceMember_moves t _ e k) _ _)).trans
      (modEntry_keeps _ e _ rfl ?_ (Nat.le_refl _)).moves
    rw [fenceMembers_state, setPosted_entry, g.1.1]
    dsimp only
    split <;> simp
  · contradiction

theorem abortEntry_keeps (e : EntryId) : Keeps s (s.abortEntry e) := by
  unfold abortEntry
  split
  · exact .refl s
  · exact .refl s
  · rename_i h
    exact (modEntry_keeps s e _ rfl (by simp [h]) (Nat.le_refl _)).trans (closeEntry_keeps _ e)
  · exact (modEntry_keeps s e _ rfl Iff.rfl (Nat.le_refl _)).trans (closeEntry_keeps _ e)
  · exact freeEntry_keeps s e

theorem abortEntries_keeps (n : QpId) : Keeps s (s.abortEntries n) := .foldl _ (fun t e => abortEntry_keeps t e) _ _

/-- An eligible queue pair is a client, RUNNING, and may hold one more entry (R142). -/
theorem fetchEligible_some {n : QpId} (h : s.fetchEligible n = true) :
    n ≠ 0 ∧ s.qpState n = .running ∧ (s.inflight n).length < (s.qp n).depth := by
  simp only [fetchEligible, Bool.and_eq_true, bne_iff_ne, beq_iff_eq, decide_eq_true_eq] at h
  exact ⟨h.1.1.1.1.1, h.1.1.1.2, h.1.2⟩

theorem fetchIssue_moves {t : State} (h : s.fetchIssue? = some t) : Moves s t := by
  unfold fetchIssue? at h
  split at h
  · rename_i e n he hn
    simp only [Option.some.injEq] at h
    subst h
    obtain ⟨client, running, room⟩ := fetchEligible_some s (firstAfter_holds hn)
    have free : (s.entry e).state = .free := by simpa using firstIndex_holds he
    refine Moves.trans (t := (((s.setEntry _ _).setInflight _ _).modQp _ _).handRead _) ?_
      (Moves.of_rest _ _ rfl rfl rfl rfl rfl rfl rfl rfl rfl rfl rfl rfl rfl rfl id)
    refine Moves.trans ((modQp_moves ((s.setEntry e _).setInflight n _) n _ fun a => ?_) |> Moves.trans ?_) (handRead_moves _ _)
    · exact (Keeps.of_tt s _ fun a => a.take e n { qp := n, subIndex := (s.qp n).fetchIndex, state := .fetching } free client room rfl
        (by simp) rfl).moves
    · refine a.fetching n true fun _ _ => ?_
      exact a.running (n := n) running
  · contradiction

theorem dropFetch_keeps (n : QpId) : Keeps s (s.dropFetch n) := by
  unfold dropFetch
  split
  · exact freeEntry_keeps s _
  · exact .refl s

theorem dropFetch_moves (n : QpId) : Moves s (s.dropFetch n) := (dropFetch_keeps s n).moves

/-- A FETCHING entry is admitted to DONE or GATED (R6, R7). -/
theorem admitted_state (x : Entry) (d : Descriptor) :
    (x.admitted d).state ≠ .free ∧ (x.admitted d).qp = x.qp ∧ (x.admitted d).live = x.live := by
  unfold Entry.admitted
  split
  · exact ⟨by simp, rfl, rfl⟩
  · split <;> exact ⟨by simp, rfl, rfl⟩

theorem admitFetch_moves (n : QpId) (b : List Byte) : Moves s (s.admitFetch n b) := by
  unfold admitFetch
  split
  · rename_i e he
    have g : (s.entry e).state = .fetching := by simpa using List.find?_some he
    obtain ⟨a, b, c⟩ := admitted_state (s.entry e) (decodeDescriptor b)
    exact (modEntry_keeps s e _ b (by simp [g, a]) (Nat.le_of_eq c)).moves
  · exact .refl s

/-- The fetch index passes to the next slot (R143, R156). -/
theorem nextFetch_accounts (n : QpId) (h : s.AccountsOk) (client : n ≠ 0 → (s.qp n).state ≠ .empty) :
    (s.modQp n fun q => { q with fetchIndex := ringNext q.fetchIndex q.sqSize }).AccountsOk :=
  h.edit n _ Iff.rfl client rfl rfl rfl (fun _ a b => ⟨a, ringNext_lt b⟩) fun _ a b => ⟨a, b⟩

/-- A queue pair's state follows its record's and the device's (R138). -/
theorem qpState_congr {s t : State} (n : QpId) (hc : t.ctl.device = s.ctl.device) (hq : (t.qp n).state = (s.qp n).state) :
    t.qpState n = s.qpState n := by
  unfold qpState
  rw [hc, hq]

theorem fetchEnd_moves (n : QpId) (b : Option (List Byte)) : Moves s (s.fetchEnd n b) := by
  have m := fetched_moves s n
  unfold fetchEnd
  dsimp only
  split
  · exact m.trans (dropFetch_moves _ n)
  · rename_i hn
    split
    · refine (m.trans (modQp_moves _ n _ fun h => nextFetch_accounts _ n h fun c e => ?_)).trans (admitFetch_moves _ n _)
      rw [modQp_qp_self] at e
      refine hn (.inr (.inr ?_))
      unfold qpState
      rw [if_neg c]
      exact e
    · split
      · rename_i hr
        refine (m.trans (dropFetch_moves _ n)).trans (failQueue_moves _ n _ fun h => ?_)
        have k := dropFetch_keeps (s.modQp n fun q => { q with fetching := false }) n
        have e := congrArg (fun q : QueueEngine => q.qps[n]) k.qe
        refine h.running ((qpState_congr n (by rw [k.ctl]; rfl) ?_).trans hr)
        refine (congrArg QueuePair.state (e.trans (modQp_qp_self s n _))).trans rfl
      · exact m.trans (dropFetch_moves _ n)

theorem generation_moves {t : State} (h : s.generation? = some t) : Moves s t := by
  unfold generation? at h
  split at h
  · rename_i i e _ he
    simp only [Option.some.injEq] at h
    subst h
    have g : s.candidate e = true := firstAfter_holds he
    simp only [candidate, Bool.and_eq_true, beq_iff_eq, decide_eq_true_eq] at g
    refine Moves.trans (t := s.generate e i) ?_ (requestResolution_keeps _ _).moves
    refine Moves.trans (t := (s.setSeg i _).setEntry e _) ?_
      (.of_rest _ _ rfl rfl rfl rfl rfl rfl rfl rfl rfl rfl rfl rfl rfl rfl id)
    refine Keeps.moves (Keeps.trans (setSeg_keeps s i _) (setEntry_keeps _ e _ fun a => ?_))
    refine a.setEntry e _ rfl ?_ g.2
    show (if _ then EntryState.winding else (s.entry e).state) = _ ↔ (s.entry e).state = _
    rw [g.1]
    split <;> simp
  · contradiction

theorem slotGrant_moves {t : State} (h : s.slotGrant? = some t) : Moves s t := (slotGrant_keeps s h).moves

/-! ## Ends of long commands -/

/-- A window table that is as R25 and R36 give it stays so when the pending change is applied or dropped. -/
theorem windowsOk_of (t : State) (x : WindowTable) (h : TableOk x) (hw : t.wu.windows = x) (hq : t.wu.quiesce = none) :
    t.WindowsOk := by
  unfold WindowsOk nextTable
  rw [hq, hw]
  exact ⟨h, h⟩

/-- A change of the window unit alone. -/
theorem wu_moves (x : WindowUnit) (h : s.WindowsOk → ({ s with wu := x } : State).WindowsOk) : Moves s { s with wu := x } :=
  ⟨rfl, rfl, rfl, rfl, ⟨[], by simp⟩, ⟨[], by simp⟩, id, fun e => ⟨e.size, e.keys, e.counts⟩, h,
    fun h => h.of_same rfl rfl rfl rfl id⟩

theorem windowApply_moves {t : State} (h : s.windowApply? = some t) : Moves s t := by
  unfold windowApply? at h
  split at h
  · rename_i q hq
    split at h
    · simp only [Option.some.injEq] at h
      subst h
      refine ((wu_moves s _ fun w => ?_).trans (releaseHeld_keeps _ _).moves).trans (endCommand_moves _ _ _ _ _)
      refine windowsOk_of _ s.nextTable w.2 ?_ rfl
      unfold nextTable
      rw [hq]
    · contradiction
  · contradiction

theorem invalidationEnd_moves {t : State} (h : s.invalidationEnd? = some t) : Moves s t := by
  unfold invalidationEnd? at h
  split at h
  · split at h
    · simp only [Option.some.injEq] at h
      subst h
      exact (Moves.of_rest s { s with tu.invalidation := none } rfl rfl rfl rfl rfl rfl rfl rfl rfl rfl rfl rfl rfl rfl id).trans
        (endCommand_moves _ _ _ _ _)
    · contradiction
  · contradiction

theorem deleteEnd_moves (n : QpId) {t : State} (h : s.deleteEnd? n = some t) : Moves s t := by
  unfold deleteEnd? at h
  split at h
  · rename_i g
    simp only [Option.some.injEq] at h
    subst h
    refine ((setQp_moves s n _ fun a => ?_).trans (setPosted_keeps _ n _).moves).trans (endCommand_moves _ _ _ _ _)
    refine a.setQp n {} .reset (fun _ _ => rfl) (fun e => absurd e g.1) fun _ => ?_
    rw [g.2.2.2.1]
    exact Nat.zero_le _
  · contradiction

/-! ## settle -/

/-- One internal step moves. -/
theorem internal_moves (i : Internal) {t : State} (h : s.internal? i = some t) : Moves s t := by
  cases i with
  | windowChangeApply => exact windowApply_moves s h
  | slotGrant => exact slotGrant_moves s h
  | gateRelease e => exact gateRelease_moves s e h
  | fenceStart e => exact fenceStart_moves s e h
  | flushSend k => exact (sendFlush_quiet s k h).moves (sendFlush_links s k h)
  | requestSend k => exact (sendRequest_quiet s k h).moves (sendRequest_links s k h)
  | drainComplete k => exact (drainEnd_quiet s k h).moves (drainEnd_links s k h)
  | invalidationComplete => exact invalidationEnd_moves s h
  | queueDeleteComplete n => exact deleteEnd_moves s n h

/-- The next internal step is one of the internal steps. -/
theorem nextInternal_some {t : State} (h : s.nextInternal = some t) : ∃ i, s.internal? i = some t := by
  unfold nextInternal at h
  obtain ⟨_, i, _, _, e, _⟩ := List.findSome?_eq_some_iff.mp h
  exact ⟨i, e⟩

theorem settleFor_moves (n : Nat) : Moves s (settleFor n s) := by
  induction n generalizing s with
  | zero => exact .refl s
  | succ n ih =>
    unfold settleFor
    split
    · rename_i t h
      obtain ⟨i, hi⟩ := nextInternal_some s h
      exact (internal_moves s i hi).trans (ih t)
    · exact .refl s

theorem settle_moves : Moves s s.settle := settleFor_moves s _

/-- An internal step changes no bundle layout. -/
theorem internal_layouts (i : Internal) {t : State} (h : s.internal? i = some t) : t.sp.low = s.sp.low ∧ t.sp.high = s.sp.high := by
  have of_quiet : ∀ u : State, Quiet u t → u.sp = s.sp → t.sp.low = s.sp.low ∧ t.sp.high = s.sp.high :=
    fun u q e => ⟨by rw [q.low, e], by rw [q.high, e]⟩
  cases i with
  | windowChangeApply =>
    simp only [internal?, windowApply?] at h
    split at h
    · split at h
      · simp only [Option.some.injEq] at h
        subst h
        exact of_quiet _ ((releaseHeld_keeps _ _).quiet.trans (endCommand_quiet _ _ _ _ _)) rfl
      · contradiction
    · contradiction
  | slotGrant =>
    exact of_quiet _ (slotGrant_keeps s h).quiet rfl
  | gateRelease e =>
    simp only [internal?, gateRelease?] at h
    split at h
    · simp only [Option.some.injEq] at h
      subst h
      exact ⟨rfl, rfl⟩
    · contradiction
  | fenceStart e =>
    simp only [internal?, fenceStart?] at h
    split at h
    · simp only [Option.some.injEq] at h
      subst h
      have f : ∀ (v : Vector Posted 8) (l : List SpokeId) (t : State),
          (l.foldl (fenceMember v e) t).sp.low = t.sp.low ∧ (l.foldl (fenceMember v e) t).sp.high = t.sp.high := by
        intro v l
        induction l with
        | nil => exact fun t => ⟨rfl, rfl⟩
        | cons a l ih =>
          intro t
          have m : (fenceMember v e t a).sp.low = t.sp.low ∧ (fenceMember v e t a).sp.high = t.sp.high := by
            unfold fenceMember
            split
            · exact ⟨rfl, rfl⟩
            · exact ⟨rfl, rfl⟩
            · split <;> exact ⟨rfl, rfl⟩
          exact ⟨(ih _).1.trans m.1, (ih _).2.trans m.2⟩
      exact f _ _ _
    · contradiction
  | flushSend k => exact of_quiet s (sendFlush_quiet s k h) rfl
  | requestSend k => exact of_quiet s (sendRequest_quiet s k h) rfl
  | drainComplete k => exact of_quiet s (drainEnd_quiet s k h) rfl
  | invalidationComplete =>
    simp only [internal?, invalidationEnd?] at h
    split at h
    · split at h
      · simp only [Option.some.injEq] at h
        subst h
        exact of_quiet _ (endCommand_quiet _ _ _ _ _) rfl
      · contradiction
    · contradiction
  | queueDeleteComplete n =>
    simp only [internal?, deleteEnd?] at h
    split at h
    · simp only [Option.some.injEq] at h
      subst h
      exact of_quiet _ (endCommand_quiet _ _ _ _ _) rfl
    · contradiction

/-- What a command brings about changes no bundle layout: the logical spokes stay. -/
theorem settle_layouts : s.settle.sp.low = s.sp.low ∧ s.settle.sp.high = s.sp.high := by
  unfold settle
  generalize Config.settleBound = n
  induction n generalizing s with
  | zero => exact ⟨rfl, rfl⟩
  | succ n ih =>
    unfold settleFor
    split
    · rename_i t h
      obtain ⟨i, hi⟩ := nextInternal_some s h
      have a := internal_layouts s i hi
      exact ⟨(ih t).1.trans a.1, (ih t).2.trans a.2⟩
    · exact ⟨rfl, rfl⟩

/-- Nothing is left to do in a settled state. -/
theorem settle_of_settled (h : s.settled = true) : s.settle = s := by
  unfold settle
  show settleFor (1023 + 1) s = s
  unfold settleFor
  unfold settled at h
  rw [Option.isNone_iff_eq_none.mp h]

/-! ## Records of the completion writer -/

/-- A ring with space has its records (R146). -/
theorem ringSpace_live {n : QpId} (h : s.ringSpace n = true) (a : s.AccountsOk) (hn : n ≠ 0) : (s.qp n).state ≠ .empty := by
  intro e
  simp only [ringSpace, decide_eq_true_eq] at h
  rw [a.empty n hn e] at h
  simp at h

theorem advanceWrite_moves (n : QpId) (h : s.ringSpace n = true) : Moves s (s.advanceWrite n) :=
  modQp_moves s n _ fun a => a.edit n _ Iff.rfl (ringSpace_live s h a) rfl rfl rfl (fun _ a b => ⟨a, b⟩) fun _ a b =>
    ⟨ringNext_lt a, b⟩

theorem writeRecord_moves (n : QpId) (src : WriteSource) (b : List Byte) (q : Bool) (r : s.ringSpace n = true) :
    Moves s (s.writeRecord n src b q) := by
  unfold writeRecord
  dsimp only
  have h := (takeWrite_keeps s (.memory src ((s.qp n).cqBase + 16 * (s.qp n).writeIndex) b)).moves.trans
    (advanceWrite_moves _ n r)
  split
  · exact h.trans (signal_moves _ _)
  · exact h

theorem post_moves (n : QpId) {t : State} (h : s.post? n = some t) : Moves s t := by
  unfold post? at h
  split at h
  · contradiction
  · split at h
    · rename_i g
      simp only [Option.some.injEq] at h
      subst h
      exact (writeRecord_moves s _ _ _ _ g.2.2.2.2).trans (freeEntry_keeps _ _).moves
    · contradiction

theorem adminCompletion_moves {t : State} (h : s.adminCompletion? = some t) : Moves s t := by
  unfold adminCompletion? at h
  split at h
  · split at h
    · rename_i g
      simp only [Option.some.injEq] at h
      subst h
      exact (writeRecord_moves s _ _ _ _ g.2).trans (setExecutor_moves _ _)
    · contradiction
  · contradiction

/-! ## The host port -/

theorem startRead_moves (p : PlaceId) (r : ReadRequest) : Moves s (s.startRead p r) := setPlace_moves s p _

theorem readIssue_moves {t : State} (h : s.readIssue? = some t) : Moves s t := by
  unfold readIssue? at h
  split at h
  · split at h
    · simp only [Option.some.injEq] at h
      subst h
      rename_i p k _ _ _ r rest _
      exact Moves.trans (t := (s.setRequests k rest).startRead p r) ((setRequests_moves s _ _).trans (startRead_moves _ _ _))
        (.of_rest _ _ rfl rfl rfl rfl rfl rfl rfl rfl rfl rfl rfl rfl rfl rfl id)
    · contradiction
  · contradiction

theorem placeRead_moves (p : PlaceId) (r : ReadInFlight) (n : Nat) (b : List Byte) : Moves s (s.placeRead p r n b) := by
  unfold placeRead
  split
  · exact (fillSlot_keeps s _ _ _).moves.trans (setPlace_moves _ _ _)
  · exact setPlace_moves s _ _

theorem clearPlace_moves (p : PlaceId) : Moves s (s.clearPlace p) := setPlace_moves s p _

theorem sendWrite_moves {t : State} (h : s.sendWrite? = some t) : Moves s t := by
  unfold sendWrite? at h
  split at h
  · rename_i w rest e
    simp only [Option.some.injEq] at h
    subst h
    refine ⟨rfl, rfl, rfl, rfl, ⟨[], ?_⟩, ⟨[], by simp⟩, id, fun e => ⟨e.size, e.keys, e.counts⟩, id,
      fun h => h.of_same rfl rfl rfl rfl id⟩
    rw [e]
    simp
  · contradiction

theorem walkStart_moves {t : State} (h : s.walkStart? = some t) : Moves s t := by
  unfold walkStart? at h
  split at h
  · simp only [Option.some.injEq] at h
    subst h
    exact (serveWalkWait_keeps s).moves
  · contradiction

/-- An event record is written: the oldest event leaves the list, which stays within its bounds (R165, R167). -/
theorem eventWrite_moves {t : State} (h : s.eventWrite? = some t) : Moves s t := by
  unfold eventWrite? at h
  split at h
  · contradiction
  · contradiction
  · rename_i e rest he _
    split at h
    · rename_i r
      simp only [Option.some.injEq] at h
      subst h
      have w := writeRecord_moves s 0 .adminRecord (eventRecord e s.au.overflow (s.qp 0).lap (s.qp 0).fetchIndex) true r.2
      have a : (s.writeRecord 0 .adminRecord (eventRecord e s.au.overflow (s.qp 0).lap (s.qp 0).fetchIndex) true).au = s.au := by
        unfold writeRecord signal handMessage
        dsimp only
        repeat' split
        all_goals rfl
      exact
        { pending := w.pending
          sqBase := w.sqBase
          cqBase := w.cqBase
          sizes := w.sizes
          writes := w.writes
          frames := w.frames
          links := w.links
          events := fun g => by
            have hs := g.size
            have hk := g.keys
            have hc := g.counts
            rw [he] at hs hk hc
            exact ⟨by simp only [List.length_cons] at hs; show rest.length ≤ _; omega, (List.pairwise_cons.mp hk).2,
              fun x hx => hc x (List.mem_cons_of_mem e hx)⟩
          windows := w.windows
          accounts := fun a => (w.accounts a).of_same rfl rfl rfl rfl id }
    · contradiction

theorem commandFetch_moves {t : State} (h : s.commandFetch? = some t) : Moves s t := by
  unfold commandFetch? at h
  split at h
  · simp only [Option.some.injEq] at h
    subst h
    exact ((setExecutor_moves s _).trans (modQp_moves _ 0 _ fun a => a.fetching 0 true fun _ e => absurd rfl e)).trans
      (handRead_moves _ _)
  · contradiction

end State

end Sys2Proof.Machine
end

