-- ==== Sys2Proof/Laws/Commands.lean ====
section
/-! SUPPORT. What the administration commands do to the state as a whole: each accepted command moves it (Laws/Moves.lean),
and so do the ends of host reads, which bring the commands, and the start of STOPPING. -/

namespace Sys2Proof.Machine

/-! ## The window table (R36) -/

/-- A size that R25 allows is a power of two of at most 2^47. -/
theorem windowSizeOk_pow {id : WindowId} {n : Nat} (h : windowSizeOk id n = true) : ∃ k, k ≤ 47 ∧ n = 2 ^ k := by
  unfold windowSizeOk at h
  simp only [List.any_eq_true, List.mem_range'_1, beq_iff_eq] at h
  obtain ⟨k, ⟨_, hk⟩, rfl⟩ := h
  refine ⟨k, ?_, rfl⟩
  split at hk <;> omega

/-- A multiple of a power of two that lies below 2^48 leaves room for one more of it. -/
theorem pow_room {k a : Nat} (hk : k ≤ 47) (ha : a < 2 ^ 48) (hm : a % 2 ^ k = 0) : a + 2 ^ k ≤ 2 ^ 48 := by
  obtain ⟨m, rfl⟩ := Nat.dvd_of_mod_eq_zero hm
  have e : 2 ^ 48 = 2 ^ k * 2 ^ (48 - k) := by rw [← Nat.pow_add]; congr 1; omega
  rw [e] at ha ⊢
  have : m < 2 ^ (48 - k) := Nat.lt_of_mul_lt_mul_left ha
  calc 2 ^ k * m + 2 ^ k = 2 ^ k * (m + 1) := by rw [Nat.mul_add, Nat.mul_one]
    _ ≤ 2 ^ k * 2 ^ (48 - k) := Nat.mul_le_mul_left _ this

/-- The record a SET_WINDOW that passes its parameter check carries is well formed (R25, R36). -/
theorem windowContents_formed (s : State) (p : SetWindow) (h : s.badParameter (.setWindow p) = false) :
    (windowContents p).formed (Fin.ofNat 8 p.window.toNat) := by
  intro _
  simp only [State.badParameter, Bool.not_eq_false', Bool.and_eq_true, decide_eq_true_eq] at h
  obtain ⟨⟨⟨⟨⟨_, hs⟩, hb⟩, _⟩, _⟩, _⟩ := h
  refine ⟨hs, hb, ?_⟩
  obtain ⟨k, hk, e⟩ := windowSizeOk_pow hs
  show p.base.toNat + p.size.toNat ≤ 2 ^ 48
  rw [e] at hb ⊢
  exact pow_room hk p.base.isLt hb

/-- A table stays as R25 and R36 give it when one record takes contents that are well formed and, if enabled, apart from
every other enabled window of its class. -/
theorem TableOk.set {t : WindowTable} (h : TableOk t) (w : WindowId) (x : Window) (hf : x.formed w)
    (ha : x.enabled = true → ∀ o : WindowId, o ≠ w → striped o = striped w → t[o].enabled = true → t[o].apart x) :
    TableOk (t.set w x) := by
  have g : ∀ o : WindowId, (t.set w x)[o] = if o = w then x else t[o] := fun o => by
    simp only [Fin.getElem_fin, Vector.getElem_set, Fin.ext_iff, eq_comm]
  constructor
  · intro o
    rw [g]
    split
    · rename_i e; rw [e]; exact hf
    · exact h.formed o
  · intro a b hab hs hea heb
    rw [g] at hea ⊢
    rw [g] at heb ⊢
    by_cases e1 : a = w
    · have e2 : b ≠ w := fun e2 => hab (e1.trans e2.symm)
      rw [if_pos e1] at hea ⊢
      rw [if_neg e2] at heb ⊢
      exact (ha hea b e2 (by rw [← hs, e1]) heb).symm
    · rw [if_neg e1] at hea ⊢
      by_cases e2 : b = w
      · rw [if_pos e2] at heb ⊢
        exact ha heb a e1 (by rw [hs, e2]) hea
      · rw [if_neg e2] at heb ⊢
        exact h.apart a b hab hs hea heb

/-- A SET_WINDOW that passes the OVERLAP check carries a range apart from the others of its class (R36). -/
theorem overlaps_apart {t : WindowTable} {w : WindowId} {base size : Nat} (h : overlaps t w base size = false) (o : WindowId)
    (ho : o ≠ w) (hs : striped o = striped w) (he : t[o].enabled = true) :
    t[o].base + t[o].size ≤ base ∨ base + size ≤ t[o].base := by
  unfold overlaps at h
  rw [List.any_eq_false] at h
  have h := h o (List.mem_finRange o)
  have hr : t[o].range = some { base := t[o].base, size := t[o].size } := by unfold Window.range; rw [if_pos he]
  rw [hr] at h
  by_contra hn
  apply h
  simp only [Range.meets, Bool.and_eq_true, bne_iff_ne, ne_eq, beq_iff_eq, decide_eq_true_eq]
  exact ⟨⟨ho, hs⟩, by omega, by omega⟩

namespace State

variable (s : State)

theorem await_moves (c : HeldCommand) : Moves s (s.await c) := setExecutor_moves s _

theorem finish_moves (c : HeldCommand) (i : Nat) : Moves s (s.finish c i) := setExecutor_moves s _

theorem acceptWindow_moves (w : WindowId) (x : Window) (c : HeldCommand)
    (h : s.WindowsOk → TableOk (s.wu.windows.set w x)) : Moves s (s.acceptWindow w x c) := by
  unfold acceptWindow
  dsimp only
  refine (await_moves s c).trans (wu_moves (s.await c) _ fun hw => ?_)
  exact ⟨hw.1, h hw⟩

theorem acceptSetWindow_moves (p : SetWindow) (c : HeldCommand) (hb : s.badParameter (.setWindow p) = false)
    (ho : s.overlapping (.setWindow p) = false) :
    Moves s (s.acceptWindow (Fin.ofNat 8 p.window.toNat) (windowContents p) c) :=
  acceptWindow_moves s _ _ c fun hw => hw.1.set _ _ (windowContents_formed s p hb) fun _ o h1 h2 h3 =>
    overlaps_apart ho o h1 h2 h3

theorem acceptClearWindow_moves (w : WindowId) (c : HeldCommand) : Moves s (s.acceptWindow w {} c) :=
  acceptWindow_moves s _ _ c fun hw => hw.1.set _ _ (fun e => by simp at e) fun e => by simp at e

/-! ## Commands on the other blocks -/

theorem ofNat_client {b : Byte} (h : 1 ≤ b.toNat) (l : b.toNat ≤ 15) : (Fin.ofNat 16 b.toNat : QpId) ≠ 0 := by
  intro e
  have := congrArg Fin.val e
  simp only [Fin.ofNat, Fin.val_zero] at this
  omega

/-- A queue pair that CREATE_QUEUE makes was EMPTY, and its record is as R137 gives it (R151). -/
theorem acceptCreateQueue_moves (p : CreateQueue) (c : HeldCommand) (hb : s.badParameter (.createQueue p) = false)
    (hu : s.inUse (.createQueue p) = false) : Moves s (s.acceptCreateQueue p c) := by
  simp only [badParameter, ringOk, Bool.not_eq_false', Bool.and_eq_true, decide_eq_true_eq] at hb
  obtain ⟨⟨⟨⟨⟨⟨⟨⟨h1, h15⟩, ⟨⟨sq, _⟩, _⟩⟩, ⟨⟨cq, _⟩, _⟩⟩, _⟩, _⟩, _⟩, depth⟩, _⟩ := hb
  simp only [inUse, bne_eq_false_iff_eq] at hu
  have hn := ofNat_client h1 h15
  refine ((setQp_moves s _ _ fun h => ?_).trans (setPosted_keeps _ _ _).moves).trans (finish_moves _ _ _)
  have sp := (ringSizeOk_size sq).pos
  have cp := (ringSizeOk_size cq).pos
  refine h.setQp _ _ (.of_sizes (fun _ => ⟨ringSizeOk_size sq, ringSizeOk_size cq⟩) (fun _ => ⟨sp, sp⟩) (fun _ => ⟨cp, cp⟩) depth)
    (fun _ e => by simp at e) (fun e => absurd e hn) fun _ => ?_
  have := h.depth _ hn
  rw [h.empty _ hn hu] at this
  exact Nat.le_trans this (Nat.zero_le _)

/-- A queue pair that is deleted was RUNNING or FAILED (R152). -/
theorem acceptDeleteQueue_moves (p : DeleteQueue) (c : HeldCommand) (hw : s.wrongState (.deleteQueue p) = false) :
    Moves s (s.acceptDeleteQueue p c) := by
  let n : QpId := Fin.ofNat 16 p.qp.toNat
  have live : (s.qp n).state ≠ .empty := by
    intro e
    simp only [wrongState] at hw
    have e' : (s.qp (Fin.ofNat 16 p.qp.toNat)).state = .empty := e
    rw [e'] at hw
    contradiction
  have m (st : QpState) (hs : st ≠ .empty) : Moves (s.await c) ((s.await c).modQp n fun q => { q with state := st }) :=
    modQp_moves _ n _ fun h => h.edit n _ (by
      show st = .empty ↔ (s.qp n).state = .empty
      simp [hs, live]) (fun _ => live) rfl rfl rfl (fun _ a b => ⟨a, b⟩) fun _ a b => ⟨a, b⟩
  unfold acceptDeleteQueue
  dsimp only
  split
  · exact (await_moves s c).trans (m .draining (by simp))
  · exact ((await_moves s c).trans (m .aborting (by simp))).trans (abortEntries_keeps _ _).moves

theorem changeContext_moves (n : ContextId) (x : Context) (c : HeldCommand) : Moves s (s.changeContext n x c) := by
  unfold changeContext
  refine Moves.trans (t := ({ s with tu.contexts := s.tu.contexts.set n x } : State).dropCache fun key => key.context == n)
    ?_ (finish_moves _ _ _)
  exact .of_rest _ _ rfl rfl rfl rfl rfl rfl rfl rfl rfl rfl rfl rfl rfl rfl id

theorem acceptInvalidation_moves (covers : Key → Bool) (c : HeldCommand) : Moves s (s.acceptInvalidation covers c) :=
  .of_rest _ _ rfl rfl rfl rfl rfl rfl rfl rfl rfl rfl rfl rfl rfl rfl id

/-- The records of the named half are cleared and the others stay (R99). -/
theorem clearHalf_getElem (v : Vector Spoke 8) (h : Nat) (k : SpokeId) :
    (clearHalf v h)[k] = if k.val / 4 = h then {} else v[k] := by
  have a : ∀ (l : List SpokeId) (v : Vector Spoke 8),
      (l.foldl (fun v (k : SpokeId) => if k.val / 4 = h then v.set k {} else v) v)[k] =
        if k ∈ l ∧ k.val / 4 = h then {} else v[k] := by
    intro l
    induction l with
    | nil => intro v; simp
    | cons j l ih =>
      intro v
      rw [List.foldl_cons, ih]
      by_cases e : k = j
      · subst e
        by_cases hk : k.val / 4 = h
        · simp [hk]
        · simp [hk]
      · by_cases hj : j.val / 4 = h
        · rw [if_pos hj]
          have : (v.set j {})[k] = v[k] := by
            simp only [Fin.getElem_fin, Vector.getElem_set]
            rw [if_neg (fun q => e (Fin.ext q.symm))]
          rw [this]
          simp [e]
        · rw [if_neg hj]
          simp [e]
  unfold clearHalf
  rw [a]
  simp

/-- The logical spokes of a half depend on its layout alone (R97). -/
theorem logicalSpoke_half (l1 h1 l2 h2 : Layout) (k : SpokeId) (hk : k.val < 4 → l1 = l2) (hk' : ¬ k.val < 4 → h1 = h2) :
    logicalSpoke l1 h1 k = logicalSpoke l2 h2 k := by
  unfold logicalSpoke
  split
  · rename_i e; rw [hk e]
  · rename_i e; rw [hk' e]

theorem acceptSetBundle_moves (h l : Byte) (c : HeldCommand) (hb : s.badParameter (.setBundle h l) = false)
    (hw : s.wrongState (.setBundle h l) = false) : Moves s (s.acceptSetBundle h.toNat l.toNat c) := by
  simp only [badParameter, Bool.not_eq_false', Bool.and_eq_true, decide_eq_true_eq] at hb
  have e : ∀ k : SpokeId, (s.acceptSetBundle h.toNat l.toNat c).spoke k = if k.val / 4 = h.toNat then {} else s.spoke k := by
    intro k
    show (clearHalf s.sp.spokes h.toNat)[k] = _
    exact clearHalf_getElem _ _ _
  have i : ∀ k : SpokeId, (s.acceptSetBundle h.toNat l.toNat c).issue k = s.issue k := by
    intro k
    unfold acceptSetBundle
    dsimp only
    split <;> rfl
  have links : s.LinksOk → (s.acceptSetBundle h.toNat l.toNat c).LinksOk := by
    intro hl k
    rw [e, i]
    by_cases hk : k.val / 4 = h.toNat
    · rw [if_pos hk]
      have off : (s.spoke k).state = .off := by
        cases el : s.isLogical k with
        | false => exact (hl k).logical el
        | true =>
          simp only [wrongState] at hw
          rw [List.any_eq_false] at hw
          have := hw k (List.mem_finRange k)
          simpa [hk, el] using this
      obtain ⟨_, a, _⟩ := (hl k).idle (by rw [off]; simp)
      rw [a]
      exact
        { logical := fun _ => rfl
          credits := Nat.le_refl _
          grant := by simp
          idle := fun _ => ⟨rfl, rfl, rfl⟩
          closed := fun _ g => by simp
          off := fun _ => ⟨rfl, rfl⟩
          up := fun q => by simp at q }
    · rw [if_neg hk]
      have el : (s.acceptSetBundle h.toNat l.toNat c).isLogical k = s.isLogical k := by
        unfold isLogical headOf
        congr 1
        apply logicalSpoke_half
        · intro q
          show (s.acceptSetBundle h.toNat l.toNat c).sp.low = _
          unfold acceptSetBundle
          dsimp only
          rw [if_neg (by omega)]
          rfl
        · intro q
          show (s.acceptSetBundle h.toNat l.toNat c).sp.high = _
          unfold acceptSetBundle
          dsimp only
          rw [if_pos (by omega)]
          rfl
      rw [el]
      exact hl k
  refine ⟨?_, ?_, ?_, ?_, ?_, ?_, links, ?_, ?_, ?_⟩
  all_goals (unfold acceptSetBundle; dsimp only; split)
  all_goals first
    | rfl
    | exact ⟨[], by simp [finish]⟩
    | exact fun g => ⟨g.size, g.keys, g.counts⟩
    | exact fun g => g.of_same rfl rfl rfl rfl id
    | exact id

theorem namesSpoke_logical {b : Byte} (h : s.namesSpoke b = true) : s.isLogical (Fin.ofNat 8 b.toNat) = true := by
  simp only [namesSpoke, Bool.and_eq_true] at h
  exact h.2

theorem acceptSpokeStart_moves (p : SpokeStart) (c : HeldCommand) (hb : s.badParameter (.spokeStart p) = false)
    (hw : s.wrongState (.spokeStart p) = false) : Moves s (s.acceptSpokeStart p c) := by
  simp only [badParameter, Bool.not_eq_false', Bool.and_eq_true, decide_eq_true_eq] at hb
  simp only [wrongState, bne_eq_false_iff_eq] at hw
  have hn := namesSpoke_logical s hb.1
  let k : SpokeId := Fin.ofNat 8 p.spoke.toNat
  have m : Moves s (s.modSpoke k fun x => { x with timeout := p.timeout, linkErrors := 0, drainTimeouts := 0 }) :=
    (modSpoke_quiet s k _).moves fun h => modSpoke_counts_links s k _ h ⟨rfl, rfl, rfl, rfl, rfl⟩ (.inl rfl)
  unfold acceptSpokeStart
  dsimp only
  split
  · refine (m.trans (await_moves _ c)).trans ((startAttempt_quiet _ k 1).moves fun h => startAttempt_links _ k 1 h ?_ (.inl ?_))
    · exact hn
    · have e (t : State) (f : Spoke → Spoke) : ((t.modSpoke k f).await c).spoke k = f (t.spoke k) := modSpoke_spoke_self t k f
      rw [e]
      exact hw
  · exact m.trans (setExecutor_moves _ _)

theorem acceptSpokeStop_moves (k : Byte) (c : HeldCommand) (hw : s.wrongState (.spokeStop k) = false) :
    Moves s (s.acceptSpokeStop (Fin.ofNat 8 k.toNat) c) := by
  simp only [wrongState, bne_eq_false_iff_eq] at hw
  refine (await_moves s c).trans (Quiet.moves ((modSpoke_quiet _ _ _).trans (failWaiting_quiet _ _ _)) fun h => ?_)
  let j : SpokeId := Fin.ofNat 8 k.toNat
  have up : ((s.await c).spoke j).state = .up := hw
  let s1 := (s.await c).modSpoke j fun x => { x with state := .draining, credits := 0, drainTimeouts := 0 }
  have e1 : s1.spoke j = { (s.await c).spoke j with state := .draining, credits := 0, drainTimeouts := 0 } :=
    modSpoke_spoke_self _ _ _
  refine h.of_one ((modSpoke_quiet _ j _).trans (failWaiting_quiet s1 j .spokeUnavailable)) j
    (fun i hi => (modSpoke_on _ j i _ hi).trans (failWaiting_on s1 j i _ hi)) ?_
  obtain ⟨a, _, b, d⟩ := failWaiting_here s1 j .spokeUnavailable (by rw [e1]; simp)
  rw [e1] at a
  refine linkOk_of_ended (h.isLogical (by rw [up]; simp)) (.inr ?_) ?_ ?_ d b
  · exact congrArg (·.1) a
  · exact congrArg (·.2.2.2.1) a
  · have : ((s1.failWaiting j .spokeUnavailable).spoke j).grant = ((s.await c).spoke j).grant := congrArg (·.2.2.1) a
    exact this ▸ (h j).grant

theorem startReset_moves (k : SpokeId) (h : (s.spoke k).state ≠ .off) : Moves s (s.startReset k) :=
  (startReset_quiet s k).moves fun l => startReset_links s k l h

theorem acceptQuery_moves (p : Query) (c : HeldCommand) : Moves s (s.acceptQuery p c) :=
  (takeWrite_keeps s _).moves.trans (finish_moves _ _ _)

/-- A command that passes its checks moves the state when it is accepted (R157). -/
theorem accept_moves (cmd : AdminCommand) (c : HeldCommand) (hc : s.checkCommand cmd false = none) :
    Moves s (s.accept cmd c) := by
  unfold checkCommand at hc
  simp only [Bool.false_eq_true, if_false] at hc
  split at hc
  · contradiction
  rename_i hb
  split at hc
  · contradiction
  rename_i hu
  split at hc
  · contradiction
  rename_i hw
  split at hc
  · contradiction
  rename_i ho
  simp only [Bool.not_eq_true] at hb hu hw ho
  cases cmd with
  | createQueue p => exact acceptCreateQueue_moves s p c hb hu
  | deleteQueue p => exact acceptDeleteQueue_moves s p c hw
  | setContext p => exact changeContext_moves s _ _ c
  | clearContext n => exact changeContext_moves s _ _ c
  | invalidatePages p => exact acceptInvalidation_moves s _ c
  | invalidateContext n => exact acceptInvalidation_moves s _ c
  | setWindow p => exact acceptSetWindow_moves s p c hb ho
  | clearWindow w => exact acceptClearWindow_moves s _ c
  | setBundle h l => exact acceptSetBundle_moves s h l c hb hw
  | spokeStart p => exact acceptSpokeStart_moves s p c hb hw
  | spokeStop k => exact acceptSpokeStop_moves s k c hw
  | spokeReset k =>
    refine (await_moves s c).trans (startReset_moves _ _ ?_)
    simp only [wrongState, Bool.not_eq_false'] at hw
    intro e
    have e' : (s.spoke (Fin.ofNat 8 k.toNat)).state = .off := e
    rw [e'] at hw
    contradiction
  | query p => exact acceptQuery_moves s p c

theorem takeCommand_moves (r : CommandRecord) (n : Nat) : Moves s (s.takeCommand r n) := by
  unfold takeCommand
  split
  · exact setExecutor_moves s _
  · dsimp only
    split
    · exact setExecutor_moves s _
    · rename_i cmd _ _ h
      refine accept_moves s cmd _ ?_
      cases e : r.head.reserved with
      | false => rw [e] at h; exact h
      | true => rw [e] at h; simp [checkCommand] at h

theorem commandEnd_moves (r : Option CommandRecord) : Moves s (s.commandEnd r) := by
  unfold commandEnd
  dsimp only
  split
  · exact ((fetched_moves s 0).trans (modQp_moves _ 0 _ fun h => nextFetch_accounts _ 0 h fun e => absurd rfl e)).trans
      (takeCommand_moves _ _ _)
  · exact ((fetched_moves s 0).trans (setExecutor_moves _ _)).trans (halt_moves _ _)
  · exact (fetched_moves s 0).trans (setExecutor_moves _ _)

/-! ## The ends of host reads -/

theorem readEnd_moves (r : ReadInFlight) (ok : Bool) : Moves s (s.readEnd r ok) := by
  unfold readEnd
  split
  · exact fetchEnd_moves s _ _
  · exact commandEnd_moves s _
  · exact (walkEnd_keeps s _ _).moves
  · exact (dataReadEnd_keeps s _ _).moves

theorem readCompletion_moves (ident : BitVec 8) (ok : Bool) (n : Nat) (b : List Byte) : Moves s (s.readCompletion ident ok n b) := by
  unfold readCompletion
  split
  · exact .refl s
  · split
    · dsimp only
      split
      · split
        · exact ((placeRead_moves s _ _ _ _).trans (clearPlace_moves _ _)).trans (readEnd_moves _ _ _)
        · exact placeRead_moves s _ _ _ _
      · exact placeRead_moves s _ _ _ _
    · exact (clearPlace_moves s _).trans (readEnd_moves _ _ _)

theorem readTimeout_moves (p : PlaceId) : Moves s (s.readTimeout p) := by
  unfold readTimeout
  split
  · exact (clearPlace_moves s p).trans (readEnd_moves _ _ _)
  · exact .refl s

/-- The delivery of a command moves the state (R156, R157). -/
theorem deliver_moves (head : CommandHead) (c : AdminCommand) : Moves s (s.deliver head c) := by
  unfold deliver
  split
  · exact (clearPlace_moves s _).trans (commandEnd_moves _ _)
  · exact .refl s

/-! ## The start of STOPPING (R178) -/

theorem withdrawFetch_moves (r : ReadRequest) : Moves s (s.withdrawFetch r) := by
  unfold withdrawFetch
  split
  · exact (fetched_moves s _).trans (dropFetch_moves _ _)
  · exact (fetched_moves s 0).trans (setExecutor_moves _ _)
  · exact .refl s

theorem abandonCommand_moves : Moves s s.abandonCommand := by
  unfold abandonCommand
  split
  · exact setExecutor_moves s _
  · exact setExecutor_moves s _
  · exact .refl s

theorem abandonWindow_moves : Moves s s.abandonWindow := by
  unfold abandonWindow
  split
  · refine Moves.trans (t := { s with wu.quiesce := none }) ?_ (releaseHeld_keeps _ _).moves
    exact wu_moves s _ fun w => windowsOk_of _ s.wu.windows w.1 rfl rfl
  · exact .refl s

theorem stopSpoke_moves (k : SpokeId) : Moves s (s.stopSpoke k) := by
  unfold stopSpoke
  split
  · exact .refl s
  · exact .refl s
  · rename_i h _
    exact startReset_moves s k h

theorem withdrawFetches_moves : Moves s s.withdrawFetches :=
  Moves.trans (t := { s with ctl.device := .stopping, hp.fetchList := [] })
    (.of_rest _ _ rfl rfl rfl rfl rfl rfl rfl rfl rfl rfl rfl rfl rfl rfl (fun e => nomatch e)) (.foldl _ (fun t r => withdrawFetch_moves t r) _ _)

theorem abortAll_moves : Moves s s.abortAll := .foldl _ (fun t n => (abortEntries_keeps t n).moves) _ _

theorem abandonInvalidation_moves : Moves s s.abandonInvalidation := .of_rest _ _ rfl rfl rfl rfl rfl rfl rfl rfl rfl rfl rfl rfl rfl rfl id

theorem stopSpokes_moves : Moves s s.stopSpokes := .foldl _ (fun t k => stopSpoke_moves t k) _ _

theorem beginStopping_moves : Moves s s.beginStopping :=
  (((((withdrawFetches_moves s).trans (abortAll_moves _)).trans (abandonCommand_moves _)).trans (abandonWindow_moves _)).trans
    (abandonInvalidation_moves _)).trans (stopSpokes_moves _)

theorem disable_moves : Moves s s.disable := by
  unfold disable
  split
  · exact (beginStopping_moves s).trans (settle_moves _)
  · exact .refl s

end State

end Sys2Proof.Machine
end

