-- ==== Sys2Proof/Laws/Grants.lean ====
section
/-! SUPPORT. What the slot grants after a freeing or a joining can do (R64): they take waiters from the slot wait list until
none can be granted, and touch no other segment, no spoke and no posted write. -/

namespace Sys2Proof.Machine

/-- What the end or the next step of segment i leaves alone: the spoke ports, the posted writes handed over, the slot wait list,
and every other segment record. -/
structure Touches (i : SegId) (s t : State) : Prop where
  sp : t.sp = s.sp
  writes : t.hp.writes = s.hp.writes
  waiting : t.rb.waiting = s.rb.waiting
  seg : ∀ j, j ≠ i → t.seg j = s.seg j

theorem Touches.trans {i : SegId} {s t u : State} (h : Touches i s t) (g : Touches i t u) : Touches i s u :=
  ⟨g.sp.trans h.sp, g.writes.trans h.writes, g.waiting.trans h.waiting, fun j e => (g.seg j e).trans (h.seg j e)⟩

/-- What the grants after a freeing or a joining leave alone: what segments' steps keep, the spoke ports, the posted writes handed
over, and the segments that do not wait; the slot wait list only loses members. -/
structure Grants (s t : State) : Prop where
  keeps : Keeps s t
  sp : t.sp = s.sp
  writes : t.hp.writes = s.hp.writes
  waiting : t.rb.waiting.Sublist s.rb.waiting
  seg : ∀ i, i ∉ s.rb.waiting → t.seg i = s.seg i

theorem Grants.refl (s : State) : Grants s s := ⟨.refl s, rfl, rfl, List.Sublist.refl _, fun _ _ => rfl⟩

theorem Grants.trans {s t u : State} (h : Grants s t) (g : Grants t u) : Grants s u :=
  ⟨h.keeps.trans g.keeps, g.sp.trans h.sp, g.writes.trans h.writes, g.waiting.trans h.waiting, fun i e =>
    (g.seg i fun m => e (h.waiting.subset m)).trans (h.seg i e)⟩

namespace State

variable (s : State) (i : SegId)

/-- The end of an entry's last segment changes the transfer table alone. -/
theorem closeEntry_eq (e : EntryId) : s.closeEntry e = { s with tt := (s.closeEntry e).tt } := by
  unfold closeEntry
  split
  · rename_i h
    split
    · unfold freeEntry
      rw [if_neg (by rw [h.1]; simp)]
      rfl
    · rfl
  · rfl

/-- Retirement, the transfer table apart (R58). -/
theorem retire_eq (how : SegEnd) :
    s.retire i how = { ((s.freeSlot i).setSeg i {}).uncount i with tt := (s.retire i how).tt } := by
  unfold retire
  dsimp only
  cases how with
  | success d k => cases k <;> exact closeEntry_eq _ _
  | failure f => exact closeEntry_eq _ _

theorem modSeg_touches (f : Segment → Segment) : Touches i s (s.modSeg i f) :=
  ⟨rfl, rfl, rfl, fun j h => by rw [modSeg_seg, if_neg h]⟩

theorem setSeg_touches (x : Segment) : Touches i s (s.setSeg i x) :=
  ⟨rfl, rfl, rfl, fun j h => by rw [setSeg_seg, if_neg h]⟩

/-- The kind of a segment is its entry's. -/
theorem modSeg_kind (f : Segment → Segment) (h : (f (s.seg i)).entry = (s.seg i).entry) : (s.modSeg i f).segKind i = s.segKind i := by
  unfold segKind
  rw [modSeg_seg_self, modSeg_entry, h]

theorem freeSlot_touches : Touches i s (s.freeSlot i) := by
  unfold freeSlot
  split
  · exact ⟨rfl, rfl, rfl, fun _ _ => rfl⟩
  · exact ⟨rfl, rfl, rfl, fun j h => by rw [modSeg_seg, if_neg h]; rfl⟩

theorem uncount_touches : Touches i s (s.uncount i) := by
  unfold uncount
  split <;> exact ⟨rfl, rfl, rfl, fun _ _ => rfl⟩

theorem retire_touches (how : SegEnd) : Touches i s (s.retire i how) := by
  have h := ((freeSlot_touches s i).trans (setSeg_touches _ i {})).trans (uncount_touches _ i)
  rw [retire_eq]
  exact ⟨h.sp, h.writes, h.waiting, h.seg⟩

/-- A segment that has retired holds the values after reset (R42, R58). -/
theorem retire_seg_self (how : SegEnd) : (s.retire i how).seg i = {} := by
  rw [retire_eq]
  have : (((s.freeSlot i).setSeg i {}).uncount i).seg i = ((s.freeSlot i).setSeg i {}).seg i := by unfold uncount; split <;> rfl
  exact this.trans (setSeg_seg_self _ _ _)

theorem joinIssue_touches : Touches i s (s.joinIssue i) := by
  unfold joinIssue
  split
  · exact ⟨rfl, rfl, rfl, fun _ _ => rfl⟩
  · split
    · exact Touches.trans (t := s.setIssue _ _) ⟨rfl, rfl, rfl, fun _ _ => rfl⟩ (modSeg_touches _ i _)
    · exact retire_touches s i _

theorem handRead_touches (r : ReadRequest) : Touches i s (s.handRead r) := by
  unfold handRead
  split <;> exact ⟨rfl, rfl, rfl, fun _ _ => rfl⟩

theorem scatterRead_touches : Touches i s (s.scatterRead i) := by
  unfold scatterRead
  split
  · exact (handRead_touches s i _).trans (modSeg_touches _ i _)
  · exact ⟨rfl, rfl, rfl, fun _ _ => rfl⟩

theorem giveToWalk_touches (key : Key) : Touches i s (s.giveToWalk i key) := by
  unfold giveToWalk
  split
  · exact ⟨rfl, rfl, rfl, fun _ _ => rfl⟩
  · split
    · unfold startWalk
      exact Touches.trans (t := s.setWalk _ _) ⟨rfl, rfl, rfl, fun _ _ => rfl⟩ (handRead_touches _ i _)
    · exact ⟨rfl, rfl, rfl, fun _ _ => rfl⟩

/-- A SCATTER that holds its slot takes its answer: it retires, or its host read begins (R47). -/
theorem takeAnswer_touches (a : TransAnswer) (hk : s.segKind i = some .scatter) (hs : (s.seg i).slot.isSome = true) :
    Touches i s (s.takeAnswer i a) := by
  unfold takeAnswer
  split
  · exact retire_touches s i _
  · rename_i host key
    dsimp only
    rw [if_pos hs]
    refine (modSeg_touches s i fun x => { x with host := some host, translation := key, retranslate := false }).trans ?_
    unfold beginAccess
    rw [modSeg_kind s i _ rfl, hk]
    exact scatterRead_touches _ i

/-- A SCATTER that holds its slot retranslates (R47). -/
theorem translate_touches (hk : s.segKind i = some .scatter) (hs : (s.seg i).slot.isSome = true) :
    Touches i s (s.translate i) := by
  unfold translate
  refine (modSeg_touches s i fun x =>
    { x with state := .translating, host := none, translation := none, retranslate := false }).trans ?_
  unfold ask
  split
  · refine takeAnswer_touches _ i _ ((modSeg_kind s i _ rfl).trans hk) ?_
    rw [modSeg_seg_self]
    exact hs
  · exact giveToWalk_touches _ i _

/-- A grant takes its segment from the slot wait list, and touches no other segment (R64). -/
theorem grantSlot_touches (j : SlotId) : Touches i (s.setWaiting (s.rb.waiting.erase i)) (s.grantSlot j i) := by
  let t := (((s.setWaiting (s.rb.waiting.erase i)).setSlot j { s.slot j with holder := some i }).setHeld (s.segQp i)
    (s.held (s.segQp i) + 1))
  have h : Touches i (s.setWaiting (s.rb.waiting.erase i)) (t.modSeg i fun x => { x with slot := some j }) :=
    Touches.trans (t := t) ⟨rfl, rfl, rfl, fun _ _ => rfl⟩ (modSeg_touches _ i _)
  unfold grantSlot
  dsimp only
  split
  · rename_i hk
    split
    · refine h.trans (translate_touches _ i ((modSeg_kind t i _ rfl).trans hk) ?_)
      rw [modSeg_seg_self]
      rfl
    · exact h.trans (scatterRead_touches _ i)
  · exact h.trans (joinIssue_touches _ i)

/-- One grant (R64): it takes a waiter off the list. -/
theorem slotGrant_grants {t : State} (h : s.slotGrant? = some t) :
    Grants s t ∧ t.rb.waiting.length + 1 = s.rb.waiting.length := by
  obtain ⟨j, i, _, hi, e⟩ := slotGrant_some s h
  subst e
  have m := (eligibleWaiter_some s hi).1
  have g := grantSlot_touches s i j
  have w : (s.grantSlot j i).rb.waiting = s.rb.waiting.erase i := g.waiting
  refine ⟨⟨slotGrant_keeps s h, g.sp, g.writes, ?_, fun q e => ?_⟩, ?_⟩
  · rw [w]
    exact List.erase_sublist
  · exact g.seg q fun h => e (h ▸ m)
  · rw [w, List.length_erase_of_mem m]
    have := List.length_pos_of_mem m
    omega

/-- The grants end when none can be made: each takes a waiter, and there are no more grants than waiters. -/
theorem grantSlotsFor_spec (n : Nat) (h : s.rb.waiting.length ≤ n) :
    Grants s (grantSlotsFor n s) ∧ (grantSlotsFor n s).slotGrant? = none := by
  induction n generalizing s with
  | zero =>
    refine ⟨.refl s, ?_⟩
    show s.slotGrant? = none
    have e : s.rb.waiting = [] := List.length_eq_zero_iff.mp (Nat.le_zero.mp h)
    unfold slotGrant? eligibleWaiter
    rw [e]
    split <;> simp_all
  | succ n ih =>
    unfold grantSlotsFor
    split
    · rename_i t e
      obtain ⟨g, l⟩ := slotGrant_grants s e
      obtain ⟨a, b⟩ := ih t (by omega)
      exact ⟨g.trans a, b⟩
    · rename_i e
      exact ⟨.refl s, e⟩

/-- Everything the grants after a freeing or a joining can do (R64). -/
theorem grantSlots_spec : Grants s s.grantSlots ∧ s.grantSlots.slotGrant? = none := grantSlotsFor_spec s _ (Nat.le_refl _)

end State

end Sys2Proof.Machine
end

