-- ==== Sys2Proof/Laws/Rows.lean ====
section
/-! SUPPORT. What every row of the table does to the state as a whole: each answers a next state, and all but the resets,
the end of STOPPING and a write to a register outside the index registers move (Laws/Moves.lean). -/

namespace Sys2Proof.Machine

theorem Moves.row {s t u : State} (h : Moves s t) (e : (.next t : Result) = .next u) : Moves s u := by
  cases e
  exact h

theorem orStay_moves {s t : State} {o : Option State} (h : ∀ u, o = some u → Moves s u) (e : orStay s o = .next t) :
    Moves s t := by
  cases o with
  | none => cases e; exact .refl s
  | some u => cases e; exact h _ rfl

theorem orStay_settle_moves {s t : State} {o : Option State} (h : ∀ u, o = some u → Moves s u)
    (e : orStay s (o.map State.settle) = .next t) : Moves s t :=
  orStay_moves (fun u hu => by
    obtain ⟨v, hv, rfl⟩ := Option.map_eq_some_iff.1 hu
    exact (h v hv).trans v.settle_moves) e

/-- A quiet operation with its links, and what it brings about. -/
theorem Quiet.settle_moves {s t : State} (h : Quiet s t) (l : s.LinksOk → t.LinksOk) : Moves s t.settle :=
  (h.moves l).trans t.settle_moves

namespace State

variable (s : State)

theorem enable_moves : Moves s s.enable := by
  unfold enable
  split
  · split
    · rename_i h
      simp only [Control.valid, ringOk, Bool.and_eq_true] at h
      have sq := ringSizeOk_size h.1.1.1
      have cq := ringSizeOk_size h.2.1.1
      refine ⟨rfl, rfl, rfl, rfl, ⟨[], by simp⟩, ⟨[], by simp⟩, id, fun g => ⟨g.size, g.keys, g.counts⟩, id, fun a => ?_⟩
      have b : (s.setQp 0 (adminQueue s.ctl)).AccountsOk := a.setQp 0 _
        (.of_sizes (fun _ => ⟨sq, cq⟩) (fun _ => ⟨sq.pos, sq.pos⟩) (fun _ => ⟨cq.pos, cq.pos⟩) (Nat.zero_le _))
        (fun e => absurd rfl e) (fun _ _ e => nomatch e) fun e => absurd rfl e
      exact
        { queue := b.queue
          empty := b.empty
          admin := fun _ => by rw [setQp_qp_self]; exact fun e => nomatch e
          adminList := b.adminList
          depth := b.depth
          listed := b.listed
          once := b.once
          live := b.live
          held := b.held }
    · exact .of_rest _ _ rfl rfl rfl rfl rfl rfl rfl rfl rfl rfl rfl rfl rfl rfl (fun e => nomatch e)
  · exact .refl s

theorem badIndex_moves (n : QpId) (h : s.qpState n = .running) : Moves s (s.badIndex n) := by
  unfold badIndex
  split
  · exact halt_moves s _
  · exact failQueue_moves s n _ fun a => a.running h

theorem writeTail_moves (n : QpId) (v : BitVec 32) : Moves s (s.writeTail n v) := by
  unfold writeTail
  split
  · exact .refl s
  · split
    · rename_i h
      split
      · exact badIndex_moves s n h
      · rename_i g
        exact modQp_moves s n _ fun a => a.edit n _ Iff.rfl (fun _ => a.running h) rfl rfl rfl
          (fun _ _ b => ⟨Nat.lt_of_not_le g, b⟩) fun _ a b => ⟨a, b⟩
    · exact .refl s

theorem rearm_moves (v : VectorId) : Moves s (s.rearm v) :=
  .of_rest _ _ rfl rfl rfl rfl rfl rfl rfl rfl rfl rfl rfl rfl rfl rfl id

theorem writeHead_moves (n : QpId) (v : BitVec 32) : Moves s (s.writeHead n v) := by
  unfold writeHead
  split
  · exact .refl s
  · split
    · rename_i g
      simp only [headGood, Bool.and_eq_true, decide_eq_true_eq] at g
      refine (modQp_moves s n _ fun a => ?_).trans (rearm_moves _ _)
      refine a.edit n _ Iff.rfl (fun c e => ?_) rfl rfl rfl (fun _ a b => ⟨a, b⟩) fun _ a _ => ⟨a, g.1⟩
      have := g.1
      rw [a.empty n c e] at this
      exact absurd this (Nat.not_lt_zero _)
    · split
      · rename_i h
        exact badIndex_moves s n h
      · exact .refl s

/-- Frames received in turn move. -/
theorem takeReceived_moves (k : SpokeId) (frames : List (Option (List Byte))) : Moves s (s.takeReceived k frames) :=
  .foldl _ (fun t f => (takeBytes_quiet t k f).settle_moves (takeBytes_links t k f)) _ _

end State

/-- The rows that take reset values or write a register that is no index register. -/
def Instr.moving : Instr → Bool
  | .powerOnReset => false
  | .functionReset => false
  | .stoppingEnd => false
  | .registerWriteOther _ _ => false
  | _ => true

/-- Every row answers a next state. -/
theorem exec_next (c : Instr) (s : State) : ∃ t, exec c s = .next t := by cases c <;> exact ⟨_, rfl⟩

/-- Every other row moves. -/
theorem exec_moves {c : Instr} {s t : State} (hc : Instr.moving c = true) (h : exec c s = .next t) : Moves s t := by
  cases c
  case powerOnReset => cases hc
  case functionReset => cases hc
  case stoppingEnd => cases hc
  case registerWriteOther => cases hc
  case enableSet => exact .row s.enable_moves h
  case enableClear => exact .row s.disable_moves h
  case sqTailWrite n v => exact .row (s.writeTail_moves n v) h
  case cqHeadWrite n v => exact .row (s.writeHead_moves n v) h
  case interruptEnableChange b =>
    refine .row ?_ h
    split
    · exact .of_writes _ _ _ rfl rfl rfl rfl rfl rfl rfl rfl rfl rfl rfl rfl
    · exact .of_rest _ _ rfl rfl rfl rfl rfl rfl rfl rfl rfl rfl rfl rfl rfl rfl id
  case fetchIssue => exact orStay_moves (fun _ => State.fetchIssue_moves s) h
  case commandFetchIssue => exact orStay_moves (fun _ => State.commandFetch_moves s) h
  case hostReadIssue => exact orStay_moves (fun _ => State.readIssue_moves s) h
  case hostReadCompletion i ok n b => exact .row ((s.readCompletion_moves i ok n b).trans (State.settle_moves _)) h
  case hostReadTimeout p => exact .row ((s.readTimeout_moves p).trans (State.settle_moves _)) h
  case createQueue head p => exact .row (s.deliver_moves head _) h
  case deleteQueue head p => exact .row ((s.deliver_moves head _).trans (State.settle_moves _)) h
  case queueDeleteComplete n => exact orStay_moves (fun _ => State.deleteEnd_moves s n) h
  case setContext head p => exact .row (s.deliver_moves head _) h
  case clearContext head p => exact .row (s.deliver_moves head _) h
  case invalidatePages head p => exact .row ((s.deliver_moves head _).trans (State.settle_moves _)) h
  case invalidateContext head p => exact .row ((s.deliver_moves head _).trans (State.settle_moves _)) h
  case invalidationComplete => exact orStay_moves (fun _ => State.invalidationEnd_moves s) h
  case setWindow head p => exact .row ((s.deliver_moves head _).trans (State.settle_moves _)) h
  case clearWindow head p => exact .row ((s.deliver_moves head _).trans (State.settle_moves _)) h
  case windowChangeApply => exact orStay_moves (fun _ => State.windowApply_moves s) h
  case setBundle head p l => exact .row (s.deliver_moves head _) h
  case spokeStart head p => exact .row (s.deliver_moves head _) h
  case spokeStop head p => exact .row ((s.deliver_moves head _).trans (State.settle_moves _)) h
  case drainComplete k => exact orStay_moves (fun _ e => (State.drainEnd_quiet s k e).moves (State.drainEnd_links s k e)) h
  case spokeReset head p => exact .row ((s.deliver_moves head _).trans (State.settle_moves _)) h
  case query head p => exact .row (s.deliver_moves head _) h
  case adminCompletionWrite => exact orStay_moves (fun _ => State.adminCompletion_moves s) h
  case eventRecordWrite => exact orStay_moves (fun _ => State.eventWrite_moves s) h
  case gateRelease e => exact orStay_moves (fun _ => State.gateRelease_moves s e) h
  case fenceStart e => exact orStay_moves (fun _ => State.fenceStart_moves s e) h
  case generationGrant => exact orStay_settle_moves (fun _ => State.generation_moves s) h
  case walkStart => exact orStay_moves (fun _ => State.walkStart_moves s) h
  case slotGrant => exact orStay_moves (fun _ => State.slotGrant_moves s) h
  case requestSend k =>
    exact orStay_moves (fun _ e => (State.sendRequest_quiet s k e).moves (State.sendRequest_links s k e)) h
  case flushSend k => exact orStay_moves (fun _ e => (State.sendFlush_quiet s k e).moves (State.sendFlush_links s k e)) h
  case trainAck p v g => exact .row ((s.takeTrainAck_quiet _ v g).settle_moves (s.takeTrainAck_links _ v g)) h
  case resetAck p => exact .row ((s.takeResetAck_quiet _).moves (s.takeResetAck_links _)) h
  case readResponse p tag st b =>
    refine .row ?_ h
    split
    · exact (s.takeReadResponse_quiet _ tag st b).settle_moves (s.takeReadResponse_links _ tag st b)
    · exact (s.linkError_quiet _).settle_moves (s.linkError_links _)
  case writeAck p tag st => exact .row ((s.takeWriteAck_quiet _ tag st).settle_moves (s.takeWriteAck_links _ tag st)) h
  case flushAck p tag => exact .row ((s.takeFlushAck_quiet _ tag).settle_moves (s.takeFlushAck_links _ tag)) h
  case credit p n => exact .row ((s.takeCredit_quiet _ n).settle_moves (s.takeCredit_links _ n)) h
  case invalidFrameReceive p l => exact .row (s.takeReceived_moves _ _) h
  case responseTimerExpiry k g => exact .row ((s.expireTag_quiet k g).settle_moves (s.expireTag_links k g)) h
  case creditWaitTimerExpiry k => exact .row ((s.expireCreditWait_quiet k).settle_moves (s.expireCreditWait_links k)) h
  case trainingAttemptTimerExpiry k => exact .row ((s.expireAttempt_quiet k).moves (s.expireAttempt_links k)) h
  case resetTimerExpiry k => exact .row ((s.expireReset_quiet k).moves (s.expireReset_links k)) h
  case carrierLoss p => exact .row ((s.dropCarrier_quiet p).settle_moves (s.dropCarrier_links p)) h
  case carrierReturn p =>
    exact .row (t := s.raiseCarrier p) ((State.carrierIn_quiet s _).moves fun l => l) h
  case completionPost n => exact orStay_settle_moves (fun _ => State.post_moves s n) h
  case hostWriteSent => exact orStay_moves (fun _ => State.sendWrite_moves s) h

end Sys2Proof.Machine
end

