-- ==== Sys2Proof/Laws/Windows.lean ====
section
/-! SUPPORT. What resolution finds in a window table as the manual states it (`TableOk`): which window holds an address, and
the region it gives. -/

namespace Sys2Proof.Machine

variable {t : WindowTable} {a : Nat}

theorem Window.holds_iff (w : Window) (a : Nat) :
    w.holds a = true ↔ w.enabled = true ∧ w.base ≤ a ∧ a < w.base + w.size := by simp [Window.holds, and_assoc]

theorem striped_iff {id : WindowId} : striped id = true ↔ id.val < 2 := by simp [striped]

theorem pinned_iff {id : WindowId} : striped id = false ↔ 2 ≤ id.val := by simp [striped]; omega

/-- The size of an enabled window is a power of two in its class's range, and its base is aligned to it (R25). -/
theorem TableOk.window_size (h : TableOk t) (id : WindowId) (e : t[id].enabled = true) :
    (∃ k, 12 ≤ k ∧ k ≤ 47 ∧ t[id].size = 2 ^ k ∧ (striped id = true → 26 ≤ k)) ∧ t[id].base % t[id].size = 0 ∧
      t[id].base + t[id].size ≤ 2 ^ 48 := by
  obtain ⟨h1, h2, h3⟩ := h.formed id e
  refine ⟨?_, h2, h3⟩
  unfold windowSizeOk at h1
  simp only [List.any_eq_true, List.mem_range'] at h1
  obtain ⟨k, ⟨i, hi, rfl⟩, hk⟩ := h1
  refine ⟨_, ?_, ?_, by simpa using hk, ?_⟩ <;> split_ifs at hi ⊢ <;> first | omega | (intro g; simp_all)

/-- Base and size of an enabled window are multiples of 4 KiB (R26). -/
theorem TableOk.page_aligned (h : TableOk t) (id : WindowId) (e : t[id].enabled = true) :
    t[id].base % 4096 = 0 ∧ t[id].size % 4096 = 0 := by
  obtain ⟨⟨k, h1, h2, h3, _⟩, h5, h6⟩ := h.window_size id e
  obtain ⟨m, rfl⟩ : ∃ m, k = 12 + m := ⟨k - 12, by omega⟩
  have d1 : 4096 ∣ t[id].size := ⟨2 ^ m, by rw [h3, pow_add]; norm_num⟩
  exact ⟨Nat.mod_eq_zero_of_dvd (d1.trans (Nat.dvd_of_mod_eq_zero h5)), Nat.mod_eq_zero_of_dvd d1⟩

/-- Two enabled windows of one class never hold the same address (R25). -/
theorem TableOk.holds_unique (h : TableOk t) {i j : WindowId} (hs : striped i = striped j) (hi : t[i].holds a = true)
    (hj : t[j].holds a = true) : i = j := by
  by_contra hne
  have a1 := (Window.holds_iff _ _).1 hi
  have a2 := (Window.holds_iff _ _).1 hj
  have := h.apart i j hne hs a1.1 a2.1
  unfold Window.apart at this
  simp only [Fin.getElem_fin] at *
  omega

/-- The pinned window found is the one that holds the address. -/
theorem pinnedAt_eq_some (h : TableOk t) {id : WindowId} :
    pinnedAt t a = some id ↔ striped id = false ∧ t[id].holds a = true := by
  unfold pinnedAt
  rw [firstIndex_eq_some]
  refine ⟨fun g => by simpa using g.1, fun g => ⟨by simpa using g, fun j hj => ?_⟩⟩
  by_contra hc
  simp only [Bool.not_eq_false, Bool.and_eq_true, Bool.not_eq_true'] at hc
  exact absurd (h.holds_unique (hc.1.trans g.1.symm) hc.2 g.2) (ne_of_lt hj)

/-- The striped window found is the one that holds the address. -/
theorem stripedAt_eq_some (h : TableOk t) {id : WindowId} :
    stripedAt t a = some id ↔ striped id = true ∧ t[id].holds a = true := by
  unfold stripedAt
  rw [firstIndex_eq_some]
  refine ⟨fun g => by simpa using g.1, fun g => ⟨by simpa using g, fun j hj => ?_⟩⟩
  by_contra hc
  simp only [Bool.not_eq_false, Bool.and_eq_true] at hc
  exact absurd (h.holds_unique (hc.1.trans g.1.symm) hc.2 g.2) (ne_of_lt hj)

theorem pinnedAt_eq_none : pinnedAt t a = none ↔ ∀ id : WindowId, striped id = false → t[id].holds a = false := by
  unfold pinnedAt
  rw [firstIndex_eq_none]
  refine forall_congr' fun id => ?_
  cases striped id <;> simp

theorem stripedAt_eq_none : stripedAt t a = none ↔ ∀ id : WindowId, striped id = true → t[id].holds a = false := by
  unfold stripedAt
  rw [firstIndex_eq_none]
  refine forall_congr' fun id => ?_
  cases striped id <;> simp

/-- The slice of an address of a striped window: its number, and that it lies between the slice's ends, which are multiples of
4 KiB from the base (R26). -/
theorem Window.slice_spec (w : Window) (k : Nat) (hk : 26 ≤ k) (hs : w.size = 2 ^ k) (ha : w.base ≤ a)
    (hb : a < w.base + w.size) :
    w.slice a < 8 ∧ w.base + w.slice a * (w.size / 8) ≤ a ∧ a < w.base + (w.slice a + 1) * (w.size / 8) ∧
      w.size / 8 % 4096 = 0 ∧ 0 < w.size / 8 ∧ w.size = 8 * (w.size / 8) := by
  obtain ⟨m, rfl⟩ : ∃ m, k = 15 + m := ⟨k - 15, by omega⟩
  have e : w.size = 8 * (4096 * 2 ^ m) := by rw [hs, pow_add]; norm_num; ring
  have e8 : w.size / 8 = 4096 * 2 ^ m := by omega
  have pos : 0 < 2 ^ m := Nat.two_pow_pos m
  unfold Window.slice Window.sliceSize
  rw [e8]
  set q := 4096 * 2 ^ m with hq
  have hqp : 0 < q := by positivity
  have h1 : (a - w.base) / q < 8 := by rw [Nat.div_lt_iff_lt_mul hqp]; omega
  have h2 : (a - w.base) / q * q ≤ a - w.base := Nat.div_mul_le_self _ _
  have h3 : a - w.base < ((a - w.base) / q + 1) * q := by
    have := Nat.lt_div_mul_add hqp (a := a - w.base)
    nlinarith
  exact ⟨h1, by omega, by omega, by rw [hq]; simp, hqp, by omega⟩

theorem regionAt_of_pinned {id : WindowId} (h : pinnedAt t a = some id) : regionAt t a = some (regionIn t id a) := by
  simp [regionAt, h]

theorem regionAt_of_striped {id : WindowId} (h0 : pinnedAt t a = none) (h : stripedAt t a = some id) :
    regionAt t a = some (regionIn t id a) := by simp [regionAt, h0, h]

theorem regionAt_of_none (h0 : pinnedAt t a = none) (h : stripedAt t a = none) : regionAt t a = none := by
  simp [regionAt, h0, h]

@[simp] theorem regionIn_window (id : WindowId) (a : Nat) : (regionIn t id a).window = id := by
  unfold regionIn
  dsimp only
  split <;> rfl

/-- A region's window is enabled and holds the address. -/
theorem regionAt_holds {r : Region} (h : regionAt t a = some r) : t[r.window].holds a = true := by
  have held : ∀ id : WindowId, t[id].holds a = true → t[(regionIn t id a).window].holds a = true := by
    intro id hh
    simpa only [regionIn_window] using hh
  unfold regionAt at h
  rcases hp : pinnedAt t a with _ | id
  · rw [hp] at h
    simp only [Option.map_eq_some_iff] at h
    obtain ⟨id, h1, rfl⟩ := h
    have := (firstIndex_eq_some.1 h1).1
    simp only [Bool.and_eq_true] at this
    exact held id this.2
  · rw [hp] at h
    cases h
    have := (firstIndex_eq_some.1 hp).1
    simp only [Bool.and_eq_true] at this
    exact held id this.2

/-- The least of a list of numbers and a bound: it is at most each of them. -/
theorem foldl_min_le (l : List Nat) (b : Nat) : l.foldl min b ≤ b ∧ ∀ x ∈ l, l.foldl min b ≤ x := by
  induction l generalizing b with
  | nil => simp
  | cons y l ih =>
    simp only [List.foldl_cons, List.mem_cons]
    obtain ⟨h1, h2⟩ := ih (min b y)
    refine ⟨by omega, ?_⟩
    rintro x (rfl | hx)
    · omega
    · exact h2 x hx

/-- The least of a list of numbers and a bound: it is one of them. -/
theorem foldl_min_mem (l : List Nat) (b : Nat) : l.foldl min b = b ∨ l.foldl min b ∈ l := by
  induction l generalizing b with
  | nil => simp
  | cons y l ih =>
    simp only [List.foldl_cons, List.mem_cons]
    rcases ih (min b y) with h | h
    · rcases min_choice b y with g | g <;> rw [g] at h
      · exact .inl (by rw [g]; exact h)
      · exact .inr (.inl (by rw [g]; exact h))
    · exact .inr (.inr h)

/-- The bases of enabled windows above an address (R35). -/
theorem mem_basesAbove (p : WindowId → Bool) (b : Nat) :
    b ∈ basesAbove t a p ↔ ∃ id : WindowId, p id = true ∧ t[id].enabled = true ∧ a < t[id].base ∧ t[id].base = b := by
  simp [basesAbove, and_assoc]

end Sys2Proof.Machine
end

