-- ==== Sys2Proof/Laws/Wire.lean ====
section
/-! SUPPORT. What a message and a dropped carrier out do to each physical spoke's symbols (R121). -/

namespace Sys2Proof.Machine

/-- The spokes a change is not for keep their symbols. -/
theorem foldl_set_other {α : Type} (f : Vector Lane 8 → SpokeId × α → Lane) (l : List (SpokeId × α)) (v : Vector Lane 8)
    (q : SpokeId) (h : q ∉ l.map (·.1)) : (l.foldl (fun v p => v.set p.1 (f v p)) v)[q] = v[q] := by
  induction l generalizing v with
  | nil => rfl
  | cons a l ih =>
    simp only [List.map_cons, List.mem_cons, not_or] at h
    rw [List.foldl_cons, ih _ h.2]
    have : a.1.val ≠ q.val := fun e => h.1 (Fin.ext e.symm)
    simp [this]

/-- A change of the spokes of a list, each from what it held: a spoke of the list holds its own change. -/
theorem foldl_set_mem {α : Type} (g : Lane → SpokeId × α → Lane) (l : List (SpokeId × α)) (v : Vector Lane 8)
    (p : SpokeId × α) (hp : p ∈ l) (hn : (l.map (·.1)).Nodup) :
    (l.foldl (fun (v : Vector Lane 8) p => v.set p.1 (g v[p.1] p)) v)[p.1] = g v[p.1] p := by
  induction l generalizing v with
  | nil => simp at hp
  | cons a l ih =>
    simp only [List.map_cons, List.nodup_cons] at hn
    rw [List.foldl_cons]
    rcases List.mem_cons.mp hp with rfl | hl
    · rw [foldl_set_other (fun v p => g v[p.1] p) l _ _ hn.1]
      simp
    · rw [ih _ hl hn.2]
      have : a.1.val ≠ p.1.val := fun e => hn.1 (Fin.ext (n := 8) e ▸ List.mem_map_of_mem hl)
      simp [this]

/-- The members of a logical spoke are distinct. -/
theorem State.members_nodup (s : State) (k : SpokeId) : (s.members k).Nodup := (List.nodup_finRange 8).filter _

/-- A message leaves the symbols of the spokes that are no members as they are. -/
theorem State.sendFrame_lane_other (s : State) (k : SpokeId) (m : TxMessage) (q : SpokeId) (h : q ∉ s.members k) :
    (s.sendFrame k m).wire.lanes[q] = s.wire.lanes[q] :=
  foldl_set_other (fun v p => v[p.1].carry p.2) _ _ q fun e => h (by
    obtain ⟨p, hp, rfl⟩ := List.mem_map.mp e
    exact (List.of_mem_zip hp).1)

/-- A message adds its part, between its delimiters, to what each member carries (R121). -/
theorem State.sendFrame_lane (s : State) (k : SpokeId) (m : TxMessage) (p : SpokeId) (x : List LaneSymbol)
    (h : (p, x) ∈ (s.members k).zip (frameLanes (s.members k).length (frameBytes m))) :
    (s.sendFrame k m).wire.lanes[p] = s.wire.lanes[p].carry x := by
  refine foldl_set_mem (fun l p => l.carry p.2) _ s.wire.lanes (p, x) h ?_
  rw [List.map_fst_zip (by simp [frameLanes, dealBytes])]
  exact s.members_nodup k

/-- A carrier out that is dropped on a spoke cuts what it carries, and leaves the other spokes as they are. -/
theorem Wire.cut_lane (w : Wire) (l : List SpokeId) (hn : l.Nodup) (q : SpokeId) :
    (w.cut l).lanes[q] = if q ∈ l then w.lanes[q].cut (Config.cutPoint w.cuts q) else w.lanes[q] := by
  have e : (w.cut l).lanes = (l.map fun p => (p, ())).foldl
      (fun (v : Vector Lane 8) p => v.set p.1 (v[p.1].cut (Config.cutPoint w.cuts p.1))) w.lanes := by
    simp [Wire.cut, List.foldl_map]
  have m : (l.map fun p => (p, ())).map (·.1) = l := by rw [List.map_map]; exact List.map_id l
  rw [e]
  split
  · rename_i h
    exact foldl_set_mem (fun x p => x.cut (Config.cutPoint w.cuts p.1)) _ w.lanes (q, ()) (by simpa using h) (by rw [m]; exact hn)
  · rename_i h
    exact foldl_set_other (fun v p => v[p.1].cut (Config.cutPoint w.cuts p.1)) _ w.lanes q (by rw [m]; exact h)

end Sys2Proof.Machine
end

