-- ==== Sys2Proof/WellFormed.lean ====
section
/-! DEFINITION. Well-formed commands: the operands the rules let a row have. A row's meaning is total all the same; what it
does on other operands is in its own text. -/

namespace Sys2Proof

/-- The offsets of the window that have rows of their own: CONTROL and the index registers (11.8). -/
def ownRow (offset : Nat) : Bool := decide (offset = 0) || (decide (0x100 ≤ offset) && decide (offset < 0x180))

/-- Whether a command's operands are ones the rules give its row.
* HOST_READ_COMPLETION (R170, R172): data is 1 to 256 bytes inside the longest read; an error carries none.
* READ_RESPONSE (R119, R125): at most 256 payload bytes.
* INVALID_FRAME_RECEIVE (R121, R125, R126): what the members of a logical spoke (one, two or four) received, of which every
  frame fails the frame check or is of unknown kind.
* REGISTER_WRITE_OTHER (R186): a 4-byte aligned offset of no register with a row of its own.
* QUEUE_DELETE_COMPLETE and COMPLETION_POST (R146, R152): a client queue pair.
Every operand of the other rows is of a type that holds the values of its range and no other. -/
def Instr.wf : Instr → Bool
  | .hostReadCompletion _ true position bytes => decide (1 ≤ bytes.length) && decide (position + bytes.length ≤ Config.maxSegment)
  | .hostReadCompletion _ false position bytes => decide (position = 0) && decide (bytes = [])
  | .readResponse _ _ _ payload => decide (payload.length ≤ Config.maxSegment)
  | .invalidFrameReceive _ lanes =>
    [1, 2, 4].contains lanes.length && (receiveFrames lanes).all fun f => (readFrame f).isNone
  | .registerWriteOther offset _ => decide (offset.toNat % 4 = 0) && !ownRow offset.toNat
  | .queueDeleteComplete n => n != 0
  | .completionPost n => n != 0
  | .powerOnReset => true
  | .functionReset => true
  | .enableSet => true
  | .enableClear => true
  | .stoppingEnd => true
  | .sqTailWrite _ _ => true
  | .cqHeadWrite _ _ => true
  | .interruptEnableChange _ => true
  | .fetchIssue => true
  | .commandFetchIssue => true
  | .hostReadIssue => true
  | .hostReadTimeout _ => true
  | .createQueue _ _ => true
  | .deleteQueue _ _ => true
  | .setContext _ _ => true
  | .clearContext _ _ => true
  | .invalidatePages _ _ => true
  | .invalidateContext _ _ => true
  | .invalidationComplete => true
  | .setWindow _ _ => true
  | .clearWindow _ _ => true
  | .windowChangeApply => true
  | .setBundle _ _ _ => true
  | .spokeStart _ _ => true
  | .spokeStop _ _ => true
  | .drainComplete _ => true
  | .spokeReset _ _ => true
  | .query _ _ => true
  | .adminCompletionWrite => true
  | .eventRecordWrite => true
  | .gateRelease _ => true
  | .fenceStart _ => true
  | .generationGrant => true
  | .walkStart => true
  | .slotGrant => true
  | .requestSend _ => true
  | .flushSend _ => true
  | .trainAck _ _ _ => true
  | .resetAck _ => true
  | .writeAck _ _ _ => true
  | .flushAck _ _ => true
  | .credit _ _ => true
  | .responseTimerExpiry _ _ => true
  | .creditWaitTimerExpiry _ => true
  | .trainingAttemptTimerExpiry _ => true
  | .resetTimerExpiry _ => true
  | .carrierLoss _ => true
  | .carrierReturn _ => true
  | .hostWriteSent => true

end Sys2Proof
end

