-- ==== Sys2Proof/Tests/Slice0.lean ====
section
/-! SUPPORT. Tests: words written out from the manual's formats, ill-formed commands, single steps whose results the manual's
examples give, and for each obligation with hypotheses a witness of them. -/

-- One theorem at a time: a thread for each of them takes more memory than a check gives.
set_option Elab.async false

namespace Sys2Proof.Tests

open Sys2Proof.Machine

/-! ## Well-formed commands: one ill-formed term for each check -/

theorem test_wf_empty_data : (Instr.hostReadCompletion 0 true 0 []).wf = false := by decide
theorem test_wf_data_past_read : (Instr.hostReadCompletion 0 true 256 [1]).wf = false := by decide
theorem test_wf_error_with_data : (Instr.hostReadCompletion 0 false 0 [1]).wf = false := by decide
theorem test_wf_error_at_position : (Instr.hostReadCompletion 0 false 1 []).wf = false := by decide
theorem test_wf_long_payload : (Instr.readResponse 0 0 0 (List.replicate 257 0)).wf = false := by decide +kernel
theorem test_wf_good_frame : (Instr.invalidFrameReceive 0 [laneFrame (encodeFrame .resetAck)]).wf = false := by decide +kernel
theorem test_wf_unaligned_offset : (Instr.registerWriteOther 0x00A 0).wf = false := by decide
theorem test_wf_control_offset : (Instr.registerWriteOther 0x000 0).wf = false := by decide
theorem test_wf_index_offset : (Instr.registerWriteOther 0x17C 0).wf = false := by decide
theorem test_wf_delete_qp0 : (Instr.queueDeleteComplete 0).wf = false := by decide
theorem test_wf_post_qp0 : (Instr.completionPost 0).wf = false := by decide
theorem test_wf_payload_256 : (Instr.readResponse 0 0 0 (List.replicate 256 0)).wf = true := by decide +kernel
theorem test_wf_last_byte : (Instr.hostReadCompletion 0 true 255 [1]).wf = true := by decide

/-! ## Formats (11) -/

/-- The check value of R120's parameters over the nine digits. -/
theorem test_check_word : checkWord ([0x31, 0x32, 0x33, 0x34, 0x35, 0x36, 0x37, 0x38, 0x39] : List Byte) = 0xCBF43926 := by
  decide +kernel

/-- A RELAY descriptor with ORDERED set, byte by byte from 11.1. -/
theorem test_descriptor_bytes :
    decodeDescriptor
        ([0x03, 0x01, 0, 0, 0x78, 0x56, 0x34, 0x12, 0x58, 0x02, 0x00, 0x00, 0, 0, 0, 0,
          0xC0, 0xFF, 0xFF, 0x03, 0, 0, 0, 0, 0xA0, 0xFF, 0xFF, 0x0F, 0, 0, 0, 0] : List Byte) =
      { kind := 3, flags := 1, tag := 0x12345678, length := 600, fabric := 0x03FFFFC0, near := 0x0FFFFFA0 } := by
  decide +kernel

/-- A SPOKE_START record of spoke 3 with timeout 200, byte by byte from 11.4. -/
theorem test_spoke_start_bytes :
    decodeCommand
        ([0x0A, 0, 0, 0, 0x0D, 0x0C, 0x0B, 0x0A, 0x03, 0, 0xC8, 0x00] ++ List.replicate 20 0 : List Byte) =
      { opcode := 0x0A, head := { tag := 0x0A0B0C0D, reserved := false }
        command := some (.spokeStart { spoke := 3, timeout := 200 }) } := by decide +kernel

/-- A reserved byte of a record (R184). -/
theorem test_reserved_byte :
    (decodeCommand ([0x0B, 0, 0, 0, 0, 0, 0, 0, 0x03, 1] ++ List.replicate 22 0 : List Byte)).head.reserved = true := by
  decide +kernel

/-- A directory entry: present, writable, frame 12345h (11.5). -/
theorem test_directory_entry :
    decodeDirectoryEntry ([0x05, 0x50, 0x34, 0x12, 0, 0, 0, 0] : List Byte) =
      { present := true, readable := false, writable := true, frame := 0x12345 } := by decide

/-- A READ_REQUEST of 256 bytes at 03FFFE00h with tag 0, byte by byte from 11.6. -/
theorem test_read_request_bytes :
    messageBytes (.readRequest 0 0x03FFFE00 256) =
      ([0x03, 0, 0, 0, 0, 0, 0x00, 0x01, 0x00, 0xFE, 0xFF, 0x03, 0, 0, 0, 0] : List Byte) := by decide

/-- A CREDIT of 3 from the far end (11.6). -/
theorem test_credit_bytes :
    rxBytes (.credit 3) = ([0x86, 0, 0, 0, 0, 0, 0, 0, 0, 0, 0, 0, 0, 0, 0, 3] : List Byte) := by decide

/-- A frame with one bit of its tag changed fails the frame check (R125). -/
theorem test_damaged_frame : frameCheck ((encodeFrame (.writeAck 5 0)).set 1 4) = false := by decide +kernel

/-! ## The manual's examples -/

/-- The window table of the examples of R28 and R31: S0 over 512 MiB with rotation 3, P2 over 64 KiB at 10000000h. -/
def table (form : Form) : WindowTable :=
  ((Vector.replicate 8 {}).set 0 { enabled := true, base := 0, size := 0x20000000, target := 3, form := form }).set 4
    { enabled := true, base := 0x10000000, size := 0x10000, target := 1, form := .loc }

/-- R28, with P2 in place: 12345678h lies in slice 4, whose spoke 7 is in the QUAD of the high half. -/
theorem test_route_local :
    resolveSide (table .loc) .pairLow .quad .source false 0x12345678 8 =
      .routed { window := 0, spoke := 4, address := 0x02345678, posted := false, earlier := false } := by decide +kernel
theorem test_route_full :
    resolveSide (table .full) .pairLow .quad .source false 0x12345678 8 =
      .routed { window := 0, spoke := 4, address := 0x12345678, posted := false, earlier := false } := by decide +kernel

/-- R28: the logical spokes of the eight slices. -/
theorem test_slices_of_s0 :
    ((List.range 8).map fun k => (regionAt (table .loc) (k * 0x4000000 + 0x20000)).map fun r =>
      (logicalSpoke .pairLow .quad r.spoke).val) =
      [some 3, some 4, some 4, some 4, some 4, some 0, some 0, some 2] := by decide +kernel

/-- R31: the pinned window takes precedence, up to its end. -/
theorem test_pinned_first : (regionAt (table .loc) 0x10008000).map Region.window = some 4 := by decide +kernel
theorem test_after_pinned : (regionAt (table .loc) 0x10010000).map Region.window = some 0 := by decide +kernel

/-- R36: S1 at 256 MiB overlaps S0, and at 512 MiB it does not. -/
theorem test_overlap : overlaps (table .loc) 1 0x10000000 0x10000000 = true := by decide +kernel
theorem test_no_overlap : overlaps (table .loc) 1 0x20000000 0x20000000 = false := by decide +kernel

/-- The RELAY of 600 bytes of R43's example. -/
def relay (cursor : Nat) : Entry :=
  { qp := 1, kind := some .relay, length := 600, fabric := 0x03FFFFC0, near := 0x0FFFFFA0, state := .running, cursor := cursor }

/-- A state with the example's windows. -/
def windowed : State := { State.reset with wu.windows := table .loc, sp.low := .pairLow, sp.high := .quad }

/-- R43: the four lengths of the example. -/
theorem test_relay_cuts :
    [0, 64, 96, 352].map (fun c => windowed.nextLength (relay c)) = [64, 32, 256, 248] := by decide +kernel

/-- R6: a GATHER may end at the top of the fabric space, and not above it. -/
theorem test_fabric_top :
    descriptorFault { kind := 1, flags := 0, tag := 0, length := 4096, fabric := 0xFFFFFFFFF000, near := 0 } = none := by decide
theorem test_fabric_range :
    descriptorFault { kind := 1, flags := 0, tag := 0, length := 4096, fabric := 0xFFFFFFFFF001, near := 0 } = some 5 := by
  decide

/-- R51: a FILL segment at offset 258 begins 33h, 44h, 11h, 22h. -/
theorem test_fill_bytes : fillBytes 0x44332211 258 4 = [0x33, 0x44, 0x11, 0x22] := by decide

/-- R186: ADMIN_SIZES of a 64-slot and a 128-slot ring, and the QP0 record it gives. -/
def configured : State := { State.reset with ctl.adminSqBase := 0x10000, ctl.adminCqBase := 0x20000, ctl.adminSizes := 0x00800040 }

theorem test_enable :
    ((configured.enable.ctl.device, (configured.enable.qp 0).sqSize, (configured.enable.qp 0).cqSize) :
      DeviceState × Nat × Nat) = (.ready, 64, 128) := by decide +kernel
theorem test_enable_invalid : State.reset.enable.ctl.haltReason = .badAdminConfig := by decide +kernel

/-- The queue pair of the example after R147: a completion ring of 4, notify mode ALL, vector 3; entry 0 is DONE. -/
def ringOfFour (write head : Nat) (lap : Bool) : State :=
  (({ State.reset with ctl.device := .ready, hp.messagesEnabled := true }.setQp 6
      { state := .running, sqSize := 16, cqBase := 0x4000, cqSize := 4, depth := 8, vector := 3, notify := .all
        fetchIndex := 5, writeIndex := write, head := head, lap := lap }).setInflight 6 [0]).setEntry 0
    { qp := 6, subIndex := 3, kind := some .mark, state := .done }

/-- The state a command answers. -/
def after (s : State) (c : Instr) : State :=
  match exec c s with
  | .next t => t
  | _ => s

/-- E0 goes into slot 0 with lap 1 and fires vector 3; the message follows the record. -/
theorem test_post_fires :
    (after (ringOfFour 0 0 true) (.completionPost 6)).hp.writes =
      [.memory .completion 0x4000 (transferRecord { qp := 6, subIndex := 3, kind := some .mark, state := .done } true 4),
        .message 3] := by decide +kernel
/-- E3 waits at 3 unconsumed records. -/
theorem test_full_ring_waits : after (ringOfFour 3 0 true) (.completionPost 6) = ringOfFour 3 0 true := by decide +kernel
/-- E3 goes into slot 3 after the head write of 2, and the lap value becomes 0. -/
theorem test_wrap_turns_lap :
    (((after (after (ringOfFour 3 0 true) (.cqHeadWrite 6 2)) (.completionPost 6)).qp 6).writeIndex,
      ((after (after (ringOfFour 3 0 true) (.cqHeadWrite 6 2)) (.completionPost 6)).qp 6).lap) = (0, false) := by decide +kernel
/-- A head write of 3 with 1 record unconsumed is bad. -/
theorem test_bad_head :
    (((after (ringOfFour 1 0 false) (.cqHeadWrite 6 3)).qp 6).state, ((after (ringOfFour 1 0 false) (.cqHeadWrite 6 3)).qp 6).head)
      = (.failed, 0) := by decide +kernel

/-- The 32 tags of a spoke, the first with a value. -/
def firstTag (t : Tag) : Vector Tag 32 := (Vector.replicate 32 .free).set 0 t

/-- The state of 12.4 before 200 µs: segment 50 outstanding under tag 0 of spoke 3, segment 52 on its issue list. -/
def late : State :=
  (((((({ State.reset with ctl.device := .ready }.setEntry 30
      { qp := 8, kind := some .gather, length := 768, state := .winding, cursor := 768, live := 2 }).setInflight 8 [30]).setSpoke 3
      { state := .up, timeout := 200, grant := 2, tags := firstTag (.outstanding (.read 50)) }).setSeg 50
      { entry := 30, length := 256, source := some ⟨0, 3, 0, false, false⟩, tag := some 0, state := .outstanding }).setSeg 52
      { entry := 30, offset := 512, length := 256, source := some ⟨0, 3, 512, false, false⟩, state := .issueWait }).setIssue 3
    [52])

/-- 12.4 at 200 µs: the spoke is FAULTED, its tag quarantined, and entry 30 DONE with SPOKE_TIMEOUT at offset 0, detail 3. -/
theorem test_timeout_faults :
    ((after late (.responseTimerExpiry 3 0)).spoke 3).state = .faulted ∧
      ((after late (.responseTimerExpiry 3 0)).spoke 3).tags[0] = .quarantined ∧
      ((after late (.responseTimerExpiry 3 0)).entry 30).state = .done ∧
      ((after late (.responseTimerExpiry 3 0)).entry 30).failed = some ⟨0, .spokeTimeout, 3⟩ := by decide +kernel
/-- 12.4 at 230 µs: the late response frees the tag and counts no link error. -/
theorem test_late_response :
    let t := after (after late (.responseTimerExpiry 3 0)) (.readResponse 3 0 0 (List.replicate 256 0))
    (t.spoke 3).tags[0] = .free ∧ (t.spoke 3).linkErrors = 0 := by decide +kernel

/-- The state of 12.2 after both reads: segment 6 about to be sent as a posted write on spoke 2, a FENCE and a GATHER behind. -/
def posted : State :=
  let s : State := { State.reset with ctl.device := .ready }
  let s := (s.setSpoke 2 { state := .up, timeout := 100, grant := 4, credits := 3 }).setInflight 5 [20, 21, 22]
  let s := s.setEntry 20 { qp := 5, kind := some .scatter, length := 512, state := .winding, cursor := 512, live := 1 }
  let s := (s.setEntry 21 { qp := 5, kind := some .fence, state := .gated }).setEntry 22
    { qp := 5, kind := some .gather, length := 256, state := .gated }
  let s := s.setSeg 6
    { entry := 20, offset := 256, length := 256, destination := some ⟨2, 2, 0x40000100, true, false⟩, slot := some 1
      state := .issueWait }
  (s.setIssue 2 [6]).setSlot 1 { holder := some 6 }

/-- 12.2: the posted write retires, entry 20 is DONE, and spoke 2 is in QP5's set. -/
theorem test_posted_write_sent :
    ((after posted (.requestSend 2)).entry 20).state = .done ∧ ((after posted (.requestSend 2)).posted 5)[2] = .member ∧
      ((after posted (.requestSend 2)).spoke 2).credits = 2 := by decide +kernel
/-- 12.2: the fence then takes the set and hands spoke 2 a flush request; the GATHER waits behind it. -/
theorem test_fence_flushes :
    let t := after (after posted (.requestSend 2)) (.fenceStart 21)
    (t.entry 21).state = .flushing ∧ (t.spoke 2).flushList = [21] ∧ (t.posted 5)[2] = .absent ∧
      ((after t (.gateRelease 22)).entry 22).state = .gated := by decide +kernel

/-! ## Witnesses of the obligations' hypotheses: the machine, records and windows -/

/-- A READY device: QP0 with rings of 8, one command handed over, and carrier in on every spoke. -/
def ready : State :=
  { State.reset with ctl.device := .ready, sp.carrierIn := Vector.replicate 8 true }.setQp 0
    { state := .running, sqBase := 0x1000, sqSize := 8, cqBase := 0x2000, cqSize := 8, notify := .all, tail := 1 }

theorem witness_StepRunsFrontCommand :
    { ready with pending := [.enableSet] }.pending = .enableSet :: [] ∧ ready.pending = [] := ⟨rfl, rfl⟩

theorem witness_StepKeepsSafe :
    { State.reset with pending := [.enableSet] }.Safe ∧
      ∃ t, step { State.reset with pending := [.enableSet] } = .next t := by
  refine ⟨⟨?_, ⟨by decide, by decide, by decide⟩, ⟨⟨?_, ?_⟩, ⟨?_, ?_⟩⟩,
    (State.reset.resetBlocks_accounts .reset (by decide)).of_same (by decide +kernel) (by decide +kernel) (by decide +kernel)
      (by decide +kernel) (by decide)⟩, _, rfl⟩
  · intro k
    refine ⟨?_, ?_, ?_, ?_, ?_, ?_, ?_⟩
    all_goals revert k; decide +kernel
  all_goals simp only [Window.formed, Window.apart]; decide +kernel

theorem witness_PostedWritesStayInOrder :
    (∃ t, step { ready with pending := [.powerOnReset] } = .next t) ∧ (∃ t, step { ready with pending := [.functionReset] } = .next t)
      ∧ ∃ t, step { ready with pending := [.enableSet] } = .next t := ⟨⟨_, rfl⟩, ⟨_, rfl⟩, ⟨_, rfl⟩⟩

theorem witness_AdminRegistersKept :
    (∀ o v, Instr.functionReset ≠ .registerWriteOther o v) ∧ (∀ o v, Instr.enableSet ≠ .registerWriteOther o v) ∧
      (∃ t, step { ready with pending := [.functionReset] } = .next t) ∧
      ∃ t, step { ready with pending := [.enableSet] } = .next t :=
  ⟨fun _ _ h => (nomatch h), fun _ _ h => (nomatch h), ⟨_, rfl⟩, ⟨_, rfl⟩⟩

theorem witness_SettlingRunsInternalRows : ready.settled = true := by decide +kernel

/-- The read of a command at place 0 under g = 7, nothing returned yet. -/
def commandRead : ReadInFlight :=
  { request := { requester := .command, address := 0x1000, length := 32 }, g := 7, returned := 0, buffer := List.replicate 32 0 }

/-- A READY device whose executor's command read is in flight at place 0. -/
def fetching : State := (ready.setExecutor .fetching).setPlace 0 { nextG := 0, read := some commandRead }

theorem fetching_read : fetching.CommandReadAt 0 commandRead := by
  refine ⟨by decide +kernel, rfl, ?_⟩
  intro q h
  exact absurd h (Fin.not_lt_zero q)

theorem witness_CommandReadRunsItsRow :
    fetching.CommandReadAt 0 commandRead ∧ commandRead.request.length = 32 ∧ commandRead.returned = 0 ∧
      commandRead.buffer.length = 32 ∧ (224#8).toNat = 0 + 32 * commandRead.g.val :=
  ⟨fetching_read, rfl, rfl, by decide, by decide⟩

/-- The bytes of a SPOKE_STOP of spoke 7 with tag 1. -/
def stopRecord : List Byte := [0x0B, 0, 0, 0, 1, 0, 0, 0, 7] ++ List.replicate 23 0

theorem witness_SoftwareRecordsReadBack :
    (stopRecord.length = 32 ∧ (decodeCommand stopRecord).command = some (.spokeStop 7) ∧
      (decodeCommand stopRecord).head = { tag := 1, reserved := false }) ∧
    ∃ d : Descriptor, d.length = 2 ^ 32 - 1 ∧ d.fabric = 2 ^ 64 - 1 ∧ d.near = 2 ^ 64 - 1 := by
  refine ⟨by decide +kernel, ⟨1, 0, 0, _, _, _⟩, rfl, rfl, rfl⟩

theorem witness_FramesCrossTheLink :
    RxFrame.fits (.readResponse 31 0 (List.replicate 256 0)) ∧ RxFrame.fits (.credit 255) ∧
      TxMessage.fits (.writeRequest none 0 (List.replicate 256 0)) ∧ TxMessage.fits .train :=
  ⟨by show (List.replicate 256 (0 : Byte)).length ≤ 256; rw [List.length_replicate], trivial,
    by show (List.replicate 256 (0 : Byte)).length ≤ 256; rw [List.length_replicate], trivial⟩

theorem witness_WrittenRecordsHoldTheirFields :
    (∃ x : Entry, x.length ≤ 2 ^ 20 ∧ x.errorOffset = 2 ^ 20 - 1 ∧ x.outcome.detail = 2 ^ 16 - 1) ∧
      (2 ^ 32 - 1 < 2 ^ 32 ∧ 4095 < 2 ^ 12) ∧ ∃ e : Event, e.count = 255 :=
  ⟨⟨{ kind := some .gather, length := 2 ^ 20, failed := some ⟨2 ^ 20 - 1, .unmapped, 2 ^ 16 - 1⟩ }, by decide +kernel⟩,
    by decide, ⟨⟨.queue 1, .queueFailed, .badIndex, 255⟩, rfl⟩⟩

theorem witness_EntryKeepsItsAccount :
    ({} : Entry).failed = none ∧ (∃ x : Entry, x.failed = some ⟨0, .unmapped, 256⟩) ∧ (0 : Nat) ≠ 1 ∧ (0 : Nat) < 1 ∧
      (0 : SpokeId) ≠ 7 ∧ (0 : SpokeId) < 7 := ⟨rfl, ⟨{ failed := some ⟨0, .unmapped, 256⟩ }, rfl⟩, by decide⟩

/-- The example's table with a READ_ONLY window P3 and a WRITE_DROP window P4 above S0. -/
def mixed : WindowTable :=
  ((table .loc).set 5 { enabled := true, base := 0x30000000, size := 0x1000, target := 2, access := .readOnly }).set 6
    { enabled := true, base := 0x30001000, size := 0x1000, target := 7, access := .writeDrop }

theorem mixed_ok : TableOk mixed := by
  refine ⟨?_, ?_⟩
  all_goals simp only [Window.formed, Window.apart]; decide +kernel

theorem witness_WindowsLeadToSpokes :
    TableOk mixed ∧
      (mixed[(4 : WindowId)].enabled = true ∧ mixed[(4 : WindowId)].base = 0x10000000 ∧ mixed[(4 : WindowId)].size = 0x10000) ∧
      (∀ id : WindowId, 2 ≤ id.val → mixed[id].enabled = true →
        ¬(mixed[id].base ≤ 0x1FFFFFFF ∧ 0x1FFFFFFF < mixed[id].base + mixed[id].size)) ∧
      (mixed[(0 : WindowId)].enabled = true ∧ mixed[(0 : WindowId)].base = 0 ∧ mixed[(0 : WindowId)].size = 0x20000000) ∧
      (∀ id : WindowId, mixed[id].enabled = true →
        ¬(mixed[id].base ≤ 0x20000000 ∧ 0x20000000 < mixed[id].base + mixed[id].size)) ∧
      regionAt mixed 0x1FFFFFFF ≠ none := ⟨mixed_ok, by decide +kernel⟩

/-- A state with the mixed table, a pending change of P3, and a segment of kind k from a fabric address to a near field. -/
def resolving (k : Kind) (fabric near : Nat) : State :=
  (({ State.reset with
      wu.windows := mixed
      wu.quiesce := some
        { window := 5, old := some ⟨0x30000000, 0x1000⟩, new := none, contents := {}, waited := 0, counted := [], held := [] }
      }.setEntry
    0 { qp := 1, kind := some k, length := 256, fabric := fabric, near := near, state := .winding, live := 1 }).setSeg 0
    { length := 256, state := .resolving })

theorem witness_BoundaryEndsTheRegion :
    TableOk mixed ∧ boundary mixed 0x20000000 < 2 ^ 48 ∧ 2 ^ 48 - 1 < 2 ^ 48 ∧ State.reset.wu.quiesce = none ∧
      (resolving .gather 0 0).wu.quiesce ≠ none := ⟨mixed_ok, by decide +kernel⟩

theorem witness_SideResolvesByItsRegion :
    TableOk mixed ∧ regionAt mixed (2 ^ 48 - 1) = none ∧
      (∃ r, regionAt mixed 0x0FFFFFFF = some r ∧ regionAt mixed (0x0FFFFFFF + 0) = some r ∧
        regionAt mixed (0x0FFFFFFF + 1) ≠ some r) ∧
      (∃ r, regionAt mixed 0x30000F00 = some r ∧ (∀ x : Fin 256, regionAt mixed (0x30000F00 + x.val) = some r) ∧
        mixed[r.window].access = .readOnly) ∧
      (∃ r, regionAt mixed 0x30001F00 = some r ∧ (∀ x : Fin 256, regionAt mixed (0x30001F00 + x.val) = some r) ∧
        mixed[r.window].access = .writeDrop) :=
  ⟨mixed_ok, by decide +kernel, ⟨_, rfl, by decide +kernel⟩, ⟨_, rfl, by decide +kernel⟩, ⟨_, rfl, by decide +kernel⟩⟩

/-- The outcome of one side of the segment of `resolving`. -/
def sideOf (k : Leg) (write : Bool) (a : Nat) : SideOutcome := resolveSide mixed .single .single k write a 256

theorem witness_SegmentAsksResolution :
    sideOf .destination true 0x30000F00 = .failed ⟨.windowAccess, 256 + 5⟩ ∧
      sideOf .destination true 0x30001F00 = .dropped ∧ sideOf .destination true 0x40000000 = .failed ⟨.unmapped, 256⟩ ∧
      sideOf .destination true 0 = .routed ⟨0, 3, 0, false, false⟩ ∧ sideOf .source false 0x40000000 = .failed ⟨.unmapped, 0⟩ ∧
      sideOf .source false 0x30001F00 = .routed ⟨6, 7, 0x30001F00, false, false⟩ ∧
      (∀ k : Kind, ((resolving k 0x30000FFF 0).entry 0).kind = some k) ∧
      (∀ q ∈ (resolving .gather 0x30000FFF 0).wu.quiesce, (resolving .gather 0x30000FFF 0).touchesChange 0 q = true) ∧
      (∀ q ∈ (resolving .gather 0x30001000 0).wu.quiesce, (resolving .gather 0x30001000 0).touchesChange 0 q = false) := by
  refine ⟨?_, ?_, ?_, ?_, ?_, ?_, ?_, ?_, ?_⟩
  all_goals first | decide +kernel | (intro k; rfl)

/-! ## Witnesses: segments, slots and translation -/

/-- A route to spoke k. -/
def routeTo (k : SpokeId) (earlier : Bool) : Route := ⟨2, k, 0x100, false, earlier⟩

/-- Segment 127 of entry 47, a transfer of kind k of QP15, holding slot 63, with both routes to spoke 7, which is UP. -/
def holding (k : Kind) (x : Segment) : State :=
  ((((({ State.reset with ctl.device := .ready }.setEntry 47
      { qp := 15, kind := some k, length := 512, near := 0x1000, state := .winding, cursor := 512, live := 1, stop := some 512
        }).setInflight 15 [47]).setSpoke 7 { state := .up, grant := 16, credits := 16 }).setSlot 63 { holder := some 127 }).setHeld
    15 1).setSeg 127
    { x with
      entry := 47, offset := 256, length := 256, source := some (routeTo 7 false), destination := some (routeTo 7 true)
      slot := some 63 }

theorem witness_SegmentRetires :
    let s := holding .gather {}
    (s.seg 127).slot.isSome = true ∧ (s.entry 47).state = .winding ∧ (s.entry 47).live - 1 = 0 ∧
      (s.entry 47).stop.isSome = true := by decide +kernel

theorem witness_SegmentJoinsIssueList :
    ((holding .gather {}).seg 127).source = some (routeTo 7 false) ∧ ((holding .gather {}).spoke 7).state = .up ∧
      (holding .gather {}).headOf 7 = 7 ∧ ((holding .fill {}).seg 127).destination = some (routeTo 7 true) := by decide +kernel

/-- Segment 9 waits for a slot behind segment 8, whose queue pair holds 16 slots; slots 0 to 62 are held. -/
def waiting (k : Kind) (marked : Bool) : State :=
  ((((({ State.reset with rb.slots := (Vector.replicate 64 ({ holder := some 0 } : Slot)).set 63 {}, rb.waiting := [8, 9] }.setEntry 1
      { qp := 1, kind := some .relay, state := .winding, live := 1 }).setEntry 2
      { qp := 2, kind := some k, state := .winding, live := 1 }).setHeld 1 16).setHeld 2 15).setSeg 8
    { entry := 1, length := 1, state := .slotWait }).setSeg 9
    { entry := 2, length := 1, state := .slotWait, host := some 64, retranslate := marked }

theorem witness_SlotGrantServesOldestEligible :
    (∀ m : Bool, ((waiting .scatter m).slot 63).holder = none ∧
      (∀ f : SlotId, f < 63 → ((waiting .scatter m).slot f).holder ≠ none) ∧ (waiting .scatter m).rb.waiting = [8] ++ 9 :: [] ∧
      (∀ h ∈ [(8 : SegId)], 16 ≤ (waiting .scatter m).held ((waiting .scatter m).entry ((waiting .scatter m).seg h).entry).qp) ∧
      (waiting .scatter m).held 2 < 16 ∧ ((waiting .scatter m).entry 2).kind = some .scatter ∧
      ((waiting .scatter m).seg 9).retranslate = m ∧ ((waiting .scatter m).seg 9).host = some 64) ∧
    ((waiting .gather false).entry 2).kind = some .gather ∧
    (∀ h ∈ State.reset.rb.waiting, 16 ≤ State.reset.held (State.reset.entry (State.reset.seg h).entry).qp) := by
  refine ⟨?_, ?_, ?_⟩
  · intro m
    cases m <;> decide +kernel
  · decide +kernel
  · decide +kernel

/-- Segment 0 of a transfer of kind k at IOVA 2^20 + 4096 under context 3; pages are 4 KiB. -/
def asking (k : Kind) (c : Context) : State :=
  (((({ State.reset with tu.contexts := State.reset.tu.contexts.set 3 c }.setQp 1 { state := .running, context := 3 }).setEntry 0
    { qp := 1, kind := some k, length := 8192, near := 0x100000, state := .running, live := 1 }).setSeg 0
    { offset := 4096, length := 256, state := .translating }))

/-- A walk for the page asked for. -/
def pageWalk (stale : Bool) : Walk := { key := ⟨3, 257⟩, address := 0x808, stale := stale, joined := [5] }

theorem witness_SegmentTranslates :
    ((asking .gather {}).context 3).mode = .off ∧ ((asking .gather { mode := .bypass }).entry 0).near + 4096 < 2 ^ 48 ∧
      (∃ s : State, (s.context 0).mode = .bypass ∧ (s.entry 0).near + (s.seg 0).offset = 2 ^ 48) ∧
      ((asking .gather { mode := .translate, dirLength := 257 }).context 3).dirLength ≤ (0x100000 + 4096) / 4096 ∧
      (0x100000 + 4096) / 4096 < ((asking .gather { mode := .translate, dirLength := 258 }).context 3).dirLength ∧
      (let s := asking .gather { mode := .translate, dirLength := 258 }
       let t : State := { s with tu.cache := s.tu.cache.set 31 (some ⟨⟨3, 257⟩, 7, true, true⟩) }
       t.tu.cache[(31 : CacheId)] = some ⟨⟨3, 257⟩, 7, true, true⟩ ∧ ∀ h : CacheId, h < 31 → t.tu.cache[h] = none) ∧
      (let s := asking .gather { mode := .translate, dirLength := 258 }
       ((s.setWalk 3 (some (pageWalk false))).walk 3 = some (pageWalk false) ∧
          (s.setWalk 3 (some (pageWalk false))).walk 2 = none) ∧
        (s.setWalk 3 (some (pageWalk true))).walk 0 = none ∧
        ∀ w, ({ s with tu.walks := Vector.replicate 4 (some (pageWalk true)) } : State).walk w ≠ none) ∧
      ((asking .gather {}).seg 0).slot = none ∧ ((holding .gather {}).seg 127).slot = some 63 ∧
      ((holding .scatter {}).entry 47).kind = some .scatter := by
  refine ⟨by decide +kernel, by decide +kernel, ?_, ?_⟩
  · exact ⟨{ State.reset.setEntry 0 { near := 2 ^ 48 } with tu.contexts := State.reset.tu.contexts.set 0 { mode := .bypass } }, by
      decide +kernel⟩
  · decide +kernel

/-! ## Witnesses: events, messages and registers -/

/-- Seven events of spokes and one of QP15 with count 255, the eighth. -/
def eightEvents : List Event :=
  ([0, 1, 2, 3, 4, 5, 6] : List SpokeId).map (fun k => ⟨.spoke k, .spokeUp, .none, 1⟩) ++ [⟨.queue 15, .queueFailed, .badIndex, 255⟩]

theorem witness_EventRaised :
    (State.reset.EventsOk ∧ State.reset.ctl.device = .disabled) ∧
      ({ ready with au.events := eightEvents }.EventsOk ∧ eightEvents.length = 8 ∧
        eightEvents = eightEvents.take 7 ++ ⟨.queue 15, .queueFailed, .badIndex, 255⟩ :: [] ∧
        ∀ e ∈ eightEvents, ¬(e.source = .spoke 7 ∧ e.kind = .spokeUp)) ∧
      ({ ready with au.events := eightEvents.take 7 }.EventsOk ∧ (eightEvents.take 7).length < 8 ∧
        ∀ e ∈ eightEvents.take 7, ¬(e.source = .spoke 7 ∧ e.kind = .spokeUp)) := by
  refine ⟨⟨⟨?_, ?_, ?_⟩, ?_⟩, ⟨⟨?_, ?_, ?_⟩, ?_⟩, ⟨?_, ?_, ?_⟩, ?_⟩
  all_goals decide +kernel

theorem witness_InterruptMessages :
    ready.qe.arms[(15 : VectorId)] = .armed ∧ ready.hp.messagesEnabled = false ∧
      (ringOfFour 0 0 true).hp.messagesEnabled = true ∧
      ({ ready with qe.arms := ready.qe.arms.set 15 .fired } : State).qe.arms[(15 : VectorId)] = .fired := by decide +kernel

theorem witness_SqTailWrite :
    State.reset.ctl.device = .disabled ∧ (ready.ctl.device = .ready ∧ (7#32).toNat < (ready.qp 0).sqSize ∧
      (ready.qp 0).sqSize ≤ (8#32).toNat) ∧ (ready.qp 15).state ≠ .running ∧
    ((ringOfFour 0 0 true).qp 6).state = .running ∧ (15#32).toNat < ((ringOfFour 0 0 true).qp 6).sqSize ∧
      ((ringOfFour 0 0 true).qp 6).sqSize ≤ (16#32).toNat := by decide +kernel

/-- `ringOfFour` with another queue pair state. -/
def inState (x : QpState) : State := (ringOfFour 3 0 true).modQp 6 fun q => { q with state := x }

theorem witness_CqHeadWrite :
    State.reset.ctl.device = .disabled ∧ (inState .empty).qpState 6 = .empty ∧ (inState .running).headGood 6 3 = true ∧
      (inState .running).headGood 6 4 = false ∧ (ringOfFour 2 0 true).headGood 6 3 = false ∧
      (inState .draining).headGood 6 4 = false ∧ (inState .draining).qpState 6 ≠ .running ∧
      (inState .draining).qpState 6 ≠ .empty ∧ ready.headGood 0 8 = false ∧ ready.qpState 0 = .running := by decide +kernel

theorem witness_RegisterWindow :
    ((0x180 : BitVec 12) ∉ [0x000, 0x004, 0x008, 0x010, 0x014, 0x018, 0x01C] ∧
        ¬(0x100 ≤ (0x180 : BitVec 12).toNat ∧ (0x180 : BitVec 12).toNat < 0x180)) ∧
      ((0x0FC : BitVec 12) ∉ [0x000, 0x004, 0x008, 0x010, 0x014, 0x018, 0x01C] ∧ ¬(0x100 ≤ (0x0FC : BitVec 12).toNat)) ∧
      ready.ctl.device = .ready ∧ (ready.qp 15).state = .empty := by decide +kernel

theorem witness_DeviceEntersAndLeavesService :
    ready.ctl.device ≠ .disabled ∧ (State.reset.ctl.device = .disabled ∧ ¬RingFits State.reset.ctl.adminSqBase.toNat 0 32) ∧
      (configured.ctl.device = .disabled ∧ RingFits configured.ctl.adminSqBase.toNat 64 32 ∧
        RingFits configured.ctl.adminCqBase.toNat 128 16) ∧
      (let s : State := { State.reset with ctl.device := .stopping }
       s.ctl.device = .stopping ∧ (∀ k, (s.spoke k).state = .off) ∧ (∀ i, (s.seg i).state = .retired) ∧
         (∀ e, (s.entry e).state = .free) ∧ (∀ p, (s.place p).read = none) ∧ s.hp.fetchList = [] ∧ s.hp.walkList = [] ∧
         s.hp.dataList = [] ∧ s.hp.writes = []) := by
  refine ⟨?_, ?_, ?_, ?_⟩
  all_goals decide +kernel

theorem witness_EnableClearBeginsStopping :
    State.reset.ctl.device = .disabled ∧ ready.ctl.device = .ready ∧ ((holding .gather {}).spoke 7).state = .up ∧
      (47 : EntryId) ∈ (holding .gather {}).inflight 15 ∧ ((holding .gather {}).spoke 0).state = .off ∧
      (let q : Quiesce :=
        { window := 2, old := none, new := none, contents := {}, waited := 1, counted := [126], held := [127] }
       let s : State :=
        { holding .gather {} with
          ctl.device := .ready
          wu.quiesce := some q
          hp.fetchList := [{ requester := .descriptor 15, address := 0x8000, length := 32 }] }
       s.ctl.device = .ready ∧ s.wu.quiesce = some q ∧ q.held ≠ [] ∧ s.hp.fetchList ≠ [] ∧
         ∃ e ∈ s.inflight 15, (s.entry e).state ≠ .free) := by decide +kernel

/-! ## Witnesses: fetches, host reads and records -/

/-- QP1 has a descriptor to fetch, and QP0 a command. -/
def fetchable : State :=
  ready.setQp 1 { state := .running, sqBase := 0x8000, sqSize := 4096, cqSize := 4, depth := 1, tail := 0, fetchIndex := 4095 }

theorem witness_FetchesServeTheirTurn :
    (fetchable.Eligible 1 ∧ (∀ m, fetchable.Eligible m → fetchTurn fetchable.qe.fetchPtr 1 ≤ fetchTurn fetchable.qe.fetchPtr m) ∧
        (fetchable.entry 0).state = .free) ∧
      (∀ n, ¬State.reset.Eligible n) ∧ (fetchable.au.executor = .idle ∧ 0 < fetchable.pendingCount 0) ∧
      State.reset.pendingCount 0 = 0 := by
  refine ⟨⟨⟨by decide, ?_, ?_, ?_, ?_, ?_⟩, ?_, ?_⟩, ?_, ?_, ?_⟩
  case refine_6 =>
    intro m h
    have hc := h.client
    clear h
    revert hc
    revert m
    decide +kernel
  case refine_8 => exact fun n h => absurd h.ready (by decide)
  all_goals decide +kernel

/-- Three requests, one of each kind, and a write wait; the walk was served last. -/
def requesting : State :=
  { ready with
    hp.fetchList := [⟨.command, 0x1000, 32⟩], hp.walkList := [⟨.walk 0, 8, 8⟩], hp.dataList := [⟨.data 127, 64, 256⟩]
    hp.lastKind := .walk, hp.writes := [.message 15] }

/-- Every place of the tracker holds a read. -/
def busy : State :=
  { State.reset with hp.places := Vector.replicate 32 { read := some ⟨⟨.walk 0, 8, 8⟩, 0, 0, [0, 0, 0, 0, 0, 0, 0, 0]⟩ } }

theorem witness_HostPortServesInTurn :
    (requesting.place 0).read = none ∧ requesting.requests .data = ⟨.data 127, 64, 256⟩ :: [] ∧
      (∀ j ∈ [ReadKind.fetch, .walk, .data], readTurn requesting.hp.lastKind .data ≤ readTurn requesting.hp.lastKind j) ∧
      requesting.hp.writes = .message 15 :: [] ∧ (∀ p, (busy.place p).read ≠ none) ∧
      (∀ k ∈ [ReadKind.fetch, .walk, .data], State.reset.requests k = []) ∧ State.reset.hp.writes = [] := by decide +kernel

/-- Place 31 holds a data read of 256 bytes under g = 7, for the slot that segment 127 holds, with `n` bytes returned. -/
def reading (n : Nat) : State :=
  (holding .scatter {}).setPlace 31 { read := some ⟨⟨.data 127, 0x1100, 256⟩, 7, n, []⟩ }

theorem witness_ReadCompletionsPlaceBytes :
    (31 = (255#8).toNat % 32 ∧ 7 = (255#8).toNat / 32) ∧ (State.reset.place 31).read = none ∧
      ((reading 128).place 31).read = some ⟨⟨.data 127, 0x1100, 256⟩, 7, 128, []⟩ ∧
      ((reading 128).seg 127).slot = some 63 ∧
      (128 + ((List.replicate 127 (0 : Byte)).take (256 - 128)).length < 256 ∧
        256 ≤ 128 + ((List.replicate 128 (0 : Byte)).take (256 - 128)).length) ∧
      ((fetching.place 0).read = some commandRead ∧ ∀ i, commandRead.request.requester ≠ .data i) := by
  refine ⟨by decide, by decide +kernel, by decide +kernel, by decide +kernel, by decide +kernel, by decide +kernel, ?_⟩
  intro i h
  cases h

/-- A descriptor read of QP15. -/
def descriptorRead : ReadInFlight :=
  { request := { requester := .descriptor 15, address := 0, length := 32 }, g := 0, returned := 32, buffer := List.replicate 32 0 }

/-- QP15, in a state, fetches into entry 47 behind entry 46. -/
def inFlight (x : QpState) (d : DeviceState) : State :=
  ((({ State.reset with ctl.device := d }.setQp 15 { state := x, sqSize := 4, fetchIndex := 3, fetching := true }).setInflight 15
    [46, 47]).setEntry 46 { qp := 15, state := .done }).setEntry 47 { qp := 15, state := .fetching }

theorem witness_FetchAndDataReadsEnd :
    (∀ x ∈ [QpState.running, .failed, .draining, .aborting, .empty], ∀ d ∈ [DeviceState.ready, .halted, .stopping],
      (inFlight x d).inflight 15 = [46] ++ 47 :: [] ∧ ((inFlight x d).entry 47).state = .fetching ∧
        ((inFlight x d).entry 47).qp = 15 ∧ (∀ f ∈ [(46 : EntryId)], ((inFlight x d).entry f).state ≠ .fetching) ∧
        ((inFlight x d).qp 15).state = x ∧ (inFlight x d).ctl.device = d) ∧
      descriptorRead.request.requester = .descriptor 15 ∧
      ∀ r ∈ ((reading 256).place 31).read, r.request.requester = .data 127 := by decide +kernel

theorem witness_CommandReadEnds :
    commandRead.request.requester = .command ∧ (decodeCommand commandRead.buffer).command = none ∧
      fetching.ctl.device = .ready ∧ State.reset.ctl.device ≠ .ready ∧ (∀ p, (State.reset.place p).read = none) ∧
      ({ fetching with ctl.device := .halted } : State).CommandReadAt 0 commandRead := by
  refine ⟨by decide, by decide +kernel, by decide +kernel, by decide, by decide +kernel, ?_⟩
  exact ⟨fetching_read.read, rfl, fetching_read.first⟩

theorem witness_HeadEntryPosted :
    (let s := ringOfFour 2 0 true
     s.ctl.device = .ready ∧ s.inflight 6 = 0 :: [] ∧ (s.entry 0).state = .done ∧ (s.entry 0).qp = 6 ∧ s.ringSpace 6 = true ∧
      (s.qp 6).notify = .all) ∧
    ((ringOfFour 2 0 true).modQp 6 fun q => { q with notify := .flagged }).ringSpace 6 = true ∧
    (ringOfFour 3 0 true).ringSpace 6 = false ∧ (inState .aborting).qpState 6 = .aborting ∧ State.reset.inflight 6 = [] := by
  decide +kernel

/-- An executor that holds a completion, and an event behind it. -/
def holdsCompletion : State :=
  { ready with au.executor := .posting ⟨0x0D, 1, 7, 0⟩ .ok 64, au.events := [⟨.spoke 0, .spokeUp, .none, 1⟩], au.overflow := true }

theorem witness_AdminRecordsWritten :
    holdsCompletion.au.executor = .posting ⟨0x0D, 1, 7, 0⟩ .ok 64 ∧ holdsCompletion.ctl.device = .ready ∧
      holdsCompletion.ringSpace 0 = true ∧ (∀ c st i, ready.au.executor ≠ .posting c st i) ∧ ready.au.events = [] ∧
      (holdsCompletion.setExecutor .idle).au.events = ⟨.spoke 0, .spokeUp, .none, 1⟩ :: [] ∧
      State.reset.ctl.device ≠ .ready := by
  refine ⟨rfl, rfl, by decide +kernel, ?_, rfl, rfl, by decide⟩
  intro c st i h
  cases h

/-! ## Witnesses: administration commands -/

/-- A READY device that takes a command from place 0: context 3 in use by QP1, context 15 set, QP14 to be created, spoke 3 UP,
spoke 7 OFF, and the windows of the examples. -/
def commanding : State :=
  ((({ fetching with
      wu.windows := mixed
      tu.contexts := (State.reset.tu.contexts.set 3 { mode := .bypass }).set 15 { mode := .translate, dirLength := 1 }
      }.setQp 1 { state := .running, context := 3 }).setSpoke 3 { state := .up, grant := 1, credits := 1 }))

theorem commanding_read : commanding.CommandReadAt 0 commandRead :=
  ⟨fetching_read.read, rfl, fetching_read.first⟩

/-- A head with no reserved bit set. -/
def clean : CommandHead := { tag := 0xFFFFFFFF, reserved := false }

/-- CREATE_QUEUE of QP14 at the ends of its ranges. -/
def create : CreateQueue :=
  { qp := 14, context := 15, depth := 16, vector := 15, notify := 2, sqSize := 4096, cqSize := 4, sqBase := 2 ^ 64 - 131072
    cqBase := 0 }

/-- SET_WINDOW of P5 to the top of the fabric space. -/
def topWindow : SetWindow :=
  { window := 7, target := 7, form := 1, access := 2, posted := true, base := 0xFFFFFFFFF000, size := 0x1000 }

/-- SET_CONTEXT of context 15 at the ends of its ranges. -/
def topContext : SetContext := { context := 15, mode := 2, pageSize := 2, dirLength := 1048576, dirBase := 2 ^ 64 - 8388608 }

theorem accepts_clean (c : AdminCommand) (hp : commanding.ParamsOk c) (hb : ¬commanding.Busy c) (hu : ¬commanding.Unfit c)
    (hc : ¬commanding.Collides c) : commanding.Accepts clean c := ⟨rfl, hp, hb, hu, hc⟩

theorem witness_CommandsCheckedInOrder :
    commanding.CommandReadAt 0 commandRead ∧ commanding.ctl.device = .ready ∧ clean.reserved = false ∧
      ¬commanding.ParamsOk (.createQueue { create with qp := 16 }) ∧
      (commanding.ParamsOk (.clearContext 3) ∧ commanding.Busy (.clearContext 3)) ∧
      (commanding.ParamsOk (.spokeStop 7) ∧ ¬commanding.Busy (.spokeStop 7) ∧ commanding.Unfit (.spokeStop 7)) ∧
      (commanding.ParamsOk (.setWindow { topWindow with base := 0x30001000 }) ∧
        ¬commanding.Busy (.setWindow { topWindow with base := 0x30001000 }) ∧
        ¬commanding.Unfit (.setWindow { topWindow with base := 0x30001000 }) ∧
        commanding.Collides (.setWindow { topWindow with base := 0x30001000 })) := by
  refine ⟨commanding_read, rfl, rfl, ?_⟩
  simp only [State.ParamsOk, State.Busy, State.Unfit, State.Collides, State.Names]
  decide +kernel

theorem witness_CreateQueueMakesRecord :
    commanding.Accepts clean (.createQueue create) ∧ create.qp.toNat = (14 : QpId).val ∧ create.context.toNat = (15 : ContextId).val
      ∧ create.vector.toNat = (15 : VectorId).val := by
  refine ⟨accepts_clean _ ?_ ?_ ?_ ?_, by decide, by decide, by decide⟩
  all_goals simp only [State.ParamsOk, State.Busy, State.Unfit, State.Collides]
  all_goals decide +kernel

theorem witness_DeleteQueueStopsEntries :
    (∀ m ∈ [(0 : Byte), 1], commanding.Accepts clean (.deleteQueue ⟨1, m⟩)) ∧
      (∀ x : EntryState, ∃ s : State, (s.entry 0).state = x ∧ (s.entry 0).live = 0) ∧
      ((holding .gather {}).entry 47).live ≠ 0 := by
  refine ⟨?_, fun x => ⟨State.reset.setEntry 0 { state := x }, ?_, ?_⟩, by decide +kernel⟩
  · intro m hm
    refine accepts_clean _ ?_ ?_ ?_ ?_
    all_goals simp only [State.ParamsOk, State.Busy, State.Unfit, State.Collides]
    all_goals revert m; decide +kernel
  all_goals cases x <;> decide +kernel

theorem witness_ContextCommandsChangeRecord :
    (∀ c ∈ [AdminCommand.setContext topContext, .setContext { topContext with mode := 1 }, .clearContext 15],
      commanding.Accepts clean c) ∧ topContext.context.toNat = (15 : ContextId).val := by
  refine ⟨?_, by decide⟩
  simp only [List.mem_cons, List.not_mem_nil, or_false]
  rintro c (rfl | rfl | rfl)
  all_goals
    refine accepts_clean _ ?_ ?_ ?_ ?_
    all_goals simp only [State.ParamsOk, State.Busy, State.Unfit, State.Collides]
    all_goals decide +kernel

theorem witness_InvalidationsMarkCovered :
    ∀ c ∈ [AdminCommand.invalidatePages ⟨15, 1048576, 0⟩, .invalidatePages ⟨3, 1, 1048575⟩, .invalidateContext 15],
      commanding.Accepts clean c := by
  simp only [List.mem_cons, List.not_mem_nil, or_false]
  rintro c (rfl | rfl | rfl)
  all_goals
    refine accepts_clean _ ?_ ?_ ?_ ?_
    all_goals simp only [State.ParamsOk, State.Busy, State.Unfit, State.Collides]
    all_goals decide +kernel

theorem witness_WindowCommandsQuiesce :
    (∀ c ∈ [AdminCommand.setWindow topWindow, .setWindow { topWindow with window := 1, base := 0x800000000000, size := 2 ^ 47 },
      .clearWindow 7], commanding.Accepts clean c) ∧
      ∃ x : Window, x.enabled = true ∧ x.base = topWindow.base.toNat ∧ x.size = topWindow.size.toNat ∧ x.target.val = 7 ∧
        x.form = .loc ∧ x.access = .writeDrop ∧ x.posted = true := by
  refine ⟨?_, ⟨⟨true, _, _, 7, .loc, .writeDrop, true⟩, rfl, rfl, rfl, rfl, rfl, rfl, rfl⟩⟩
  simp only [List.mem_cons, List.not_mem_nil, or_false]
  rintro c (rfl | rfl | rfl)
  all_goals
    refine accepts_clean _ ?_ ?_ ?_ ?_
    all_goals simp only [State.ParamsOk, State.Busy, State.Unfit, State.Collides]
    all_goals decide +kernel

theorem witness_SetBundleChangesLayout :
    (∀ l ∈ [(0 : Byte), 4], commanding.Accepts clean (.setBundle 1 l)) ∧
      ([.single, .pairLow, .pairHigh, .pairBoth, .quad] : List Layout)[(4 : Byte).toNat]? = some .quad := by
  refine ⟨?_, by decide⟩
  intro l hl
  refine accepts_clean _ ?_ ?_ ?_ ?_
  all_goals simp only [State.ParamsOk, State.Busy, State.Unfit, State.Collides]
  all_goals revert l; decide +kernel

theorem witness_SpokeCommandsAct :
    commanding.Accepts clean (.spokeStart ⟨7, 1⟩) ∧ (∀ m : SpokeId, commanding.headOf m = 7 → commanding.sp.carrierIn[m] = true) ∧
      (State.reset.headOf 7 = 7 ∧ State.reset.sp.carrierIn[(7 : SpokeId)] = false) ∧ commanding.Accepts clean (.spokeStop 3) ∧
      commanding.Accepts clean (.spokeReset 3) := by
  refine ⟨accepts_clean _ ?_ ?_ ?_ ?_, by decide +kernel, by decide +kernel, accepts_clean _ ?_ ?_ ?_ ?_,
    accepts_clean _ ?_ ?_ ?_ ?_⟩
  all_goals simp only [State.ParamsOk, State.Busy, State.Unfit, State.Collides, State.Names]
  all_goals decide +kernel

theorem witness_QueryWritesSnapshot :
    ∀ q ∈ [(⟨0, 7, 2 ^ 64 - 64⟩ : Query), ⟨1, 15, 2 ^ 64 - 576⟩, ⟨2, 0, 0⟩, ⟨3, 15, 2 ^ 64 - 64⟩],
      commanding.Accepts clean (.query q) := by
  intro q hq
  refine accepts_clean _ ?_ ?_ ?_ ?_
  all_goals simp only [State.ParamsOk, State.Busy, State.Unfit, State.Collides, State.Names]
  all_goals revert q; decide +kernel

/-! ## Witnesses: walks, gates, generation and the spokes -/

/-- Walk 3 for page 257 of `asking`, with segment 0 joined, and the other cache entries and waiters given. -/
def walking (stale : Bool) (cache : Vector (Option CacheEntry) 32) : State :=
  { (asking .gather { mode := .translate, dirLength := 258 }).setWalk 3 (some { pageWalk stale with joined := [0] }) with
    tu.cache := cache }

/-- The read of walk 3 with the 8 bytes of a directory entry. -/
def walkRead (v : List Byte) : ReadInFlight :=
  { request := { requester := .walk 3, address := 0x808, length := 8 }, g := 0, returned := 8, buffer := v }

theorem witness_WalksEndAndServeWaiters :
    ((walkRead [0x07, 0x50, 0, 0, 0, 0, 0, 0]).request.requester = .walk 3 ∧
      (∀ x : Bool, ∃ w, (walking x (Vector.replicate 32 none)).walk 3 = some w ∧ w.stale = x) ∧
      ((field [0x07, 0x50, 0, 0, 0, 0, 0, 0] 0 8).testBit 0 = true ∧
        4096 * (field [0x07, 0x50, 0, 0, 0, 0, 0, 0] 0 8 / 4096) < 2 ^ 64 ∧
        (field [0x06, 0x50, 0, 0, 0, 0, 0, 0] 0 8).testBit 0 = false) ∧
      ((walking false ((Vector.replicate 32 (some ⟨⟨0, 0⟩, 0, true, true⟩)).set 31 none)).tu.cache[(31 : CacheId)] = none ∧
        ∀ d : CacheId, d < 31 →
          (walking false ((Vector.replicate 32 (some ⟨⟨0, 0⟩, 0, true, true⟩)).set 31 none)).tu.cache[d] ≠ none) ∧
      (∀ c : CacheId, (walking false (Vector.replicate 32 (some ⟨⟨0, 0⟩, 0, true, true⟩))).tu.cache[c] ≠ none)) ∧
    (let s := asking .gather { mode := .translate, dirLength := 258 }
     (s.context (s.qp (s.entry (s.seg 0).entry).qp).context).mode = .translate ∧
       ((s.entry (s.seg 0).entry).near + (s.seg 0).offset) / 4096 < 258 ∧ (s.seg 0).slot = none) ∧
    ((holding .scatter {}).seg 127).slot ≠ none ∧
    ((∃ w, State.reset.walk w = none) ∧ ({ State.reset with tu.walkWait := [0] } : State).tu.walkWait ≠ []) ∧
    (∀ w, ({ State.reset with tu.walks := Vector.replicate 4 (some (pageWalk false)) } : State).walk w ≠ none) ∧
    State.reset.tu.walkWait = [] := by
  refine ⟨⟨rfl, ?_, ?_⟩, ?_⟩
  · intro x
    exact ⟨{ pageWalk x with joined := [0] }, by cases x <;> decide +kernel, rfl⟩
  all_goals decide +kernel

/-- QP1 holds entry 46, DONE or not, and behind it entry 47 of a kind, GATED; spoke 7 is UP and spoke 0 OFF, and both and
a marked spoke 3 are in its posted-spoke set. -/
def gated (ahead : EntryState) (k : Kind) (ordered : Bool) : State :=
  ((((State.reset.setInflight 1 [46, 47]).setEntry 46 { qp := 1, kind := some .gather, state := ahead }).setEntry 47
      { qp := 1, kind := some k, ordered := ordered, state := .gated }).setSpoke 7 { state := .up, grant := 1, credits := 1 }).setPosted
    1 ((((Vector.replicate 8 .absent).set 0 .member).set 3 (.marked .linkLost)).set 7 .member)

theorem witness_GatesOpenInOrder :
    (∀ x ∈ [EntryState.done, .running], ∀ o : Bool, ∀ k ∈ [Kind.gather, .scatter, .relay, .fill, .fence],
      (gated x k o).inflight ((gated x k o).entry 47).qp = [46] ++ 47 :: [] ∧ (47 : EntryId) ∉ [(46 : EntryId)] ∧
        ((gated x k o).entry 47).state = .gated ∧ ((gated x k o).entry 47).kind = some k ∧
        ((gated x k o).entry 47).ordered = o ∧ ((gated x k o).entry 46).state = x ∧
        ((gated x k o).entry 46).kind = some .gather) ∧
      ((gated .done .fence false).memberFails 1 0 = some .spokeUnavailable ∧ (∀ j : SpokeId, j < 0 → False) ∧
        (gated .done .fence false).memberFails 1 3 = some .linkLost ∧ (gated .done .fence false).memberFlushes 1 7 = true) ∧
      ∀ k, (((gated .done .fence false).setPosted 1 (Vector.replicate 8 .absent)).memberFails 1 k) = none := by
  refine ⟨by decide +kernel, ⟨by decide +kernel, fun j h => absurd h (Fin.not_lt_zero j), by decide +kernel,
    by decide +kernel⟩, by decide +kernel⟩

/-- The RELAY of the example and a GATHER that begins 16 bytes below a page end, RUNNING; segment 0 is held. -/
def generating (ptr : EntryId) : State :=
  (({ windowed with su.grantPtr := ptr }.setEntry 5 (relay 0)).setEntry 6
    { qp := 1, kind := some .gather, length := 4096, fabric := 0, near := 0x1FF0, state := .running }).setSeg 0 { state := .landed }

theorem witness_GenerationCutsNextSegment :
    (∀ p : EntryId × EntryId, p ∈ [((47 : EntryId), (5 : EntryId)), (5, 6)] →
      (((generating p.1).entry p.2).state = .running ∧ ((generating p.1).entry p.2).live < 16) ∧
      (∀ f, ((generating p.1).entry f).state = .running ∧ ((generating p.1).entry f).live < 16 →
        grantTurn (generating p.1).su.grantPtr p.2 ≤ grantTurn (generating p.1).su.grantPtr f) ∧
      ((generating p.1).seg 1).state = .retired ∧ ∀ j, j < 1 → ((generating p.1).seg j).state ≠ .retired) ∧
    (IsLeast
      {n | n = 256 ∨ n = 600 - 0 ∨ (False ∧ n = 0) ∨
        (True ∧ n = (generating 47).boundaryAt 0x03FFFFC0 - 0x03FFFFC0) ∨
        (True ∧ n = (generating 47).boundaryAt 0x0FFFFFA0 - 0x0FFFFFA0)} 64 ∧
     IsLeast
      {n | n = 256 ∨ n = 4096 - 0 ∨ (True ∧ n = 4096 - (0x1FF0 + 0) % 4096) ∨ (True ∧ n = (generating 5).boundaryAt 0 - 0) ∨
        (False ∧ n = 0)} 16) ∧
    (∀ e, ¬((State.reset.entry e).state = .running ∧ (State.reset.entry e).live < 16)) ∧
    ∀ i, (({ State.reset with su.segments := Vector.replicate 128 { state := .landed } } : State).seg i).state ≠ .retired := by
  refine ⟨by decide +kernel, ⟨⟨by decide +kernel, ?_⟩, ⟨by decide +kernel, ?_⟩⟩, by decide +kernel, by decide +kernel⟩
  all_goals
    rintro n (rfl | rfl | ⟨h, rfl⟩ | ⟨h, rfl⟩ | ⟨h, rfl⟩)
    all_goals first | exact h.elim | decide +kernel

/-- Segment 127, a leg of a transfer of kind k, at the head of spoke 7's issue list; the write is posted or not, and entry 5's
flush request waits. -/
def sending (k : Kind) (p : Bool) (x : Segment) (tags : Vector Tag 32) (flushes : List EntryId) : State :=
  (((holding k x).modSeg 127 fun y => { y with destination := some ⟨2, 7, 0, p, false⟩, slot := x.slot }).setIssue 7 [127]).setSpoke 7
    { state := .up, grant := 1, credits := 1, tags := tags, flushList := flushes }

/-- Every tag is quarantined but tag 31. -/
def lastFree : Vector Tag 32 := (Vector.replicate 32 .quarantined).set 31 .free

theorem witness_SpokeSendsHeads :
    (∀ f ∈ [[], [(5 : EntryId)]], ∀ g ∈ ([lastFree, Vector.replicate 32 .quarantined] : List (Vector Tag 32)),
      ∀ k ∈ [Kind.gather, .scatter, .relay, .fill], ∀ p : Bool, ∀ l ∈ [Leg.source, .destination],
      let s := sending k p { leg := l, slot := if k = .fill then none else some 63 } g f
      (s.spoke 7).state = .up ∧ 0 < (s.spoke 7).credits ∧ s.issue 7 = 127 :: [] ∧ (s.spoke 7).flushList = f ∧
        (s.spoke 7).tags = g ∧ (s.seg 127).leg = l ∧ (s.entry (s.seg 127).entry).kind = some k ∧
        (s.seg 127).source = some (routeTo 7 false) ∧ (s.seg 127).destination = some ⟨2, 7, 0, p, false⟩ ∧
        (s.seg 127).slot = if k = .fill then none else some 63) ∧
    (lastFree[(31 : TagId)] = .free ∧ ∀ h : TagId, h < 31 → lastFree[h] ≠ .free) ∧
    (∀ g : TagId, (Vector.replicate 32 Tag.quarantined)[g] ≠ .free) ∧ (State.reset.spoke 0).state ≠ .up := by decide +kernel

/-- An executor that waits on the command with an opcode and an object. -/
def waits (opcode : Byte) (object : Nat) : State := State.reset.setExecutor (.waiting ⟨opcode, 0, 0, object⟩)

theorem witness_LongCommandsEnd :
    (∀ c ∈ [[], [(0 : SegId)]],
      let s : State :=
        { State.reset with
          wu.quiesce := some { window := 7, old := none, new := none, contents := {}, waited := 1, counted := c, held := [3] } }
      ∀ q ∈ s.wu.quiesce, q.counted = c) ∧
    (∀ v ∈ [(⟨0, [], 32⟩ : Invalidation), ⟨1, [], 0⟩, ⟨0, [7], 0⟩],
      ({ State.reset with tu.invalidation := some v } : State).tu.invalidation = some v) ∧
    (∀ x ∈ [QpState.draining, .aborting],
      let s : State := { ready with ctl.device := .halted }.setQp 15 { state := x, fetchIndex := 4095 }
      (15 : QpId) ≠ 0 ∧ s.ctl.device ≠ .stopping ∧ (s.qp 15).state = x ∧ s.inflight 15 = [] ∧ (s.qp 15).fetching = false) ∧
    (inFlight .draining .ready).inflight 15 ≠ [] ∧
    (let s := State.reset.setSpoke 7 { state := .draining, tags := Vector.replicate 32 .quarantined }
     (s.spoke 7).state = .draining ∧ ∀ g : TagId, (s.spoke 7).tags[g] = .quarantined) ∧
    ((waits 0x0B 7).au.executor = .waiting ⟨0x0B, 0, 0, 7⟩ ∧ (0x0B : Byte) ∈ [(0x0B : Byte)] ∧ (0x0B : Byte) ∉ [(0x0C : Byte)] ∧
      (7 : Nat) ≠ 0 ∧ ∀ c, State.reset.au.executor ≠ .waiting c) := by
  refine ⟨by decide +kernel, by decide +kernel, by decide +kernel, by decide +kernel, by decide +kernel, rfl, by decide,
    by decide, by decide, ?_⟩
  intro c h
  cases h

theorem witness_FlushAndPostedEnds :
    (∀ n ∈ [0, 1, 2], ((State.reset.setEntry 47 { state := .flushing, flushes := n }).entry 47).state = .flushing) ∧
      ((State.reset.entry 47).state ≠ .flushing) ∧ (∃ l : LowestFailure, l.failure.detail ≤ (7 : SpokeId).val) ∧
      ∀ st ∈ [none, some Status.linkLost], st = none ∨ st = some .linkLost := by
  refine ⟨by decide +kernel, by decide, ⟨⟨0, .linkLost, 7⟩, by decide⟩, by decide⟩

/-- Spoke 7 in a state, its link error count, and tag 31 outstanding. -/
def faulting (x : SpokeState) (errors : Nat) (r : Request) : State :=
  State.reset.setSpoke 7 { state := x, linkErrors := errors, grant := 1, tags := (Vector.replicate 32 .free).set 31 (.outstanding r) }

theorem witness_SpokeFaults :
    (∀ x ∈ [SpokeState.off, .training, .up, .draining, .faulted, .resetting], ∀ n ∈ [14, 15, 16],
      ∀ r ∈ [Request.read 127, .write 127, .flush (some 47), .flush none],
      ((faulting x n r).spoke 7).state = x ∧ ((faulting x n r).spoke 7).linkErrors = n ∧
        ((faulting x n r).spoke 7).tags[(31 : TagId)] = .outstanding r ∧
        ((faulting x n r).spoke 7).tags[(0 : TagId)] = .free) ∧
    (((late.setSpoke 3 { state := .up, grant := 1 }).spoke 3).state = .up ∧
      ((late.setSpoke 3 { state := .up, grant := 1 }).spoke 3).credits = 0 ∧
      (late.setSpoke 3 { state := .up, grant := 1 }).issue 3 ≠ []) ∧
    (State.reset.spoke 3).state ≠ .up := by decide +kernel

theorem witness_ReadDataLands :
    (∀ m : Bool, ∀ k ∈ [Kind.relay, .gather],
      ((holding k { retranslate := m, host := some 0x1100 }).seg 127).slot = some 63 ∧
        ((holding k { retranslate := m, host := some 0x1100 }).entry 47).kind = some k ∧
        ((holding k { retranslate := m, host := some 0x1100 }).seg 127).retranslate = m ∧
        ((holding k { retranslate := m, host := some 0x1100 }).seg 127).host = some 0x1100) := by decide +kernel

/-- Spoke 7 in a state, in its attempt n. -/
def training (x : SpokeState) (n : Nat) : State :=
  { State.reset with sp.carrierIn := Vector.replicate 8 true }.setSpoke 7 { state := x, attempt := n, grant := 16, credits := 15 }

theorem witness_TrainingAnswersOrFails :
    (∀ x ∈ [SpokeState.off, .training, .up, .draining, .faulted, .resetting], ∀ n ∈ [2, 3],
      (training x n).headOf 7 = 7 ∧ ((training x n).spoke 7).state = x ∧ ((training x n).spoke 7).attempt = n) ∧
    (1 ≤ (1 : Byte).toNat ∧ (16 : Byte).toNat ≤ 16 ∧ ¬1 ≤ (0 : Byte).toNat ∧ ¬(17 : Byte).toNat ≤ 16 ∧ (2 : Byte) ≠ 1) := by
  decide +kernel

theorem witness_ResetSequenceEnds :
    ((training .resetting 0).spoke ((training .resetting 0).headOf 7)).state = .resetting ∧
      ((training .up 0).spoke ((training .up 0).headOf 7)).state ≠ .resetting := by decide +kernel

theorem witness_ResponsesMatchedByTag :
    RxFrame.fits (.readResponse 32 0 (List.replicate 256 0)) ∧ RxFrame.fits (.writeAck 31 0) ∧ RxFrame.fits (.flushAck 255) ∧
    (32 ≤ (32 : Byte).toNat ∧ (31 : Byte).toNat = (31 : TagId).val) ∧
    (∀ x ∈ [SpokeState.off, .training, .up, .draining, .faulted, .resetting],
      ∀ r ∈ [Request.read 127, .write 127, .flush (some 47), .flush none],
      (faulting x 0 r).headOf 7 = 7 ∧ ((faulting x 0 r).spoke 7).state = x ∧
        ((faulting x 0 r).spoke 7).tags[(31 : TagId)] = .outstanding r) ∧
    (State.reset.spoke 0).tags[(31 : TagId)] = .free ∧ (Vector.replicate 32 Tag.quarantined)[(31 : TagId)] = .quarantined ∧
    ((List.replicate 256 (0 : Byte)).length ≤ 256 ∧ (List.replicate 256 (0 : Byte)).length = ((holding .gather {}).seg 127).length ∧
      (List.replicate 255 (0 : Byte)).length ≠ ((holding .gather {}).seg 127).length) := by
  refine ⟨?_, trivial, trivial, ?_⟩
  · show (List.replicate 256 (0 : Byte)).length ≤ 256
    rw [List.length_replicate]
  · decide +kernel

theorem witness_CreditsReturn :
    (((training .up 0).spoke ((training .up 0).headOf 7)).state = .up ∧ (1 : Byte) ≠ 0 ∧
      ((training .up 0).spoke 7).credits + (1 : Byte).toNat ≤ ((training .up 0).spoke 7).grant ∧
      ((training .up 0).spoke 7).grant < ((training .up 0).spoke 7).credits + (2 : Byte).toNat) ∧
    ((training .draining 0).spoke ((training .draining 0).headOf 7)).state ≠ .up := by decide +kernel

theorem witness_InvalidFramesDiscarded :
    decodeFrame (List.replicate 19 0) = none ∧ decodeFrame (encodeFrame (.credit 255)) = some (.credit 255) ∧
      decodeFrame (encodeFrame .resetAck) = some .resetAck ∧ 256 < (List.replicate 257 (0 : Byte)).length ∧
      (let pair : State := { State.reset with sp.low := .pairBoth }
       (pair.members (pair.headOf 3)).length = 2 ∧ ∀ f, dealBytes 2 f ≠ [[], [1]]) := by
  refine ⟨by decide +kernel, by decide +kernel, by decide +kernel, by decide +kernel, by decide +kernel, ?_⟩
  intro f h
  cases f with
  | nil => exact absurd h (by decide)
  | cons a f =>
    have := congrArg (fun l => l.getD 0 []) h
    simp [dealBytes, List.range_succ_eq_map] at this

/-- Frames dealt to two members come back as they were; a part dealt by another rule makes a frame without bytes; and a frame that
one member has not ended is not received (R121). -/
theorem test_receive_lanes :
    receiveFrames [(frameLanes 2 [1, 2, 3]).getD 0 [] ++ (frameLanes 2 [4]).getD 0 [],
        (frameLanes 2 [1, 2, 3]).getD 1 [] ++ (frameLanes 2 [4]).getD 1 []] = [some [1, 2, 3], some [4]] ∧
      receiveFrames ([[2], [1, 3]].map laneFrame) = [none] ∧
      receiveFrames [laneFrame [1], [.start, .byte 2]] = [] := by decide

/-- Every slot is held and queue pair 1 is at its cap: segments 10 and 11 hold slots 5 and 3, outstanding with tags 0 and 1 of spoke
3, and segments 12 and 13 wait. -/
def capped : State :=
  let y : Segment := { entry := 1, length := 1, state := .slotWait, host := some 64 }
  (((((((({ State.reset with
      rb.slots := ((Vector.replicate 64 ({ holder := some 0 } : Slot)).set 5 { holder := some 10 }).set 3 { holder := some 11 }
      rb.waiting := [12, 13] }.setEntry 1 { qp := 1, kind := some .scatter, length := 4, state := .running, live := 4 }).setHeld 1 16).setSeg
    10 { y with state := .outstanding, slot := some 5 }).setSeg 11 { y with state := .outstanding, slot := some 3 }).setSeg
    12 y).setSeg 13 y).setQp 1 { state := .running }).setSpoke 3
    { state := .up, tags := ((Vector.replicate 32 Tag.free).set 0 (.outstanding (.write 10))).set 1 (.outstanding (.write 11)) })

/-- A grant follows each freeing (R64): the first waiter takes slot 5 before slot 3 is freed. -/
theorem test_grant_after_each_freeing :
    let t := capped.endOutstanding 3 .linkLost
    (t.seg 12).slot = some 5 ∧ (t.seg 13).slot = some 3 ∧ t.rb.waiting = [] := by decide +kernel

theorem witness_CarrierLossEndsLink :
    (∀ x ∈ [SpokeState.off, .training, .up, .draining, .faulted, .resetting],
      (∀ m : SpokeId, (training x 1).headOf m = (training x 1).headOf 7 → (training x 1).sp.carrierIn[m] = true) ∧
        ((training x 1).spoke ((training x 1).headOf 7)).state = x) ∧
    ∃ m : SpokeId, State.reset.headOf m = State.reset.headOf 7 ∧ State.reset.sp.carrierIn[m] = false := by decide +kernel

end Sys2Proof.Tests
end

section
/-! SUPPORT. More rules for the state's updates and searches: one member replaced twice or by itself, and what the round robin
finds (R43, R142). -/

namespace Sys2Proof.Machine

namespace State

variable (s : State)

/-! ## Updates of one member after another -/

@[simp] theorem setQp_setQp (n : QpId) (x y : QueuePair) : (s.setQp n x).setQp n y = s.setQp n y := by
  simp [setQp, Vector.set_set]

@[simp] theorem setEntry_setEntry (e : EntryId) (x y : Entry) : (s.setEntry e x).setEntry e y = s.setEntry e y := by
  simp [setEntry, Vector.set_set]

theorem setEntry_self (e : EntryId) : s.setEntry e (s.entry e) = s := by simp [setEntry, entry]

theorem setSpoke_self (k : SpokeId) : s.setSpoke k (s.spoke k) = s := by simp [setSpoke, spoke]

end State

/-! ## Round robin -/

/-- The round robin finds the index with the property that is the fewest steps after the start. -/
theorem firstAfter_eq_some {n : Nat} [NeZero n] {start : Fin n} {p : Fin n → Bool} {i : Fin n} :
    firstAfter start p = some i ↔ p i = true ∧ ∀ j, p j = true → i - (start + 1) ≤ j - (start + 1) := by
  have h : firstAfter start p = (firstIndex n fun k => p (start + 1 + k)).map (start + 1 + ·) := List.find?_map
  simp only [h, Option.map_eq_some_iff, firstIndex_eq_some]
  constructor
  · rintro ⟨k, ⟨hk, first⟩, rfl⟩
    refine ⟨hk, fun j hj => ?_⟩
    rw [add_sub_cancel_left]
    by_contra hlt
    have := first _ (not_le.1 hlt)
    rw [add_sub_cancel, hj] at this
    cases this
  · rintro ⟨hi, least⟩
    refine ⟨i - (start + 1), ⟨by rwa [add_sub_cancel], fun j hj => ?_⟩, add_sub_cancel _ _⟩
    rw [Bool.eq_false_iff]
    intro hp
    have := least _ hp
    rw [add_sub_cancel_left] at this
    exact absurd hj (not_lt.2 this)

theorem firstAfter_eq_none {n : Nat} [NeZero n] {start : Fin n} {p : Fin n → Bool} :
    firstAfter start p = none ↔ ∀ i, p i = false := by
  simp only [firstAfter, List.find?_eq_none, List.mem_map, List.mem_finRange, true_and, forall_exists_index,
    forall_apply_eq_imp_iff, Bool.not_eq_true]
  exact ⟨fun h i => by simpa using h (i - (start + 1)), fun h k => h _⟩

end Sys2Proof.Machine
end

section
/-! SUPPORT. The transfer table's account (R6, R11, R15, R17, R18): the kind a byte names, the checks of a descriptor by the
code of its kind, and what an entry keeps of several failures. -/

namespace Sys2Proof

/-! ## The kinds by their codes (11.1) -/

/-- A kind byte names one of the six kinds by its code, or none. -/
theorem Kind.ofCode_cases (b : Byte) :
    (Kind.ofCode b = none ∧ (b.toNat = 0 ∨ 6 < b.toNat)) ∨ ∃ k : Kind, Kind.ofCode b = some k ∧ b.toNat = k.code := by
  unfold Kind.ofCode
  split
  case h_7 h1 h2 h3 h4 h5 h6 =>
    simp only [imp_false] at h1 h2 h3 h4 h5 h6
    exact .inl ⟨rfl, by omega⟩
  all_goals exact .inr ⟨_, rfl, by assumption⟩

theorem Kind.code_range (k : Kind) : ¬(k.code = 0 ∨ 6 < k.code) := by cases k <;> decide

theorem Kind.lengthOk_eq_false (k : Kind) (n : Nat) :
    k.lengthOk n = false ↔ if k.code ≤ 4 then n < 1 ∨ 1048576 < n else n ≠ 0 := by
  have h : k.lengthOk n = true ↔ if k.code ≤ 4 then 1 ≤ n ∧ n ≤ 1048576 else n = 0 := by
    cases k <;> simp [Kind.lengthOk, Kind.isData, Kind.code] <;> exact fun _ => Iff.rfl
  rw [← Bool.not_eq_true, h]
  split <;> omega

theorem Kind.isData_eq_false (k : Kind) : k.isData = false ↔ 5 ≤ k.code := by cases k <;> decide

theorem Kind.isData_iff (k : Kind) : k.isData = true ↔ k = .gather ∨ k = .scatter ∨ k = .relay ∨ k = .fill := by
  cases k <;> decide

theorem Kind.relay_iff (k : Kind) : k = .relay ↔ k.code = 3 := by cases k <;> decide

theorem Kind.mark_iff (k : Kind) : k = .mark ↔ k.code = 6 := by cases k <;> decide

theorem Kind.hostSide_iff (k : Kind) : k = .gather ∨ k = .scatter ↔ k.code ≤ 2 := by cases k <;> decide

/-- The kinds stand in the order of their codes. -/
theorem Kind.ofCode_eq_getD (b : Byte) :
    Kind.ofCode b =
      [none, some .gather, some .scatter, some .relay, some .fill, some .fence, some .mark].getD b.toNat none := by
  obtain ⟨hk, h⟩ | ⟨k, hk, h⟩ := Kind.ofCode_cases b <;> rw [hk]
  · obtain h | h := h
    · simp [h]
    · rw [List.getD_eq_default _ _ h]
  · rw [h]
    cases k <;> rfl

end Sys2Proof

namespace Sys2Proof.Machine

/-! ## Validation and admission (R6, R7) -/

/-- A flag above the two that are defined makes the flags byte 4 or more. -/
theorem undefinedFlags_iff (f : Byte) : f.extractLsb' 2 6 ≠ 0 ↔ 4 ≤ f.toNat := by
  have := f.isLt
  simp only [ne_eq, ← BitVec.toNat_inj, BitVec.extractLsb'_toNat, Nat.shiftRight_eq_div_pow, BitVec.ofNat_eq_ofNat,
    BitVec.toNat_ofNat]
  omega

/-- The near field as stored, by the kind byte (R6, R181). -/
theorem nearValue_ofCode (b : Byte) (near : Nat) :
    nearValue (Kind.ofCode b) near =
      if b.toNat = 0 ∨ 6 < b.toNat then 0
      else if b.toNat = 3 then (if near < 2 ^ 48 then near else 0)
      else if b.toNat = 4 then near % 2 ^ 32
      else near := by
  obtain ⟨hk, h⟩ | ⟨k, hk, h⟩ := Kind.ofCode_cases b <;> rw [hk]
  · rw [if_pos h]
    rfl
  · rw [h]
    cases k <;> rfl

/-- Only a MARK is DONE once validated (R7). -/
theorem ofCode_eq_mark (b : Byte) : Kind.ofCode b = some .mark ↔ b.toNat = 6 := by
  obtain ⟨hk, h⟩ | ⟨k, hk, h⟩ := Kind.ofCode_cases b <;> rw [hk]
  · exact iff_of_false nofun (by omega)
  · rw [Option.some_inj, Kind.mark_iff, h]

/-- What validation and admission make of an entry without a failure: the contents stored, the state and the failure by the
first check that fails. -/
theorem admitted_eq (x : Entry) (d : Descriptor) (h : x.failed = none) :
    x.admitted d =
      { x.store d with
        state := if (descriptorFault d).isSome ∨ d.kind.toNat = 6 then .done else .gated
        failed := (descriptorFault d).map fun k => { offset := 0, failure := { status := .badDescriptor, detail := k } } } := by
  have hk : (x.store d).kind = some .mark ↔ d.kind.toNat = 6 := ofCode_eq_mark d.kind
  have hf : (x.store d).failed = none := h
  unfold Entry.admitted
  cases descriptorFault d with
  | some detail => simp
  | none =>
    by_cases hm : d.kind.toNat = 6
    · simp [hk, hm, ← hf]
    · simp [hk, hm, ← hf]

/-- Settles O12: the checks by the code of the kind, and the admitted entry from what is stored. -/
theorem descriptorValidatedAndAdmitted : Obligations.DescriptorValidatedAndAdmitted := by
  refine ⟨fun d => ?_, fun n i d => ?_⟩
  · unfold descriptorFault
    obtain ⟨hk, h⟩ | ⟨k, hk, h⟩ := Kind.ofCode_cases d.kind <;> rw [hk]
    · rw [if_pos h]
    · simp only [h, if_neg k.code_range, Bool.not_eq_true', Kind.lengthOk_eq_false, undefinedFlags_iff, Bool.and_eq_true,
        Kind.isData_eq_false, Bool.or_eq_true, bne_iff_ne, Kind.relay_iff, Kind.hostSide_iff]
      rfl
  · rw [admitted_eq _ _ rfl]
    unfold Entry.store
    rw [nearValue_ofCode, Kind.ofCode_eq_getD]
    rfl

/-! ## Failures kept by an entry (R11, R15, R17, R18) -/

/-- Of two failures an entry keeps the one with the lower key, and the first of two with the same one: the key is the offset for
segments (R15), the spoke's number for a fence (R11). -/
def keepLower (key : LowestFailure → Nat) (old : Option LowestFailure) (new : LowestFailure) : Option LowestFailure :=
  match old with
  | none => some new
  | some l => if key new < key l then some new else some l

/-- The number of the failing spoke, which a fence's failure carries as its detail (R11). -/
def LowestFailure.detail (l : LowestFailure) : Nat := l.failure.detail

/-- A fence's failure at a spoke (R11). -/
def spokeFailureAt (k : SpokeId) (status : Status) : LowestFailure := { offset := 0, failure := spokeFailure status k }

theorem recordFailure_eq_keepLower (x : Entry) (o : Nat) (f : Failure) :
    x.recordFailure o f = keepLower LowestFailure.offset x.failed { offset := o, failure := f } := rfl

theorem recordSpoke_eq_keepLower (x : Entry) (k : SpokeId) (status : Status) :
    x.recordSpoke k status = keepLower LowestFailure.detail x.failed (spokeFailureAt k status) := rfl

/-- A failure with a higher key changes nothing after one with a lower key. -/
theorem keepLower_of_lt {key : LowestFailure → Nat} {a b : LowestFailure} (h : key a < key b) (old : Option LowestFailure) :
    keepLower key (keepLower key old a) b = keepLower key old a := by
  cases old with
  | none => exact if_neg (by omega)
  | some l =>
    by_cases hl : key a < key l
    · simp [keepLower, hl, Nat.not_lt.2 h.le]
    · simp [keepLower, hl, show ¬key b < key l by omega]

/-- A failure with a lower key replaces one with a higher key wherever it comes. -/
theorem keepLower_of_gt {key : LowestFailure → Nat} {a b : LowestFailure} (h : key a < key b) (old : Option LowestFailure) :
    keepLower key (keepLower key old b) a = keepLower key old a := by
  cases old with
  | none => exact if_pos h
  | some l =>
    by_cases hl : key b < key l
    · simp [keepLower, hl, h, h.trans hl]
    · simp [keepLower, hl]

theorem keepLower_comm {key : LowestFailure → Nat} {a b : LowestFailure} (h : key a ≠ key b) (old : Option LowestFailure) :
    keepLower key (keepLower key old a) b = keepLower key (keepLower key old b) a := by
  obtain h | h := Nat.lt_or_gt_of_ne h
  · rw [keepLower_of_lt h, keepLower_of_gt h]
  · rw [keepLower_of_lt h, keepLower_of_gt h]

/-- Bytes done is the smallest of the offsets that are present (R18). -/
theorem bytesDone_isLeast (x : Entry) :
    IsLeast {n | n = x.length ∨ (∃ l, x.failed = some l ∧ n = l.offset) ∨ x.stop = some n} x.bytesDone := by
  unfold Entry.bytesDone
  constructor
  · cases x.failed <;> cases x.stop <;> simp <;> omega
  · rintro n (rfl | ⟨l, hl, rfl⟩ | hs)
    · omega
    · simp [hl]
    · simp [hs]

theorem isData_any_iff (o : Option Kind) :
    o.any Kind.isData = true ↔ o = some .gather ∨ o = some .scatter ∨ o = some .relay ∨ o = some .fill := by
  cases o <;> simp [Kind.isData_iff]

/-- Settles O13: both accounts keep the failure with the lower key, which does not depend on the order. -/
theorem entryKeepsItsAccount : Obligations.EntryKeepsItsAccount := by
  refine ⟨fun x => ⟨bytesDone_isLeast x, fun h => ?_, fun l h => ?_⟩, fun x o₁ o₂ f₁ f₂ h => ?_, fun x o₁ o₂ f₁ f₂ hx h => ?_,
    fun x k₁ k₂ s₁ s₂ h => ?_, fun x k₁ k₂ s₁ s₂ hx h => ?_⟩
  · simp [Entry.outcome, Entry.errorOffset, h]
  · simp [Entry.outcome, Entry.errorOffset, h, isData_any_iff]
  · simp only [recordFailure_eq_keepLower]
    exact keepLower_comm h _
  · simp only [recordFailure_eq_keepLower]
    rw [keepLower_of_lt h, hx]
    rfl
  · simp only [recordSpoke_eq_keepLower]
    exact keepLower_comm (Fin.val_ne_of_ne h) _
  · simp only [recordSpoke_eq_keepLower]
    rw [keepLower_of_lt (show (spokeFailureAt k₁ s₁).detail < (spokeFailureAt k₂ s₂).detail from h), hx]
    rfl

end Sys2Proof.Machine
end

section
/-! SUPPORT. The end of a descriptor read and of a data read (R6 to R8, R22, R23, R49, R67, R92, R143 to R145). -/

namespace Sys2Proof.Machine

namespace State

variable (s : State)

/-- A client queue pair's state is its record's (R138). -/
theorem qpState_client {n : QpId} (h : n ≠ 0) : s.qpState n = (s.qp n).state := if_neg h

section
variable {s} {n : QpId} {e : EntryId} {a b : List EntryId}

/-- The first entry of the in-flight list that is FETCHING is the queue pair's FETCHING entry. -/
theorem fetchingEntry_eq_some (hl : s.inflight n = a ++ e :: b) (he : (s.entry e).state = .fetching)
    (ha : ∀ f ∈ a, (s.entry f).state ≠ .fetching) : s.fetchingEntry n = some e := by
  rw [fetchingEntry, hl]
  exact List.find?_eq_some_iff_append.2 ⟨by simp [he], a, b, rfl, fun f hf => by simp [ha f hf]⟩

/-- An entry that is no FLUSHING fence leaves its in-flight list and takes its reset values (R3, R22). -/
theorem freeEntry_eq (hl : s.inflight n = a ++ e :: b) (hq : (s.entry e).qp = n) (he : (s.entry e).state ≠ .flushing)
    (ha : e ∉ a) : s.freeEntry e = (s.setInflight n (a ++ b)).setEntry e {} := by
  rw [freeEntry, if_neg he, hq, hl, List.erase_append_right _ ha, List.erase_cons_head]

/-- A fetch that comes to nothing frees its entry (R8, R22). -/
theorem dropFetch_eq (hl : s.inflight n = a ++ e :: b) (hq : (s.entry e).qp = n) (he : (s.entry e).state = .fetching)
    (ha : ∀ f ∈ a, (s.entry f).state ≠ .fetching) (hn : e ∉ a) :
    s.dropFetch n = (s.setInflight n (a ++ b)).setEntry e {} := by
  rw [dropFetch, fetchingEntry_eq_some hl he ha]
  exact freeEntry_eq hl hq (by simp [he]) hn

/-- A descriptor is admitted into the FETCHING entry (R6, R7). -/
theorem admitFetch_eq (hl : s.inflight n = a ++ e :: b) (he : (s.entry e).state = .fetching)
    (ha : ∀ f ∈ a, (s.entry f).state ≠ .fetching) (bytes : List Byte) :
    s.admitFetch n bytes = s.setEntry e ((s.entry e).admitted (decodeDescriptor bytes)) := by
  rw [admitFetch, fetchingEntry_eq_some hl he ha]
  rfl

end

theorem readEnd_descriptor {r : ReadInFlight} {n : QpId} (h : r.request.requester = .descriptor n) (ok : Bool) :
    s.readEnd r ok = s.fetchEnd n (if ok then some r.buffer else none) := by rw [readEnd, h]

theorem readEnd_data {r : ReadInFlight} {i : SegId} (h : r.request.requester = .data i) (ok : Bool) :
    s.readEnd r ok = s.dataReadEnd i ok := by rw [readEnd, h]

/-- Whether a returned descriptor is discarded: the device is STOPPING or its client queue pair ABORTING or EMPTY (R22, R23). -/
abbrev DiscardsFetch (n : QpId) : Prop :=
  s.ctl.device = .stopping ∨ (s.qp n).state = .aborting ∨ (s.qp n).state = .empty

section
variable {s} {n : QpId}

theorem fetchEnd_discarded (hn : n ≠ 0) (h : s.DiscardsFetch n) (bytes : Option (List Byte)) :
    s.fetchEnd n bytes = (s.setQp n { s.qp n with fetching := false }).dropFetch n := by
  unfold fetchEnd
  rw [s.qpState_client hn]
  exact if_pos h

theorem fetchEnd_admitted (hn : n ≠ 0) (h : ¬s.DiscardsFetch n) (bytes : List Byte) :
    s.fetchEnd n (some bytes) =
      (s.setQp n
        { s.qp n with fetching := false, fetchIndex := ringNext (s.qp n).fetchIndex (s.qp n).sqSize }).admitFetch n bytes := by
  rw [fetchEnd, s.qpState_client hn]
  dsimp only
  rw [if_neg h]
  simp [modQp]

theorem fetchEnd_failed (hn : n ≠ 0) (h : ¬s.DiscardsFetch n) :
    s.fetchEnd n none =
      let t := (s.setQp n { s.qp n with fetching := false }).dropFetch n
      if (s.qp n).state = .running then t.failQueue n .fetchError else t := by
  rw [fetchEnd, s.qpState_client hn]
  exact if_neg h

end

end State

/-- Settles O32: the FETCHING entry is the one the list names, and each end of its read is an equation about `fetchEnd`. -/
theorem fetchAndDataReadsEnd : Obligations.FetchAndDataReadsEnd := by
  refine ⟨?_, fun s i r h => ⟨s.readEnd_data h true, s.readEnd_data h false⟩⟩
  intro s n r e a b hn hr hl he hq ha hne q dropped discards
  have hdrop : (s.setQp n { q with fetching := false }).dropFetch n = dropped := State.dropFetch_eq hl hq he ha hne
  refine ⟨fun h ok => ?_, fun h => ⟨?_, fun hrun => ?_, fun hrun => ?_⟩⟩
  · rw [s.readEnd_descriptor hr, State.fetchEnd_discarded hn h, hdrop]
  · rw [s.readEnd_descriptor hr]
    exact (State.fetchEnd_admitted hn h _).trans (State.admitFetch_eq (s := s.setQp n _) hl he ha _)
  · rw [s.readEnd_descriptor hr]
    refine (State.fetchEnd_failed hn h).trans ?_
    rw [hdrop]
    exact if_neg hrun
  · rw [s.readEnd_descriptor hr]
    refine (State.fetchEnd_failed hn h).trans ?_
    rw [hdrop]
    refine (if_pos hrun).trans ?_
    have hqp : dropped.qp n = { q with fetching := false } := State.setQp_qp_self _ _ _
    rw [State.failQueue, State.modQp, hqp]

end Sys2Proof.Machine
end

section
/-! SUPPORT. The two gates and the start of a fence (R9 to R12): what the gates ask of the entries ahead, and what a fence
makes of the posted-spoke set it takes, member by member. -/

namespace Sys2Proof.Machine

namespace State

variable (s : State)

/-! ## The entries ahead (R3) -/

section
variable {s} {e : EntryId} {a b : List EntryId}

theorem ahead_eq (hl : s.inflight (s.entry e).qp = a ++ e :: b) (he : e ∉ a) : s.ahead e = a := by
  have ha : ∀ f ∈ a, (f != e) = true := fun f hf => bne_iff_ne.2 (ne_of_mem_of_not_mem hf he)
  rw [ahead, hl, List.takeWhile_append_of_pos ha, List.takeWhile_cons_of_neg (by simp), List.append_nil]

theorem aheadDone_iff (ha : s.ahead e = a) : s.aheadDone e = true ↔ ∀ f ∈ a, (s.entry f).state = .done := by
  simp [aheadDone, ha]

theorem fenceAhead_eq_false (ha : s.ahead e = a) :
    s.fenceAhead e = false ↔ ∀ f ∈ a, (s.entry f).kind = some .fence → (s.entry f).state = .done := by
  simp [fenceAhead, ha]

/-- When a data entry leaves its gate (R9). -/
theorem dataGateOpen_iff (ha : s.ahead e = a) :
    s.dataGateOpen e = true ↔
      (s.entry e).state = .gated ∧
        ((s.entry e).kind = some .gather ∨ (s.entry e).kind = some .scatter ∨ (s.entry e).kind = some .relay ∨
          (s.entry e).kind = some .fill) ∧
        (∀ f ∈ a, (s.entry f).kind = some .fence → (s.entry f).state = .done) ∧
        ((s.entry e).ordered = true → ∀ f ∈ a, (s.entry f).state = .done) := by
  simp only [dataGateOpen, Bool.and_eq_true, beq_iff_eq, isData_any_iff, Bool.not_eq_true', fenceAhead_eq_false ha,
    Bool.or_eq_true, aheadDone_iff ha, ← Bool.not_eq_true, ← imp_iff_not_or, and_assoc]

/-- When a FENCE starts (R10). -/
theorem fenceGateOpen_iff (ha : s.ahead e = a) :
    s.fenceGateOpen e = true ↔
      (s.entry e).state = .gated ∧ (s.entry e).kind = some .fence ∧ ∀ f ∈ a, (s.entry f).state = .done := by
  simp only [fenceGateOpen, Bool.and_eq_true, beq_iff_eq, aheadDone_iff ha, and_assoc]

end

theorem execGateRelease_eq (e : EntryId) : exec (.gateRelease e) s = .next ((s.gateRelease? e).getD s) := rfl

theorem execFenceStart_eq (e : EntryId) : exec (.fenceStart e) s = .next ((s.fenceStart? e).getD s) := rfl

/-! ## What a fence makes of one member (R10, R11) -/

/-- A spoke record once a fence has treated spoke number k: it holds the flush request if k takes one. -/
def fencedSpoke (n : QpId) (e : EntryId) (k : SpokeId) : Spoke :=
  { s.spoke k with
    flushList := if s.memberFlushes n k = true then (s.spoke k).flushList ++ [e] else (s.spoke k).flushList }

/-- The failure a fence records at spoke number k, if it fails. -/
def memberFailure (n : QpId) (k : SpokeId) : Option LowestFailure := (s.memberFails n k).map (spokeFailureAt k)

/-- The fence's entry x once it has treated the spoke numbers of a list. -/
def fencedEntry (n : QpId) (x : Entry) (l : List SpokeId) : Entry :=
  { x with
    failed := (l.filterMap (s.memberFailure n)).foldl (keepLower LowestFailure.detail) x.failed
    flushes := x.flushes + (l.filter (s.memberFlushes n)).length }

/-- The state once fence e has taken queue pair n's posted-spoke set and treated the spoke numbers of a list. -/
def fenced (n : QpId) (e : EntryId) (l : List SpokeId) : State :=
  ({ s with sp.spokes := Vector.ofFn fun k => if k ∈ l then s.fencedSpoke n e k else s.spoke k }.setPosted n
    (Vector.replicate 8 .absent)).setEntry e (s.fencedEntry n (s.entry e) l)

section
variable (n : QpId) (e : EntryId) (l : List SpokeId)

@[simp] theorem fenced_entry_self : (s.fenced n e l).entry e = s.fencedEntry n (s.entry e) l := setEntry_entry_self _ _ _

@[simp] theorem fenced_spoke (k : SpokeId) :
    (s.fenced n e l).spoke k = if k ∈ l then s.fencedSpoke n e k else s.spoke k := by
  simp [fenced, spoke, setEntry, setPosted]

@[simp] theorem fenced_isLogical (k : SpokeId) : (s.fenced n e l).isLogical k = s.isLogical k := rfl

/-- A fence leaves the link states of the spokes. -/
theorem fenced_spoke_state (k : SpokeId) : ((s.fenced n e l).spoke k).state = (s.spoke k).state := by
  rw [fenced_spoke]
  split <;> rfl

/-- Before any member is treated the set alone is taken. -/
theorem fenced_nil : s.fenced n e [] = s.setPosted n (Vector.replicate 8 .absent) := by
  have hs : (Vector.ofFn fun k => s.spoke k) = s.sp.spokes := by
    ext k hk
    all_goals simp [spoke]
  have he : (s.setPosted n (Vector.replicate 8 .absent)).setEntry e (s.entry e) = s.setPosted n (Vector.replicate 8 .absent) := by
    simp [setEntry, setPosted, entry]
  simp only [fenced, List.not_mem_nil, if_false, hs]
  exact he

end

/-- What the treatment of one member more adds to the fence's entry. -/
theorem fencedEntry_concat (n : QpId) (x : Entry) (l : List SpokeId) (k : SpokeId) :
    s.fencedEntry n x (l ++ [k]) =
      { s.fencedEntry n x l with
        failed := (s.memberFailure n k).elim (s.fencedEntry n x l).failed
          (keepLower LowestFailure.detail (s.fencedEntry n x l).failed)
        flushes := (s.fencedEntry n x l).flushes + if s.memberFlushes n k = true then 1 else 0 } := by
  simp only [fencedEntry, List.filterMap_append, List.foldl_append, List.filter_append, List.length_append, Nat.add_assoc]
  congr 2
  · cases h : s.memberFailure n k <;> simp [h]
  · cases h : s.memberFlushes n k <;> simp [h]

/-- One member more: its spoke's record and the fence's entry are replaced. -/
theorem fenced_concat (n : QpId) (e : EntryId) (l : List SpokeId) (k : SpokeId) :
    s.fenced n e (l ++ [k]) =
      ((s.fenced n e l).setSpoke k (s.fencedSpoke n e k)).setEntry e (s.fencedEntry n (s.entry e) (l ++ [k])) := by
  have hs : (Vector.ofFn fun j => if j ∈ l ++ [k] then s.fencedSpoke n e j else s.spoke j) =
      (Vector.ofFn fun j => if j ∈ l then s.fencedSpoke n e j else s.spoke j).set k (s.fencedSpoke n e k) := by
    ext1 j hj
    simp only [Vector.getElem_ofFn, Vector.getElem_set, List.mem_append, List.mem_singleton]
    by_cases h : k.val = j
    · subst h
      simp
    · simp [h, Fin.ext_iff, eq_comm]
  simp only [fenced, hs]
  simp [setEntry, setSpoke, setPosted]

/-- A member that takes no flush request changes the fence's account alone. -/
theorem fenced_concat_of_not_flushes {n : QpId} {k : SpokeId} (h : s.memberFlushes n k = false) (e : EntryId) {l : List SpokeId}
    (hk : k ∉ l) :
    s.fenced n e (l ++ [k]) =
      (s.fenced n e l).modEntry e fun x =>
        { x with failed := (s.memberFailure n k).elim x.failed (keepLower LowestFailure.detail x.failed) } := by
  have hspoke : s.fencedSpoke n e k = (s.fenced n e l).spoke k := by simp [fencedSpoke, h, hk]
  rw [fenced_concat, fencedEntry_concat, hspoke, setSpoke_self, modEntry, fenced_entry_self]
  simp [h]

/-- A member that takes a flush request is appended to its spoke's flush list and counted. -/
theorem fenced_concat_of_flushes {n : QpId} {k : SpokeId} (h : s.memberFlushes n k = true) (hf : s.memberFails n k = none)
    (e : EntryId) {l : List SpokeId} (hk : k ∉ l) :
    s.fenced n e (l ++ [k]) =
      ((s.fenced n e l).modSpoke k fun x => { x with flushList := x.flushList ++ [e] }).modEntry e fun x =>
        { x with flushes := x.flushes + 1 } := by
  rw [fenced_concat, fencedEntry_concat, modEntry, modSpoke_entry, fenced_entry_self, modSpoke, fenced_spoke, if_neg hk]
  simp [h, hf, memberFailure, fencedSpoke]

/-- One member more is treated as its membership says. -/
theorem fenceMember_fenced (n : QpId) (e : EntryId) (l : List SpokeId) (k : SpokeId) (hk : k ∉ l) :
    fenceMember (s.posted n) e (s.fenced n e l) k = s.fenced n e (l ++ [k]) := by
  unfold fenceMember
  cases hp : (s.posted n)[k] with
  | absent =>
    have hf : s.memberFlushes n k = false := by simp [memberFlushes, hp]
    have hm : s.memberFailure n k = none := by simp [memberFailure, memberFails, hp]
    rw [s.fenced_concat_of_not_flushes hf e hk, hm]
    exact (setEntry_self _ e).symm
  | marked status =>
    have hf : s.memberFlushes n k = false := by simp [memberFlushes, hp]
    have hm : s.memberFailure n k = some (spokeFailureAt k status) := by simp [memberFailure, memberFails, hp]
    rw [s.fenced_concat_of_not_flushes hf e hk, hm]
    rfl
  | member =>
    by_cases hup : (s.spoke k).state = .up ∧ s.isLogical k = true
    · have hf : s.memberFlushes n k = true := by simp [memberFlushes, hp, hup]
      have hm : s.memberFails n k = none := by simp [memberFails, hp, hup]
      simp only [fenced_spoke_state, fenced_isLogical, if_pos hup, s.fenced_concat_of_flushes hf hm e hk]
    · have hf : s.memberFlushes n k = false := by simpa [memberFlushes, hp] using hup
      have hm : s.memberFailure n k = some (spokeFailureAt k .spokeUnavailable) := by
        simp [memberFailure, memberFails, hp, hup]
      simp only [fenced_spoke_state, fenced_isLogical, if_neg hup, s.fenced_concat_of_not_flushes hf e hk, hm]
      rfl

/-- The members in turn (R10). -/
theorem foldl_fenceMember (n : QpId) (e : EntryId) (l : List SpokeId) (h : l.Nodup) :
    l.foldl (fenceMember (s.posted n) e) (s.setPosted n (Vector.replicate 8 .absent)) = s.fenced n e l := by
  induction l using List.reverseRecOn with
  | nil => exact (s.fenced_nil n e).symm
  | append_singleton l k ih =>
    obtain ⟨hl, -, hk⟩ := List.nodup_append.1 h
    rw [List.foldl_append, ih hl]
    exact s.fenceMember_fenced n e l k fun hm => hk k hm k (List.mem_singleton_self k) rfl

/-- What the start of a fence changes (R10): its queue pair's set, the spokes it flushes and its own entry. -/
theorem fenceStart?_eq_some {e : EntryId} (h : s.fenceGateOpen e = true) :
    s.fenceStart? e =
      some ((s.fenced (s.entry e).qp e (List.finRange 8)).setEntry e
        (let x := s.fencedEntry (s.entry e).qp (s.entry e) (List.finRange 8)
         { x with state := if x.flushes = 0 then .done else .flushing })) := by
  rw [fenceStart?, if_pos h]
  dsimp only
  rw [s.foldl_fenceMember _ e _ (List.nodup_finRange 8), modEntry, fenced_entry_self]

/-! ## The failure a fence keeps (R11) -/

/-- The first of several failures with ascending keys decides. -/
theorem foldl_keepLower_of_lt {key : LowestFailure → Nat} {a : LowestFailure} (l : List LowestFailure)
    (h : ∀ b ∈ l, key a < key b) (old : Option LowestFailure) :
    l.foldl (keepLower key) (keepLower key old a) = keepLower key old a := by
  induction l with
  | nil => rfl
  | cons b l ih =>
    rw [List.foldl_cons, keepLower_of_lt (h b List.mem_cons_self)]
    exact ih fun c hc => h c (List.mem_cons_of_mem b hc)

theorem filterMap_memberFailure_eq_nil {n : QpId} {l : List SpokeId} (h : ∀ k ∈ l, s.memberFails n k = none) :
    l.filterMap (s.memberFailure n) = [] := by
  rw [List.filterMap_eq_nil_iff]
  intro k hk
  rw [memberFailure, h k hk]
  rfl

theorem fencedEntry_failed_of_none {n : QpId} (x : Entry) (h : ∀ k, s.memberFails n k = none) :
    (s.fencedEntry n x (List.finRange 8)).failed = x.failed := by
  rw [fencedEntry, s.filterMap_memberFailure_eq_nil fun k _ => h k]
  rfl

/-- The lowest-numbered failing spoke's failure is recorded. -/
theorem fencedEntry_failed_of_first {n : QpId} (x : Entry) {k : SpokeId} {status : Status}
    (h : s.memberFails n k = some status) (first : ∀ j, j < k → s.memberFails n j = none) :
    (s.fencedEntry n x (List.finRange 8)).failed = x.recordSpoke k status := by
  obtain ⟨l, m, hlm⟩ := List.append_of_mem (List.mem_finRange k)
  have sorted := finRange_sorted 8
  rw [hlm, List.pairwise_append, List.pairwise_cons] at sorted
  obtain ⟨-, ⟨above, -⟩, below⟩ := sorted
  have hl : l.filterMap (s.memberFailure n) = [] :=
    s.filterMap_memberFailure_eq_nil fun j hj => first j (below j hj k List.mem_cons_self)
  have hk : s.memberFailure n k = some (spokeFailureAt k status) := by rw [memberFailure, h]; rfl
  rw [fencedEntry, hlm, List.filterMap_append, hl, List.nil_append, List.filterMap_cons_some hk, List.foldl_cons,
    recordSpoke_eq_keepLower]
  refine foldl_keepLower_of_lt _ (fun b hb => ?_) _
  obtain ⟨j, hj, hb⟩ := List.mem_filterMap.1 hb
  obtain ⟨st, -, rfl⟩ := Option.map_eq_some_iff.1 hb
  exact above j hj

end State

/-- Settles O47: the gates ask what R9 and R10 say of the entries ahead, and a fence's treatment of its members is `fenced`. -/
theorem gatesOpenInOrder : Obligations.GatesOpenInOrder := by
  refine ⟨fun s e a b hl he => ?_, fun s e a b hl he => ?_⟩
  · have hopen := State.dataGateOpen_iff (State.ahead_eq hl he)
    intro x released
    refine ⟨fun h => ?_, fun h => ?_⟩
    · rw [s.execGateRelease_eq, State.gateRelease?, if_pos (hopen.2 h)]
      rfl
    · rw [s.execGateRelease_eq, State.gateRelease?, if_neg (h ∘ hopen.1)]
      rfl
  · have hopen := State.fenceGateOpen_iff (State.ahead_eq hl he)
    intro x starts
    refine ⟨fun h => ?_, fun h => ?_⟩
    · rw [s.execFenceStart_eq, State.fenceStart?, if_neg (h ∘ hopen.1)]
      rfl
    · refine ⟨Vector.ofFn (s.fencedSpoke x.qp e), (s.fencedEntry x.qp x (List.finRange 8)).failed,
        (List.finRange 8).filter (s.memberFlushes x.qp), ?_, (List.nodup_finRange 8).filter _, fun k => by simp,
        fun k => by simp [State.fencedSpoke], s.fencedEntry_failed_of_none x, fun k status => s.fencedEntry_failed_of_first x⟩
      rw [s.execFenceStart_eq, s.fenceStart?_eq_some (hopen.2 h)]
      simp [State.fenced, x, State.fencedEntry]

end Sys2Proof.Machine
end

section
/-! SUPPORT. The segment the generation arbiter cuts, and whose turn it is (R13, R35, R43). -/

namespace Sys2Proof.Machine

theorem grantTurn_eq (last e : EntryId) : grantTurn last e = (e - (last + 1)).val := by
  simp only [grantTurn, Fin.sub_def, Fin.val_add]
  omega

/-- Of 256, a second value and three that may be absent, the least is the minimum with 256 for each absent one. -/
theorem isLeast_guarded {p q r : Prop} [Decidable p] [Decidable q] [Decidable r] (a b c d : Nat) :
    IsLeast {n | n = 256 ∨ n = a ∨ (p ∧ n = b) ∨ (q ∧ n = c) ∨ (r ∧ n = d)}
      (min (min (min 256 a) (if p then b else 256)) (min (if q then c else 256) (if r then d else 256))) := by
  constructor
  · rw [Set.mem_ofPred_eq]
    grind
  · rintro n (rfl | rfl | ⟨h, rfl⟩ | ⟨h, rfl⟩ | ⟨h, rfl⟩) <;> grind

namespace State

variable (s : State)

/-! ## The next segment (R43) -/

theorem candidate_iff (e : EntryId) : s.candidate e = true ↔ (s.entry e).state = .running ∧ (s.entry e).live < 16 := by
  simp only [candidate, Bool.and_eq_true, beq_iff_eq, decide_eq_true_eq]
  rfl

/-- The lengths at which the split points of R43 would end the next segment of an entry. -/
def splitLengths (x : Entry) : Set Nat :=
  let from_ := x.fabric + x.cursor
  let to_ := if x.kind = some .relay then x.near + x.cursor else x.fabric + x.cursor
  {n | n = 256 ∨ n = x.length - x.cursor ∨
    ((x.kind = some .gather ∨ x.kind = some .scatter) ∧ n = 4096 - (x.near + x.cursor) % 4096) ∨
    ((x.kind = some .gather ∨ x.kind = some .relay) ∧ n = s.boundaryAt from_ - from_) ∨
    ((x.kind = some .scatter ∨ x.kind = some .fill ∨ x.kind = some .relay) ∧ n = s.boundaryAt to_ - to_)}

theorem hostRun_eq (x : Entry) :
    hostRun x =
      if x.kind = some .gather ∨ x.kind = some .scatter then 4096 - (x.near + x.cursor) % 4096 else 256 := by
  unfold hostRun
  rcases x.kind with _ | k
  · rfl
  · cases k <;> rfl

theorem readRun_eq (x : Entry) :
    s.sideRun (x.sidesAt x.cursor).read =
      if x.kind = some .gather ∨ x.kind = some .relay then s.boundaryAt (x.fabric + x.cursor) - (x.fabric + x.cursor)
      else 256 := by
  unfold Entry.sidesAt
  rcases x.kind with _ | k
  · rfl
  · cases k <;> rfl

theorem writeRun_eq (x : Entry) :
    s.sideRun (x.sidesAt x.cursor).write =
      let to_ := if x.kind = some .relay then x.near + x.cursor else x.fabric + x.cursor
      if x.kind = some .scatter ∨ x.kind = some .fill ∨ x.kind = some .relay then s.boundaryAt to_ - to_ else 256 := by
  unfold Entry.sidesAt
  rcases x.kind with _ | k
  · rfl
  · cases k <;> rfl

/-- The next segment ends at the nearest split point. -/
theorem nextLength_isLeast (x : Entry) : IsLeast (s.splitLengths x) (s.nextLength x) := by
  rw [nextLength, hostRun_eq, readRun_eq, writeRun_eq]
  exact isLeast_guarded _ _ _ _

/-! ## The grant (R13, R43) -/

theorem execGenerationGrant_eq : exec .generationGrant s = .next ((s.generation?.map State.settle).getD s) := rfl

/-- The entry with room that is the fewest steps after the one granted last takes the lowest RETIRED record. -/
theorem generation?_eq_some {e : EntryId} {i : SegId} (he : s.candidate e = true)
    (turn : ∀ f, s.candidate f = true → grantTurn s.su.grantPtr e ≤ grantTurn s.su.grantPtr f)
    (hi : (s.seg i).state = .retired) (first : ∀ j, j < i → (s.seg j).state ≠ .retired) :
    s.generation? = some ((s.generate e i).requestResolution i) := by
  have hfree : s.freeSegment = some i := firstIndex_eq_some.2 ⟨beq_iff_eq.2 hi, fun j hj => beq_false_of_ne (first j hj)⟩
  have hnext : firstAfter s.su.grantPtr s.candidate = some e := by
    refine firstAfter_eq_some.2 ⟨he, fun f hf => ?_⟩
    have := turn f hf
    rwa [grantTurn_eq, grantTurn_eq] at this
  rw [generation?, hfree, hnext]

/-- Without a candidate or without a RETIRED record the arbiter grants nothing. -/
theorem generation?_eq_none (h : (∀ e, s.candidate e = false) ∨ ∀ i, (s.seg i).state ≠ .retired) : s.generation? = none := by
  unfold generation?
  obtain h | h := h
  · rw [firstAfter_eq_none.2 h]
    cases s.freeSegment <;> rfl
  · have hfree : s.freeSegment = none := firstIndex_eq_none.2 fun i => beq_false_of_ne (h i)
    rw [hfree]

/-- What the grant to a RUNNING entry changes: the pointer, the segment's record and the entry. -/
theorem generate_eq {e : EntryId} (he : (s.entry e).state = .running) (i : SegId) :
    s.generate e i =
      ({ s with su.grantPtr := e }.setSeg i
        { entry := e, offset := (s.entry e).cursor, length := s.nextLength (s.entry e), state := .resolving }).setEntry e
        { s.entry e with
          cursor := (s.entry e).cursor + s.nextLength (s.entry e)
          live := (s.entry e).live + 1
          state := if (s.entry e).cursor + s.nextLength (s.entry e) = (s.entry e).length then .winding else .running } := by
  rw [← he]
  rfl

end State

/-- Settles O48: the search finds the entry next in turn and the lowest record, and the least split length is unique. -/
theorem generationCutsNextSegment : Obligations.GenerationCutsNextSegment := by
  intro s
  dsimp only
  refine ⟨fun e i len he turn hi first least => ?_, fun h => ?_⟩
  · have hlen : s.nextLength (s.entry e) = len := (s.nextLength_isLeast (s.entry e)).unique least
    have hgen := s.generation?_eq_some ((s.candidate_iff e).2 he) (fun f hf => turn f ((s.candidate_iff f).1 hf)) hi first
    rw [s.execGenerationGrant_eq, hgen, s.generate_eq he.1, hlen]
    rfl
  · rw [s.execGenerationGrant_eq, s.generation?_eq_none]
    · rfl
    · refine h.imp_left fun none e => ?_
      rw [Bool.eq_false_iff, ne_eq, s.candidate_iff]
      exact none e

end Sys2Proof.Machine
end

section
/-! SUPPORT. The region an address resolves to and its resolution boundary (R26, R27, R31, R35, R97): a region is where the
resolution stays as it is, and the boundary is where it changes. -/

namespace Sys2Proof.Machine

section

variable {t : WindowTable} {a : Nat} {id : WindowId}

/-! ## The region in a window (R26) -/

theorem regionIn_pinned (hs : striped id = false) (a : Nat) :
    regionIn t id a = { window := id, base := t[id].base, limit := t[id].base + t[id].size, spoke := t[id].target } := by
  simp [regionIn, hs]

theorem regionIn_striped (hs : striped id = true) (a : Nat) :
    regionIn t id a =
      { window := id
        base := t[id].base + t[id].slice a * (t[id].size / 8)
        limit := t[id].base + (t[id].slice a + 1) * (t[id].size / 8)
        spoke := Fin.ofNat 8 (t[id].slice a + t[id].target.val) } := by
  simp [regionIn, hs, Window.sliceSize]

/-- `Window.slice_spec` for the striped window that holds an address. -/
theorem TableOk.slice_spec (h : TableOk t) (hs : striped id = true) (ha : t[id].holds a = true) :
    t[id].slice a < 8 ∧ t[id].base + t[id].slice a * (t[id].size / 8) ≤ a ∧
      a < t[id].base + (t[id].slice a + 1) * (t[id].size / 8) ∧ t[id].size / 8 % 4096 = 0 ∧ 0 < t[id].size / 8 ∧
      t[id].size = 8 * (t[id].size / 8) := by
  obtain ⟨on, lower, upper⟩ := (Window.holds_iff _ _).1 ha
  obtain ⟨⟨k, _, _, size, wide⟩, _⟩ := h.window_size id on
  exact t[id].slice_spec k (wide hs) size lower upper

/-- The region of an address in a window that holds it lies in the window's range around the address, and its ends are multiples
of 4 KiB. -/
structure Window.Frames (w : Window) (r : Region) (a : Nat) : Prop where
  lower : r.base ≤ a
  upper : a < r.limit
  base : r.base % 4096 = 0
  limit : r.limit % 4096 = 0
  starts : w.base ≤ r.base
  ends : r.limit ≤ w.base + w.size

theorem regionIn_frames (h : TableOk t) (ha : t[id].holds a = true) : t[id].Frames (regionIn t id a) a := by
  obtain ⟨on, lower, upper⟩ := (Window.holds_iff _ _).1 ha
  obtain ⟨hb, hz⟩ := h.page_aligned id on
  cases hs : striped id with
  | false =>
    rw [regionIn_pinned hs]
    exact ⟨lower, upper, hb, by dsimp only; omega, le_rfl, le_rfl⟩
  | true =>
    obtain ⟨h8, h1, h2, aligned, _, size⟩ := h.slice_spec hs ha
    have multiple (k : Nat) : k * (t[id].size / 8) % 4096 = 0 := by rw [Nat.mul_mod, aligned]; simp
    have last : (t[id].slice a + 1) * (t[id].size / 8) ≤ 8 * (t[id].size / 8) := Nat.mul_le_mul_right _ h8
    rw [regionIn_striped hs]
    refine ⟨h1, h2, ?_, ?_, Nat.le_add_right _ _, ?_⟩ <;> dsimp only
    · have := multiple (t[id].slice a)
      omega
    · have := multiple (t[id].slice a + 1)
      omega
    · omega

/-- Every address of a region in a window is in that window, with the same region. -/
theorem regionIn_congr (h : TableOk t) (ha : t[id].holds a = true) {x : Nat} (lower : (regionIn t id a).base ≤ x)
    (upper : x < (regionIn t id a).limit) : t[id].holds x = true ∧ regionIn t id x = regionIn t id a := by
  obtain ⟨on, _, _⟩ := (Window.holds_iff _ _).1 ha
  have frame := regionIn_frames h ha
  have hx : t[id].holds x = true :=
    (Window.holds_iff _ _).2 ⟨on, frame.starts.trans lower, upper.trans_le frame.ends⟩
  refine ⟨hx, ?_⟩
  cases hs : striped id with
  | false => rw [regionIn_pinned hs, regionIn_pinned hs]
  | true =>
    obtain ⟨_, _, _, _, pos, _⟩ := h.slice_spec hs ha
    rw [regionIn_striped hs] at lower upper
    have same : t[id].slice x = t[id].slice a := by
      refine Nat.div_eq_of_lt_le ?_ ?_ <;> simp only [Window.sliceSize] at * <;> omega
    rw [regionIn_striped hs, regionIn_striped hs, same]

/-! ## The region of an address (R31) -/

theorem Window.holds_eq_false_iff (w : Window) (a : Nat) :
    w.holds a = false ↔ (w.enabled = true → ¬(w.base ≤ a ∧ a < w.base + w.size)) := by
  rw [Bool.eq_false_iff, ne_eq, w.holds_iff, not_and]

/-- An address is in no window, in a pinned one, or in a striped one and no pinned one. -/
theorem regionAt_cases (t : WindowTable) (a : Nat) :
    (pinnedAt t a = none ∧ stripedAt t a = none ∧ regionAt t a = none) ∨
      (∃ id, pinnedAt t a = some id ∧ regionAt t a = some (regionIn t id a)) ∨
      ∃ id, pinnedAt t a = none ∧ stripedAt t a = some id ∧ regionAt t a = some (regionIn t id a) := by
  cases hp : pinnedAt t a with
  | some id => exact .inr (.inl ⟨id, rfl, regionAt_of_pinned hp⟩)
  | none =>
    cases hs : stripedAt t a with
    | none => exact .inl ⟨rfl, rfl, regionAt_of_none hp hs⟩
    | some id => exact .inr (.inr ⟨id, rfl, rfl, regionAt_of_striped hp hs⟩)

/-- The region an address resolves to is that of the address in the region's window. -/
theorem regionAt_eq_regionIn {r : Region} (hr : regionAt t a = some r) : r = regionIn t r.window a := by
  obtain ⟨_, _, h0⟩ | ⟨id, _, h0⟩ | ⟨id, _, _, h0⟩ := regionAt_cases t a <;> rw [h0] at hr <;> cases hr <;> simp

theorem regionAt_frames (h : TableOk t) {r : Region} (hr : regionAt t a = some r) : t[r.window].Frames r a := by
  have frame := regionIn_frames h (regionAt_holds hr)
  rwa [← regionAt_eq_regionIn hr] at frame

theorem regionAt_limit_le (h : TableOk t) {r : Region} (hr : regionAt t a = some r) : r.limit ≤ 2 ^ 48 := by
  obtain ⟨on, _, _⟩ := (Window.holds_iff _ _).1 (regionAt_holds hr)
  obtain ⟨_, _, top⟩ := h.window_size _ on
  exact (regionAt_frames h hr).ends.trans top

/-- An address in an enabled window resolves. -/
theorem regionAt_ne_none (ha : t[id].holds a = true) : regionAt t a ≠ none := by
  obtain ⟨hp, hs, _⟩ | ⟨_, _, h0⟩ | ⟨_, _, _, h0⟩ := regionAt_cases t a
  · cases e : striped id with
    | false => exact absurd ha (Bool.eq_false_iff.1 (pinnedAt_eq_none.1 hp id e))
    | true => exact absurd ha (Bool.eq_false_iff.1 (stripedAt_eq_none.1 hs id e))
  all_goals simp [h0]

/-! ## Where the resolution changes (R35) -/

/-- Address b, above a, is the lowest one at which the resolution differs from that of a, or 2^48. -/
structure EndsResolution (t : WindowTable) (a b : Nat) : Prop where
  above : a < b
  top : b ≤ 2 ^ 48
  same : ∀ x, a ≤ x → x < b → regionAt t x = regionAt t a
  change : b < 2 ^ 48 → regionAt t b ≠ regionAt t a

/-- A window that does not hold an address holds none before its base above it. -/
theorem holds_eq_false_of_lt_bases {p : WindowId → Bool} {b x : Nat} (ha : t[id].holds a = false) (hp : p id = true)
    (bases : ∀ y ∈ basesAbove t a p, b ≤ y) (hx : a ≤ x) (hb : x < b) : t[id].holds x = false := by
  rw [Bool.eq_false_iff, ne_eq, Window.holds_iff] at ha ⊢
  rintro ⟨on, lower, upper⟩
  have before : a < t[id].base := Nat.lt_of_not_le fun h => ha ⟨on, h, hx.trans_lt upper⟩
  have := bases _ ((mem_basesAbove p _).2 ⟨id, hp, on, before, rfl⟩)
  omega

/-- A base above an address is in its window, which does not hold the address. -/
theorem holds_of_mem_basesAbove (h : TableOk t) {p : WindowId → Bool} {b : Nat} (hb : b ∈ basesAbove t a p) :
    ∃ id : WindowId, p id = true ∧ t[id].holds b = true := by
  obtain ⟨id, hp, on, _, rfl⟩ := (mem_basesAbove p b).1 hb
  obtain ⟨⟨k, _, _, size, _⟩, _⟩ := h.window_size id on
  refine ⟨id, hp, (Window.holds_iff _ _).2 ⟨on, le_rfl, ?_⟩⟩
  have := Nat.two_pow_pos k
  omega

/-- The end of a region resolves to another one, or to none. -/
theorem regionAt_limit_ne (h : TableOk t) {r : Region} : regionAt t r.limit ≠ some r := fun hr =>
  lt_irrefl _ (regionAt_frames h hr).upper

theorem basesAbove_lt {p : WindowId → Bool} {b : Nat} (hb : b ∈ basesAbove t a p) : a < b := by
  obtain ⟨_, _, _, above, rfl⟩ := (mem_basesAbove p b).1 hb
  exact above

theorem boundary_of_pinned (hp : pinnedAt t a = some id) : boundary t a = (regionIn t id a).limit := by
  simp [boundary, hp]

theorem boundary_of_striped (hp : pinnedAt t a = none) (hs : stripedAt t a = some id) :
    boundary t a = (basesAbove t a fun p => !striped p).foldl min (regionIn t id a).limit := by
  simp [boundary, hp, hs]

theorem boundary_of_none (hp : pinnedAt t a = none) (hs : stripedAt t a = none) :
    boundary t a = (basesAbove t a fun _ => true).foldl min (2 ^ 48) := by
  simp [boundary, hp, hs, Config.fabricTop]

/-- In a pinned window the resolution changes at the window's end. -/
theorem boundary_ends_pinned (h : TableOk t) (hp : pinnedAt t a = some id) : EndsResolution t a (boundary t a) := by
  have hr := regionAt_of_pinned hp
  obtain ⟨pinned, ha⟩ := (pinnedAt_eq_some h).1 hp
  have frame := regionIn_frames h ha
  rw [boundary_of_pinned hp]
  refine ⟨frame.upper, regionAt_limit_le h hr, fun x lower upper => ?_, fun _ => ?_⟩
  · obtain ⟨hx, same⟩ := regionIn_congr h ha (frame.lower.trans lower) upper
    rw [regionAt_of_pinned ((pinnedAt_eq_some h).2 ⟨pinned, hx⟩), hr, same]
  · rw [hr]
    exact regionAt_limit_ne h

/-- In a slice the resolution changes at the slice's end, or before it where a pinned window begins. -/
theorem boundary_ends_striped (h : TableOk t) (hp : pinnedAt t a = none) (hs : stripedAt t a = some id) :
    EndsResolution t a (boundary t a) := by
  have hr := regionAt_of_striped hp hs
  obtain ⟨isStriped, ha⟩ := (stripedAt_eq_some h).1 hs
  have frame := regionIn_frames h ha
  rw [boundary_of_striped hp hs]
  obtain ⟨slice, bases⟩ := foldl_min_le (basesAbove t a fun p => !striped p) (regionIn t id a).limit
  have least := foldl_min_mem (basesAbove t a fun p => !striped p) (regionIn t id a).limit
  generalize (basesAbove t a fun p => !striped p).foldl min (regionIn t id a).limit = b at *
  refine ⟨?_, slice.trans (regionAt_limit_le h hr), fun x lower upper => ?_, fun _ => ?_⟩
  · obtain rfl | hb := least
    · exact frame.upper
    · exact basesAbove_lt hb
  · obtain ⟨hx, same⟩ := regionIn_congr h ha (frame.lower.trans lower) (upper.trans_le slice)
    have unpinned : pinnedAt t x = none := pinnedAt_eq_none.2 fun j hj =>
      holds_eq_false_of_lt_bases (pinnedAt_eq_none.1 hp j hj) (by simp [hj]) bases lower upper
    rw [regionAt_of_striped unpinned ((stripedAt_eq_some h).2 ⟨isStriped, hx⟩), hr, same]
  · obtain rfl | hb := least
    · rw [hr]
      exact regionAt_limit_ne h
    · obtain ⟨j, pinned, hj⟩ := holds_of_mem_basesAbove h hb
      rw [Bool.not_eq_true'] at pinned
      rw [regionAt_of_pinned ((pinnedAt_eq_some h).2 ⟨pinned, hj⟩), hr]
      intro e
      have window : j = id := by simpa using congrArg (Option.map Region.window) e
      rw [window, isStriped] at pinned
      cases pinned

/-- Outside the windows the resolution changes where the next window begins, or not before 2^48. -/
theorem boundary_ends_unmapped (h : TableOk t) (ha : a < 2 ^ 48) (hp : pinnedAt t a = none) (hs : stripedAt t a = none) :
    EndsResolution t a (boundary t a) := by
  have hr := regionAt_of_none hp hs
  rw [boundary_of_none hp hs]
  obtain ⟨top, bases⟩ := foldl_min_le (basesAbove t a fun _ => true) (2 ^ 48)
  have least := foldl_min_mem (basesAbove t a fun _ => true) (2 ^ 48)
  generalize (basesAbove t a fun _ => true).foldl min (2 ^ 48) = b at *
  refine ⟨?_, top, fun x lower upper => ?_, fun below => ?_⟩
  · obtain rfl | hb := least
    · exact ha
    · exact basesAbove_lt hb
  · have free (j : WindowId) (hj : t[j].holds a = false) : t[j].holds x = false :=
      holds_eq_false_of_lt_bases hj rfl bases lower upper
    rw [hr]
    exact regionAt_of_none (pinnedAt_eq_none.2 fun j hj => free j (pinnedAt_eq_none.1 hp j hj))
      (stripedAt_eq_none.2 fun j hj => free j (stripedAt_eq_none.1 hs j hj))
  · obtain rfl | hb := least
    · exact absurd below (lt_irrefl _)
    · obtain ⟨j, _, hj⟩ := holds_of_mem_basesAbove h hb
      rw [hr]
      exact regionAt_ne_none hj

/-- The resolution boundary is where the resolution changes (R35). -/
theorem boundary_endsResolution (h : TableOk t) (ha : a < 2 ^ 48) : EndsResolution t a (boundary t a) := by
  obtain ⟨hp, hs, _⟩ | ⟨id, hp, _⟩ | ⟨id, hp, hs, _⟩ := regionAt_cases t a
  · exact boundary_ends_unmapped h ha hp hs
  · exact boundary_ends_pinned h hp
  · exact boundary_ends_striped h hp hs

end

/-- Settles O15: the boundary ends the resolution in each of the three cases, and the window unit takes the lower of two. -/
theorem boundaryEndsTheRegion : Obligations.BoundaryEndsTheRegion := by
  refine ⟨fun t a h ha => ?_, fun s a => ⟨fun hq => ?_, fun q hq => ?_⟩⟩
  · obtain ⟨above, top, same, change⟩ := boundary_endsResolution h ha
    exact ⟨above, top, same, change⟩
  · simp [State.boundaryAt, State.nextTable, hq]
  · simp [State.boundaryAt, State.nextTable, hq]

/-! ## The logical spoke of a physical one (R27, R97) -/

/-- The heads of the four members of a half, by its layout: the table of R27. -/
def Layout.heads : Layout → List Nat
  | .single => [0, 1, 2, 3]
  | .pairLow => [0, 0, 2, 3]
  | .pairHigh => [0, 1, 2, 2]
  | .pairBoth => [0, 0, 2, 2]
  | .quad => [0, 0, 0, 0]

theorem Layout.map_head (l : Layout) : (List.range 4).map l.head = l.heads := by cases l <;> rfl

theorem Layout.head_lt (l : Layout) {p : Nat} (hp : p < 4) : l.head p < 4 := by
  cases l <;> grind [Layout.head]

/-- The low half's layout gives the heads of spokes 0 to 3, the high half's those of 4 to 7. -/
theorem logicalSpoke_val (low high : Layout) (p : SpokeId) :
    (logicalSpoke low high p).val = if p.val < 4 then low.head p.val else 4 + high.head (p.val - 4) := by
  unfold logicalSpoke
  split
  · have := low.head_lt ‹_›
    simp only [Fin.ofNat, Nat.mod_eq_of_lt (show low.head p.val < 8 by omega)]
  · have := high.head_lt (show p.val - 4 < 4 by omega)
    simp only [Fin.ofNat, Nat.mod_eq_of_lt (show 4 + high.head (p.val - 4) < 8 by omega)]

theorem map_logicalSpoke (low high : Layout) :
    (List.finRange 8).map (fun p => (logicalSpoke low high p).val) = low.heads ++ high.heads.map (4 + ·) := by
  simp only [logicalSpoke_val, ← Layout.map_head]
  rfl

/-- Settles O14: the window found is the one that holds the address, and the region it gives frames the address. -/
theorem windowsLeadToSpokes : Obligations.WindowsLeadToSpokes := by
  refine ⟨fun t a h => ⟨fun id hid on lower upper => ?_, fun unpinned => ?_, fun r hr => ?_⟩, fun low high => ?_⟩
  · have hs := pinned_iff.2 hid
    have found : pinnedAt t a = some id := (pinnedAt_eq_some h).2 ⟨hs, (Window.holds_iff _ _).2 ⟨on, lower, upper⟩⟩
    rw [regionAt_of_pinned found, regionIn_pinned hs]
  · have hp : pinnedAt t a = none :=
      pinnedAt_eq_none.2 fun id hs => (Window.holds_eq_false_iff _ _).2 (unpinned id (pinned_iff.1 hs))
    refine ⟨fun id hid on lower upper => ?_, fun unstriped => ?_⟩
    · have hs := striped_iff.2 hid
      have ha := (Window.holds_iff _ _).2 ⟨on, lower, upper⟩
      obtain ⟨h8, h1, h2, _⟩ := h.slice_spec hs ha
      refine ⟨⟨t[id].slice a, h8⟩, Fin.ofNat 8 (t[id].slice a + t[id].target.val), h1, h2, rfl, ?_⟩
      rw [regionAt_of_striped hp ((stripedAt_eq_some h).2 ⟨hs, ha⟩), regionIn_striped hs]
    · exact regionAt_of_none hp
        (stripedAt_eq_none.2 fun id hs => (Window.holds_eq_false_iff _ _).2 (unstriped id (striped_iff.1 hs)))
  · have frame := regionAt_frames h hr
    exact ⟨frame.lower, frame.upper, frame.base, frame.limit⟩
  · intro half
    have table : half = Layout.heads := by
      funext l
      cases l <;> rfl
    rw [table, map_logicalSpoke]

/-! ## One side of a segment (R28 to R30, R32, R33) -/

/-- While every byte before `o` stays in the region of the first, the boundary is not below it; a region ends by 2^48. -/
theorem le_boundary {t : WindowTable} {a o : Nat} {r : Region} (h : TableOk t) (ha : a < 2 ^ 48) (hr : regionAt t a = some r)
    (inside : ∀ x, x < o → regionAt t (a + x) = some r) : a + o ≤ boundary t a := by
  obtain ⟨above, top, _, change⟩ := boundary_endsResolution h ha
  by_contra hlt
  have hb : regionAt t (boundary t a) = some r := by
    rw [← inside (boundary t a - a) (by omega)]
    congr 1
    omega
  refine change ?_ (hb.trans hr.symm)
  exact (regionAt_frames h hb).upper.trans_le (regionAt_limit_le h hb)

/-- Where the first byte outside the region of the first one stands, there is the boundary. -/
theorem boundary_eq_of_first {t : WindowTable} {a o : Nat} {r : Region} (h : TableOk t) (ha : a < 2 ^ 48)
    (hr : regionAt t a = some r) (inside : ∀ x, x < o → regionAt t (a + x) = some r) (outside : regionAt t (a + o) ≠ some r) :
    boundary t a = a + o := by
  refine le_antisymm (Nat.le_of_not_lt fun hlt => outside ?_) (le_boundary h ha hr inside)
  rw [(boundary_endsResolution h ha).same _ (Nat.le_add_right _ _) hlt, hr]

section

variable {t : WindowTable} {a len : Nat} {r : Region} (low high : Layout) (side : Leg) (write : Bool)

theorem resolveSide_of_unmapped (hr : regionAt t a = none) :
    resolveSide t low high side write a len = .failed { status := .unmapped, detail := sideCode side } := by
  simp [resolveSide, hr]

theorem resolveSide_of_past (hr : regionAt t a = some r) (hb : boundary t a < a + len) :
    resolveSide t low high side write a len =
      .failed { status := .unmapped, detail := sideCode side + (boundary t a - a) } := by
  simp [resolveSide, hr, hb]

/-- A side inside its region is answered by the access of the region's window. -/
theorem resolveSide_of_inside (hr : regionAt t a = some r) (hb : a + len ≤ boundary t a) :
    resolveSide t low high side write a len =
      if write = true ∧ t[r.window].access = .readOnly then
        .failed { status := .windowAccess, detail := sideCode side + r.window.val }
      else if write = true ∧ t[r.window].access = .writeDrop then .dropped
      else .routed (routeOf t low high r a) := by
  unfold resolveSide
  rw [hr]
  dsimp only
  rw [if_neg (Nat.not_lt.2 hb)]
  cases write with
  | false => simp
  | true => cases t[r.window].access <;> rfl

end

theorem sideCode_ite (write : Bool) :
    sideCode (if write then Leg.destination else .source) = if write then 256 else 0 := by cases write <;> rfl

theorem spokeAddress_eq (w : Window) (r : Region) (a : Nat) :
    spokeAddress w r a = if w.form = .full then a else a - r.base := by
  unfold spokeAddress
  cases w.form <;> rfl

/-- Settles O16: the boundary tells whether all bytes of a side lie in the region of the first, and where they leave it. -/
theorem sideResolvesByItsRegion : Obligations.SideResolvesByItsRegion := by
  intro t low high write a len h ha hlen side bit
  have code : sideCode side = bit := sideCode_ite write
  refine ⟨fun hr => ?_, fun r hr => ⟨fun o ho hol inside outside => ?_, fun inside => ?_⟩⟩
  · rw [resolveSide_of_unmapped low high side write hr, code]
  · have hb := boundary_eq_of_first h ha hr inside outside
    rw [resolveSide_of_past low high side write hr (by omega), code, hb, Nat.add_sub_cancel_left]
  · rw [resolveSide_of_inside low high side write hr (le_boundary h ha hr inside)]
    unfold routeOf
    rw [spokeAddress_eq]
    cases write <;> rfl

end Sys2Proof.Machine
end

section
/-! SUPPORT. What a segment asks of the window unit and what it does with the answer (R4, R34, R37, R38, R43 to R45). -/

namespace Sys2Proof.Machine

/-! ## The sides of a segment (R4, R43) -/

/-- A transfer that reads the fabric. -/
def Entry.Reads (x : Entry) : Prop := x.kind = some .gather ∨ x.kind = some .relay

/-- A transfer that writes the fabric. -/
def Entry.Writes (x : Entry) : Prop := x.kind = some .scatter ∨ x.kind = some .fill ∨ x.kind = some .relay

/-- The fabric address a transfer writes at an offset: a RELAY's is its near one. -/
def Entry.writeAddress (x : Entry) (o : Nat) : Nat := if x.kind = some .relay then x.near + o else x.fabric + o

/-- A range shares an address with `len` bytes from `a`. -/
def Range.Meets (r : Range) (a len : Nat) : Prop := a < r.base + r.size ∧ r.base < a + len

theorem Entry.sidesAt_read_iff (x : Entry) (o a : Nat) : (x.sidesAt o).read = some a ↔ x.Reads ∧ x.fabric + o = a := by
  unfold Entry.sidesAt Entry.Reads
  rcases x.kind with _ | k
  · simp
  · cases k <;> simp

theorem Entry.sidesAt_write_iff (x : Entry) (o a : Nat) :
    (x.sidesAt o).write = some a ↔ x.Writes ∧ x.writeAddress o = a := by
  unfold Entry.sidesAt Entry.Writes Entry.writeAddress
  rcases x.kind with _ | k
  · simp
  · cases k <;> simp

theorem Range.meets_iff (r : Range) (a len : Nat) : r.meets a len = true ↔ r.Meets a len := by
  simp [Range.meets, Range.Meets]

/-- The sides touch a range when one of the two shares an address with it (R37, R38). -/
theorem Sides.touches_iff (x : Sides) (len : Nat) (o : Option Range) :
    x.touches len o = true ↔
      ∃ r, o = some r ∧ ((∃ a, x.read = some a ∧ r.Meets a len) ∨ ∃ a, x.write = some a ∧ r.Meets a len) := by
  unfold Sides.touches
  cases o with
  | none => simp
  | some r => cases x.read <;> cases x.write <;> simp [Range.meets_iff]

/-! ## The answer for two sides (R34) -/

/-- The answer by the outcomes of the sides: the destination side decides first. -/
def answerOf (destination source : Option SideOutcome) : Answer :=
  match destination, source with
  | some (.failed f), _ => .failed f
  | some .dropped, _ => .dropped
  | some (.routed _), some (.failed f) => .failed f
  | some (.routed d), some (.routed r) => .routed (some r) (some d)
  | some (.routed d), _ => .routed none (some d)
  | none, some (.failed f) => .failed f
  | none, some (.routed r) => .routed (some r) none
  | none, _ => .routed none none

theorem resolve_eq_answerOf (t : WindowTable) (low high : Layout) (sides : Sides) (len : Nat) :
    resolve t low high sides len =
      answerOf (sides.write.map fun a => resolveSide t low high .destination true a len)
        (sides.read.map fun a => resolveSide t low high .source false a len) := by
  unfold resolve
  rcases sides.write.map _ with _ | d | _ | f
  · rcases sides.read.map _ with _ | r | _ | f <;> rfl
  · rcases sides.read.map _ with _ | r | _ | f <;> rfl
  · rfl
  · rfl

namespace State

variable (s : State) (i : SegId)

/-- A segment touches a pending change when a side of its kind meets one of the change's two ranges (R38). -/
theorem touchesChange_iff (q : Quiesce) :
    let x := s.entry (s.seg i).entry
    s.touchesChange i q = true ↔
      ∃ r, (q.old = some r ∨ q.new = some r) ∧
        ((x.Reads ∧ r.Meets (x.fabric + (s.seg i).offset) (s.seg i).length) ∨
          (x.Writes ∧ r.Meets (x.writeAddress (s.seg i).offset) (s.seg i).length)) := by
  simp only [touchesChange, segSides, Bool.or_eq_true, Sides.touches_iff, Entry.sidesAt_read_iff, Entry.sidesAt_write_iff,
    or_and_right, exists_or, and_assoc, exists_and_left, exists_eq_left']

/-! ## Taking the answer (R44, R45) -/

@[simp] theorem setSeg_setSeg (x y : Segment) : (s.setSeg i x).setSeg i y = s.setSeg i y := by
  simp [setSeg, Vector.set_set]

theorem joinSlotWait_setSeg (x : Segment) :
    (s.setSeg i x).joinSlotWait i =
      ((s.setSeg i x).setWaiting (s.rb.waiting ++ [i])).setSeg i { x with state := .slotWait } := by
  simp [joinSlotWait, modSeg]

theorem translate_setSeg (x : Segment) :
    (s.setSeg i x).translate i =
      (s.setSeg i { x with state := .translating, host := none, translation := none, retranslate := false }).ask i := by
  simp [translate, modSeg]

/-- A segment with its routes goes on to the next step of its kind (R45). -/
theorem takeResolution_routed (source destination : Option Route) :
    s.takeResolution i (.routed source destination) =
      let t := s.setSeg i { s.seg i with source := source, destination := destination }
      if s.segKind i = some .relay then t.joinSlotWait i
      else if s.segKind i = some .fill then t.joinIssue i
      else t.translate i := by
  unfold takeResolution
  rcases s.segKind i with _ | k
  · rfl
  · cases k <;> rfl

end State

/-- Settles O17: the sides by the kind, the answer by the outcomes of the sides, and the next step by the answer. -/
theorem segmentAsksResolution : Obligations.SegmentAsksResolution := by
  intro s i x t len read write from_ to_ reads writes
  have hr : reads → (s.segSides i).read = some from_ := fun h => (x.sidesAt_read_iff _ _).2 ⟨h, rfl⟩
  have hw : writes → (s.segSides i).write = some to_ := fun h => (x.sidesAt_write_iff _ _).2 ⟨h, rfl⟩
  have hr' : ¬reads → (s.segSides i).read = none := fun h =>
    Option.eq_none_iff_forall_ne_some.2 fun a e => h ((x.sidesAt_read_iff _ a).1 e).1
  have hw' : ¬writes → (s.segSides i).write = none := fun h =>
    Option.eq_none_iff_forall_ne_some.2 fun a e => h ((x.sidesAt_write_iff _ a).1 e).1
  have answer : s.answerFor i = answerOf ((s.segSides i).write.map write) ((s.segSides i).read.map read) :=
    resolve_eq_answerOf _ _ _ _ _
  refine ⟨fun f w e => ?_, fun w e => ?_, fun d w r e => ?_, fun d f w r e e' => ?_, fun d d' w r e e' => ?_,
    fun f r w e => ?_, fun d r w e => ?_, fun q hq _ _ => ?_, fun hq => ?_, fun _ => rfl, rfl, fun r d => ?_⟩
  · rw [answer, hw w, Option.map_some, e]
    rfl
  · rw [answer, hw w, Option.map_some, e]
    rfl
  · rw [answer, hw w, Option.map_some, e, hr' r]
    rfl
  · rw [answer, hw w, Option.map_some, e, hr r, Option.map_some, e']
    rfl
  · rw [answer, hw w, Option.map_some, e, hr r, Option.map_some, e']
    rfl
  · rw [answer, hw' w, hr r, Option.map_some, e]
    rfl
  · rw [answer, hw' w, hr r, Option.map_some, e]
    rfl
  · intro touches
    have touching := s.touchesChange_iff i q
    refine ⟨fun h => ?_, fun h => ?_⟩
    · rw [State.requestResolution, hq]
      exact if_pos (touching.2 h)
    · rw [State.requestResolution, hq]
      exact if_neg (h ∘ touching.1)
  · rw [State.requestResolution, hq]
  · intro u
    have next := s.takeResolution_routed i r d
    dsimp only at next
    rw [State.joinSlotWait_setSeg, State.translate_setSeg] at next
    exact next

end Sys2Proof.Machine
end

section
/-! SUPPORT. The ends of the long commands and their report to the executor (R40, R92, R103, R152, R153, R158). -/

namespace Sys2Proof.Machine

/-- No tag is outstanding (R103, R107). -/
theorem Spoke.outstandingTags_eq_zero (x : Spoke) :
    x.outstandingTags = 0 ↔ ∀ (g : TagId) (r : Request), x.tags[g] ≠ .outstanding r := by
  have idle (t : Tag) : ¬t.isOutstanding = true ↔ ∀ r, t ≠ .outstanding r := by cases t <;> simp [Tag.isOutstanding]
  simp only [outstandingTags, List.countP_eq_zero, Vector.mem_toList_iff, Vector.mem_iff_getElem, idle]
  constructor
  · exact fun h g => h _ ⟨g, g.isLt, rfl⟩
  · rintro h _ ⟨g, hg, rfl⟩
    exact h ⟨g, hg⟩

namespace State

variable (s : State)

theorem execWindowChangeApply_eq : exec .windowChangeApply s = .next (s.windowApply?.getD s) := rfl

theorem execInvalidationComplete_eq : exec .invalidationComplete s = .next (s.invalidationEnd?.getD s) := rfl

theorem execQueueDeleteComplete_eq (n : QpId) : exec (.queueDeleteComplete n) s = .next ((s.deleteEnd? n).getD s) := rfl

theorem execDrainComplete_eq (k : SpokeId) : exec (.drainComplete k) s = .next ((s.drainEnd? k).getD s) := rfl

/-! ## The report to the executor (R158) -/

section

variable {opcodes : List Byte} {object : Nat} (status : AdminStatus) (info : Nat)

theorem endCommand_of_waiting {c : HeldCommand} (h : s.au.executor = .waiting c) (ho : c.opcode ∈ opcodes)
    (hc : c.object = object) : s.endCommand opcodes object status info = s.setExecutor (.posting c status info) := by
  rw [endCommand, h]
  exact if_pos ⟨ho, hc⟩

theorem endCommand_of_other (h : ∀ c, s.au.executor = .waiting c → c.opcode ∉ opcodes ∨ c.object ≠ object) :
    s.endCommand opcodes object status info = s := by
  unfold endCommand
  split
  · next c hw => exact if_neg fun g => (h c hw).elim (· g.1) (· g.2)
  · rfl

end

/-! ## A window change and an invalidation (R40, R92) -/

theorem windowApply?_eq_none (h : ∀ q, s.wu.quiesce = some q → q.counted ≠ []) : s.windowApply? = none := by
  unfold windowApply?
  split
  · next q hq => exact if_neg (h q hq)
  · rfl

theorem windowApply?_eq_some {q : Quiesce} (hq : s.wu.quiesce = some q) (hc : q.counted = []) :
    s.windowApply? = some
      ((({ s with wu := { windows := s.wu.windows.set q.window q.contents, quiesce := none } } : State).releaseHeld
        q.held).endCommand [0x07, 0x08] 0 .ok q.waited) := by
  rw [windowApply?, hq]
  exact if_pos hc

theorem invalidationEnd?_eq_none (h : ∀ v, s.tu.invalidation = some v → v.stale ≠ 0 ∨ v.awaited ≠ []) :
    s.invalidationEnd? = none := by
  unfold invalidationEnd?
  split
  · next v hv => exact if_neg fun g => (h v hv).elim (· g.1) (· g.2)
  · rfl

theorem invalidationEnd?_eq_some {v : Invalidation} (hv : s.tu.invalidation = some v) (hs : v.stale = 0) (ha : v.awaited = []) :
    s.invalidationEnd? = some (({ s with tu.invalidation := none } : State).endCommand [0x05, 0x06] 0 .ok v.removed) := by
  rw [invalidationEnd?, hv]
  exact if_pos ⟨hs, ha⟩

end State

/-- Settles O50: each row by whether its condition holds, and the executor by whether it WAITs on the command that ends. -/
theorem longCommandsEnd : Obligations.LongCommandsEnd := by
  refine ⟨fun s => ⟨fun q hq hc => ?_, fun h => ?_, fun v hv hs ha => ?_, fun h => ?_, fun n => ?_, fun k => ?_⟩,
    fun s opcodes object status info => ⟨fun c h ho hc => ?_, fun h => ?_⟩⟩
  · rw [s.execWindowChangeApply_eq, s.windowApply?_eq_some hq hc]
    rfl
  · rw [s.execWindowChangeApply_eq, s.windowApply?_eq_none h]
    rfl
  · rw [s.execInvalidationComplete_eq, s.invalidationEnd?_eq_some hv hs ha]
    rfl
  · rw [s.execInvalidationComplete_eq, s.invalidationEnd?_eq_none h]
    rfl
  · intro ends
    rw [s.execQueueDeleteComplete_eq, State.deleteEnd?]
    refine ⟨fun h => ?_, fun h => ?_⟩
    · rw [if_pos h]
      rfl
    · rw [if_neg h]
      rfl
  · intro ends
    have drained : (s.spoke k).state = .draining ∧ (s.spoke k).outstandingTags = 0 ↔ ends :=
      and_congr_right' (s.spoke k).outstandingTags_eq_zero
    rw [s.execDrainComplete_eq, State.drainEnd?]
    refine ⟨fun h => ?_, fun h => ?_⟩
    · rw [if_pos (drained.2 h)]
      rfl
    · rw [if_neg (h ∘ drained.1)]
      rfl
  · exact s.endCommand_of_waiting status info h ho hc
  · exact s.endCommand_of_other status info h

end Sys2Proof.Machine
end

section
/-! SUPPORT. The delivery of an accepted command (R155 to R157), and SET_WINDOW and CLEAR_WINDOW (R36, R37). -/

namespace Sys2Proof.Machine

/-! ## The codes of a window record (11.4) -/

theorem Form.ofCode_toNat (b : Byte) : Form.ofCode b.toNat = if b = 0 then .full else .loc := by
  unfold Form.ofCode
  split
  · next h => rw [if_pos (BitVec.eq_of_toNat_eq h)]
  · next h => rw [if_neg fun e => h (congrArg BitVec.toNat e)]

theorem Access.ofCode_toNat (b : Byte) :
    Access.ofCode b.toNat = if b = 0 then .readWrite else if b = 1 then .readOnly else .writeDrop := by
  unfold Access.ofCode
  split
  · next h => rw [if_pos (BitVec.eq_of_toNat_eq h)]
  · next h =>
    obtain rfl : b = 1 := BitVec.eq_of_toNat_eq h
    rfl
  · next h0 h1 => rw [if_neg fun e => h0 (congrArg BitVec.toNat e), if_neg fun e => h1 (congrArg BitVec.toNat e)]

/-! ## The checks of a window's size and place (R25, R36) -/

theorem windowSizeOk_iff (id : WindowId) (n : Nat) :
    windowSizeOk id n = true ↔ ∃ k : Fin 48, (if id.val < 2 then 26 else 12) ≤ k.val ∧ n = 2 ^ k.val := by
  simp only [windowSizeOk, striped, decide_eq_true_eq, List.any_eq_true, List.mem_range', beq_iff_eq]
  constructor
  · rintro ⟨_, ⟨i, hi, rfl⟩, hn⟩
    exact ⟨⟨_, by split_ifs at hi ⊢ <;> omega⟩, Nat.le_add_right _ _, hn⟩
  · rintro ⟨k, hk, hn⟩
    exact ⟨k, ⟨k - (if id.val < 2 then 26 else 12), by split_ifs at hk ⊢ <;> omega, by omega⟩, hn⟩

/-- Only an enabled window has a range (R37). -/
theorem Window.range_eq_some (w : Window) (r : Range) :
    w.range = some r ↔ w.enabled = true ∧ { base := w.base, size := w.size } = r := by
  unfold Window.range
  split <;> simp_all

theorem overlaps_iff (t : WindowTable) (id : WindowId) (base size : Nat) :
    overlaps t id base size = true ↔
      ∃ o : WindowId, o ≠ id ∧ striped o = striped id ∧ ∃ r, t[o].range = some r ∧ r.Meets base size := by
  simp only [overlaps, List.any_eq_true, List.mem_finRange, true_and, Bool.and_eq_true, bne_iff_ne, beq_iff_eq, and_assoc]
  refine exists_congr fun o => and_congr_right' (and_congr_right' ?_)
  cases t[o].range <;> simp [Range.meets_iff]

namespace State

variable (s : State)

/-! ## Delivery (R156, R157) -/

section

variable {s} {p : PlaceId} {r : ReadInFlight}

theorem commandPlace_eq (h : s.CommandReadAt p r) : s.commandPlace = some p := by
  refine firstIndex_eq_some.2 ⟨by simp [h.read, h.command], fun j hj => ?_⟩
  cases hr : (s.place j).read with
  | none => rfl
  | some x => simpa using h.first j hj x hr

/-- The command read's return frees its place and advances the fetch index; the executor then takes the command. -/
theorem deliver_eq_takeCommand (h : s.CommandReadAt p r) (ready : s.ctl.device = .ready) (head : CommandHead) (c : AdminCommand) :
    s.deliver head c =
      (s.commandTaken p).takeCommand { opcode := c.opcode, head := head, command := some c } (s.qp 0).fetchIndex := by
  rw [deliver, commandPlace_eq h]
  simp [commandEnd, clearPlace, ready, modQp, commandTaken]

/-- A command that passes its checks is accepted with what the executor holds of it. -/
theorem deliver_of_checked (h : s.CommandReadAt p r) (ready : s.ctl.device = .ready) {head : CommandHead} {c : AdminCommand}
    (checked : (s.commandTaken p).checkCommand c head.reserved = none) :
    s.deliver head c = (s.commandTaken p).accept c (s.heldOf head c) := by
  rw [deliver_eq_takeCommand h ready, takeCommand]
  dsimp only
  rw [checked]
  rfl

end

/-! ## The window commands accepted (R36, R37, R157) -/

theorem not_overlapping {d : SetWindow} (hw : d.window.toNat ≤ 7) (h : ¬s.Collides (.setWindow d)) :
    s.overlapping (.setWindow d) = false := by
  have number : (Fin.ofNat 8 d.window.toNat : WindowId).val = d.window.toNat := Nat.mod_eq_of_lt (by omega)
  refine Bool.eq_false_iff.2 fun meets => h ?_
  obtain ⟨o, other, sameClass, r, hr, lower, upper⟩ := (overlaps_iff _ _ _ _).1 meets
  obtain ⟨on, rfl⟩ := (Window.range_eq_some _ _).1 hr
  have below : o.val < 2 ↔ d.window.toNat < 2 := by
    rw [← number, ← striped_iff, ← striped_iff, sameClass]
  exact ⟨o, fun e => other (Fin.ext (e.trans number.symm)), below, on, lower, upper⟩

theorem checkCommand_setWindow {head : CommandHead} {d : SetWindow} (h : s.Accepts head (.setWindow d)) :
    s.checkCommand (.setWindow d) head.reserved = none := by
  obtain ⟨hw, size, aligned, target, form, access⟩ := h.params
  have number : (Fin.ofNat 8 d.window.toNat : WindowId).val = d.window.toNat := Nat.mod_eq_of_lt (by omega)
  have sizeOk : windowSizeOk (Fin.ofNat 8 d.window.toNat) d.size.toNat = true := by
    rw [windowSizeOk_iff, number]
    exact size
  have params : s.badParameter (.setWindow d) = false := by
    simp only [badParameter, hw, sizeOk, aligned, target, form, access, decide_true, Bool.and_self, Bool.not_true]
  simp [checkCommand, h.reserved, params, inUse, wrongState, s.not_overlapping hw h.apart]

theorem checkCommand_clearWindow {head : CommandHead} {b : Byte} (h : s.Accepts head (.clearWindow b)) :
    s.checkCommand (.clearWindow b) head.reserved = none := by
  have hb : b.toNat ≤ 7 := h.params
  simp [checkCommand, h.reserved, badParameter, inUse, wrongState, overlapping, hb]

/-- A command that gives window w the record x (R36). -/
inductive ChangesWindow : AdminCommand → WindowId → Window → Prop where
  | set (d : SetWindow) : ChangesWindow (.setWindow d) (Fin.ofNat 8 d.window.toNat) (windowContents d)
  | clear (b : Byte) : ChangesWindow (.clearWindow b) (Fin.ofNat 8 b.toNat) {}

/-- The row of an accepted window command. -/
theorem exec_window {p : PlaceId} {r : ReadInFlight} (h : s.CommandReadAt p r) (ready : s.ctl.device = .ready)
    {head : CommandHead} {c : AdminCommand} (accepted : s.Accepts head c) {w : WindowId} {x : Window} (hc : ChangesWindow c w x) :
    exec (c.row head) s = .next ((s.commandTaken p).acceptWindow w x (s.heldOf head c)).settle := by
  have checked : (s.commandTaken p).checkCommand c head.reserved = none := by
    cases hc with
    | set d => exact s.checkCommand_setWindow accepted
    | clear b => exact s.checkCommand_clearWindow accepted
  have row : exec (c.row head) s = .next (s.deliver head c).settle := by cases hc <;> rfl
  have accept (t : State) (held : HeldCommand) : t.accept c held = t.acceptWindow w x held := by cases hc <;> rfl
  rw [row, deliver_of_checked h ready checked, accept]

/-- A segment holds a route to an address of a range: a side of its kind that has a route meets the range (R37). -/
def RoutesInto (i : SegId) (r : Range) : Prop :=
  let g := s.seg i
  let x := s.entry g.entry
  (g.source ≠ none ∧ x.Reads ∧ r.Meets (x.fabric + g.offset) g.length) ∨
    (g.destination ≠ none ∧ x.Writes ∧ r.Meets (x.writeAddress g.offset) g.length)

theorem routeTouches_iff (i : SegId) (o : Option Range) :
    s.routeTouches i o = true ↔ ∃ r, o = some r ∧ s.RoutesInto i r := by
  simp only [routeTouches, RoutesInto, segSides, Sides.touches_iff, Option.ite_none_right_eq_some,
    Option.isSome_iff_ne_none, Entry.sidesAt_read_iff, Entry.sidesAt_write_iff, and_assoc, exists_and_left, exists_eq_left']

/-- The segments that a change of window w to record x counts (R37). -/
def countedFor (w : WindowId) (x : Window) : List SegId :=
  (List.finRange 128).filter fun i =>
    (s.seg i).state != .retired && (s.routeTouches i (s.window w).range || s.routeTouches i x.range)

theorem countedFor_nodup (w : WindowId) (x : Window) : (s.countedFor w x).Nodup := (List.nodup_finRange 128).filter _

theorem mem_countedFor (w : WindowId) (x : Window) (i : SegId) :
    i ∈ s.countedFor w x ↔
      (s.seg i).state ≠ .retired ∧ ∃ r, ((s.window w).range = some r ∨ x.range = some r) ∧ s.RoutesInto i r := by
  simp only [countedFor, List.mem_filter, List.mem_finRange, true_and, Bool.and_eq_true, bne_iff_ne, Bool.or_eq_true,
    routeTouches_iff, or_and_right, exists_or]

theorem acceptWindow_eq (w : WindowId) (x : Window) (c : HeldCommand) :
    s.acceptWindow w x c =
      { s.setExecutor (.waiting c) with
        wu.quiesce := some
          { window := w, old := (s.window w).range, new := x.range, contents := x, waited := (s.countedFor w x).length
            counted := s.countedFor w x, held := [] } } := rfl

end State

/-- The record a SET_WINDOW gives, field by field (R36). -/
theorem eq_windowContents {x : Window} {d : SetWindow} (on : x.enabled = true) (base : x.base = d.base.toNat)
    (size : x.size = d.size.toNat) (target : x.target.val = d.target.toNat)
    (form : x.form = if d.form = 0 then .full else .loc)
    (access : x.access = if d.access = 0 then .readWrite else if d.access = 1 then .readOnly else .writeDrop)
    (posted : x.posted = d.posted) : x = windowContents d := by
  have number : x.target = Fin.ofNat 8 d.target.toNat := by simp [← target]
  unfold windowContents
  rw [Form.ofCode_toNat, Access.ofCode_toNat, ← on, ← base, ← size, ← number, ← form, ← access, ← posted]

/-- Settles O41: both commands come to `acceptWindow`, whose counted segments are those that hold a route into either range. -/
theorem windowCommandsQuiesce : Obligations.WindowCommandsQuiesce := by
  intro s p r head c w x h ready accepted hc range
  have changes : State.ChangesWindow c w x := by
    obtain ⟨d, rfl, hw, on, base, size, target, form, access, posted⟩ | ⟨b, rfl, hw, rfl⟩ := hc
    · obtain rfl : w = Fin.ofNat 8 d.window.toNat := by simp [hw]
      rw [eq_windowContents on base size target form access posted]
      exact .set d
    · obtain rfl : w = Fin.ofNat 8 b.toNat := by simp [hw]
      exact .clear b
  refine ⟨(s.commandTaken p).countedFor w x, ?_, State.countedFor_nodup _ w x, State.mem_countedFor _ w x⟩
  rw [s.exec_window h ready accepted changes, State.acceptWindow_eq]
  rfl

end Sys2Proof.Machine
end

section
/-! SUPPORT. The request and the route of a segment, the joining of an issue list (R50), and the landing of a read's data (R53,
R56, R57, R66). -/

namespace Sys2Proof.Machine

namespace State

variable (s : State) (i : SegId)

/-! ## The request and its route (R50, R51) -/

/-- Segment i's request is a READ_REQUEST: a GATHER's, and a RELAY's on its SOURCE leg. -/
abbrev SendsRead : Prop := s.segKind i = some .gather ∨ (s.segKind i = some .relay ∧ (s.seg i).leg = .source)

theorem useRoute_eq : s.useRoute i = if s.SendsRead i then (s.seg i).source else (s.seg i).destination := by
  unfold useRoute SendsRead
  rcases s.segKind i with _ | k
  · rfl
  · cases k
    case relay => cases (s.seg i).leg <;> rfl
    all_goals rfl

theorem useRoute_eq_some {r : Route}
    (h : if s.SendsRead i then (s.seg i).source = some r else (s.seg i).destination = some r) : s.useRoute i = some r := by
  rwa [useRoute_eq, apply_ite (· = some r)]

theorem segWrites_iff : s.segWrites i = true ↔ ¬s.SendsRead i := by
  unfold segWrites SendsRead
  rcases s.segKind i with _ | k
  · simp
  · cases k
    case relay => cases (s.seg i).leg <;> simp
    all_goals simp

/-! ## Joining an issue list (R50) -/

theorem routeOpen_iff (r : Route) :
    s.routeOpen r = true ↔ (s.spoke r.spoke).state = .up ∧ s.headOf r.spoke = r.spoke ∧ r.earlier = false := by
  simp [routeOpen, isLogical, and_assoc]

theorem joinIssue_of_open {r : Route} (hr : s.useRoute i = some r) (h : s.routeOpen r = true) :
    s.joinIssue i = (s.setIssue r.spoke (s.issue r.spoke ++ [i])).setSeg i { s.seg i with state := .issueWait } := by
  rw [joinIssue, hr]
  exact if_pos h

theorem joinIssue_of_shut {r : Route} (hr : s.useRoute i = some r) (h : ¬s.routeOpen r = true) :
    s.joinIssue i = s.retire i (.failure (spokeFailure .spokeUnavailable r.spoke)) := by
  rw [joinIssue, hr]
  exact if_neg h

/-! ## The landing of a read's data (R53, R56, R57, R66) -/

theorem modSeg_modSeg (f g : Segment → Segment) : (s.modSeg i f).modSeg i g = s.modSeg i fun x => g (f x) := by
  simp [modSeg]

theorem fillSlot_seg (position : Nat) (bytes : List Byte) : (s.fillSlot i position bytes).seg i = s.seg i := by
  unfold fillSlot
  split <;> rfl

/-- Bytes placed from position 0 stand before what the slot holds past them. -/
theorem placeBytes_zero (data bytes : List Byte) : placeBytes data 0 bytes = bytes ++ data.drop bytes.length := by
  simp [placeBytes]

theorem fillSlot_zero {j : SlotId} (hj : (s.seg i).slot = some j) (bytes : List Byte) :
    s.fillSlot i 0 bytes = s.setSlot j { s.slot j with data := bytes ++ (s.slot j).data.drop bytes.length } := by
  rw [fillSlot, hj, ← placeBytes_zero]

theorem land_relay (hk : s.segKind i = some .relay) (bytes : List Byte) :
    s.land i bytes =
      ((s.fillSlot i 0 bytes).setSeg i { s.seg i with state := .landed, tag := none, leg := .destination }).joinIssue i := by
  rw [land, hk]
  dsimp only
  rw [modSeg_modSeg, modSeg, fillSlot_seg]

theorem land_gather (hk : s.segKind i = some .gather) (bytes : List Byte) :
    s.land i bytes =
      let t := (s.fillSlot i 0 bytes).setSeg i { s.seg i with state := .landed, tag := none }
      if (s.seg i).retranslate then t.translate i else t.gatherWrite i := by
  rw [land, hk]
  dsimp only
  rw [modSeg, fillSlot_seg]

/-- A GATHER's slot is written out to its host address, and the segment retires (R56, R68). -/
theorem gatherWrite_setSeg {x : Segment} {j : SlotId} {a : Nat} (hj : x.slot = some j) (ha : x.host = some a) :
    (s.setSeg i x).gatherWrite i =
      ((s.setSeg i x).takeWrite (.memory .gatherData a ((s.slot j).data.take x.length))).retire i (.success false none) := by
  simp [gatherWrite, slotBytes, ha, hj]

end State

/-- Settles O19: the route a segment is to use is open or shut. -/
theorem segmentJoinsIssueList : Obligations.SegmentJoinsIssueList := by
  intro s i r k h
  have hr : s.useRoute i = some r := s.useRoute_eq_some i h
  have opens := s.routeOpen_iff r
  split
  · next up => exact s.joinIssue_of_open i hr (opens.2 up)
  · next down => exact s.joinIssue_of_shut i hr (down ∘ opens.1)

/-- Settles O54: the kind, and a GATHER's mark, say what follows once the bytes stand in the slot. -/
theorem readDataLands : Obligations.ReadDataLands := by
  intro s i j bytes hj x kind data t
  have filled : s.fillSlot i 0 bytes = t := s.fillSlot_zero i hj bytes
  refine ⟨fun hk => ?_, fun hk => ⟨fun mark => ?_, fun h mark host => ?_⟩⟩
  · rw [s.land_relay i hk bytes, filled]
  · rw [s.land_gather i hk bytes, filled]
    dsimp only
    rw [if_pos mark, State.translate_setSeg]
  · have landed : (t.slot j).data = data := by simp [t]
    rw [s.land_gather i hk bytes, filled, ← landed]
    dsimp only
    rw [if_neg (ne_true_of_eq_false mark)]
    exact t.gatherWrite_setSeg i hj host

end Sys2Proof.Machine
end

section
/-! SUPPORT. What retirement changes in each block (R58): the segment's record, its slot, a pending change's count, and its
entry's account with the lists that hang on it (R3, R12, R14 to R16, R39, R62, R65). -/

namespace Sys2Proof.Machine

/-! ## The report to the entry (R12, R14, R15) -/

/-- An entry that has taken the report of a segment at an offset. -/
def Entry.reported (x : Entry) (offset : Nat) : SegEnd → Entry
  | .success dropped _ => { x with live := x.live - 1, dropped := x.dropped || dropped }
  | .failure f =>
    { x with
      live := x.live - 1
      failed := x.recordFailure offset f
      state := if x.state = .running then .winding else x.state }

theorem Entry.reported_qp (x : Entry) (offset : Nat) (how : SegEnd) : (x.reported offset how).qp = x.qp := by
  cases how <;> rfl

/-- A posted-spoke set after a segment's end: a posted write's spoke joins it. -/
def SegEnd.joined (v : Vector Posted 8) : SegEnd → Vector Posted 8
  | .success _ (some k) => joinPosted v k
  | _ => v

theorem Entry.recordFailure_eq (x : Entry) (offset : Nat) (f : Failure) :
    x.recordFailure offset f =
      if (∃ l ∈ x.failed, l.offset ≤ offset) then x.failed else some { offset := offset, failure := f } := by
  unfold Entry.recordFailure
  cases x.failed with
  | none => simp
  | some l => by_cases h : offset < l.offset <;> simp [h]

theorem joinPosted_getElem (v : Vector Posted 8) (j k : SpokeId) :
    (joinPosted v j)[k] = if k = j ∧ v[k] = .absent then .member else v[k] := by
  unfold joinPosted
  by_cases e : k = j
  · subst e
    by_cases h : v[k] = .absent
    · rw [if_pos h, if_pos ⟨rfl, h⟩]
      exact Vector.getElem_set_self _
    · rw [if_neg h, if_neg (h ·.2)]
  · have : j.val ≠ k.val := fun h => e (Fin.ext h.symm)
    split <;> simp [e, this]

/-- An entry that its last segment's end frees: it was stopped and winds down (R16). -/
def Entry.Freed (y : Entry) : Prop := y.state = .winding ∧ y.live = 0 ∧ y.stop.isSome = true

/-- An entry that is not freed: DONE when it winds down without live segments (R14, R15). -/
def Entry.closed (y : Entry) : Entry := { y with state := if y.state = .winding ∧ y.live = 0 then .done else y.state }

namespace State

variable (s : State)

/-! ## The end of an entry (R14 to R16) -/

theorem setPosted_self (n : QpId) : s.setPosted n (s.posted n) = s := by simp [setPosted, posted]

section
variable {s} {e : EntryId}

theorem closeEntry_of_freed (h : (s.entry e).Freed) :
    s.closeEntry e = (s.setInflight (s.entry e).qp ((s.inflight (s.entry e).qp).erase e)).setEntry e {} := by
  obtain ⟨winding, empty, stopped⟩ := h
  rw [closeEntry, if_pos ⟨winding, empty⟩, if_pos stopped, freeEntry, if_neg (by simp [winding])]

theorem closeEntry_of_kept (h : ¬(s.entry e).Freed) : s.closeEntry e = s.setEntry e (s.entry e).closed := by
  unfold closeEntry Entry.closed
  split
  · next ends =>
    rw [if_neg fun stopped => h ⟨ends.1, ends.2, stopped⟩]
    rfl
  · exact (s.setEntry_self e).symm

end

theorem closeEntry_posted (e : EntryId) (n : QpId) : (s.closeEntry e).posted n = s.posted n := by
  by_cases h : (s.entry e).Freed
  · rw [closeEntry_of_freed h]
    rfl
  · rw [closeEntry_of_kept h]
    rfl

theorem closeEntry_entry_of_ne (e : EntryId) {f : EntryId} (hf : f ≠ e) : (s.closeEntry e).entry f = s.entry f := by
  by_cases h : (s.entry e).Freed
  · rw [closeEntry_of_freed h, setEntry_entry, if_neg hf, setInflight_entry]
  · rw [closeEntry_of_kept h, setEntry_entry, if_neg hf]

/-! ## The segment's own blocks (R39, R42, R62, R65) -/

variable (i : SegId)

theorem freeSlot_slot (j : SlotId) :
    (s.freeSlot i).slot j = if (s.seg i).slot = some j then { s.slot j with holder := none } else s.slot j := by
  unfold freeSlot
  split
  · next h => simp [h]
  · next m h =>
    simp only [modSeg_slot, setHeld_slot, setSlot_slot, h, Option.some_inj, eq_comm (a := m)]
    split
    · next e => rw [e]
    · rfl

theorem freeSlot_held (n : QpId) :
    (s.freeSlot i).held n = if (s.seg i).slot.isSome = true ∧ n = s.segQp i then s.held n - 1 else s.held n := by
  unfold freeSlot
  split
  · next h => simp [h]
  · next m h =>
    simp only [modSeg_held, setHeld_held, setSlot_held, h, Option.isSome_some, true_and]
    split
    · next e => rw [e]
    · rfl

theorem uncount_eq :
    s.uncount i = { s with wu.quiesce := s.wu.quiesce.map fun q => { q with counted := q.counted.erase i } } := by
  unfold uncount
  split
  · next q h => rw [h, Option.map_some]
  · next h => rw [h, Option.map_none, ← h]

/-- The segment's record, its slot and its place in a pending change's count are given up. -/
def released : State := ((s.freeSlot i).setSeg i {}).uncount i

theorem released_eq :
    s.released i =
      { s with
        su.segments := s.su.segments.set i {}
        rb := (s.freeSlot i).rb
        wu.quiesce := s.wu.quiesce.map fun q => { q with counted := q.counted.erase i } } := by
  rw [released, uncount_eq]
  unfold freeSlot
  split
  · rfl
  · simp [modSeg, setSeg, setHeld, setSlot]

@[simp] theorem released_entry (e : EntryId) : (s.released i).entry e = s.entry e := by rw [released_eq]; rfl
@[simp] theorem released_inflight (n : QpId) : (s.released i).inflight n = s.inflight n := by rw [released_eq]; rfl
@[simp] theorem released_posted (n : QpId) : (s.released i).posted n = s.posted n := by rw [released_eq]; rfl

/-! ## Retirement (R58) -/

/-- The entry and the posted-spoke set of its queue pair have taken the report of segment i's end. -/
def reported (how : SegEnd) : State :=
  let e := (s.seg i).entry
  ((s.released i).setPosted (s.segQp i) (how.joined (s.posted (s.segQp i)))).setEntry e
    ((s.entry e).reported (s.seg i).offset how)

/-- A retirement gives up what the segment holds, reports to its entry, and closes the entry. -/
theorem retire_eq_closeEntry (how : SegEnd) : s.retire i how = (s.reported i how).closeEntry (s.seg i).entry := by
  have noJoin : (s.released i).setPosted (s.segQp i) (s.posted (s.segQp i)) = s.released i := by
    rw [← released_posted]
    exact setPosted_self _ _
  unfold retire reported
  rw [← released]
  cases how with
  | success dropped sent =>
    cases sent with
    | none => simp only [entrySuccess, modEntry, released_entry, SegEnd.joined, noJoin, Entry.reported]
    | some k =>
      simp only [entrySuccess, modEntry, released_entry, released_posted, SegEnd.joined, Entry.reported]
      rfl
  | failure f => simp only [entryFailure, modEntry, released_entry, SegEnd.joined, noJoin, Entry.reported]

section
variable (how : SegEnd)

/-- Outside the transfer table a retirement changes what the segment holds, and nothing else. -/
theorem retire_blocks :
    s.retire i how =
      { s with
        tt := (s.retire i how).tt
        su.segments := s.su.segments.set i {}
        rb := (s.freeSlot i).rb
        wu.quiesce := s.wu.quiesce.map fun q => { q with counted := q.counted.erase i } } :=
  (s.retire_eq i how).trans (congrArg (fun t : State => { t with tt := (s.retire i how).tt }) (s.released_eq i))

theorem reported_entry_self : (s.reported i how).entry (s.seg i).entry = (s.entry (s.seg i).entry).reported (s.seg i).offset how :=
  setEntry_entry_self _ _ _

theorem reported_inflight (n : QpId) : (s.reported i how).inflight n = s.inflight n :=
  s.released_inflight i n

theorem reported_posted (n : QpId) :
    (s.reported i how).posted n = if n = s.segQp i then how.joined (s.posted n) else s.posted n := by
  rw [reported, setEntry_posted, setPosted_posted, released_posted]
  split
  · next e => rw [e]
  · rfl

theorem retire_posted (n : QpId) :
    (s.retire i how).posted n = if n = s.segQp i then how.joined (s.posted n) else s.posted n := by
  rw [retire_eq_closeEntry, closeEntry_posted, reported_posted]

theorem retire_entry_of_ne {f : EntryId} (hf : f ≠ (s.seg i).entry) : (s.retire i how).entry f = s.entry f := by
  rw [retire_eq_closeEntry, closeEntry_entry_of_ne _ _ hf, reported, setEntry_entry, if_neg hf, setPosted_entry, released_entry]

section
variable {s i how}

/-- The end of a stopped entry's last segment frees the entry. -/
theorem retire_of_freed (h : ((s.entry (s.seg i).entry).reported (s.seg i).offset how).Freed) :
    s.retire i how =
      let e := (s.seg i).entry
      ((s.reported i how).setInflight (s.segQp i) ((s.inflight (s.segQp i)).erase e)).setEntry e {} := by
  rw [← reported_entry_self] at h
  rw [retire_eq_closeEntry, closeEntry_of_freed h, reported_entry_self, Entry.reported_qp, reported_inflight]
  rfl

/-- Any other segment's end leaves its entry in its in-flight list. -/
theorem retire_of_kept (h : ¬((s.entry (s.seg i).entry).reported (s.seg i).offset how).Freed) :
    s.retire i how =
      (s.reported i how).setEntry (s.seg i).entry ((s.entry (s.seg i).entry).reported (s.seg i).offset how).closed := by
  rw [← reported_entry_self] at h
  rw [retire_eq_closeEntry, closeEntry_of_kept h, reported_entry_self]

end

end

end State

/-- Settles O18: the segment's own blocks by what it gives up, its entry's by whether the report frees the entry. -/
theorem segmentRetires : Obligations.SegmentRetires := by
  intro s i how e x u y freed
  have hy : y = x.reported (s.seg i).offset how := by
    cases how with
    | success dropped sent => rfl
    | failure f => simp only [y, Entry.reported, Entry.recordFailure_eq]
  have freed_iff : freed ↔ (x.reported (s.seg i).offset how).Freed := by rw [← hy]; rfl
  have blocks : u = _ := s.retire_blocks i how
  refine ⟨s.retire_seg_self i how, (s.retire_touches i how).seg, congrArg (·.su.issue) blocks, congrArg (·.su.grantPtr) blocks,
    fun j => (congrArg (·.rb.slots[j]) blocks).trans (s.freeSlot_slot i j),
    fun n => (congrArg (·.rb.held[n]) blocks).trans (s.freeSlot_held i n), (s.retire_touches i how).waiting,
    congrArg (·.wu) blocks, fun f hf => s.retire_entry_of_ne i how hf, fun h => ?_, fun h => ?_,
    fun n => ⟨fun h => ?_, fun h => ?_⟩, fun n k => ?_, congrArg (·.ctl) blocks, congrArg (·.qe) blocks,
    congrArg (·.tu) blocks, congrArg (·.sp) blocks, congrArg (·.au) blocks, congrArg (·.hp) blocks, congrArg (·.wire) blocks,
    congrArg (·.pending) blocks⟩
  · exact (congrArg (·.entry e) (State.retire_of_freed (freed_iff.1 h))).trans (State.setEntry_entry_self _ _ _)
  · rw [hy]
    exact (congrArg (·.entry e) (State.retire_of_kept (h ∘ freed_iff.2))).trans (State.setEntry_entry_self _ _ _)
  · obtain ⟨free, rfl⟩ := h
    exact (congrArg (·.inflight x.qp) (State.retire_of_freed (freed_iff.1 free))).trans (State.setInflight_inflight_self _ _ _)
  · by_cases free : freed
    · have other : n ≠ x.qp := fun hn => h ⟨free, hn⟩
      refine (congrArg (·.inflight n) (State.retire_of_freed (freed_iff.1 free))).trans ?_
      rw [State.setEntry_inflight, State.setInflight_inflight, State.reported_inflight]
      exact if_neg other
    · exact (congrArg (·.inflight n) (State.retire_of_kept (free ∘ freed_iff.2))).trans (s.reported_inflight i how n)
  · have sets : (u.posted n)[k] = if n = x.qp then (how.joined (s.posted n))[k] else (s.posted n)[k] := by
      rw [← apply_ite (fun v : Vector Posted 8 => v[k])]
      exact congrArg (fun v : Vector Posted 8 => v[k]) (s.retire_posted i how n)
    rw [sets]
    cases how with
    | failure f => exact ite_self _
    | success dropped sent =>
      cases sent with
      | none => exact ite_self _
      | some j =>
        by_cases hn : n = x.qp
        · simp only [hn, if_true, true_and]
          exact joinPosted_getElem _ _ _
        · simp only [hn, if_false, false_and]

end Sys2Proof.Machine
end

section
/-! SUPPORT. The sending of the head request and the head flush request of a spoke (R4, R51, R109, R123, R124). -/

namespace Sys2Proof.Machine

/-! ## Tags (R107) -/

theorem freeTag_eq_some {x : Spoke} {g : TagId} :
    freeTag x = some g ↔ x.tags[g] = .free ∧ ∀ h : TagId, h < g → x.tags[h] ≠ .free := by
  simp only [freeTag, firstIndex_eq_some, beq_iff_eq, beq_eq_false_iff_ne]

theorem freeTag_eq_none {x : Spoke} : freeTag x = none ↔ ∀ g : TagId, x.tags[g] ≠ .free := by
  simp only [freeTag, firstIndex_eq_none, beq_eq_false_iff_ne]

namespace State

variable (s : State) (k : SpokeId)

theorem execRequestSend_eq : exec (.requestSend k) s = .next ((s.sendRequest? k).getD s) := rfl

theorem execFlushSend_eq : exec (.flushSend k) s = .next ((s.sendFlush? k).getD s) := rfl

/-! ## Flush requests (R109, R124) -/

theorem sendFlush?_eq_some {e : EntryId} {rest : List EntryId} {g : TagId} (up : (s.spoke k).state = .up)
    (credit : 0 < (s.spoke k).credits) (hl : (s.spoke k).flushList = e :: rest) (hg : freeTag (s.spoke k) = some g) :
    s.sendFlush? k = some
      ((s.setSpoke k
        { s.spoke k with
          credits := (s.spoke k).credits - 1, flushList := rest
          tags := (s.spoke k).tags.set g (.outstanding (.flush (some e))) }).sendFrame k (.flush g)) := by
  rw [sendFlush?, if_pos ⟨up, credit⟩, hl, hg]
  rfl

theorem sendFlush?_eq_none
    (h : (s.spoke k).state ≠ .up ∨ (s.spoke k).credits = 0 ∨ (s.spoke k).flushList = [] ∨ freeTag (s.spoke k) = none) :
    s.sendFlush? k = none := by
  unfold sendFlush?
  split
  · next ready =>
    obtain down | broke | idle | full := h
    · exact absurd ready.1 down
    · exact absurd broke ready.2.ne'
    · rw [idle]
    · rw [full]
      cases (s.spoke k).flushList <;> rfl
  · rfl

/-! ## The request at the head of an issue list (R51) -/

variable (i : SegId)

/-- A WRITE_REQUEST carries a FILL's pattern or the slot's bytes (R4, R51). -/
theorem payload_eq :
    s.payload i =
      if s.segKind i = some .fill then fillBytes (s.entry (s.seg i).entry).near (s.seg i).offset (s.seg i).length
      else s.slotBytes i := by
  unfold payload
  rcases s.segKind i with _ | kind
  · rfl
  · cases kind <;> rfl

/-- Spoke k may send the request at the head of its issue list: it is UP with a credit, and no flush request goes before. -/
structure MaySend : Prop where
  up : (s.spoke k).state = .up
  credit : 0 < (s.spoke k).credits
  noFlush : (s.spoke k).flushList = [] ∨ freeTag (s.spoke k) = none

theorem sendRequest?_eq_none (h : ¬s.MaySend k ∨ s.issue k = []) : s.sendRequest? k = none := by
  unfold sendRequest?
  split
  · next ready =>
    obtain waits | idle := h
    · exact absurd ⟨ready.1, ready.2.1, ready.2.2⟩ waits
    · rw [idle]
  · rfl

section
variable {s k i} {rest : List SegId} {r : Route} (may : s.MaySend k) (head : s.issue k = i :: rest) (hr : s.useRoute i = some r)
include may head hr

/-- A posted write goes with a credit alone. -/
theorem sendRequest?_posted (hw : ¬s.SendsRead i) (posted : r.posted = true) :
    s.sendRequest? k = some ((s.setIssue k rest).sendPosted k i r.address) := by
  rw [sendRequest?, if_pos ⟨may.up, may.credit, may.noFlush⟩, head]
  dsimp only
  rw [hr]
  exact if_pos ⟨(s.segWrites_iff i).2 hw, posted⟩

/-- A read and a non-posted write go with a tag too. -/
theorem sendRequest?_tagged (h : s.SendsRead i ∨ r.posted = false) :
    s.sendRequest? k = (freeTag (s.spoke k)).map ((s.setIssue k rest).sendTagged k i r.address) := by
  have tagged : ¬(s.segWrites i = true ∧ r.posted = true) := by
    rw [segWrites_iff]
    rintro ⟨writes, posted⟩
    exact h.elim writes (ne_false_of_eq_true posted)
  rw [sendRequest?, if_pos ⟨may.up, may.credit, may.noFlush⟩, head]
  dsimp only
  rw [hr]
  dsimp only
  rw [if_neg tagged]
  cases freeTag (s.spoke k) <;> rfl

end

/-! ## What each request changes (R51, R109) -/

theorem sendPosted_eq (address : Nat) :
    s.sendPosted k i address =
      ((s.setSpoke k { s.spoke k with credits := (s.spoke k).credits - 1 }).sendFrame k
        (.writeRequest none address (s.payload i))).retire i (.success false (some k)) := rfl

section
variable {s i} (address : Nat) (g : TagId)

/-- A read is outstanding under its tag, and keeps its slot. -/
theorem sendTagged_read (h : s.SendsRead i) :
    s.sendTagged k i address g =
      ((s.setSeg i { s.seg i with state := .outstanding, tag := some g }).setSpoke k
        { s.spoke k with
          credits := (s.spoke k).credits - 1, tags := (s.spoke k).tags.set g (.outstanding (.read i)) }).sendFrame k
        (.readRequest g address (s.seg i).length) := by
  rw [sendTagged, if_neg fun writes => (s.segWrites_iff i).1 writes h]
  rfl

/-- A non-posted write without a slot is outstanding under its tag. -/
theorem sendTagged_write_of_noSlot (h : ¬s.SendsRead i) (hs : (s.seg i).slot = none) :
    s.sendTagged k i address g =
      ((s.setSeg i { s.seg i with state := .outstanding, tag := some g, slot := none }).setSpoke k
        { s.spoke k with
          credits := (s.spoke k).credits - 1, tags := (s.spoke k).tags.set g (.outstanding (.write i)) }).sendFrame k
        (.writeRequest (some g) address (s.payload i)) := by
  rw [sendTagged, if_pos ((s.segWrites_iff i).2 h), freeSlot, sendFrame_seg, hs]
  dsimp only
  rw [modSeg, sendFrame_seg, hs]
  rfl

/-- A non-posted write's slot is freed as it is sent. -/
theorem sendTagged_write_of_slot (h : ¬s.SendsRead i) {j : SlotId} (hs : (s.seg i).slot = some j) :
    s.sendTagged k i address g =
      ((((s.setSeg i { s.seg i with state := .outstanding, tag := some g, slot := none }).setSpoke k
        { s.spoke k with
          credits := (s.spoke k).credits - 1, tags := (s.spoke k).tags.set g (.outstanding (.write i)) }).sendFrame k
        (.writeRequest (some g) address (s.payload i))).setSlot j { s.slot j with holder := none }).setHeld (s.segQp i)
        (s.held (s.segQp i) - 1) := by
  rw [sendTagged, if_pos ((s.segWrites_iff i).2 h), freeSlot, sendFrame_seg, hs]
  dsimp only
  rw [modSeg_modSeg]
  rfl

end

end State

/-- Settles O49: what a spoke may send, the request by its kind and its route's posted value, and the tag by the lowest free one. -/
theorem spokeSendsHeads : Obligations.SpokeSendsHeads := by
  refine ⟨fun s k => ?_, fun s k => ?_⟩
  · intro x free
    refine ⟨fun idle => ?_, ?_⟩
    · rw [s.execRequestSend_eq, s.sendRequest?_eq_none]
      · rfl
      · obtain down | broke | none | ⟨flush, g, hg⟩ := idle
        · exact .inl fun may => down may.up
        · exact .inl fun may => may.credit.ne' broke
        · exact .inr none
        · exact .inl fun may => may.noFlush.elim flush fun full => freeTag_eq_none.1 full g hg
    · intro i rest r up credit head noFlush y reads route payload left
      have may : s.MaySend k := ⟨up, credit, noFlush.imp_right freeTag_eq_none.2⟩
      have hr : s.useRoute i = some r := s.useRoute_eq_some i route
      have carried : left.payload i = payload := left.payload_eq i
      rw [s.execRequestSend_eq]
      refine ⟨fun writes posted => ?_, fun tagged full => ?_, fun hread g hg => ?_, fun writes posted g hg => ?_⟩
      · rw [State.sendRequest?_posted may head hr writes posted, State.sendPosted_eq, carried]
        rfl
      · rw [State.sendRequest?_tagged may head hr tagged, freeTag_eq_none.2 full]
        rfl
      · rw [State.sendRequest?_tagged may head hr (.inl hread), freeTag_eq_some.2 hg]
        exact congrArg Host.Outcome.next (State.sendTagged_read (s := left) k r.address g hread)
      · rw [State.sendRequest?_tagged may head hr (.inr posted), freeTag_eq_some.2 hg]
        intro sent
        refine ⟨fun noSlot => ?_, fun j hj => ?_⟩
        · have sends := State.sendTagged_write_of_noSlot (s := left) k r.address g writes noSlot
          rw [carried] at sends
          exact congrArg Host.Outcome.next sends
        · have sends := State.sendTagged_write_of_slot (s := left) k r.address g writes hj
          rw [carried] at sends
          exact congrArg Host.Outcome.next sends
  · intro x
    refine ⟨fun e rest g up credit hl hg first => ?_, fun idle => ?_⟩
    · rw [s.execFlushSend_eq, s.sendFlush?_eq_some k up credit hl (freeTag_eq_some.2 ⟨hg, first⟩)]
      rfl
    · rw [s.execFlushSend_eq, s.sendFlush?_eq_none k]
      · rfl
      · exact idle.imp_right (Or.imp_right (Or.imp_right freeTag_eq_none.2))

end Sys2Proof.Machine
end

section
/-! SUPPORT. SLOT_GRANT and the run of slot grants that follows a freeing or a joining (R48, R49, R61 to R64). -/

namespace Sys2Proof.Machine

namespace State

variable (s : State)

theorem execSlotGrant_eq : exec .slotGrant s = .next (s.slotGrant?.getD s) := rfl

/-! ## The slot and the waiter of a grant (R61, R64) -/

theorem freeSlotIndex_eq_some {j : SlotId} :
    s.freeSlotIndex = some j ↔ (s.slot j).holder = none ∧ ∀ f, f < j → (s.slot f).holder ≠ none := by
  simp only [freeSlotIndex, firstIndex_eq_some, Option.isNone_iff_eq_none, Option.isNone_eq_false_iff, Option.isSome_iff_ne_none]

theorem freeSlotIndex_eq_none : s.freeSlotIndex = none ↔ ∀ j, (s.slot j).holder ≠ none := by
  simp only [freeSlotIndex, firstIndex_eq_none, Option.isNone_eq_false_iff, Option.isSome_iff_ne_none]

theorem eligibleWaiter_eq_some {i : SegId} {a b : List SegId} (hl : s.rb.waiting = a ++ i :: b)
    (ha : ∀ h ∈ a, Config.slotCap ≤ s.held (s.segQp h)) (hi : s.held (s.segQp i) < Config.slotCap) :
    s.eligibleWaiter = some i := by
  rw [eligibleWaiter, hl]
  exact List.find?_eq_some_iff_append.2
    ⟨decide_eq_true hi, a, b, rfl, fun h hm => by simpa using ha h hm⟩

theorem eligibleWaiter_eq_none : s.eligibleWaiter = none ↔ ∀ h ∈ s.rb.waiting, Config.slotCap ≤ s.held (s.segQp h) := by
  simp only [eligibleWaiter, List.find?_eq_none, decide_eq_true_eq, not_lt]

theorem slotGrant?_eq_some {j : SlotId} {i : SegId} (hj : s.freeSlotIndex = some j) (hi : s.eligibleWaiter = some i) :
    s.slotGrant? = some (s.grantSlot j i) := by
  rw [slotGrant?, hj, hi]

theorem slotGrant?_eq_none (h : s.freeSlotIndex = none ∨ s.eligibleWaiter = none) : s.slotGrant? = none := by
  obtain h | h := h
  · rw [slotGrant?, h]
  · rw [slotGrant?, h]
    cases s.freeSlotIndex <;> rfl

/-! ## What the granted segment does next (R47 to R49) -/

variable (i : SegId) (j : SlotId)

/-- The state in which segment i has left the slot wait list and holds slot j, and has not gone on yet. -/
def slotGiven : State :=
  (((s.setWaiting (s.rb.waiting.erase i)).setSlot j { s.slot j with holder := some i }).setHeld (s.segQp i)
    (s.held (s.segQp i) + 1)).setSeg i { s.seg i with slot := some j }

theorem grantSlot_of_not_scatter (hk : s.segKind i ≠ some .scatter) : s.grantSlot j i = (s.slotGiven i j).joinIssue i := by
  unfold grantSlot
  split
  · next h => exact absurd h hk
  · rfl

theorem grantSlot_of_scatter (hk : s.segKind i = some .scatter) :
    s.grantSlot j i =
      if (s.seg i).retranslate then (s.slotGiven i j).translate i else (s.slotGiven i j).scatterRead i := by
  rw [grantSlot, hk]
  rfl

/-- A SCATTER that holds its host address reads host memory (R49). -/
theorem scatterRead_of_host {a : Nat} (h : (s.seg i).host = some a) :
    s.scatterRead i =
      (s.setSeg i { s.seg i with state := .hostReading }).handRead
        { requester := .data i, address := a, length := (s.seg i).length } := by
  rw [scatterRead, h]
  rfl

/-! ## The grants after a freeing or a joining (R64) -/

/-- The grants are rows, one after the other, and each takes one waiter from the list. -/
theorem grantSlotsFor_runRows (fuel : Nat) :
    ∃ n : Nat, RunRows s (List.replicate n .slotGrant) (grantSlotsFor fuel s) ∧
      (grantSlotsFor fuel s).rb.waiting.length + n = s.rb.waiting.length := by
  induction fuel generalizing s with
  | zero => exact ⟨0, .done s, rfl⟩
  | succ fuel ih =>
    unfold grantSlotsFor
    split
    · next t granted =>
      obtain ⟨n, run, count⟩ := ih t
      have row : exec .slotGrant s = .next t := by rw [execSlotGrant_eq, granted]; rfl
      have taken := (s.slotGrant_grants granted).2
      exact ⟨n + 1, .more .slotGrant _ granted row run, by omega⟩
    · exact ⟨0, .done s, rfl⟩

end State

/-- Settles O20: the row by the slot and the waiter it finds, and by the waiter's kind and mark; the grants that follow by
induction on their bound. -/
theorem slotGrantServesOldestEligible : Obligations.SlotGrantServesOldestEligible := by
  intro s
  refine ⟨?_, fun idle => ?_, ?_⟩
  · intro j i a b free first list full room n t
    have grant : exec .slotGrant s = .next (s.grantSlot j i) := by
      rw [s.execSlotGrant_eq, s.slotGrant?_eq_some (s.freeSlotIndex_eq_some.2 ⟨free, first⟩)
        (s.eligibleWaiter_eq_some list full room)]
      rfl
    have ahead : i ∉ a := fun m => absurd room (not_lt.2 (full i m))
    have given : s.slotGiven i j = t := by
      rw [State.slotGiven, list, List.erase_append_right _ ahead, List.erase_cons_head]
      rfl
    rw [grant]
    refine ⟨fun hk => ?_, fun hk => ⟨fun mark => ?_, fun h mark host => ?_⟩⟩
    · rw [s.grantSlot_of_not_scatter i j hk, given]
    · rw [s.grantSlot_of_scatter i j hk, if_pos mark, given, State.translate_setSeg, State.setSeg_setSeg]
    · have holds : t.seg i = { s.seg i with slot := some j } := State.setSeg_seg_self _ _ _
      have address : (t.seg i).host = some h := by rw [holds]; exact host
      rw [s.grantSlot_of_scatter i j hk, if_neg (ne_true_of_eq_false mark), given, t.scatterRead_of_host i address, holds]
  · rw [s.execSlotGrant_eq, s.slotGrant?_eq_none (idle.imp s.freeSlotIndex_eq_none.2 s.eligibleWaiter_eq_none.2)]
    rfl
  · obtain ⟨n, run, count⟩ := s.grantSlotsFor_runRows s.rb.waiting.length
    have done := s.grantSlots_spec.2
    have stays : exec .slotGrant s.grantSlots = .next s.grantSlots := by rw [State.execSlotGrant_eq, done]; rfl
    exact ⟨n, run, stays, done, count⟩

end Sys2Proof.Machine
end

section
/-! SUPPORT. The end of a walk's read and the service of the walk wait list (R46, R47, R78 to R86, R92). -/

namespace Sys2Proof.Machine

/-! ## The answer of a directory entry (R75, R78, R79) -/

theorem PageSize.bytes_eq (size : PageSize) :
    size.bytes = match size with
      | .k4 => 4096
      | .k64 => 65536
      | .m2 => 2097152 := by
  cases size <;> rfl

/-- A frame number is below the bound of its page size when its page begins inside the host address space (R79). -/
theorem PageSize.lt_frameBound (size : PageSize) (frame : Nat) : frame < size.frameBound ↔ size.bytes * frame < 2 ^ 64 := by
  cases size <;> simp only [PageSize.frameBound, PageSize.bytes] <;> omega

theorem usable_iff (size : PageSize) (d : DirectoryEntry) :
    usable size d = true ↔ d.present = true ∧ size.bytes * d.frame < 2 ^ 64 := by
  simp only [usable, Bool.and_eq_true, decide_eq_true_eq, PageSize.lt_frameBound]

namespace State

variable (s : State)

theorem execWalkStart_eq : exec .walkStart s = .next (s.walkStart?.getD s) := rfl

theorem segAccessWrites_iff (i : SegId) : s.segAccessWrites i = true ↔ s.segKind i = some .gather := beq_iff_eq

/-- Segment i's answer from the directory entry of a key. -/
def answerFrom (size : PageSize) (key : Key) (d : DirectoryEntry) (i : SegId) : TransAnswer :=
  answerFromEntry size (s.segAccessWrites i) (s.segIova i) key d

theorem answerFrom_of_unusable {size : PageSize} {d : DirectoryEntry} (h : ¬usable size d = true) (key : Key) (i : SegId) :
    s.answerFrom size key d i = translationFault 2 := if_neg h

theorem answerFrom_of_usable {size : PageSize} {d : DirectoryEntry} (h : usable size d = true) (key : Key) (i : SegId) :
    s.answerFrom size key d i =
      if (if s.segKind i = some .gather then d.writable else d.readable) = true then
        .translated (d.frame * size.bytes + s.segIova i % size.bytes) (some key)
      else translationFault 3 := by
  rw [answerFrom, answerFromEntry, if_pos h]
  simp only [segAccessWrites_iff]

/-! ## Where a key is looked for (R80, R82, R83) -/

theorem freeWalk_isSome : s.freeWalk.isSome = true ↔ ∃ w, s.walk w = none := by
  rw [← not_iff_not, Option.not_isSome_iff_eq_none, freeWalk, firstIndex_eq_none]
  simp [Option.isSome_iff_ne_none]

theorem openWalk_isSome (key : Key) :
    (s.openWalk key).isSome = true ↔ ∃ (w : WalkId) (x : Walk), s.walk w = some x ∧ x.key = key ∧ x.stale = false := by
  rw [← not_iff_not, Option.not_isSome_iff_eq_none, openWalk, firstIndex_eq_none]
  push Not
  refine forall_congr' fun w => ?_
  cases s.walk w with
  | none => simp
  | some x => simp

theorem cacheFind_isSome (key : Key) :
    (s.cacheFind key).isSome = true ↔ ∃ (j : CacheId) (e : CacheEntry), s.tu.cache[j] = some e ∧ e.key = key := by
  simp only [cacheFind, List.isSome_findSome?, List.any_eq_true, Vector.mem_toList_iff, Vector.mem_iff_getElem]
  constructor
  · rintro ⟨c, ⟨j, hj, rfl⟩, hc⟩
    obtain ⟨e, he⟩ := Option.isSome_iff_exists.1 hc
    obtain ⟨he, hk⟩ := Option.filter_eq_some_iff.1 he
    exact ⟨⟨j, hj⟩, e, he, beq_iff_eq.1 hk⟩
  · rintro ⟨j, e, he, hk⟩
    exact ⟨some e, ⟨j, j.isLt, he⟩, by simp [hk]⟩

/-! ## The end of a walk's read (R81, R84, R85, R92) -/

theorem readEnd_walk {r : ReadInFlight} {w : WalkId} (h : r.request.requester = .walk w) (ok : Bool) :
    s.readEnd r ok = s.walkEnd w (if ok then some r.buffer else none) := by rw [readEnd, h]

theorem walkEnd_of_walk {w : WalkId} {x : Walk} (h : s.walk w = some x) (bytes : Option (List Byte)) :
    s.walkEnd w bytes =
      let read := bytes.map decodeDirectoryEntry
      let size := (s.context x.key.context).pageSize
      (x.joined.foldl (answerJoined x size read) ((s.shutWalk w x).installRead x size read)).closeWalk w x.stale := by
  rw [walkEnd, h]

section
variable {x : Walk} (size : PageSize) (d : DirectoryEntry)

theorem answerJoined_of_stale (h : x.stale = true) :
    answerJoined x size (some d) = fun t i => (t.takeStaleAnswer i (t.answerFrom size x.key d i)).grantSlots := by
  funext t i
  rw [answerJoined, answerFrom]
  dsimp only
  rw [if_pos h]

theorem answerJoined_of_fresh (h : x.stale = false) :
    answerJoined x size (some d) = fun t i => (t.takeAnswer i (t.answerFrom size x.key d i)).grantSlots := by
  funext t i
  rw [answerJoined, answerFrom]
  dsimp only
  rw [if_neg (ne_true_of_eq_false h)]

variable {size d}

theorem installRead_of_stale (h : x.stale = true) : s.installRead x size (some d) = s := by
  simp [installRead, h]

theorem installRead_of_unusable (h : ¬usable size d = true) : s.installRead x size (some d) = s := by
  simp [installRead, h]

theorem installRead_of_usable (hx : x.stale = false) (h : usable size d = true) :
    s.installRead x size (some d) = s.install x.key d := by
  simp [installRead, hx, h]


theorem install_of_free {c : CacheId} (free : s.tu.cache[c] = none) (first : ∀ b, b < c → s.tu.cache[b] ≠ none)
    (key : Key) :
    s.install key d =
      { s with
        tu.cache := s.tu.cache.set c
          (some { key := key, frame := d.frame, readable := d.readable, writable := d.writable }) } := by
  have found : firstIndex 32 (fun c => (s.tu.cache[c]).isNone) = some c :=
    firstIndex_eq_some.2 ⟨by rw [free]; rfl, fun b hb => by simpa [Option.isSome_iff_ne_none] using first b hb⟩
  rw [install, found]

theorem install_of_full (full : ∀ c : CacheId, s.tu.cache[c] ≠ none) (key : Key) :
    s.install key d =
      { s with
        tu.cache := s.tu.cache.set s.tu.victim
          (some { key := key, frame := d.frame, readable := d.readable, writable := d.writable })
        tu.victim := s.tu.victim + 1 } := by
  have found : firstIndex 32 (fun c => (s.tu.cache[c]).isNone) = none :=
    firstIndex_eq_none.2 fun c => by simpa [Option.isSome_iff_ne_none] using full c
  rw [install, found]

end

/-! ## The walk wait list (R83, R86) -/

section
variable {s} {i : SegId} (mode : (s.context (s.segContext i)).mode = .translate)
  (inside : (s.segKey i).page < (s.context (s.segContext i)).dirLength)
include mode inside

/-- A segment whose page lies in its context's directory is answered from the cache, or misses on its key. -/
theorem lookup_of_inside :
    s.lookup i =
      (s.cacheFind (s.segKey i)).elim (.miss (s.segKey i)) fun e =>
        .answered (s.answerFrom (s.context (s.segContext i)).pageSize e.key e.directory i) := by
  have paged : ¬(s.context (s.segContext i)).dirLength ≤ s.segIova i / (s.context (s.segContext i)).pageSize.bytes :=
    not_le.2 inside
  unfold lookup
  dsimp only
  rw [mode]
  dsimp only
  rw [if_neg paged, ← segKey]
  cases s.cacheFind (s.segKey i) <;> rfl

/-- What the cache, a walk or a free place can serve leaves the wait list and asks. -/
theorem serveWaiter_of_served
    (h : (s.cacheFind (s.segKey i)).isSome = true ∨ (s.openWalk (s.segKey i)).isSome = true ∨ s.freeWalk.isSome = true) :
    s.serveWaiter i = (s.leaveWalkWait i).ask i := by
  have look : (s.leaveWalkWait i).lookup i =
      (s.cacheFind (s.segKey i)).elim (.miss (s.segKey i)) fun e =>
        .answered (s.answerFrom (s.context (s.segContext i)).pageSize e.key e.directory i) :=
    lookup_of_inside (s := s.leaveWalkWait i) mode inside
  rw [ask, look, serveWaiter]
  cases found : s.cacheFind (s.segKey i) with
  | some e => rfl
  | none =>
    rw [found] at h
    exact if_pos (by simpa using h)

end

theorem serveWaiter_of_unserved {i : SegId}
    (h : ¬((s.cacheFind (s.segKey i)).isSome = true ∨ (s.openWalk (s.segKey i)).isSome = true ∨ s.freeWalk.isSome = true)) :
    s.serveWaiter i = s := by
  obtain ⟨missing, idle⟩ := not_or.1 h
  rw [serveWaiter, Option.not_isSome_iff_eq_none.1 missing]
  exact if_neg (by simpa using idle)

/-! ## The answer of a stale walk (R46, R47, R84) -/

theorem takeStaleAnswer_of_noSlot {i : SegId} (h : (s.seg i).slot = none) (host : Nat) (key : Option Key) :
    s.takeStaleAnswer i (.translated host key) =
      (s.setWaiting (s.rb.waiting ++ [i])).setSeg i
        { s.seg i with host := some host, translation := key, retranslate := true, state := .slotWait } := by
  have waits : ¬(s.seg i).slot.isSome = true := by simp [h]
  rw [takeStaleAnswer, if_neg waits, modSeg, joinSlotWait_setSeg]
  exact (s.setWaiting (s.rb.waiting ++ [i])).setSeg_setSeg i _ _

theorem takeStaleAnswer_of_slot {i : SegId} (h : (s.seg i).slot ≠ none) (host : Nat) (key : Option Key) :
    s.takeStaleAnswer i (.translated host key) =
      (s.setSeg i
        { s.seg i with state := .translating, host := none, translation := none, retranslate := false }).ask i :=
  if_pos (Option.isSome_iff_ne_none.2 h)

/-! ## WALK_START (R83, R86) -/

theorem walkStart?_eq_some (h : ∃ w, s.walk w = none) (waits : s.tu.walkWait ≠ []) : s.walkStart? = some s.serveWalkWait :=
  if_pos ⟨s.freeWalk_isSome.2 h, waits⟩

theorem walkStart?_eq_none (h : (∀ w, s.walk w ≠ none) ∨ s.tu.walkWait = []) : s.walkStart? = none :=
  if_neg fun ⟨free, waits⟩ => h.elim (fun busy => (s.freeWalk_isSome.1 free).elim busy) waits

end State

/-- Settles O46: the walk's end by what its read brought and whether the walk is stale; a waiter by whether something can serve
it; a stale walk's answer by whether the segment holds a slot. -/
theorem walksEndAndServeWaiters : Obligations.WalksEndAndServeWaiters := by
  refine ⟨?_, ?_, fun s i => ⟨fun _ => rfl, fun h key => ⟨fun slot => ?_, fun slot => ?_⟩⟩,
    fun s => ⟨fun free waits => ?_, fun idle => ?_⟩⟩
  · intro s w x r hr hw size v frame present entry answer close ended
    let pages := (s.context x.key.context).pageSize
    let d := decodeDirectoryEntry r.buffer
    have sizes : pages.bytes = size := pages.bytes_eq
    have isPresent : usable pages d = true ↔ present := by
      rw [usable_iff, sizes]
      rfl
    have answers : answer = fun t i => t.answerFrom pages x.key d i := by
      funext t i
      by_cases h : present
      · rw [t.answerFrom_of_usable (isPresent.2 h), sizes]
        exact if_pos h
      · rw [t.answerFrom_of_unusable (mt isPresent.1 h)]
        exact if_neg h
    have data : s.readEnd r true =
        (x.joined.foldl (State.answerJoined x pages (some d)) ((s.shutWalk w x).installRead x pages (some d))).closeWalk w
          x.stale :=
      (s.readEnd_walk hr true).trans (s.walkEnd_of_walk hw _)
    refine ⟨(s.readEnd_walk hr false).trans (s.walkEnd_of_walk hw none), fun stale => ?_, fun fresh => ?_⟩
    · rw [data, State.installRead_of_stale _ stale, State.answerJoined_of_stale _ _ stale, answers]
      rfl
    · intro answered
      have taken (t : State) : (x.joined.foldl (State.answerJoined x pages (some d)) t).closeWalk w x.stale = answered t := by
        dsimp only [answered]
        rw [State.answerJoined_of_fresh _ _ fresh, answers]
        rfl
      rw [data, taken]
      refine ⟨fun absent => ?_, fun here => ?_⟩
      · rw [State.installRead_of_unusable _ (mt isPresent.1 absent)]
        rfl
      · rw [State.installRead_of_usable _ fresh (isPresent.2 here)]
        refine ⟨fun c free first => ?_, fun full => ?_⟩
        · rw [State.install_of_free (s.shutWalk w x) free first]
          rfl
        · rw [State.install_of_full (s.shutWalk w x) full]
          rfl
  · intro s i id c size page key served mode inside
    have sizes : c.pageSize.bytes = size := c.pageSize.bytes_eq
    have keys : s.segKey i = key := by
      dsimp only [key, page]
      rw [← sizes]
      rfl
    have serves : _ ↔ served :=
      or_congr (s.cacheFind_isSome key) (or_congr (s.openWalk_isSome key) s.freeWalk_isSome)
    rw [← keys] at serves
    refine ⟨fun h => ?_, fun h => ?_⟩
    · exact State.serveWaiter_of_served mode (by rw [keys]; exact inside) (serves.2 h)
    · exact s.serveWaiter_of_unserved (mt serves.1 h)
  · exact s.takeStaleAnswer_of_noSlot slot h key
  · exact s.takeStaleAnswer_of_slot slot h key
  · rw [s.execWalkStart_eq, s.walkStart?_eq_some free waits]
    rfl
  · rw [s.execWalkStart_eq, s.walkStart?_eq_none idle]
    rfl

end Sys2Proof.Machine
end

section
/-! SUPPORT. The ends of a spoke's waiting work and of its outstanding requests, with their frame (R50, R52, R55, R64, R103 to
R106, R109). -/

namespace Sys2Proof.Machine

/-! ## Blocks out of reach -/

/-- What segments' steps keep lies out of their reach. -/
theorem Keeps.elsewhere {s t : State} (h : Keeps s t) : s.Elsewhere t where
  ctl := h.ctl
  qe := h.qe
  windows := h.windows
  contexts := h.contexts
  low := h.low
  high := h.high
  places := h.places
  fetchList := h.fetchList
  messagesEnabled := h.messagesEnabled
  messagePending := h.messagePending
  writes := h.writes
  sent := congrArg Wire.writes h.wire
  pending := h.pending

theorem State.Elsewhere.trans {s t u : State} (h : s.Elsewhere t) (g : t.Elsewhere u) : s.Elsewhere u where
  ctl := g.ctl.trans h.ctl
  qe := g.qe.trans h.qe
  windows := g.windows.trans h.windows
  contexts := g.contexts.trans h.contexts
  low := g.low.trans h.low
  high := g.high.trans h.high
  places := g.places.trans h.places
  fetchList := g.fetchList.trans h.fetchList
  messagesEnabled := g.messagesEnabled.trans h.messagesEnabled
  messagePending := g.messagePending.trans h.messagePending
  writes := by
    obtain ⟨a, ha⟩ := h.writes
    obtain ⟨b, hb⟩ := g.writes
    exact ⟨a ++ b, by rw [hb, ha, List.append_assoc]⟩
  sent := g.sent.trans h.sent
  pending := g.pending.trans h.pending

theorem State.setSpoke_elsewhere (s : State) (k : SpokeId) (x : Spoke) : s.Elsewhere (s.setSpoke k x) :=
  ⟨rfl, rfl, rfl, rfl, rfl, rfl, rfl, rfl, rfl, rfl, ⟨[], (List.append_nil _).symm⟩, rfl, rfl⟩

theorem State.setIssue_elsewhere (s : State) (k : SpokeId) (l : List SegId) : s.Elsewhere (s.setIssue k l) :=
  ⟨rfl, rfl, rfl, rfl, rfl, rfl, rfl, rfl, rfl, rfl, ⟨[], (List.append_nil _).symm⟩, rfl, rfl⟩

/-! ## The ends of several segments -/

/-- What a chain of ends, with the grants between, does when the segments in `Ended` are the ones it ends: what segments' steps
keep, the spoke ports and the posted writes handed over stay; the slot wait list only loses members; and of the segments that do
not wait, the ones that end are RETIRED and the others are left alone. -/
structure Finishes (Ended : SegId → Prop) (s t : State) : Prop where
  keeps : Keeps s t
  sp : t.sp = s.sp
  writes : t.hp.writes = s.hp.writes
  waiting : t.rb.waiting.Sublist s.rb.waiting
  ended : ∀ i, Ended i → i ∉ s.rb.waiting → t.seg i = {}
  others : ∀ i, ¬Ended i → i ∉ s.rb.waiting → t.seg i = s.seg i

namespace Finishes

variable {P Q : SegId → Prop} {s t u : State}

theorem trans (h : Finishes P s t) (g : Finishes Q t u) : Finishes (fun i => P i ∨ Q i) s u where
  keeps := h.keeps.trans g.keeps
  sp := g.sp.trans h.sp
  writes := g.writes.trans h.writes
  waiting := g.waiting.trans h.waiting
  ended i e w := by
    have w' : i ∉ t.rb.waiting := fun m => w (h.waiting.subset m)
    by_cases q : Q i
    · exact g.ended i q w'
    · exact (g.others i q w').trans (h.ended i (e.resolve_right q) w)
  others i e w :=
    (g.others i (e ∘ .inr) fun m => w (h.waiting.subset m)).trans (h.others i (e ∘ .inl) w)

theorem congr (h : Finishes P s t) (e : ∀ i, P i ↔ Q i) : Finishes Q s t where
  keeps := h.keeps
  sp := h.sp
  writes := h.writes
  waiting := h.waiting
  ended i q := h.ended i ((e i).2 q)
  others i q := h.others i (q ∘ (e i).1)

/-- A step that leaves every segment alone ends none. -/
theorem of_grants (h : Grants s t) : Finishes (fun _ => False) s t where
  keeps := h.keeps
  sp := h.sp
  writes := h.writes
  waiting := h.waiting
  ended _ e := e.elim
  others i _ := h.seg i

theorem foldl {α : Type} {R : α → SegId → Prop} (f : State → α → State) (h : ∀ s a, Finishes (R a) s (f s a)) (l : List α)
    (s : State) : Finishes (fun i => ∃ a ∈ l, R a i) s (l.foldl f s) := by
  induction l generalizing s with
  | nil => exact (of_grants (.refl s)).congr fun i => by simp
  | cons a l ih => exact ((h s a).trans (ih (f s a))).congr fun i => by simp

/-- Grants between two ends take none of the segments that do not wait. -/
theorem grantSlots (h : Finishes P s t) : Finishes P s t.grantSlots :=
  (h.trans (of_grants t.grantSlots_spec.1)).congr fun i => iff_of_eq (or_false (P i))

theorem spoke (h : Finishes P s t) (k : SpokeId) : t.spoke k = s.spoke k := by
  unfold State.spoke
  rw [h.sp]

end Finishes

/-- A tag carries the request of segment i (R107). -/
def Tag.Carries (t : Tag) (i : SegId) : Prop := t = .outstanding (.read i) ∨ t = .outstanding (.write i)

namespace State

variable (s : State) (k : SpokeId) (status : Status)

theorem retire_finishes (i : SegId) (how : SegEnd) : Finishes (· = i) s (s.retire i how) where
  keeps := s.retire_keeps i how
  sp := (s.retire_touches i how).sp
  writes := (s.retire_touches i how).writes
  waiting := by rw [(s.retire_touches i how).waiting]
  ended j e _ := by rw [e, retire_seg_self]
  others j e _ := (s.retire_touches i how).seg j e

/-- The end of a flush request changes its fence's entry alone (R11). -/
theorem endFlush_finishes (e : EntryId) (result : Option Status) : Finishes (fun _ => False) s (s.endFlush e k result) := by
  have keeps := s.endFlush_keeps e k result
  refine .of_grants ?_
  unfold endFlush at keeps ⊢
  split
  · next h =>
    rw [if_pos h] at keeps
    exact ⟨keeps, rfl, rfl, .refl _, fun _ _ => rfl⟩
  · exact .refl s


theorem endRequest_finishes (r : Request) :
    Finishes (Tag.Carries (.outstanding r)) s (s.endRequest k r status) := by
  have retires (j : SegId) := s.retire_finishes j (.failure (spokeFailure status k))
  cases r with
  | read j => exact (retires j).congr fun i => by simp [Tag.Carries, eq_comm]
  | write j => exact (retires j).congr fun i => by simp [Tag.Carries, eq_comm]
  | flush fence =>
    have none : ∀ i, False ↔ Tag.Carries (.outstanding (.flush fence)) i := fun i => by simp [Tag.Carries]
    cases fence with
    | none => exact (Finishes.of_grants (.refl s)).congr none
    | some e => exact (s.endFlush_finishes k e (some status)).congr none

/-- One tag of a spoke whose outstanding requests end: its request ends, with the grants that follow, if it has one. -/
def endTag (t : State) (g : Tag) : State :=
  match g with
  | .outstanding r => (t.endRequest k r status).grantSlots
  | _ => t

theorem endOutstanding_eq :
    s.endOutstanding k status =
      (List.finRange 32).foldl (fun t g => t.endTag k status (s.spoke k).tags[g])
        (s.setSpoke k { s.spoke k with tags := Vector.replicate 32 .free }) := rfl

theorem endTag_finishes (g : Tag) : Finishes g.Carries s (s.endTag k status g) := by
  cases g with
  | outstanding r => exact (s.endRequest_finishes k status r).grantSlots
  | free => exact (Finishes.of_grants (.refl s)).congr fun i => by simp [Tag.Carries]
  | quarantined => exact (Finishes.of_grants (.refl s)).congr fun i => by simp [Tag.Carries]

/-! ## The ends of a spoke's work -/

/-- The segments that a spoke's tags carry end (R105, R106). -/
theorem endOutstanding_finishes :
    Finishes (fun i => ∃ g : TagId, (s.spoke k).tags[g].Carries i)
      (s.setSpoke k { s.spoke k with tags := Vector.replicate 32 .free }) (s.endOutstanding k status) := by
  rw [endOutstanding_eq]
  exact (Finishes.foldl _ (fun t (g : TagId) => t.endTag_finishes k status _) _ _).congr fun i => by simp

/-- The segments on a spoke's issue list end (R52). -/
theorem failIssue_finishes : Finishes (· ∈ s.issue k) (s.setIssue k []) (s.failIssue k status) :=
  (Finishes.foldl _ (fun t i => (t.retire_finishes i _).grantSlots) _ _).congr fun i => by simp

/-- A spoke's pending flush requests end, and no segment (R103, R104). -/
theorem failFlushes_finishes :
    Finishes (fun _ => False) (s.setSpoke k { s.spoke k with flushList := [] }) (s.failFlushes k status) :=
  (Finishes.foldl _ (fun t e => t.endFlush_finishes k e _) _ _).congr fun i => by simp

end State

/-- Settles O52: both ends are chains of ends with grants between, which `Finishes` describes. -/
theorem spokeWorkEnds : Obligations.SpokeWorkEnds := by
  refine ⟨fun s k status => ?_, fun s k status => ?_⟩
  · intro u retired
    have issue : Finishes (· ∈ s.issue k) (s.setIssue k []) retired := s.failIssue_finishes k status
    have flush : Finishes (fun _ => False) (retired.setSpoke k { retired.spoke k with flushList := [] }) u :=
      retired.failFlushes_finishes k status
    have spoke (j : SpokeId) : retired.spoke j = s.spoke j := issue.spoke j
    rw [spoke] at flush
    have waits {i : SegId} (h : i ∉ s.rb.waiting) : i ∉ retired.rb.waiting := fun m => h (issue.waiting.subset m)
    have kept {i : SegId} (h : i ∉ s.rb.waiting) : u.seg i = retired.seg i := flush.others i id (waits h)
    refine ⟨?_, (flush.spoke k).trans (State.setSpoke_spoke_self _ _ _), fun j hj => ?_, fun down => ?_, fun j hj => ?_,
      fun i hi hw => (kept hw).trans (issue.ended i hi hw), fun i hi hw => (kept hw).trans (issue.others i hi hw),
      flush.keeps.wire.trans issue.keeps.wire, flush.writes.trans issue.writes, flush.keeps.au.trans issue.keeps.au, ?_⟩
    · rw [← spoke k]
      rfl
    · rw [flush.spoke j, State.setSpoke_spoke, if_neg hj, spoke]
    · exact (s.failWaiting_here k status down).2.2.2
    · obtain ⟨a, ha, downA⟩ := issue.keeps.grow j
      obtain ⟨b, hb, downB⟩ := flush.keeps.grow j
      rw [State.setSpoke_issue, ha, State.setIssue_issue, if_neg hj, List.append_assoc] at hb
      rw [State.setSpoke_spoke, if_neg hj, spoke] at downB
      exact ⟨a ++ b, hb, fun down => List.append_eq_nil_iff.2 ⟨downA down, downB down⟩⟩
    · exact ((s.setIssue_elsewhere k []).trans issue.keeps.elsewhere).trans
        ((retired.setSpoke_elsewhere k _).trans flush.keeps.elsewhere)
  · intro end_ ended u
    have ends : Finishes ended (s.setSpoke k { s.spoke k with tags := Vector.replicate 32 .free }) u :=
      s.endOutstanding_finishes k status
    refine ⟨?_, (ends.spoke k).trans (State.setSpoke_spoke_self _ _ _), fun j hj => ?_, fun j => ?_, ends.ended, ends.others,
      ends.keeps.wire, ends.writes, ends.keeps.au, (s.setSpoke_elsewhere k _).trans ends.keeps.elsewhere⟩
    · have step : (fun t g => t.endTag k status (s.spoke k).tags[g]) = end_ := by
        funext t g
        dsimp only [end_]
        rcases (s.spoke k).tags[g] with _ | r | _
        · rfl
        · rcases r with i | i | fence
          · rfl
          · rfl
          · cases fence <;> rfl
        · rfl
      rw [← step]
      exact s.endOutstanding_eq k status
    · rw [ends.spoke j, State.setSpoke_spoke, if_neg hj]
    · have same : ((s.setSpoke k { s.spoke k with tags := Vector.replicate 32 .free }).spoke j).state = (s.spoke j).state := by
        rw [State.setSpoke_spoke]
        split
        · next e => rw [e]
        · rfl
      obtain ⟨l, hl, down⟩ := ends.keeps.grow j
      exact ⟨l, hl, same ▸ down⟩

end Sys2Proof.Machine
end

section
/-! SUPPORT. A segment's request for translation and its answer (R46, R47, R49, R56, R68, R76 to R80, R82, R83). -/

namespace Sys2Proof.Machine

/-- A vector's members in the order of their indices. -/
theorem toList_eq_map_finRange {α : Type} {n : Nat} (v : Vector α n) : v.toList = (List.finRange n).map fun j => v[j] :=
  List.ext_getElem (by simp) (by simp)

namespace State

variable (s : State)

/-! ## The lookup by mode (R76 to R78) -/

/-- A cache entry's answer (R78, R79): the cache holds present entries only. -/
theorem answerFrom_directory (size : PageSize) (key : Key) (e : CacheEntry) (i : SegId) :
    s.answerFrom size key e.directory i =
      if size.bytes * e.frame < 2 ^ 64 then
        if (if s.segKind i = some .gather then e.writable else e.readable) = true then
          .translated (e.frame * size.bytes + s.segIova i % size.bytes) (some key)
        else translationFault 3
      else translationFault 2 := by
  have present : usable size e.directory = true ↔ size.bytes * e.frame < 2 ^ 64 :=
    (usable_iff size e.directory).trans (and_iff_right rfl)
  split
  · next fits => exact s.answerFrom_of_usable (present.2 fits) key i
  · next large => exact s.answerFrom_of_unusable (mt present.1 large) key i

section
variable {s} {i : SegId}

theorem lookup_of_off (mode : (s.context (s.segContext i)).mode = .off) : s.lookup i = .answered (translationFault 1) := by
  rw [lookup, mode]

theorem lookup_of_bypass (mode : (s.context (s.segContext i)).mode = .bypass) :
    s.lookup i = .answered (if s.segIova i < 2 ^ 48 then .translated (s.segIova i) none else translationFault 1) := by
  rw [lookup, mode]
  exact (apply_ite _ _ _ _).symm

/-- A page past the context's directory is out of range. -/
theorem lookup_of_outside (mode : (s.context (s.segContext i)).mode = .translate)
    (outside : (s.context (s.segContext i)).dirLength ≤ (s.segKey i).page) :
    s.lookup i = .answered (translationFault 1) := by
  rw [lookup, mode]
  exact if_pos outside

theorem ask_of_answered {a : TransAnswer} (h : s.lookup i = .answered a) : s.ask i = s.takeAnswer i a := by rw [ask, h]

theorem ask_of_miss {key : Key} (h : s.lookup i = .miss key) : s.ask i = s.giveToWalk i key := by rw [ask, h]

end

/-! ## The cache entry and the walk of a key (R80, R82, R83) -/

theorem cacheFind_eq_some {key : Key} {j : CacheId} {e : CacheEntry} (he : s.tu.cache[j] = some e) (hk : e.key = key)
    (first : ∀ (h : CacheId) (f : CacheEntry), h < j → s.tu.cache[h] = some f → f.key ≠ key) : s.cacheFind key = some e := by
  rw [cacheFind, toList_eq_map_finRange, List.findSome?_map, ← Fin.findSome?_eq_findSome?_finRange,
    Fin.findSome?_eq_some_iff]
  refine ⟨j, Option.filter_eq_some_iff.2 ⟨he, beq_iff_eq.2 hk⟩, fun h hj => Option.filter_eq_none_iff.2 fun f hf => ?_⟩
  rw [beq_iff_eq]
  exact first h f hj hf

theorem cacheFind_eq_none {key : Key} (miss : ¬∃ (j : CacheId) (e : CacheEntry), s.tu.cache[j] = some e ∧ e.key = key) :
    s.cacheFind key = none :=
  Option.not_isSome_iff_eq_none.1 (mt (s.cacheFind_isSome key).1 miss)

theorem openWalk_eq_some {key : Key} {w : WalkId} {y : Walk} (hw : s.walk w = some y) (hk : y.key = key)
    (fresh : y.stale = false)
    (first : ∀ (v : WalkId) (z : Walk), v < w → s.walk v = some z → z.key = key → z.stale = true) :
    s.openWalk key = some w := by
  refine firstIndex_eq_some.2 ⟨by simp [hw, hk, fresh], fun v hv => ?_⟩
  cases hz : s.walk v with
  | none => rfl
  | some z => simpa using first v z hv hz

theorem openWalk_eq_none {key : Key} (stale : ∀ (w : WalkId) (y : Walk), s.walk w = some y → y.key = key → y.stale = true) :
    s.openWalk key = none := by
  refine Option.not_isSome_iff_eq_none.1 fun found => ?_
  obtain ⟨w, y, hw, hk, fresh⟩ := (s.openWalk_isSome key).1 found
  exact absurd (stale w y hw hk) (ne_true_of_eq_false fresh)

theorem freeWalk_eq_some {w : WalkId} (free : s.walk w = none) (first : ∀ v, v < w → s.walk v ≠ none) :
    s.freeWalk = some w :=
  firstIndex_eq_some.2 ⟨by rw [free]; rfl, fun v hv => by simpa [Option.isSome_iff_ne_none] using first v hv⟩

theorem freeWalk_eq_none (busy : ∀ w, s.walk w ≠ none) : s.freeWalk = none :=
  Option.not_isSome_iff_eq_none.1 fun free => (s.freeWalk_isSome.1 free).elim busy

/-! ## A miss is given to a walk (R82, R83) -/

section
variable {s} (i : SegId) {key : Key} {w : WalkId}

theorem giveToWalk_of_open (h : s.openWalk key = some w) {y : Walk} (hw : s.walk w = some y) :
    s.giveToWalk i key = s.setWalk w (some { y with joined := y.joined ++ [i] }) := by
  rw [giveToWalk, h]
  dsimp only
  rw [joinWalk, hw]
  rfl

theorem giveToWalk_of_free (h : s.openWalk key = none) (free : s.freeWalk = some w) :
    s.giveToWalk i key = s.startWalk w key i := by
  rw [giveToWalk, h, free]

theorem giveToWalk_of_busy (h : s.openWalk key = none) (busy : s.freeWalk = none) :
    s.giveToWalk i key = { s with tu.walkWait := s.tu.walkWait ++ [i] } := by
  rw [giveToWalk, h, busy]

end

/-! ## The segment takes a translation (R47 to R49, R56, R68) -/

section
variable (i : SegId) (host : Nat) (key : Option Key)

theorem takeAnswer_of_noSlot (h : (s.seg i).slot = none) :
    s.takeAnswer i (.translated host key) =
      (s.setWaiting (s.rb.waiting ++ [i])).setSeg i
        { s.seg i with host := some host, translation := key, retranslate := false, state := .slotWait } := by
  have waits : ¬(s.seg i).slot.isSome = true := by simp [h]
  rw [takeAnswer]
  dsimp only
  rw [if_neg waits, modSeg, joinSlotWait_setSeg]
  exact (s.setWaiting (s.rb.waiting ++ [i])).setSeg_setSeg i _ _

theorem takeAnswer_of_slot {j : SlotId} (h : (s.seg i).slot = some j) :
    s.takeAnswer i (.translated host key) =
      (s.setSeg i { s.seg i with host := some host, translation := key, retranslate := false }).beginAccess i :=
  if_pos (by simp [h])

theorem beginAccess_of_gather (h : s.segKind i = some .gather) : s.beginAccess i = s.gatherWrite i := by
  rw [beginAccess, h]

theorem beginAccess_of_scatter (h : s.segKind i = some .scatter) : s.beginAccess i = s.scatterRead i := by
  rw [beginAccess, h]

end

end State

/-- Settles O21: the request by the context's mode, then by what the cache and the walks hold; the answer by whether the segment
holds a slot, and by its kind. -/
theorem segmentTranslates : Obligations.SegmentTranslates := by
  refine ⟨?_, fun s i => ⟨fun _ => rfl, fun h key => ?_⟩⟩
  · intro s i x id c iova size key hit fault
    have sizes : (s.context (s.segContext i)).pageSize.bytes = size := c.pageSize.bytes_eq
    have keys : s.segKey i = key := by
      dsimp only [key]
      rw [← sizes]
      rfl
    refine ⟨fun mode => State.ask_of_answered (State.lookup_of_off mode), fun mode inside => ?_, fun mode outside => ?_,
      fun mode outside => ?_, fun mode inside => ?_⟩
    · rw [State.ask_of_answered (State.lookup_of_bypass mode)]
      exact congrArg _ (if_pos inside)
    · rw [State.ask_of_answered (State.lookup_of_bypass mode)]
      exact congrArg _ (if_neg (not_lt.2 outside))
    · exact State.ask_of_answered (State.lookup_of_outside mode (by rw [keys]; exact outside))
    · have look := State.lookup_of_inside (s := s) (i := i) mode (by rw [keys]; exact inside)
      rw [keys] at look
      refine ⟨fun j e he hk first => ?_, fun missed => ?_⟩
      · rw [s.cacheFind_eq_some he hk first] at look
        rw [State.ask_of_answered look, hk, s.answerFrom_directory, sizes]
        rfl
      · rw [s.cacheFind_eq_none missed] at look
        rw [State.ask_of_miss look]
        refine ⟨fun w y hw hk fresh first => ?_, fun stale => ⟨fun w free first => ?_, fun busy => ?_⟩⟩
        · exact State.giveToWalk_of_open i (s.openWalk_eq_some hw hk fresh first) hw
        · exact State.giveToWalk_of_free i (s.openWalk_eq_none stale) (s.freeWalk_eq_some free first)
        · exact State.giveToWalk_of_busy i (s.openWalk_eq_none stale) (s.freeWalk_eq_none busy)
  · intro g
    refine ⟨fun slot => s.takeAnswer_of_noSlot i h key slot, fun j slot => ?_⟩
    let t := s.setSeg i g
    have taken : t.seg i = g := State.setSeg_seg_self _ _ _
    have kind : t.segKind i = (s.entry (s.seg i).entry).kind := by rw [State.segKind, taken]; rfl
    have host : (t.seg i).host = some h := by rw [taken]
    rw [s.takeAnswer_of_slot i h key slot]
    refine ⟨fun hk => ?_, fun hk => ?_⟩
    · rw [State.beginAccess_of_gather _ i (kind.trans hk)]
      exact s.gatherWrite_setSeg i (x := g) slot rfl
    · rw [State.beginAccess_of_scatter _ i (kind.trans hk), t.scatterRead_of_host i host, taken, State.setSeg_setSeg]

end Sys2Proof.Machine
end

section
/-! SUPPORT. What SET_CONTEXT and CLEAR_CONTEXT do once accepted (R75, R87, R88), and the valid cache entries that a
set of keys covers. -/

namespace Sys2Proof.Machine

/-- The members of a vector with a property are as many as the indices at which they stand. -/
theorem countP_toList_eq_length {α : Type} {n : Nat} (v : Vector α n) (q : α → Bool) :
    v.toList.countP q = ((List.finRange n).filter fun j => q v[j]).length := by
  rw [toList_eq_map_finRange, List.countP_map, List.countP_eq_length_filter]
  rfl

theorem PageSize.ofCode_toNat (b : Byte) : PageSize.ofCode b.toNat = if b = 0 then .k4 else if b = 1 then .k64 else .m2 := by
  unfold PageSize.ofCode
  split
  · next h => rw [if_pos (BitVec.eq_of_toNat_eq h)]
  · next h =>
    obtain rfl : b = 1 := BitVec.eq_of_toNat_eq h
    rfl
  · next h0 h1 => rw [if_neg fun e => h0 (congrArg BitVec.toNat e), if_neg fun e => h1 (congrArg BitVec.toNat e)]

namespace State

variable (s : State)

/-! ## The checks once the command read has returned (R156, R157) -/

section
variable (p : PlaceId) (n : QpId)

theorem commandTaken_qp_state : ((s.commandTaken p).qp n).state = (s.qp n).state := by
  rw [commandTaken, setQp_qp]
  split
  · next first => rw [first]
  · rfl

theorem commandTaken_qp_context : ((s.commandTaken p).qp n).context = (s.qp n).context := by
  rw [commandTaken, setQp_qp]
  split
  · next first => rw [first]
  · rfl

/-- The checks of a command look at nothing that the return of its read changes. -/
theorem Accepts.commandTaken {s : State} {head : CommandHead} {c : AdminCommand} (h : s.Accepts head c) :
    (s.commandTaken p).Accepts head c where
  reserved := h.reserved
  params := by cases c <;> exact h.params
  free := by
    have busy : (s.commandTaken p).Busy c ↔ s.Busy c := by
      cases c <;> simp only [Busy, commandTaken_qp_state, commandTaken_qp_context]
    exact mt busy.1 h.free
  fit := by
    have unfit : (s.commandTaken p).Unfit c ↔ s.Unfit c := by
      cases c
      case deleteQueue => simp only [Unfit, commandTaken_qp_state]
      all_goals rfl
    exact mt unfit.1 h.fit
  apart := by cases c <;> exact h.apart

end

/-! ## The cache entries that a change covers (R87, R88, R90) -/

section
variable (cover : Key → Bool)

/-- The valid cache entries whose keys are covered. -/
def removedEntries : List CacheId := (List.finRange 32).filter fun j => (s.tu.cache[j]).any fun e => cover e.key

theorem removedEntries_nodup : (s.removedEntries cover).Nodup := (List.nodup_finRange 32).filter _

theorem mem_removedEntries (j : CacheId) :
    j ∈ s.removedEntries cover ↔ ∃ e, s.tu.cache[j] = some e ∧ cover e.key = true := by
  simp [removedEntries, Option.any_eq_true]

theorem coveredCount_eq : s.coveredCount cover = (s.removedEntries cover).length := countP_toList_eq_length _ _

theorem dropCache_cache (j : CacheId) (e : CacheEntry) :
    (s.dropCache cover).tu.cache[j] = some e ↔ s.tu.cache[j] = some e ∧ ¬cover e.key = true := by
  simp [dropCache, Option.filter_eq_some_iff]

end

/-! ## The context commands accepted (R75, R87, R88, R157) -/

/-- A context no client queue pair is bound to is not in use. -/
theorem boundQps_eq_nil {b : Byte} (hb : b.toNat ≤ 15)
    (free : ¬∃ n : QpId, n ≠ 0 ∧ (s.qp n).state ≠ .empty ∧ b.toNat = (s.qp n).context.val) :
    s.boundQps (Fin.ofNat 16 b.toNat) = [] := by
  have number : (Fin.ofNat 16 b.toNat : ContextId).val = b.toNat := Nat.mod_eq_of_lt (by omega)
  refine List.filter_eq_nil_iff.2 fun n _ bound => free ⟨n, ?_⟩
  simp only [Bool.and_eq_true, bne_iff_ne, beq_iff_eq] at bound
  obtain ⟨⟨client, used⟩, same⟩ := bound
  exact ⟨client, used, by rw [same, number]⟩

theorem checkCommand_setContext {head : CommandHead} {d : SetContext} (h : s.Accepts head (.setContext d)) :
    s.checkCommand (.setContext d) head.reserved = none := by
  obtain ⟨context, mode⟩ := h.params
  have params : s.badParameter (.setContext d) = false := by
    simp only [badParameter, context, decide_true, Bool.true_and, Bool.not_eq_false', Bool.or_eq_true, Bool.and_eq_true,
      decide_eq_true_eq, and_assoc]
    exact mode
  have unused : s.inUse (.setContext d) = false := by rw [inUse, s.boundQps_eq_nil context h.free, bne_self_eq_false]
  simp [checkCommand, h.reserved, params, unused, wrongState, overlapping]

theorem checkCommand_clearContext {head : CommandHead} {b : Byte} (h : s.Accepts head (.clearContext b)) :
    s.checkCommand (.clearContext b) head.reserved = none := by
  have hb : b.toNat ≤ 15 := h.params
  have unused : s.inUse (.clearContext b) = false := by rw [inUse, s.boundQps_eq_nil hb h.free, bne_self_eq_false]
  simp [checkCommand, h.reserved, badParameter, hb, unused, wrongState, overlapping]

/-- A command that gives context n the record x (R87, R88). -/
inductive ChangesContext : AdminCommand → ContextId → Context → Prop where
  | set (d : SetContext) : ChangesContext (.setContext d) (Fin.ofNat 16 d.context.toNat) (newContext d)
  | clear (b : Byte) : ChangesContext (.clearContext b) (Fin.ofNat 16 b.toNat) {}

section
variable {s} {p : PlaceId} {r : ReadInFlight} {head : CommandHead} {c : AdminCommand}

/-- The row of an accepted context command. -/
theorem exec_context (h : s.CommandReadAt p r) (ready : s.ctl.device = .ready) (accepted : s.Accepts head c) {n : ContextId}
    {x : Context} (hc : ChangesContext c n x) :
    exec (c.row head) s = .next ((s.commandTaken p).changeContext n x (s.heldOf head c)) := by
  have checked : (s.commandTaken p).checkCommand c head.reserved = none := by
    cases hc with
    | set d => exact State.checkCommand_setContext _ (accepted.commandTaken p)
    | clear b => exact State.checkCommand_clearContext _ (accepted.commandTaken p)
  have row : exec (c.row head) s = .next (s.deliver head c) := by cases hc <;> rfl
  have accept (t : State) (held : HeldCommand) : t.accept c held = t.changeContext n x held := by cases hc <;> rfl
  rw [row, deliver_of_checked h ready checked, accept]

end

theorem changeContext_eq (n : ContextId) (x : Context) (c : HeldCommand) :
    s.changeContext n x c =
      { s with
        tu.contexts := s.tu.contexts.set n x
        tu.cache := (s.dropCache fun key => key.context == n).tu.cache }.setExecutor
        (.posting c .ok (s.removedEntries fun key => key.context == n).length) := by
  rw [changeContext, coveredCount_eq]
  rfl

theorem newContext_of_bypass {d : SetContext} (mode : d.mode = 1) :
    newContext d = { mode := .bypass, pageSize := .k4, dirBase := 0, dirLength := 0 } := if_pos mode

theorem newContext_of_translate {d : SetContext} (mode : d.mode = 2) :
    newContext d =
      { mode := .translate
        pageSize := if d.pageSize = 0 then .k4 else if d.pageSize = 1 then .k64 else .m2
        dirBase := d.dirBase.toNat, dirLength := d.dirLength.toNat } := by
  have translates : ¬d.mode = 1 := by rw [mode]; decide
  rw [newContext, if_neg translates, PageSize.ofCode_toNat]

end State

/-- Settles O39: both commands come to `changeContext`, which removes the entries whose keys are the context's. -/
theorem contextCommandsChangeRecord : Obligations.ContextCommandsChangeRecord := by
  intro s p r head c n x h ready accepted hc
  have changes : State.ChangesContext c n x := by
    obtain ⟨d, rfl, hn, ⟨mode, rfl⟩ | ⟨mode, rfl⟩⟩ | ⟨b, rfl, hn, rfl⟩ := hc
    · obtain rfl : n = Fin.ofNat 16 d.context.toNat := by simp [hn]
      rw [← State.newContext_of_bypass mode]
      exact .set d
    · obtain rfl : n = Fin.ofNat 16 d.context.toNat := by simp [hn]
      rw [← State.newContext_of_translate mode]
      exact .set d
    · obtain rfl : n = Fin.ofNat 16 b.toNat := by simp [hn]
      exact .clear b
  let own : Key → Bool := fun key => key.context == n
  refine ⟨(s.dropCache own).tu.cache, s.removedEntries own, ?_, fun j e => ?_, s.removedEntries_nodup own, fun j => ?_⟩
  · rw [State.exec_context h ready accepted changes, State.changeContext_eq]
    rfl
  · rw [s.dropCache_cache, beq_iff_eq]
  · simp only [s.mem_removedEntries, own, beq_iff_eq]

end Sys2Proof.Machine
end

section
/-! SUPPORT. What INVALIDATE_PAGES and INVALIDATE_CONTEXT do once accepted (R89 to R91). -/

namespace Sys2Proof.Machine

namespace State

/-! ## The keys an invalidation covers (R89) -/

theorem coversPages_iff (d : InvalidatePages) (k : Key) :
    coversPages d k = true ↔
      k.context.val = d.context.toNat ∧ d.first.toNat ≤ k.page ∧ k.page < d.first.toNat + d.count.toNat := by
  simp only [coversPages, Bool.and_eq_true, decide_eq_true_eq, and_assoc]

theorem coversContext_iff (b : Byte) (k : Key) : coversContext b k = true ↔ k.context.val = b.toNat := decide_eq_true_iff

variable (s : State) (cover : Key → Bool)

/-! ## Stale walks (R90) -/

/-- The walk places after an invalidation: a covered walk is stale. -/
def staledWalks : Vector (Option Walk) 4 :=
  vmap (fun o : Option Walk => o.map fun x => { x with stale := x.stale || cover x.key }) s.tu.walks

theorem staledWalks_getElem (w : WalkId) :
    (s.staledWalks cover)[w] = (s.walk w).map fun x => { x with stale := x.stale || cover x.key } := vmap_getElem _ _ _ _

/-- The places of the walks that are stale after an invalidation. -/
def staleWalks : List WalkId := (List.finRange 4).filter fun w => ((s.staledWalks cover)[w]).any Walk.stale

theorem staleWalks_nodup : (s.staleWalks cover).Nodup := (List.nodup_finRange 4).filter _

theorem mem_staleWalks (w : WalkId) :
    w ∈ s.staleWalks cover ↔ ∃ x, (s.staledWalks cover)[w] = some x ∧ x.stale = true := by
  simp only [staleWalks, List.mem_filter, List.mem_finRange, true_and, Option.any_eq_true]

/-! ## Awaited reads and marked segments (R90, R91) -/

theorem awaitedReads_nodup : (s.awaitedReads cover).Nodup := (List.nodup_finRange 128).filter _

theorem mem_awaitedReads (i : SegId) :
    i ∈ s.awaitedReads cover ↔
      (s.seg i).state = .hostReading ∧ ∃ k, (s.seg i).translation = some k ∧ cover k = true := by
  simp only [awaitedReads, List.mem_filter, List.mem_finRange, true_and, Bool.and_eq_true, beq_iff_eq, Option.any_eq_true]

theorem marks_iff (x : Segment) :
    s.marks cover x = true ↔
      (∃ k, x.translation = some k ∧ cover k = true) ∧
        (((s.entry x.entry).kind = some .gather ∧ (x.state = .slotWait ∨ x.state = .issueWait ∨ x.state = .outstanding)) ∨
          ((s.entry x.entry).kind = some .scatter ∧ x.state = .slotWait)) := by
  rw [marks, Bool.and_eq_true, Option.any_eq_true]
  refine and_congr_right' ?_
  rcases (s.entry x.entry).kind with _ | k
  · simp
  · cases k <;> simp [or_assoc]

/-- The segments after an invalidation: those it marks are to retranslate. -/
def markedSegments : Vector Segment 128 :=
  vmap (fun x : Segment => if s.marks cover x then { x with retranslate := true } else x) s.su.segments

theorem markedSegments_getElem (i : SegId) :
    (s.markedSegments cover)[i] = { s.seg i with retranslate := (s.seg i).retranslate || s.marks cover (s.seg i) } := by
  have member : (s.markedSegments cover)[i] =
      if s.marks cover (s.seg i) then { s.seg i with retranslate := true } else s.seg i := vmap_getElem _ _ _ _
  rw [member]
  cases s.marks cover (s.seg i) <;> simp

/-! ## The invalidations accepted (R89, R90, R157) -/

theorem acceptInvalidation_eq (c : HeldCommand) :
    s.acceptInvalidation cover c =
      { s.setExecutor (.waiting c) with
        tu.cache := (s.dropCache cover).tu.cache
        tu.walks := s.staledWalks cover
        tu.invalidation := some
          { stale := (s.staleWalks cover).length, awaited := s.awaitedReads cover
            removed := (s.removedEntries cover).length }
        su.segments := s.markedSegments cover } := by
  rw [acceptInvalidation, coveredCount_eq, countP_toList_eq_length]
  rfl

/-- A command that invalidates the keys that `cover` names (R89). -/
inductive Invalidates : AdminCommand → (Key → Bool) → Prop where
  | pages (d : InvalidatePages) : Invalidates (.invalidatePages d) (coversPages d)
  | context (b : Byte) : Invalidates (.invalidateContext b) (coversContext b)

variable {s cover}

theorem checkCommand_invalidation {head : CommandHead} {c : AdminCommand} (h : s.Accepts head c) (hc : Invalidates c cover) :
    s.checkCommand c head.reserved = none := by
  have params : s.badParameter c = false := by
    cases hc with
    | pages d =>
      obtain ⟨context, ⟨least, most⟩, fits⟩ := h.params
      simp [badParameter, Config.maxDirectory, context, least, most, fits]
    | context b =>
      have hb : b.toNat ≤ 15 := h.params
      simp [badParameter, hb]
  cases hc <;> simp [checkCommand, h.reserved, params, inUse, wrongState, overlapping]

/-- The row of an accepted invalidation. -/
theorem exec_invalidation {p : PlaceId} {r : ReadInFlight} {head : CommandHead} {c : AdminCommand} (h : s.CommandReadAt p r)
    (ready : s.ctl.device = .ready) (accepted : s.Accepts head c) (hc : Invalidates c cover) :
    exec (c.row head) s = .next ((s.commandTaken p).acceptInvalidation cover (s.heldOf head c)).settle := by
  have checked := checkCommand_invalidation (accepted.commandTaken p) hc
  have row : exec (c.row head) s = .next (s.deliver head c).settle := by cases hc <;> rfl
  have accept (t : State) (held : HeldCommand) : t.accept c held = t.acceptInvalidation cover held := by cases hc <;> rfl
  rw [row, deliver_of_checked h ready checked, accept]

end State

/-- Settles O40: both commands come to `acceptInvalidation`, and each collection it changes is described by its members. -/
theorem invalidationsMarkCovered : Obligations.InvalidationsMarkCovered := by
  intro s p r head c covers h ready accepted hc
  obtain ⟨cover, invalidates, same⟩ : ∃ cover, State.Invalidates c cover ∧ ∀ k, covers k ↔ cover k = true := by
    obtain ⟨d, rfl, named⟩ | ⟨b, rfl, named⟩ := hc
    · exact ⟨_, .pages d, fun k => (named k).trans (State.coversPages_iff d k).symm⟩
    · exact ⟨_, .context b, fun k => (named k).trans (State.coversContext_iff b k).symm⟩
  obtain rfl : covers = fun k => cover k = true := funext fun k => propext (same k)
  refine ⟨(s.dropCache cover).tu.cache, s.staledWalks cover, s.markedSegments cover, s.removedEntries cover,
    s.staleWalks cover, s.awaitedReads cover, ?_, s.dropCache_cache cover, s.removedEntries_nodup cover,
    s.mem_removedEntries cover, fun w => ⟨fun free => ?_, fun x hx => ⟨x.stale || cover x.key, ?_, ?_⟩⟩,
    s.staleWalks_nodup cover, s.mem_staleWalks cover, s.awaitedReads_nodup cover, s.mem_awaitedReads cover,
    fun i => ⟨_, s.markedSegments_getElem cover i, ?_⟩⟩
  · rw [State.exec_invalidation h ready accepted invalidates, State.acceptInvalidation_eq]
    rfl
  · rw [s.staledWalks_getElem, free, Option.map_none]
  · rw [s.staledWalks_getElem, hx, Option.map_some]
  · exact Bool.or_eq_true_iff
  · rw [Bool.or_eq_true, s.marks_iff]

end Sys2Proof.Machine
end

section
/-! SUPPORT. The safety of a step (R2, R3, R13, R25, R36, R62, R98, R102 to R108, R137 to R152, R165): the rows that move keep every
part of it, and the others take reset values or write a register. -/

namespace Sys2Proof.Machine

theorem Moves.safe {s t : State} (h : Moves s t) (g : s.Safe) : t.Safe :=
  ⟨h.links g.links, h.events g.events, h.windows g.windows, h.accounts g.accounts⟩

/-- A spoke record after reset with nothing waiting (R98). -/
theorem linkOk_reset (logical : Bool) : LinkOk logical {} [] where
  logical _ := rfl
  credits := Nat.le_refl _
  grant := Nat.zero_le _
  idle _ := ⟨rfl, rfl, rfl⟩
  closed _ _ := Vector.getElem_replicate _
  off _ := ⟨rfl, rfl⟩
  up e := nomatch e

/-- A window table without an enabled window (R25). -/
theorem tableOk_reset : TableOk (Vector.replicate 8 {}) := by
  have record (id : WindowId) : (Vector.replicate 8 ({} : Window))[id] = {} := Vector.getElem_replicate _
  exact
    { formed := fun id enabled => by rw [record id] at enabled; cases enabled
      apart := fun a _ _ _ enabled => by rw [record a] at enabled; cases enabled }

namespace State

variable {s : State}

/-- The blocks' values after reset, with the device not READY (R179, R180). -/
theorem resetBlocks_safe (s : State) {c : Control} (h : c.device ≠ .ready) : (s.resetBlocks c).Safe where
  links k := by
    have record : (s.resetBlocks c).spoke k = {} := Vector.getElem_replicate _
    have issue : (s.resetBlocks c).issue k = [] := Vector.getElem_replicate _
    rw [record, issue]
    exact linkOk_reset _
  events := ⟨Nat.zero_le _, .nil, fun _ h => nomatch h⟩
  windows := ⟨tableOk_reset, tableOk_reset⟩
  accounts := s.resetBlocks_accounts c h

theorem reset_eq_resetBlocks : State.reset = State.reset.resetBlocks .reset := by
  have slots : vmap (fun x : Slot => { x with holder := none }) (Vector.replicate 64 {}) = Vector.replicate 64 {} :=
    Vector.ext fun i hi => by rw [vmap_getElem, Vector.getElem_replicate]
  simp only [resetBlocks, State.reset, ReturnBuffer.reset, slots]

/-- The administration ring registers are no part of a safe state. -/
theorem Safe.setCtl (h : s.Safe) {c : Control} (device : c.device = s.ctl.device) : ({ s with ctl := c } : State).Safe where
  links := h.links
  events := ⟨h.events.size, h.events.keys, h.events.counts⟩
  windows := h.windows
  accounts := h.accounts.of_same rfl rfl rfl rfl fun ready => device ▸ ready

/-- The commands waiting are no part of a safe state. -/
theorem Safe.setPending (h : s.Safe) (l : List Instr) : ({ s with pending := l } : State).Safe where
  links := h.links
  events := ⟨h.events.size, h.events.keys, h.events.counts⟩
  windows := h.windows
  accounts := h.accounts.of_same rfl rfl rfl rfl id

theorem endStopping?_safe {t : State} (h : s.endStopping? = some t) : t.Safe := by
  obtain ⟨-, ended⟩ := Option.ite_none_right_eq_some.1 h
  cases ended
  exact s.resetBlocks_safe nofun

/-- A register write moves, or writes an administration ring register (R174, R175, R186). -/
theorem writeRegister_safe (h : s.Safe) (offset : BitVec 12) (value : BitVec 32) : (s.writeRegister offset value).Safe := by
  unfold writeRegister
  split
  · split
    · exact s.enable_moves.safe h
    · exact s.disable_moves.safe h
  iterate 5 exact h.setCtl rfl
  · split
    · next n isHead _ =>
      cases isHead with
      | true => exact (s.writeHead_moves n value).safe h
      | false => exact (s.writeTail_moves n value).safe h
    · exact h

end State

/-- Every row keeps a safe state safe: it moves, takes reset values, or writes a register. -/
theorem exec_keeps_safe {c : Instr} {s t : State} (h : s.Safe) (e : exec c s = .next t) : t.Safe := by
  by_cases hc : Instr.moving c = true
  · exact (exec_moves hc e).safe h
  · cases c
    case powerOnReset =>
      cases e
      exact s.dropCarriersOut.resetBlocks_safe nofun
    case functionReset =>
      cases e
      exact s.dropCarriersOut.resetBlocks_safe nofun
    case stoppingEnd =>
      cases e
      cases ended : s.endStopping? with
      | none => exact h
      | some t => exact State.endStopping?_safe ended
    case registerWriteOther offset value =>
      cases e
      exact State.writeRegister_safe h offset value
    all_goals exact absurd rfl hc

/-- Settles O4, by `exec_keeps_safe` on the state without the command taken; an idle step changes nothing. -/
theorem stepKeepsSafe : Obligations.StepKeepsSafe := by
  intro s t h e
  unfold step at e
  split at e
  · cases e
    exact h
  · next rest _ => exact exec_keeps_safe (h.setPending rest) e

/-- Settles O3: the reset state holds the values that every reset gives the blocks. -/
theorem resetStateIsSafe : Obligations.ResetStateIsSafe := by
  unfold Obligations.ResetStateIsSafe
  rw [State.reset_eq_resetBlocks]
  exact State.resetBlocks_safe _ nofun

end Sys2Proof.Machine
end

section
/-! SUPPORT. The ends of flush requests and of the link for posted writes, link errors and faults, and the timers of the requests and
of the credit wait (R11, R12, R55, R96, R98, R104, R109 to R111, R115, R116). -/

namespace Sys2Proof.Machine

theorem SpokeState.linked_iff (x : SpokeState) : x.linked = true ↔ x = .up ∨ x = .draining ∨ x = .faulted := by
  cases x <;> simp [linked]

theorem SpokeState.linked_eq_false_iff (x : SpokeState) : x.linked = false ↔ x = .off ∨ x = .training ∨ x = .resetting := by
  cases x <;> simp [linked]

/-- A fence's failure gives way to that of a lower-numbered spoke alone (R11). -/
theorem Entry.recordSpoke_eq (x : Entry) (k : SpokeId) (status : Status) :
    x.recordSpoke k status =
      if (∃ l ∈ x.failed, l.failure.detail ≤ k.val) then x.failed
      else some { offset := 0, failure := { status := status, detail := k.val } } := by
  unfold Entry.recordSpoke
  cases x.failed with
  | none => simp [spokeFailure]
  | some l => by_cases lower : k.val < l.failure.detail <;> simp [lower, spokeFailure]

namespace State

variable (s : State) (k : SpokeId)

@[simp] theorem setSpoke_setSpoke (x y : Spoke) : (s.setSpoke k x).setSpoke k y = s.setSpoke k y := by
  simp [setSpoke, Vector.set_set]

/-! ## Flush requests and posted writes (R11, R12) -/

theorem endFlush_of_flushing {e : EntryId} (h : (s.entry e).state = .flushing) (status : Option Status) :
    s.endFlush e k status =
      s.setEntry e
        { s.entry e with
          flushes := (s.entry e).flushes - 1
          failed := status.elim (s.entry e).failed fun st => (s.entry e).recordSpoke k st
          state := if (s.entry e).flushes ≤ 1 then .done else .flushing } := by
  have last : (s.entry e).flushes - 1 = 0 ↔ (s.entry e).flushes ≤ 1 := Nat.sub_eq_zero_iff_le
  rw [endFlush, if_pos h]
  cases status with
  | none => simp only [modEntry, last, h, Option.elim_none]
  | some st => simp only [modEntry, last, h, Option.elim_some]

theorem endFlush_of_other {e : EntryId} (h : (s.entry e).state ≠ .flushing) (status : Option Status) :
    s.endFlush e k status = s := if_neg h

/-- At a link's end the members with a clear mark take the mark (R12). -/
theorem markPosted_posted (status : Status) (n : QpId) (j : SpokeId) :
    ((s.markPosted k status).posted n)[j] =
      if j = k ∧ (s.posted n)[j] = .member then .marked status else (s.posted n)[j] := by
  have set : (s.markPosted k status).posted n =
      if (s.posted n)[k] = .member then (s.posted n).set k (.marked status) else s.posted n := vmap_getElem _ _ _ _
  rw [set]
  by_cases hj : j = k
  · subst hj
    split
    · next member => exact (Vector.getElem_set_self _).trans (if_pos (And.intro rfl member)).symm
    · next clear => exact (if_neg fun both => clear (And.right both)).symm
  · have other : k.val ≠ j.val := fun e => hj (Fin.ext e.symm)
    split <;> simp [hj, other]

/-! ## Link errors (R115, R116) -/

/-- One link error more on spoke k, up to 16 (R115). -/
def countLinkError : State :=
  s.setSpoke k { s.spoke k with linkErrors := if (s.spoke k).linkErrors < 16 then (s.spoke k).linkErrors + 1 else 16 }

theorem linkError_of_unlinked (h : (s.spoke k).state = .off ∨ (s.spoke k).state = .training ∨ (s.spoke k).state = .resetting) :
    s.linkError k = s :=
  if_neg (Bool.eq_false_iff.1 ((SpokeState.linked_eq_false_iff _).2 h))

/-- A linked spoke counts the error; the sixteenth faults an UP one. -/
theorem linkError_of_linked (h : (s.spoke k).state.linked = true) :
    s.linkError k =
      if (s.spoke k).state = .up ∧ 15 ≤ (s.spoke k).linkErrors then (s.countLinkError k).fault k .linkErrors
      else s.countLinkError k := by
  have counted : (s.modSpoke k fun x => { x with linkErrors := min (x.linkErrors + 1) Config.linkErrorLimit }) =
      s.countLinkError k := by
    have least (n : Nat) : min (n + 1) Config.linkErrorLimit = if n < 16 then n + 1 else 16 := by
      rw [Config.linkErrorLimit]
      split <;> omega
    simp only [modSpoke, least, countLinkError]
  have full : (if (s.spoke k).linkErrors < 16 then (s.spoke k).linkErrors + 1 else 16) = 16 ↔ 15 ≤ (s.spoke k).linkErrors := by
    split <;> omega
  rw [linkError, if_pos h]
  dsimp only
  rw [counted]
  simp only [countLinkError, setSpoke_spoke_self, Config.linkErrorLimit, full]

/-! ## The response timer and the credit wait timer (R109 to R111) -/

/-- Tag g of spoke k is quarantined (R111). -/
def quarantine (g : TagId) : State := s.setSpoke k { s.spoke k with tags := (s.spoke k).tags.set g .quarantined }

/-- The request r of tag g of spoke k has timed out, and the slot that this frees is granted (R55, R64, R111). -/
def timeOut (g : TagId) (r : Request) : State := ((s.quarantine k g).endRequest k r .spokeTimeout).grantSlots

/-- The end of a request changes no spoke. -/
theorem timeOut_spoke (g : TagId) (r : Request) :
    (s.timeOut k g r).spoke k = { s.spoke k with tags := (s.spoke k).tags.set g .quarantined } := by
  rw [timeOut, ((s.quarantine k g).endRequest_finishes k .spokeTimeout r).grantSlots.spoke k]
  exact s.setSpoke_spoke_self k _

section
variable {g : TagId} {r : Request} (h : (s.spoke k).tags[g] = .outstanding r)
include h

theorem expireTag_of_up (up : (s.spoke k).state = .up) : s.expireTag k g = (s.timeOut k g r).fault k .timeout := by
  simp only [expireTag, h, up]
  rfl

theorem expireTag_of_draining (draining : (s.spoke k).state = .draining) :
    s.expireTag k g =
      (s.timeOut k g r).setSpoke k
        { s.spoke k with
          tags := (s.spoke k).tags.set g .quarantined, drainTimeouts := (s.spoke k).drainTimeouts + 1 } := by
  have counted : s.expireTag k g =
      (s.timeOut k g r).modSpoke k fun x => { x with drainTimeouts := x.drainTimeouts + 1 } := by
    simp only [expireTag, h, draining]
    rfl
  rw [counted, modSpoke, timeOut_spoke]

theorem expireTag_of_other (notUp : (s.spoke k).state ≠ .up) (notDraining : (s.spoke k).state ≠ .draining) :
    s.expireTag k g = s.timeOut k g r := by
  unfold expireTag
  rw [h]
  dsimp only
  split
  · next up => exact absurd up notUp
  · next draining => exact absurd draining notDraining
  · rfl

end

theorem expireTag_of_idle {g : TagId} (h : ∀ r, (s.spoke k).tags[g] ≠ .outstanding r) : s.expireTag k g = s := by
  unfold expireTag
  split
  · next r hr => exact absurd hr (h r)
  · rfl

theorem creditWaitRunning_iff :
    s.creditWaitRunning k = true ↔
      (s.spoke k).state = .up ∧ (s.spoke k).credits = 0 ∧ (s.issue k ≠ [] ∨ (s.spoke k).flushList ≠ []) := by
  simp only [creditWaitRunning, Bool.and_eq_true, Bool.or_eq_true, beq_iff_eq, bne_iff_ne, and_assoc]

end State

/-- Settles O51: the three ends by their cases; what the cut of a dropped carrier out keeps of the wire is its definition. -/
theorem flushAndPostedEnds : Obligations.FlushAndPostedEnds := by
  refine ⟨fun s e k status => ⟨fun other => s.endFlush_of_other k other status, fun flushing => ?_⟩,
    fun s k status => ⟨rfl, fun e => rfl⟩,
    fun s k status => ⟨(s.markPosted k status).tt.posted, rfl, s.markPosted_posted k status, s.wire.cut (s.members k),
      rfl, rfl, rfl, rfl⟩⟩
  rw [s.endFlush_of_flushing k flushing]
  cases status with
  | none => rfl
  | some st => simp only [Option.elim_some, Entry.recordSpoke_eq]

/-- Settles O53: link errors by whether the spoke is linked, and a tag's timer by its state and its spoke's. -/
theorem spokeFaults : Obligations.SpokeFaults := by
  refine ⟨fun s k => ⟨fun reason => rfl, s.linkError_of_unlinked k, fun h => ?_, fun up full => ?_⟩,
    fun s k => ⟨fun g r h => ?_, fun g idle => ?_, fun waits => ?_, fun idle => ?_⟩⟩
  · have linked : (s.spoke k).state.linked = true := by
      rw [SpokeState.linked_iff]
      tauto
    rw [s.linkError_of_linked k linked, if_neg]
    · rfl
    · rintro ⟨up, full⟩
      rw [up] at h
      simp at h
      omega
  · rw [s.linkError_of_linked k (by rw [up]; rfl), if_pos ⟨up, full⟩]
    rfl
  · intro t timeout u answer
    have ended : u = s.timeOut k g r := by
      cases r with
      | flush fence => cases fence <;> rfl
      | _ => rfl
    have row : answer = .next (s.expireTag k g).settle := rfl
    rw [row, ended]
    refine ⟨fun up => ?_, fun draining => ?_, fun notUp notDraining => ?_⟩
    · rw [s.expireTag_of_up k h up]
    · rw [s.expireTag_of_draining k h draining]
    · rw [s.expireTag_of_other k h notUp notDraining]
  · show Host.Outcome.next (s.expireTag k g).settle = _
    rw [s.expireTag_of_idle k idle]
  · show Host.Outcome.next (s.expireCreditWait k).settle = _
    rw [State.expireCreditWait, if_pos ((s.creditWaitRunning_iff k).2 waits)]
  · show Host.Outcome.next (s.expireCreditWait k).settle = _
    rw [State.expireCreditWait, if_neg (mt (s.creditWaitRunning_iff k).1 idle)]

end Sys2Proof.Machine
end

section
/-! SUPPORT. What logical spokes make of the frames they receive, and what a carrier's loss ends (R53, R54, R96, R101, R102, R106,
R108, R112 to R116, R127 to R130). -/

namespace Sys2Proof.Machine

/-- A frame that answers a request of this kind (R112). -/
def RxFrame.Answers : RxFrame → Request → Prop
  | .readResponse _ _ _, .read _ => True
  | .writeAck _ _, .write _ => True
  | .flushAck _, .flush _ => True
  | _, _ => False

namespace State

variable (s : State) (k : SpokeId)

/-! ## Training (R101, R102, R127) -/

/-- The next attempt begins, or the third was the last (R101). -/
theorem attemptFailed_eq :
    s.attemptFailed k =
      if (s.spoke k).attempt < 3 then
        (s.setSpoke k { s.spoke k with state := .training, attempt := (s.spoke k).attempt + 1 }).sendFrame k .train
      else ((s.enterOff k .spokeUnavailable).raise (.spoke k) .spokeTrainFailed .none).endCommand [0x0A] k.val .trainFailed 2 :=
  rfl

theorem takeTrainAck_of_training (h : (s.spoke k).state = .training) (version grant : Byte) :
    s.takeTrainAck k version grant =
      if version = 1 ∧ 1 ≤ grant.toNat ∧ grant.toNat ≤ 16 then s.enterUp k grant.toNat else s.attemptFailed k := by
  rw [takeTrainAck, h]
  rfl

theorem takeTrainAck_of_other (h : (s.spoke k).state ≠ .training) (version grant : Byte) :
    s.takeTrainAck k version grant = s.linkError k := by
  unfold takeTrainAck
  split
  · next training => exact absurd training h
  · rfl

/-! ## Responses (R107, R112 to R114, R116) -/

/-- Tag g of spoke k becomes free. -/
def freeTagOf (g : TagId) : State := s.setSpoke k { s.spoke k with tags := (s.spoke k).tags.set g .free }

section
variable (tag : Byte) (matched : Request → Option (State → State))

/-- In OFF, TRAINING and RESETTING a response is discarded (R116). -/
theorem takeResponse_of_unlinked (h : (s.spoke k).state.linked = false) : s.takeResponse k tag matched = s :=
  if_neg (Bool.eq_false_iff.1 h)

variable {s k} (linked : (s.spoke k).state.linked = true)
include linked

/-- No tag has a number above 31 (R107). -/
theorem takeResponse_of_above (h : 32 ≤ tag.toNat) : s.takeResponse k tag matched = s.linkError k := by
  rw [takeResponse, if_pos linked, dif_neg (Nat.not_lt.2 h)]

variable {tag} {g : TagId} (number : tag.toNat = g.val)
include number

/-- A response is treated by the state of its tag (R112, R114). -/
theorem takeResponse_of_tag :
    s.takeResponse k tag matched =
      match (s.spoke k).tags[g] with
      | .free => s.linkError k
      | .quarantined => s.freeTagOf k g
      | .outstanding r =>
        match matched r with
        | some f => f (s.freeTagOf k g)
        | none => s.linkError k := by
  have below : tag.toNat < 32 := number ▸ g.isLt
  obtain rfl : g = ⟨tag.toNat, below⟩ := Fin.ext number.symm
  rw [takeResponse, if_pos linked, dif_pos below]
  rfl

theorem takeResponse_of_free (h : (s.spoke k).tags[g] = .free) : s.takeResponse k tag matched = s.linkError k := by
  rw [takeResponse_of_tag matched linked number, h]

theorem takeResponse_of_quarantined (h : (s.spoke k).tags[g] = .quarantined) :
    s.takeResponse k tag matched = s.freeTagOf k g := by
  rw [takeResponse_of_tag matched linked number, h]

theorem takeResponse_of_outstanding {r : Request} (h : (s.spoke k).tags[g] = .outstanding r) :
    s.takeResponse k tag matched =
      match matched r with
      | some f => f (s.freeTagOf k g)
      | none => s.linkError k := by
  rw [takeResponse_of_tag matched linked number, h]

end

section
variable {s k} (linked : (s.spoke k).state.linked = true) {tag : Byte} {g : TagId} (number : tag.toNat = g.val)
include linked number

/-- Data of the length asked for lands; of another length it is a link error behind the segment's end and its grant (R53, R112,
R113, R128). -/
theorem takeReadResponse_of_read {i : SegId} (outstanding : (s.spoke k).tags[g] = .outstanding (.read i)) (status : Byte)
    (bytes : List Byte) :
    s.takeReadResponse k tag status bytes =
      if status = 0 then
        if bytes.length = (s.seg i).length then (s.freeTagOf k g).land i bytes
        else
          ((s.freeTagOf k g).retire i (.failure { status := .targetError, detail := k.val + 256 })).grantSlots.linkError k
      else (s.freeTagOf k g).retire i (.failure (responseFailure status k)) :=
  takeResponse_of_outstanding _ linked number outstanding

/-- A write's segment retires with its acknowledgement (R54, R113, R129). -/
theorem takeWriteAck_of_write {i : SegId} (outstanding : (s.spoke k).tags[g] = .outstanding (.write i)) (status : Byte) :
    s.takeWriteAck k tag status =
      if status = 0 then (s.freeTagOf k g).retire i (.success false none)
      else (s.freeTagOf k g).retire i (.failure (responseFailure status k)) :=
  takeResponse_of_outstanding _ linked number outstanding

/-- A flush request ends as successful (R11, R129). -/
theorem takeFlushAck_of_flush {e : EntryId} (outstanding : (s.spoke k).tags[g] = .outstanding (.flush (some e))) :
    s.takeFlushAck k tag = (s.freeTagOf k g).endFlush e k none :=
  takeResponse_of_outstanding _ linked number outstanding

/-- An orphaned flush request is reported to none (R109). -/
theorem takeFlushAck_of_orphan (outstanding : (s.spoke k).tags[g] = .outstanding (.flush none)) :
    s.takeFlushAck k tag = s.freeTagOf k g :=
  takeResponse_of_outstanding _ linked number outstanding

end

/-- A response's row takes it by its tag, and only for a request that it answers (R112). -/
theorem exec_response (p : SpokeId) {f : RxFrame} {tag : Byte} (fits : f.fits)
    (h : (∃ status payload, f = .readResponse tag status payload) ∨ (∃ status, f = .writeAck tag status) ∨ f = .flushAck tag) :
    ∃ matched : Request → Option (State → State),
      exec (f.row p) s = .next (s.takeResponse (s.headOf p) tag matched).settle ∧
        ∀ r, ¬RxFrame.Answers f r → matched r = none := by
  obtain ⟨status, payload, rfl⟩ | ⟨status, rfl⟩ | rfl := h
  · refine ⟨_, congrArg (fun t : State => Host.Outcome.next t.settle) (if_pos fits), fun r other => ?_⟩
    cases r with
    | read i => exact absurd trivial other
    | _ => rfl
  · refine ⟨_, rfl, fun r other => ?_⟩
    cases r with
    | write i => exact absurd trivial other
    | _ => rfl
  · refine ⟨_, rfl, fun r other => ?_⟩
    cases r with
    | flush fence => exact absurd trivial other
    | _ => rfl

/-! ## Credits (R108, R130) -/

theorem takeCredit_of_up (up : (s.spoke k).state = .up) (count : Byte) :
    s.takeCredit k count =
      if count = 0 then s.linkError k
      else if (s.spoke k).grant < (s.spoke k).credits + count.toNat then
        (s.setSpoke k { s.spoke k with credits := (s.spoke k).grant }).linkError k
      else s.setSpoke k { s.spoke k with credits := (s.spoke k).credits + count.toNat } := by
  rw [takeCredit, up]
  rfl

theorem takeCredit_of_other (h : (s.spoke k).state ≠ .up) (count : Byte) : s.takeCredit k count = s := by
  unfold takeCredit
  split
  · next up => exact absurd up h
  · rfl

/-! ## Carriers (R96, R106) -/

theorem carrierPresent_iff : s.carrierPresent k = true ↔ ∀ m : SpokeId, s.headOf m = k → s.sp.carrierIn[m] = true := by
  simp [carrierPresent, members, imp_iff_not_or]

/-- Logical spoke k is OFF with its link lost, and the event is raised (R106). -/
def linkLost : State := (s.enterOff k .linkLost).raise (.spoke k) .spokeLinkLost .none

theorem loseCarrier_of_off (h : (s.spoke k).state = .off) : s.loseCarrier k = s := by
  rw [loseCarrier, h]

theorem loseCarrier_of_training (h : (s.spoke k).state = .training) :
    s.loseCarrier k = (s.linkLost k).endCommand [0x0A] k.val .trainFailed 1 := by
  rw [loseCarrier, h]
  rfl

theorem loseCarrier_of_resetting (h : (s.spoke k).state = .resetting) :
    s.loseCarrier k = (s.linkLost k).endCommand [0x0C] k.val .ok 0 := by
  rw [loseCarrier, h]
  rfl

/-- A linked spoke leaves its state before its work ends (R106). -/
theorem loseCarrier_of_linked (h : (s.spoke k).state.linked = true) :
    s.loseCarrier k =
      ((((s.setSpoke k { s.spoke k with state := .off, credits := 0 }).endOutstanding k .linkLost).failWaiting k
        .linkLost).linkLost k).endCommand [0x0B] k.val .ok (s.spoke k).drainTimeouts := by
  obtain h | h | h := (SpokeState.linked_iff _).1 h <;> simp only [loseCarrier, h] <;> rfl

/-- Carrier in of physical spoke p becomes absent (R96). -/
def withoutCarrier (p : SpokeId) : State := { s with sp.carrierIn := s.sp.carrierIn.set p false }

theorem dropCarrier_eq (p : SpokeId) :
    s.dropCarrier p =
      if s.carrierPresent (s.headOf p) then (s.withoutCarrier p).loseCarrier (s.headOf p) else s.withoutCarrier p := rfl

end State

/-- Settles O55: the answer by the state of the spoke, and the failed attempt by its number. -/
theorem trainingAnswersOrFails : Obligations.TrainingAnswersOrFails := by
  intro s failed
  refine ⟨fun k => ⟨fun training => ?_, fun other => ?_⟩, fun p version grant => ?_⟩
  · exact congrArg Host.Outcome.next (if_pos training)
  · exact congrArg Host.Outcome.next (if_neg other)
  · intro k x answered
    have row : exec (.trainAck p version grant) s = .next (s.takeTrainAck k version grant).settle := rfl
    rw [row]
    refine ⟨fun training good => ?_, fun training bad => ?_, fun linked => ?_, fun unlinked => ?_⟩
    · rw [s.takeTrainAck_of_training k training, if_pos good]
      rfl
    · rw [s.takeTrainAck_of_training k training, if_neg bad, s.attemptFailed_eq]
    · rw [s.takeTrainAck_of_other k fun training => by simp [x, training] at linked]
    · rw [s.takeTrainAck_of_other k fun training => by simp [x, training] at unlinked,
        s.linkError_of_unlinked k (unlinked.imp_right .inr)]

/-- Settles O57: a response is treated by the state of its spoke, then of its tag; a matched one runs what its row gives for the
request. -/
theorem responsesMatchedByTag : Obligations.ResponsesMatchedByTag := by
  refine ⟨fun s p f tag fits response => ?_, fun s p tag status g number => ?_⟩
  · intro answers k x answer
    obtain ⟨matched, row, unmatched⟩ := s.exec_response p fits response
    rw [show answer = _ from row]
    refine ⟨fun unlinked => ?_, fun h => ?_⟩
    · rw [s.takeResponse_of_unlinked k tag matched ((SpokeState.linked_eq_false_iff _).2 unlinked)]
    · have linked := (SpokeState.linked_iff _).2 h
      refine ⟨fun above => ?_, fun g number => ⟨fun free => ?_, fun quarantined => ?_, fun r outstanding other => ?_⟩⟩
      · rw [State.takeResponse_of_above tag matched linked above]
      · rw [State.takeResponse_of_free matched linked number free]
      · rw [State.takeResponse_of_quarantined matched linked number quarantined]
        rfl
      · rw [State.takeResponse_of_outstanding matched linked number outstanding, unmatched r other]
  · intro k x t failure h
    have linked := (SpokeState.linked_iff _).2 h
    have failed : failure = .failure (State.responseFailure status k) := by
      simp only [failure, State.responseFailure, spokeFailure]
      split <;> rfl
    rw [failed]
    refine ⟨fun i payload outstanding fits => ?_, fun i outstanding => ?_, fun e outstanding => ?_, fun outstanding => ?_⟩
    · intro answer
      have row : answer = .next (s.takeReadResponse k tag status payload).settle :=
        congrArg (fun t : State => Host.Outcome.next t.settle) (if_pos fits)
      rw [row, State.takeReadResponse_of_read linked number outstanding]
      refine ⟨fun ok same => ?_, fun ok other => ?_, fun bad => ?_⟩
      · rw [if_pos ok, if_pos same]
        rfl
      · rw [if_pos ok, if_neg other]
        rfl
      · rw [if_neg bad]
        rfl
    · have row : exec (.writeAck p tag status) s = .next (s.takeWriteAck k tag status).settle := rfl
      rw [row, State.takeWriteAck_of_write linked number outstanding]
      refine ⟨fun ok => ?_, fun bad => ?_⟩
      · rw [if_pos ok]
        rfl
      · rw [if_neg bad]
        rfl
    · exact congrArg (fun t : State => Host.Outcome.next t.settle) (State.takeFlushAck_of_flush linked number outstanding)
    · exact congrArg (fun t : State => Host.Outcome.next t.settle) (State.takeFlushAck_of_orphan linked number outstanding)

/-- Settles O58: a credit is taken in UP alone, by its count and the sum. -/
theorem creditsReturn : Obligations.CreditsReturn := by
  intro s p count k x sum
  have row : exec (.credit p count) s = .next (s.takeCredit k count).settle := rfl
  rw [row]
  refine ⟨fun other => ?_, fun up => ?_⟩
  · rw [s.takeCredit_of_other k other]
  · rw [s.takeCredit_of_up k up]
    refine ⟨fun zero => ?_, fun nonzero fits => ?_, fun nonzero above => ?_⟩
    · rw [if_pos zero]
    · rw [if_neg nonzero, if_neg (Nat.not_lt.2 fits)]
    · rw [if_neg nonzero, if_pos above]

/-- Settles O60: a carrier's loss is the spoke's when it was the first, and the spoke's state says what ends. -/
theorem carrierLossEndsLink : Obligations.CarrierLossEndsLink := by
  intro s p k t lost answer
  have row : answer = .next (s.dropCarrier p).settle := rfl
  rw [row, s.dropCarrier_eq]
  refine ⟨rfl, fun quiet => ?_, fun present => ?_⟩
  · obtain ⟨m, member, absent⟩ | off := quiet
    · rw [if_neg fun present => by simpa [absent] using (s.carrierPresent_iff k).1 present m member]
      rfl
    · rw [(s.withoutCarrier p).loseCarrier_of_off k off, ite_self]
      rfl
  · rw [if_pos ((s.carrierPresent_iff k).2 present)]
    refine ⟨fun training => ?_, fun resetting => ?_, fun linked => ?_⟩
    · rw [(s.withoutCarrier p).loseCarrier_of_training k training]
      rfl
    · rw [(s.withoutCarrier p).loseCarrier_of_resetting k resetting]
      rfl
    · rw [(s.withoutCarrier p).loseCarrier_of_linked k ((SpokeState.linked_iff _).2 linked)]
      rfl

end Sys2Proof.Machine
end

section
/-! SUPPORT. The commands on bundles and spokes once accepted (R97, R99 to R101, R103, R105, R157). -/

namespace Sys2Proof.Machine

/-! ## The layouts of the halves (R97, 11.4) -/

/-- The layouts in the order of their codes (11.4). -/
def layouts : List Layout := [.single, .pairLow, .pairHigh, .pairBoth, .quad]

theorem layouts_code (l : Layout) : layouts[l.code]? = some l := by cases l <;> rfl

theorem Layout.ofCode_of_layouts {n : Nat} {l : Layout} (h : layouts[n]? = some l) : Layout.ofCode n = l := by
  match n with
  | 0 | 1 | 2 | 3 | 4 => exact Option.some.inj h
  | n + 5 => cases h

namespace State

variable {s : State}

/-! ## The checks (R97, R99, R100, R103, R105, R157) -/

theorem ofNat_spoke {b : Byte} {k : SpokeId} (h : b.toNat = k.val) : (Fin.ofNat 8 b.toNat : SpokeId) = k := by simp [h]

/-- A byte that names a logical spoke is its number (R97). -/
theorem number_of_names {b : Byte} (h : ∃ k, s.Names b k) : b.toNat = (Fin.ofNat 8 b.toNat : SpokeId).val := by
  obtain ⟨k, number, -⟩ := h
  rw [ofNat_spoke number, number]

theorem namesSpoke_of_names {b : Byte} (h : ∃ k, s.Names b k) : s.namesSpoke b = true := by
  obtain ⟨k, number, head⟩ := h
  rw [namesSpoke, ofNat_spoke number, isLogical, head, number]
  simp [k.isLt]

theorem checkCommand_setBundle {head : CommandHead} {h l : Byte} (accepted : s.Accepts head (.setBundle h l)) :
    s.checkCommand (.setBundle h l) head.reserved = none := by
  obtain ⟨half, layout⟩ := accepted.params
  have fit : s.wrongState (.setBundle h l) = false := by
    refine List.any_eq_false.2 fun k _ unfit => accepted.fit ⟨k, ?_⟩
    simpa only [Bool.and_eq_true, decide_eq_true_eq, isLogical, beq_iff_eq, bne_iff_ne, and_assoc] using unfit
  simp [checkCommand, accepted.reserved, badParameter, half, layout, inUse, fit, overlapping]

theorem checkCommand_spokeStart {head : CommandHead} {c : SpokeStart} (accepted : s.Accepts head (.spokeStart c)) :
    s.checkCommand (.spokeStart c) head.reserved = none := by
  obtain ⟨named, timeout⟩ := accepted.params
  have fit : s.wrongState (.spokeStart c) = false :=
    bne_eq_false_iff_eq.2 (by_contra fun unfit => accepted.fit ⟨_, number_of_names named, unfit⟩)
  have running : c.timeout.toNat ≠ 0 := fun zero => timeout (BitVec.eq_of_toNat_eq zero)
  simp [checkCommand, accepted.reserved, badParameter, namesSpoke_of_names named, running, inUse, fit, overlapping]

theorem checkCommand_spokeStop {head : CommandHead} {b : Byte} (accepted : s.Accepts head (.spokeStop b)) :
    s.checkCommand (.spokeStop b) head.reserved = none := by
  have named : ∃ k, s.Names b k := accepted.params
  have fit : s.wrongState (.spokeStop b) = false :=
    bne_eq_false_iff_eq.2 (by_contra fun unfit => accepted.fit ⟨_, number_of_names named, unfit⟩)
  simp [checkCommand, accepted.reserved, badParameter, namesSpoke_of_names named, inUse, fit, overlapping]

theorem checkCommand_spokeReset {head : CommandHead} {b : Byte} (accepted : s.Accepts head (.spokeReset b)) :
    s.checkCommand (.spokeReset b) head.reserved = none := by
  have named : ∃ k, s.Names b k := accepted.params
  have fit : s.wrongState (.spokeReset b) = false := by
    rw [wrongState, Bool.not_eq_false', SpokeState.linked_iff]
    by_contra unfit
    simp only [not_or] at unfit
    exact accepted.fit ⟨_, number_of_names named, unfit⟩
  simp [checkCommand, accepted.reserved, badParameter, namesSpoke_of_names named, inUse, fit, overlapping]

/-! ## The effects (R99 to R101, R103, R105) -/

variable (s)

/-- A route into the named half carries the earlier-layout mark (R99). -/
theorem markHalf_eq (h : Nat) (r : Route) :
    Route.markHalf h r = { r with earlier := r.earlier || decide (r.spoke.val / 4 = h) } := by
  unfold Route.markHalf
  split
  · next into => simp [into]
  · next other => simp [other]

/-- The segments after a bundle change: their routes into the half carry the mark (R99). -/
def markedRoutes (h : Nat) : Vector Segment 128 :=
  vmap (fun x : Segment =>
    { x with source := x.source.map (Route.markHalf h), destination := x.destination.map (Route.markHalf h) }) s.su.segments

theorem acceptSetBundle_eq {h : Byte} {l : Nat} {layout : Layout} (hl : Layout.ofCode l = layout) (c : HeldCommand) :
    s.acceptSetBundle h.toNat l c =
      { s with
          sp.low := if h = 0 then layout else s.sp.low
          sp.high := if h = 0 then s.sp.high else layout
          sp.spokes := clearHalf s.sp.spokes h.toNat
          su.segments := s.markedRoutes h.toNat }.setExecutor
        (.posting c .ok (if h = 0 then s.sp.low else s.sp.high).code) := by
  have low : h.toNat = 0 ↔ h = 0 := ⟨fun e => BitVec.eq_of_toNat_eq e, fun e => e ▸ rfl⟩
  subst hl
  by_cases h0 : h = 0
  · simp only [acceptSetBundle, if_pos (low.2 h0), if_pos h0]
    rfl
  · simp only [acceptSetBundle, if_neg (mt low.1 h0), if_neg h0]
    rfl

theorem markedRoutes_getElem (h : Nat) (i : SegId) :
    (s.markedRoutes h)[i] =
      { s.seg i with
        source := (s.seg i).source.map (Route.markHalf h), destination := (s.seg i).destination.map (Route.markHalf h) } :=
  vmap_getElem _ _ _ _

section
variable (k : SpokeId) (c : HeldCommand)

/-- With carrier in on every member the first attempt begins; otherwise training has failed (R100, R101). -/
theorem acceptSpokeStart_eq {d : SpokeStart} (number : d.spoke.toNat = k.val) :
    s.acceptSpokeStart d c =
      if s.carrierPresent k then
        ((s.setExecutor (.waiting c)).setSpoke k
          { s.spoke k with
            timeout := d.timeout, linkErrors := 0, drainTimeouts := 0, state := .training, attempt := 1 }).sendFrame k .train
      else
        (s.setSpoke k { s.spoke k with timeout := d.timeout, linkErrors := 0, drainTimeouts := 0 }).setExecutor
          (.posting c .trainFailed 1) := by
  rw [acceptSpokeStart, ofNat_spoke number]
  simp only [startAttempt, modSpoke, await, setExecutor_spoke, setSpoke_spoke_self]
  rw [show ∀ x, (s.setSpoke k x).setExecutor (.waiting c) = (s.setExecutor (.waiting c)).setSpoke k x from fun _ => rfl,
    setSpoke_setSpoke]

theorem acceptSpokeStop_eq :
    s.acceptSpokeStop k c =
      ((s.setExecutor (.waiting c)).setSpoke k
        { s.spoke k with state := .draining, credits := 0, drainTimeouts := 0 }).failWaiting k .spokeUnavailable := rfl

theorem startReset_eq :
    s.startReset k =
      ((((s.setSpoke k { s.spoke k with state := .resetting, credits := 0 }).endOutstanding k .spokeReset).failWaiting k
        .spokeReset).markPosted k .spokeReset).sendFrame k .linkReset := rfl

end

end State

/-- Settles O42: the record of each spoke and the routes of each segment are described by their members. -/
theorem setBundleChangesLayout : Obligations.SetBundleChangesLayout := by
  intro s p r head h l read ready accepted codes mark layout old hl hold
  have checked := State.checkCommand_setBundle (accepted.commandTaken p)
  refine ⟨old.code, State.clearHalf s.sp.spokes h.toNat, s.markedRoutes h.toNat, layouts_code old, ?_,
    fun k => State.clearHalf_getElem _ _ k, fun i => ?_⟩
  · have row : exec (.setBundle head h l) s = .next (s.deliver head (.setBundle h l)) := rfl
    have effect := (s.commandTaken p).acceptSetBundle_eq (h := h) (Layout.ofCode_of_layouts hl) (s.heldOf head (.setBundle h l))
    rw [row, State.deliver_of_checked read ready checked, hold]
    exact congrArg Host.Outcome.next effect
  · have marks : State.Route.markHalf h.toNat = mark := funext (State.markHalf_eq h.toNat)
    rw [s.markedRoutes_getElem, marks]

/-- Settles O43: each command passes its checks and acts on the spoke it names. -/
theorem spokeCommandsAct : Obligations.SpokeCommandsAct := by
  refine ⟨fun s p r head c k read ready accepted number => ?_, fun s p r head b k read ready number =>
    ⟨fun accepted => ?_, fun accepted => ?_⟩⟩
  · intro h x
    have checked := State.checkCommand_spokeStart (accepted.commandTaken p)
    have row : exec (.spokeStart head c) s = .next ((s.commandTaken p).acceptSpokeStart c h) :=
      congrArg Host.Outcome.next (State.deliver_of_checked read ready checked)
    have carriers := (s.commandTaken p).carrierPresent_iff k
    rw [row, State.acceptSpokeStart_eq _ k h number]
    refine ⟨fun present => ?_, fun ⟨m, member, absent⟩ => ?_⟩
    · rw [if_pos (carriers.2 present)]
      rfl
    · rw [if_neg fun present => by simpa [absent] using (s.carrierPresent_iff k).1 present m member]
      rfl
  · have checked := State.checkCommand_spokeStop (accepted.commandTaken p)
    have row : exec (.spokeStop head b) s = .next (s.deliver head (.spokeStop b)).settle := rfl
    rw [row, State.deliver_of_checked read ready checked, State.accept, State.ofNat_spoke number, State.acceptSpokeStop_eq]
    rfl
  · have checked := State.checkCommand_spokeReset (accepted.commandTaken p)
    have row : exec (.spokeReset head b) s = .next (s.deliver head (.spokeReset b)).settle := rfl
    rw [row, State.deliver_of_checked read ready checked, State.accept, State.ofNat_spoke number, State.startReset_eq]
    rfl

end Sys2Proof.Machine
end

section
/-! SUPPORT. Numbers, fields and frames by their bytes (R119, R120, R125, R126, 11): a frame whose header states its payload's
length passes the frame check, and the sort by kind reads the fields of its header. -/

namespace Sys2Proof

/-! ## Numbers and fields (11) -/

theorem leBytes_length (n v : Nat) : (leBytes n v).length = n := by
  induction n generalizing v with
  | zero => rfl
  | succ n ih => rw [leBytes, List.length_cons, ih]

theorem leNat_leBytes (n v : Nat) : leNat (leBytes n v) = v % 256 ^ n := by
  induction n generalizing v with
  | zero => simp [leBytes, leNat, Nat.mod_one]
  | succ n ih =>
    have low : (BitVec.ofNat 8 v).toNat = v % 256 := rfl
    rw [leBytes, leNat, ih, low, Nat.pow_succ', Nat.mod_mul]

/-- A field inside the front of a record is the front's field. -/
theorem field_append {start n : Nat} {front : List Byte} (back : List Byte) (h : start + n ≤ front.length) :
    field (front ++ back) start n = field front start n := by
  rw [field, field, List.drop_append_of_le_length (by omega), List.take_append_of_le_length (by simp; omega)]

theorem byteAt_append {i : Nat} {front : List Byte} (back : List Byte) (h : i < front.length) :
    byteAt (front ++ back) i = byteAt front i := List.getD_append _ _ _ _ h

/-! ## The frame check (R119, R120, R125) -/

/-- What the frame check asks, with the payload length field (R125). -/
theorem frameCheck_iff (bytes : List Byte) :
    frameCheck bytes = true ↔
      20 ≤ bytes.length ∧ field bytes 4 2 ≤ 256 ∧ bytes.length = 20 + field bytes 4 2 ∧
        field bytes (16 + field bytes 4 2) 4 = (checkWord (bytes.take (16 + field bytes 4 2))).toNat := by
  simp [frameCheck, and_assoc]

/-- The kinds that a receiver knows, and the one of them that comes with a payload (R126, R185). -/
def KnownKind (kind payload : Nat) : Prop :=
  kind = 0x83 ∨ payload = 0 ∧ (kind = 0x81 ∨ kind = 0x82 ∨ kind = 0x84 ∨ kind = 0x85 ∨ kind = 0x86)

/-- Frames are discarded that fail the check, and frames of unknown kind (R125, R126). -/
theorem decodeFrame_eq_none_iff (bytes : List Byte) :
    decodeFrame bytes = none ↔ ¬frameCheck bytes = true ∨ ¬KnownKind (byteAt bytes 0).toNat (field bytes 4 2) := by
  unfold decodeFrame KnownKind
  split
  · next good =>
    obtain ⟨-, -, whole, -⟩ := (frameCheck_iff bytes).1 good
    have length : ((bytes.drop 16).take (field bytes 4 2)).length = field bytes 4 2 := by
      rw [List.length_take, List.length_drop]
      omega
    have empty : (bytes.drop 16).take (field bytes 4 2) = [] ↔ field bytes 4 2 = 0 := by
      rw [← List.length_eq_zero_iff, length]
    rw [← empty]
    dsimp only
    generalize (bytes.drop 16).take (field bytes 4 2) = payload
    split
    case h_1 kind => simp [good, kind]
    case h_7 h1 h2 h3 h4 h5 h6 =>
      simp only [imp_false] at h1 h2 h3 h4 h5 h6
      simp [h1, h2, h3, h4, h5, h6]
    all_goals
      next kind => simp [good, kind]
  · next bad => exact iff_of_true rfl (.inl bad)

/-- A READ_RESPONSE that passes the check has a payload of at most 256 bytes (R125), and the other kinds have none. -/
theorem decodeFrame_fits {bytes : List Byte} {f : RxFrame} (h : decodeFrame bytes = some f) : f.fits := by
  unfold decodeFrame at h
  obtain ⟨good, h⟩ := Option.ite_none_right_eq_some.1 h
  obtain ⟨-, fits, -⟩ := (frameCheck_iff bytes).1 good
  dsimp only at h
  split at h
  case h_1 =>
    cases h
    exact (List.length_take_le _ _).trans fits
  case h_7 => cases h
  all_goals
    obtain ⟨-, h⟩ := Option.ite_none_right_eq_some.1 h
    cases h
    trivial

/-- A frame: header and payload, with their check word behind them (R119, R120). -/
def framed (body : List Byte) : List Byte := body ++ leBytes 4 (checkWord body).toNat

theorem framed_length (body : List Byte) : (framed body).length = body.length + 4 := by
  rw [framed, List.length_append, leBytes_length]

section
variable {body : List Byte} (stated : body.length = 16 + field body 4 2)
include stated

theorem byteAt_framed {i : Nat} (h : i < 16) : byteAt (framed body) i = byteAt body i := byteAt_append _ (by omega)

theorem field_framed : field (framed body) 4 2 = field body 4 2 := field_append _ (by omega)

theorem payload_framed : ((framed body).drop 16).take (field (framed body) 4 2) = body.drop 16 := by
  rw [field_framed stated, framed, List.drop_append_of_le_length (by omega), List.take_left' (by rw [List.length_drop]; omega)]

/-- A frame whose header states its payload's length passes the frame check (R119, R120, R125). -/
theorem frameCheck_framed (fits : field body 4 2 ≤ 256) : frameCheck (framed body) = true := by
  have length := framed_length body
  have word : leNat (leBytes 4 (checkWord body).toNat) = (checkWord body).toNat := by
    rw [leNat_leBytes]
    exact Nat.mod_eq_of_lt (checkWord body).isLt
  rw [frameCheck_iff, field_framed stated]
  refine ⟨by omega, fits, by omega, ?_⟩
  rw [← stated, framed, List.take_left, field, List.drop_left, List.take_of_length_le (leBytes_length _ _).le, word]

end

/-! ## The far end's frames (R119, R120, R126) -/

theorem rxBytes_stated {f : RxFrame} (fits : f.fits) :
    (rxBytes f).length = 16 + field (rxBytes f) 4 2 ∧ field (rxBytes f) 4 2 ≤ 256 := by
  cases f with
  | readResponse tag status payload =>
    have fits : payload.length ≤ 256 := fits
    have number : field (rxBytes (.readResponse tag status payload)) 4 2 = leNat (leBytes 2 payload.length) := rfl
    rw [number, leNat_leBytes, Nat.mod_eq_of_lt (by omega)]
    exact ⟨List.length_append, fits⟩
  | _ => exact ⟨rfl, Nat.zero_le _⟩

theorem decodeFrame_encodeFrame {f : RxFrame} (fits : f.fits) : decodeFrame (encodeFrame f) = some f := by
  obtain ⟨stated, atMost⟩ := rxBytes_stated fits
  have frame : encodeFrame f = framed (rxBytes f) := rfl
  rw [frame, decodeFrame, if_pos (frameCheck_framed stated atMost), payload_framed stated]
  simp only [byteAt_framed stated, Nat.reduceLT]
  cases f <;> rfl

end Sys2Proof

namespace Sys2Proof.Machine

/-! ## The part's frames (R119, R122, R123) -/

theorem messageBytes_stated {m : TxMessage} (fits : m.fits) :
    (messageBytes m).length = 16 + field (messageBytes m) 4 2 ∧ field (messageBytes m) 4 2 ≤ 256 ∧
      (byteAt (messageBytes m) 0).toNat ≤ 5 := by
  cases m with
  | writeRequest tag address payload =>
    have fits : payload.length ≤ 256 := fits
    have number : field (messageBytes (.writeRequest tag address payload)) 4 2 = leNat (leBytes 2 payload.length) := by
      cases tag <;> rfl
    rw [number, leNat_leBytes, Nat.mod_eq_of_lt (by omega)]
    cases tag <;> exact ⟨List.length_append, fits, Nat.le_of_ble_eq_true rfl⟩
  | _ => exact ⟨rfl, Nat.zero_le _, Nat.le_of_ble_eq_true rfl⟩

end Sys2Proof.Machine
end

section
/-! SUPPORT. Frames on the members of a link (R121): a frame's bytes dealt to the members and assembled again, and the frames of a
member between their delimiters. -/

namespace Sys2Proof

/-! ## Dealing (R121) -/

/-- The part of a frame that the member in position j of n carries (R121). -/
def memberPart (n j : Nat) (bytes : List Byte) : List Byte :=
  (List.range bytes.length).filterMap fun k => if k % n = j then bytes[k]? else none

theorem dealBytes_eq (n : Nat) (bytes : List Byte) :
    dealBytes n bytes = (List.range n).map fun j => memberPart n j bytes := rfl

theorem dealBytes_length (n : Nat) (bytes : List Byte) : (dealBytes n bytes).length = n := by
  rw [dealBytes_eq, List.length_map, List.length_range]

/-- A member's part lists, in order, its bytes of the frame. -/
theorem memberPart_eq_map (n j : Nat) (bytes : List Byte) :
    memberPart n j bytes = ((List.range bytes.length).filter fun b => b % n = j).map fun b => bytes.getD b 0 := by
  rw [memberPart, ← List.filterMap_eq_map, List.filterMap_filter]
  refine List.filterMap_congr fun b hb => ?_
  have inside := List.mem_range.1 hb
  simp [inside]

/-- The next byte goes to the member in position k mod n. -/
theorem memberPart_append (n j : Nat) (bytes : List Byte) (b : Byte) :
    memberPart n j (bytes ++ [b]) = memberPart n j bytes ++ if bytes.length % n = j then [b] else [] := by
  have before : (List.range bytes.length).filterMap (fun k => if k % n = j then (bytes ++ [b])[k]? else none) =
      memberPart n j bytes :=
    List.filterMap_congr fun k hk => by rw [List.getElem?_append_left (List.mem_range.1 hk)]
  rw [memberPart, List.length_append, List.length_singleton, List.range_succ, List.filterMap_append, before]
  split <;> simp [*]

/-- A member whose turn is next, and which has run out of bytes with the frame, has got one of every n bytes. -/
theorem length_eq_div_of_turn {n j length total : Nat} (hj : j < n) (turn : total % n = j)
    (ends : ∀ q, length ≤ q ↔ total ≤ q * n + j) : length = total / n :=
  eq_of_forall_ge_iff fun q => by
    have divided := Nat.div_add_mod' total n
    have scaled : total / n * n ≤ q * n ↔ total / n ≤ q := Nat.mul_le_mul_right_iff (Nat.zero_lt_of_lt hj)
    rw [ends, ← scaled]
    omega

/-- Byte q of the member in position j is byte q n + j of the frame. -/
theorem memberPart_getElem? {n j : Nat} (hj : j < n) (bytes : List Byte) (q : Nat) :
    (memberPart n j bytes)[q]? = bytes[q * n + j]? := by
  induction bytes using List.reverseRecOn generalizing q with
  | nil => rfl
  | append_singleton bytes b ih =>
    have ends (q : Nat) : (memberPart n j bytes).length ≤ q ↔ bytes.length ≤ q * n + j := by
      rw [← List.getElem?_eq_none_iff, ih, List.getElem?_eq_none_iff]
    rw [memberPart_append, List.getElem?_append, List.getElem?_append, ih]
    by_cases inside : bytes.length ≤ q * n + j
    · rw [if_neg (not_lt.2 ((ends q).2 inside)), if_neg (not_lt.2 inside)]
      split
      · next turn =>
        have divided := Nat.div_add_mod' bytes.length n
        have turns : q * n + j - bytes.length = (q - bytes.length / n) * n := by
          rw [Nat.sub_mul]
          omega
        rw [length_eq_div_of_turn hj turn ends, turns]
        cases q - bytes.length / n with
        | zero => rw [Nat.zero_mul]
        | succ x => simp; omega
      · next other =>
        have later : q * n + j - bytes.length ≠ 0 := fun same => other (by
          rw [show bytes.length = j + q * n by omega, Nat.add_mul_mod_self_right, Nat.mod_eq_of_lt hj])
        simp [later]
    · rw [if_pos (not_le.1 fun h => inside ((ends q).1 h)), if_pos (not_le.1 inside)]

/-- Each byte goes to one member. -/
theorem dealBytes_lengths {n : Nat} (pos : 0 < n) (bytes : List Byte) :
    ((dealBytes n bytes).map List.length).sum = bytes.length := by
  induction bytes using List.reverseRecOn with
  | nil => simp [dealBytes]
  | append_singleton bytes b ih =>
    have one : ∑ j ∈ Finset.range n, (if bytes.length % n = j then 1 else 0) = 1 := by
      simp [Nat.mod_lt _ pos]
    have sum (f : Nat → Nat) : ((List.range n).map f).sum = ∑ j ∈ Finset.range n, f j := by
      rw [← List.sum_toFinset f List.nodup_range, List.toFinset_range]
    simp only [dealBytes_eq, List.map_map, Function.comp_def, sum] at ih ⊢
    simp only [memberPart_append, List.length_append, apply_ite List.length, List.length_nil, List.length_singleton,
      Finset.sum_add_distrib, ih, one]

theorem assembleBytes_dealBytes {n : Nat} (pos : 0 < n) (bytes : List Byte) :
    assembleBytes (dealBytes n bytes) = some bytes := by
  have byte (k : Nat) : ((dealBytes n bytes)[k % n]?).bind (fun lane => lane[k / n]?) = bytes[k]? := by
    have inside := Nat.mod_lt k pos
    rw [dealBytes_eq, List.getElem?_map, List.getElem?_range inside, Option.map_some, Option.bind_some,
      memberPart_getElem? inside, Nat.div_add_mod']
  have whole : (List.range bytes.length).filterMap (fun k => bytes[k]?) = bytes :=
    List.ext_getElem? fun q => by simpa [memberPart, Nat.mod_one] using memberPart_getElem? one_pos bytes q
  simp only [assembleBytes, dealBytes_length, dealBytes_lengths pos, byte, whole, if_true]

/-! ## Delimiters (R121) -/

theorem splitFrames_some_bytes (acc bytes : List Byte) (rest : List LaneSymbol) :
    splitFrames (some acc) (bytes.map .byte ++ rest) = splitFrames (some (acc ++ bytes)) rest := by
  induction bytes generalizing acc with
  | nil => rw [List.append_nil, List.map_nil, List.nil_append]
  | cons b bytes ih => rw [List.map_cons, List.cons_append, splitFrames, ih, List.append_assoc, List.singleton_append]

/-- Bytes outside a frame are discarded (R121). -/
theorem splitFrames_none_bytes (bytes : List Byte) (rest : List LaneSymbol) :
    splitFrames none (bytes.map .byte ++ rest) = splitFrames none rest := by
  induction bytes with
  | nil => rfl
  | cons b bytes ih => exact ih

/-- A start delimiter ends a frame as received (R121). -/
theorem splitFrames_start (bytes : List Byte) (rest : List LaneSymbol) :
    splitFrames none (.start :: bytes.map .byte ++ .start :: rest) = bytes :: splitFrames none (.start :: rest) := by
  rw [List.cons_append, splitFrames, splitFrames_some_bytes, List.nil_append]
  rfl

theorem splitFrames_laneFrame (bytes : List Byte) (rest : List LaneSymbol) :
    splitFrames none (laneFrame bytes ++ rest) = bytes :: splitFrames none rest := by
  rw [laneFrame, List.append_assoc, List.cons_append, splitFrames, splitFrames_some_bytes, List.nil_append]
  rfl

/-- What a member carries of a frame that has begun and not ended, or of none. -/
def Unfinished (symbols : List LaneSymbol) : Prop :=
  symbols = [] ∨ ∃ bytes : List Byte, symbols = .start :: bytes.map .byte

/-- A frame cut short is not received (R121). -/
theorem Unfinished.splitFrames {symbols : List LaneSymbol} (h : Unfinished symbols) : splitFrames none symbols = [] := by
  obtain rfl | ⟨bytes, rfl⟩ := h
  · rfl
  · have := splitFrames_some_bytes [] bytes []
    rwa [List.append_nil] at this

/-- The frames of a member come back between their delimiters. -/
theorem splitFrames_frames (frames : List (List Byte)) (part : List Byte → List Byte) {rest : List LaneSymbol}
    (h : Unfinished rest) : splitFrames none ((frames.flatMap fun f => laneFrame (part f)) ++ rest) = frames.map part := by
  induction frames with
  | nil => exact h.splitFrames
  | cons f frames ih => rw [List.flatMap_cons, List.append_assoc, splitFrames_laneFrame, ih, List.map_cons]

/-! ## Receiving (R121) -/

/-- What the n members of a link carry of frames sent one after the other (R121). -/
def linkLanes (n : Nat) (frames : List (List Byte)) : List (List LaneSymbol) :=
  (List.range n).map fun j => frames.flatMap fun f => (frameLanes n f).getD j []

theorem linkLanes_length (n : Nat) (frames : List (List Byte)) : (linkLanes n frames).length = n := by simp [linkLanes]

/-- Members that ended equally many frames have received these frames. -/
theorem receiveFrames_eq {lanes : List (List LaneSymbol)} {m : Nat} (nonempty : lanes ≠ [])
    (same : ∀ lane ∈ lanes, (splitFrames none lane).length = m) :
    receiveFrames lanes =
      (List.range m).map fun i => assembleBytes (lanes.map fun lane => (splitFrames none lane).getD i []) := by
  have lengths : (lanes.map (splitFrames none)).map List.length = List.replicate lanes.length m := by
    rw [List.eq_replicate_iff]
    simpa using same
  have least : (List.replicate lanes.length m).min? = some m :=
    List.min?_replicate_of_pos (List.length_pos_iff.2 nonempty)
  simp only [receiveFrames, lengths, least, Option.getD_some, List.map_map, Function.comp_def]

/-- Frames sent one after another come back as they were, and one that has not ended behind them does not (R121). -/
theorem receiveFrames_linkLanes_then {n : Nat} (pos : 0 < n) (frames : List (List Byte)) {unfinished : Nat → List LaneSymbol}
    (h : ∀ j, Unfinished (unfinished j)) :
    receiveFrames ((List.range n).map fun j => (frames.flatMap fun f => (frameLanes n f).getD j []) ++ unfinished j) =
      frames.map some := by
  have part (j : Nat) (hj : j < n) (f : List Byte) : (frameLanes n f).getD j [] = laneFrame (memberPart n j f) := by
    simp [frameLanes, dealBytes_eq, hj]
  have split (j : Nat) (hj : j < n) :
      splitFrames none ((frames.flatMap fun f => (frameLanes n f).getD j []) ++ unfinished j) =
        frames.map (memberPart n j) := by
    simp only [part j hj]
    exact splitFrames_frames frames _ (h j)
  rw [receiveFrames_eq (m := frames.length)]
  · refine List.ext_getElem (by simp) fun i hi _ => ?_
    have inside : i < frames.length := by simpa using hi
    rw [List.getElem_map, List.getElem_map, List.getElem_range, List.map_map, ← assembleBytes_dealBytes pos, dealBytes_eq]
    congr 1
    refine List.map_congr_left fun j hj => ?_
    rw [Function.comp_apply, split j (List.mem_range.1 hj)]
    simp [inside]
  · simpa using pos.ne'
  · intro lane member
    obtain ⟨j, hj, rfl⟩ := List.mem_map.1 member
    rw [split j (List.mem_range.1 hj), List.length_map]

theorem receiveFrames_linkLanes {n : Nat} (pos : 0 < n) (frames : List (List Byte)) :
    receiveFrames (linkLanes n frames) = frames.map some := by
  have := receiveFrames_linkLanes_then pos frames (unfinished := fun _ => []) fun _ => .inl rfl
  simp only [List.append_nil] at this
  exact this

/-- A frame that has begun on each member, and not ended, is not received (R121). -/
theorem receiveFrames_linkLanes_unfinished {n : Nat} (pos : 0 < n) (frames : List (List Byte)) {parts : List (List Byte)}
    (length : parts.length = n) :
    receiveFrames ((linkLanes n frames).zipWith (fun lane part => lane ++ .start :: part.map .byte) parts) =
      frames.map some := by
  rw [← receiveFrames_linkLanes_then pos frames fun j => .inr ⟨parts.getD j [], rfl⟩]
  congr 1
  refine List.ext_getElem (by simp [linkLanes_length, length]) fun j hj _ => ?_
  have inside : j < parts.length := List.lt_length_right_of_zipWith hj
  simp [linkLanes, inside]

/-- One part on each member makes one frame, and parts that were not dealt make one without bytes (R121; log entry 25). -/
theorem receiveFrames_of_undealt {parts : List (List Byte)} (nonempty : parts ≠ [])
    (undealt : ∀ f, dealBytes parts.length f ≠ parts) :
    receiveFrames (parts.map laneFrame) = [none] := by
  have part (bytes : List Byte) : splitFrames none (laneFrame bytes) = [bytes] := by
    have := splitFrames_laneFrame bytes []
    rwa [List.append_nil] at this
  rw [receiveFrames_eq (m := 1) (by simpa using nonempty) (by simp [part])]
  simp [part, Function.comp_def, assembleBytes, undealt]

end Sys2Proof
end

section
/-! SUPPORT. The end of a spoke's reset sequence (R105, R131), and the blocks after a reset of the part (R180). -/

namespace Sys2Proof.Machine

namespace State

variable (s : State)

/-! ## The reset sequence (R105, R131) -/

theorem takeResetAck_eq (k : SpokeId) :
    s.takeResetAck k = if (s.spoke k).state = .resetting then s.endReset k 1 else s := by
  unfold takeResetAck
  split
  · next resetting => rw [if_pos resetting]
  · next other => rw [if_neg other]

/-! ## The values after reset (R180) -/

theorem resetPart_slot (j : SlotId) : s.resetPart.slot j = { s.slot j with holder := none } := vmap_getElem _ _ _ _

theorem resetPart_spoke (k : SpokeId) : s.resetPart.spoke k = {} := Vector.getElem_replicate _

/-- Every carrier out is dropped (R121, R180). -/
theorem resetPart_lane (p : SpokeId) :
    s.resetPart.wire.lanes[p] =
      { gone := s.wire.lanes[p].gone ++ s.wire.lanes[p].going.take (Config.cutPoint s.wire.cuts p), going := [] } := by
  have cut := s.wire.cut_lane (List.finRange 8) (List.nodup_finRange 8) p
  rwa [if_pos (List.mem_finRange p)] at cut

theorem resetPart_carrierOut (p : SpokeId) : s.resetPart.carrierOut p = false := by
  rw [carrierOut, resetPart_spoke]
  rfl

end State

/-- Settles O56: the two ends of the reset sequence by whether the spoke is RESETTING. -/
theorem resetSequenceEnds : Obligations.ResetSequenceEnds := by
  refine ⟨fun s p => ?_, fun s k => ⟨fun resetting => ?_, fun other => ?_⟩⟩
  · intro k
    have row : exec (.resetAck p) s = .next (s.takeResetAck k) := rfl
    rw [row, s.takeResetAck_eq]
    refine ⟨fun resetting => ?_, fun other => ?_⟩
    · rw [if_pos resetting]
      rfl
    · rw [if_neg other]
  · exact congrArg Host.Outcome.next (if_pos resetting)
  · exact congrArg Host.Outcome.next (if_neg other)

/-- Settles O2: the blocks take their reset values, and the wire is cut on every spoke. -/
theorem resetsTakeResetValues : Obligations.ResetsTakeResetValues := by
  intro s
  refine ⟨s.resetPart, rfl, rfl, rfl, ?qp, rfl, ?arms, ?entry, ?inflight, ?posted, ?seg, ?issue, rfl, ?window, rfl, ?context,
    ?cache, rfl, ?walk, rfl, rfl, s.resetPart_slot, ?held, rfl, rfl, rfl, s.resetPart_spoke, s.resetPart_carrierOut, rfl, rfl,
    ?place, rfl, rfl, rfl, rfl, rfl, ?messages, rfl, rfl, rfl, rfl, rfl, s.resetPart_lane⟩
  case posted =>
    intro n k
    have row : s.resetPart.posted n = Vector.replicate 8 .absent := Vector.getElem_replicate _
    rw [row]
    exact Vector.getElem_replicate _
  all_goals exact fun _ => Vector.getElem_replicate _

end Sys2Proof.Machine
end

section
/-! SUPPORT. What a logical spoke's members carry of the messages sent (R121), and what it takes of the frames received (R125,
R126). -/

namespace Sys2Proof.Machine

namespace State

variable (s : State) (k : SpokeId)

/-! ## Members and layouts (R97, R121) -/

theorem mem_members {p : SpokeId} : p ∈ s.members k ↔ s.headOf p = k := by simp [members]

/-- A physical spoke is a member of its own logical spoke, which thus has one. -/
theorem members_headOf_length_pos (p : SpokeId) : 0 < (s.members (s.headOf p)).length :=
  List.length_pos_of_mem ((s.mem_members _).2 rfl)

/-- States of the same layouts have the same logical spokes. -/
theorem headOf_eq_of_layouts {s t : State} (low : t.sp.low = s.sp.low) (high : t.sp.high = s.sp.high) :
    t.headOf = s.headOf := by
  funext p
  rw [headOf, headOf, low, high]

theorem members_eq_of_headOf {s t : State} (h : t.headOf = s.headOf) : t.members = s.members := by
  funext k
  rw [members, members, h]

/-- A received frame, with what it brings about, changes no layout. -/
theorem takeBytes_settle_headOf (received : Option (List Byte)) : (s.takeBytes k received).settle.headOf = s.headOf := by
  obtain ⟨low, high⟩ := (s.takeBytes k received).settle_layouts
  have quiet := s.takeBytes_quiet k received
  exact headOf_eq_of_layouts (low.trans quiet.low) (high.trans quiet.high)

/-! ## Sending (R121) -/

theorem sendFrame_lane_member (m : TxMessage) {j : Nat} {p : SpokeId} (member : (s.members k)[j]? = some p) :
    (s.sendFrame k m).wire.lanes[p] =
      s.wire.lanes[p].carry (laneFrame (memberPart (s.members k).length j (frameBytes m))) := by
  obtain ⟨inside, -⟩ := List.getElem?_eq_some_iff.1 member
  refine s.sendFrame_lane k m p _ (List.mem_of_getElem? (i := j) ?_)
  rw [List.getElem?_zip_eq_some]
  exact ⟨member, by simp [frameLanes, dealBytes_eq, inside]⟩

theorem enterOff_lane (mark : Status) (p : SpokeId) :
    (s.enterOff k mark).wire.lanes[p] =
      if s.headOf p = k then s.wire.lanes[p].cut (Config.cutPoint s.wire.cuts p) else s.wire.lanes[p] := by
  have cut := s.wire.cut_lane (s.members k) (s.members_nodup k) p
  simp only [mem_members] at cut
  exact cut

/-! ## Receiving (R121, R125, R126) -/

theorem takeBytes_of_invalid {received : Option (List Byte)} (h : readFrame received = none) :
    s.takeBytes k received = s.linkError k := by rw [takeBytes, h]

theorem takeBytes_of_frame {received : Option (List Byte)} {f : RxFrame} (h : readFrame received = some f) :
    s.takeBytes k received = s.takeFrame k f := by rw [takeBytes, h]

/-- Lists of symbols, one for each member, are what the members received. -/
theorem memberLanes_eq {lanes : List (List LaneSymbol)} (h : lanes.length = (s.members k).length) :
    s.memberLanes k lanes = lanes := by
  refine List.ext_getElem (by simp [memberLanes, h]) fun i _ inside => ?_
  simp [memberLanes, inside]

end State

/-- The row takes the frames that the members' symbols hold, in turn. -/
theorem exec_invalidFrameReceive {s : State} {p : SpokeId} {lanes : List (List LaneSymbol)} {frames : List (Option (List Byte))}
    (length : lanes.length = (s.members (s.headOf p)).length) (received : receiveFrames lanes = frames) :
    exec (.invalidFrameReceive p lanes) s = .next (s.takeReceived (s.headOf p) frames) := by
  have row : exec (.invalidFrameReceive p lanes) s =
      .next (s.takeReceived (s.headOf p) (receiveFrames (s.memberLanes (s.headOf p) lanes))) := rfl
  rw [row, s.memberLanes_eq _ length, received]

theorem exec_linkLanes (s : State) (p : SpokeId) (frames : List (List Byte)) :
    exec (.invalidFrameReceive p (linkLanes (s.members (s.headOf p)).length frames)) s =
      .next (s.takeReceived (s.headOf p) (frames.map some)) :=
  exec_invalidFrameReceive (linkLanes_length _ _) (receiveFrames_linkLanes (s.members_headOf_length_pos p) frames)

/-- The row of a frame whose payload fits takes the frame, with what it brings about; RESET_ACK brings nothing about (R131). -/
theorem exec_frame_row {f : RxFrame} (fits : f.fits) (p : SpokeId) (s : State) :
    exec (f.row p) s =
      if f = .resetAck then .next (s.takeFrame (s.headOf p) f) else .next (s.takeFrame (s.headOf p) f).settle := by
  cases f with
  | resetAck => rfl
  | readResponse tag status payload => exact congrArg (fun t : State => Host.Outcome.next t.settle) (if_pos fits)
  | _ => rfl

/-- Settles O59: the lanes hold the frames dealt to them, and the row takes each of them by its bytes. -/
theorem invalidFramesDiscarded : Obligations.InvalidFramesDiscarded := by
  refine ⟨fun bytes => ?_, fun s p => ?_⟩
  · intro n good kind known
    rw [decodeFrame_eq_none_iff, frameCheck_iff]
    rfl
  · intro k n carried
    have pos : 0 < n := s.members_headOf_length_pos p
    have row (frames : List (List Byte)) (t : State) (same : t.headOf = s.headOf) :
        exec (.invalidFrameReceive p (carried frames)) t = .next (t.takeReceived k (frames.map some)) := by
      have row := exec_linkLanes t p frames
      rwa [State.members_eq_of_headOf same, same] at row
    refine ⟨fun bytes invalid => ?_, fun bytes f good => ?_, fun parts length undealt => ?_, row [] s rfl, fun f rest => ?_,
      fun frames parts length => ?_, fun tag status payload long => ?_⟩
    · rw [row _ s rfl]
      exact congrArg (fun t : State => Host.Outcome.next t.settle) (s.takeBytes_of_invalid k invalid)
    · refine ⟨s.takeFrame k f, ?_, exec_frame_row (decodeFrame_fits good) p s⟩
      rw [row _ s rfl]
      exact congrArg (fun t : State => Host.Outcome.next t.settle) (s.takeBytes_of_frame k good)
    · have nonempty : parts ≠ [] := List.ne_nil_of_length_pos (length ▸ pos)
      rw [exec_invalidFrameReceive (by rw [List.length_map, length]) (receiveFrames_of_undealt nonempty (by rwa [length]))]
      exact congrArg (fun t : State => Host.Outcome.next t.settle) (s.takeBytes_of_invalid k rfl)
    · refine ⟨(s.takeBytes k (some f)).settle, row [f] s rfl, ?_⟩
      rw [row _ s rfl, row _ _ (s.takeBytes_settle_headOf k _)]
      rfl
    · rw [row _ s rfl]
      refine exec_invalidFrameReceive ?_ (receiveFrames_linkLanes_unfinished pos frames length)
      rw [List.length_zipWith, length]
      exact Nat.min_eq_right (linkLanes_length n frames).ge
    · exact congrArg (fun t : State => Host.Outcome.next t.settle) (if_neg (not_le.2 long))

/-- Settles O10: every frame is a body with its check word, the parts dealt to the members assemble to the bytes they come from,
and a member's symbols change with its own logical spoke alone. -/
theorem framesCrossTheLink : Obligations.FramesCrossTheLink := by
  refine ⟨⟨fun f => decodeFrame_encodeFrame, fun m fits => ?_⟩, splitFrames_start, splitFrames_none_bytes,
    fun n frames unfinished members h => receiveFrames_linkLanes_then (by omega) frames h, fun s k m mark => ?_⟩
  · obtain ⟨stated, atMost, own⟩ := messageBytes_stated fits
    have length : (frameBytes m).length = (messageBytes m).length + 4 := framed_length _
    refine ⟨by omega, by omega, frameCheck_framed stated atMost, (decodeFrame_eq_none_iff _).2 (.inr ?_)⟩
    have kind : byteAt (frameBytes m) 0 = byteAt (messageBytes m) 0 := byteAt_framed stated (by decide)
    rw [kind]
    unfold KnownKind
    omega
  · intro n
    refine ⟨fun j p member => ⟨?_, ?_⟩, fun p other => ⟨?_, ?_⟩⟩
    · rw [s.sendFrame_lane_member k m member, memberPart_eq_map, Lane.carry, laneFrame, List.map_map]
      simp only [n, Function.comp_def]
      rw [List.append_assoc]
    · rw [s.enterOff_lane, if_pos ((s.mem_members k).1 (List.mem_of_getElem? member))]
      rfl
    · exact s.sendFrame_lane_other k m p (mt (s.mem_members k).1 other)
    · rw [s.enterOff_lane, if_neg other]

end Sys2Proof.Machine
end

section
/-! SUPPORT. The vectors' messages (R148, R150) and the writes of the index registers (R138, R140, R141, R145, R149, R177). -/

namespace Sys2Proof.Machine

namespace State

section
variable {s : State} {v : VectorId}

/-! ## Messages (R148, R150) -/

theorem signal_of_fired (h : s.qe.arms[v] = .fired) : s.signal v = s := if_neg (by simp [h])

theorem signal_of_armed (h : s.qe.arms[v] = .armed) :
    s.signal v = ({ s with qe.arms := s.qe.arms.set v .fired } : State).handMessage v := if_pos h

theorem handMessage_of_enabled (h : s.hp.messagesEnabled = true) : s.handMessage v = s.takeWrite (.message v) := if_pos h

theorem handMessage_of_disabled (h : s.hp.messagesEnabled = false) :
    s.handMessage v = { s with hp.messagePending := s.hp.messagePending.set v true } := if_neg (by simp [h])

end

section
variable (s : State)

/-- A signalled vector leaves the transfer table as it stands. -/
@[simp] theorem signal_tt (v : VectorId) : (s.signal v).tt = s.tt := by
  unfold signal handMessage
  split
  · split <;> rfl
  · rfl

/-- The vectors whose pending flags are set, in ascending order (R150). -/
def pendingVectors : List VectorId := (List.finRange 16).filter fun v => s.hp.messagePending[v]

theorem pendingVectors_sorted : s.pendingVectors.Pairwise (· < ·) := (finRange_sorted 16).filter _

theorem mem_pendingVectors (v : VectorId) : v ∈ s.pendingVectors ↔ s.hp.messagePending[v] = true := by simp [pendingVectors]

end

end State

/-- Settles O23: a vector's message by its arm state and the enable input; the messages kept back are `pendingVectors`. -/
theorem interruptMessages : Obligations.InterruptMessages := by
  refine fun s => ⟨fun v => ⟨State.signal_of_fired, fun armed enabled => ?_, fun armed disabled => ?_⟩, rfl,
    s.pendingVectors, s.pendingVectors_sorted, s.mem_pendingVectors, rfl⟩
  · exact (State.signal_of_armed armed).trans (State.handMessage_of_enabled enabled)
  · exact (State.signal_of_armed armed).trans (State.handMessage_of_disabled disabled)

namespace State

variable {s : State} {n : QpId}

/-! ## The state of a queue pair (R138) -/

theorem qpState_eq_running_iff :
    s.qpState n = .running ↔ if n = 0 then s.ctl.device = .ready else (s.qp n).state = .running := by
  unfold qpState
  split
  · cases s.ctl.device <;> simp
  · rfl

theorem qpState_eq_empty_iff :
    s.qpState n = .empty ↔ if n = 0 then s.ctl.device = .disabled ∨ s.ctl.device = .stopping else (s.qp n).state = .empty := by
  unfold qpState
  split
  · cases s.ctl.device <;> simp
  · rfl

/-- In READY and HALTED the index registers are not ignored. -/
theorem not_idle_of_active (active : s.ctl.device = .ready ∨ s.ctl.device = .halted) :
    ¬(s.ctl.device = .disabled ∨ s.ctl.device = .stopping) := by
  rcases active with h | h <;> simp [h]

/-! ## Bad writes (R145, R177) -/

/-- A bad write to a client queue pair's register fails it (R145). -/
theorem badIndex_client (client : n ≠ 0) :
    s.badIndex n = (s.setQp n { s.qp n with state := .failed }).raise (.queue n) .queueFailed .badIndex := if_neg client

/-- A bad write to one of QP0's registers halts the device while it is READY (R177). -/
theorem badIndex_admin (ready : s.ctl.device = .ready) :
    s.badIndex 0 = { s with ctl.device := .halted, ctl.haltReason := .adminIndex } := if_pos ready

/-! ## SQ_TAIL (R140) -/

section
variable {value : BitVec 32}

theorem writeTail_of_ignored
    (h : s.ctl.device = .disabled ∨ s.ctl.device = .stopping ∨ s.qpState n ≠ .running) : s.writeTail n value = s := by
  rw [writeTail]
  split
  · rfl
  · next active => exact if_neg fun running => active (or_assoc.2 h |>.resolve_right (not_not_intro running))

theorem writeTail_of_running (active : s.ctl.device = .ready ∨ s.ctl.device = .halted) (running : s.qpState n = .running) :
    s.writeTail n value =
      if (s.qp n).sqSize ≤ value.toNat then s.badIndex n else s.setQp n { s.qp n with tail := value.toNat } := by
  rw [writeTail, if_neg (not_idle_of_active active), if_pos running]
  rfl

/-! ## CQ_HEAD (R141, R149) -/

theorem headGood_iff (v : Nat) :
    s.headGood n v = true ↔
      v < (s.qp n).cqSize ∧
        (v + (s.qp n).cqSize - (s.qp n).head) % (s.qp n).cqSize ≤
          ((s.qp n).writeIndex + (s.qp n).cqSize - (s.qp n).head) % (s.qp n).cqSize := by
  rw [headGood, Bool.and_eq_true, decide_eq_true_eq, decide_eq_true_eq]
  rfl

theorem writeHead_of_ignored (h : s.ctl.device = .disabled ∨ s.ctl.device = .stopping ∨ s.qpState n = .empty) :
    s.writeHead n value = s := if_pos h

theorem writeHead_of_live (active : s.ctl.device = .ready ∨ s.ctl.device = .halted) (live : s.qpState n ≠ .empty) :
    s.writeHead n value =
      if s.headGood n value.toNat then
        { s with qe.arms := s.qe.arms.set (s.qp n).vector .armed }.setQp n { s.qp n with head := value.toNat }
      else if s.qpState n = .running then s.badIndex n
      else s := by
  rw [writeHead, if_neg fun h => (or_assoc.2 h).elim (not_idle_of_active active) live]
  rfl

end

end State

/-- Settles O24: the queue pair's state says whether the write is taken, and the ring's size whether it is good. -/
theorem sqTailWrite : Obligations.SqTailWrite := by
  intro s n value running
  have runs : s.qpState n = .running ↔ running := State.qpState_eq_running_iff.trans ite_prop_iff_or
  have row : exec (.sqTailWrite n value) s = .next (s.writeTail n value) := rfl
  rw [row]
  refine ⟨fun ignored => ?_, fun active run => ?_⟩
  · rw [← runs] at ignored
    rw [State.writeTail_of_ignored ignored]
  · rw [State.writeTail_of_running active (runs.2 run)]
    refine ⟨fun good => ?_, fun bad client => ?_, fun bad admin => ?_⟩
    · rw [if_neg (not_le.2 good)]
    · rw [if_pos bad, State.badIndex_client client]
    · subst admin
      have ready : s.ctl.device = .ready := State.qpState_eq_running_iff.1 (runs.2 run)
      rw [if_pos bad, State.badIndex_admin ready]

/-- Settles O25: a good value is taken in every state but EMPTY, and a bad one fails or halts in RUNNING alone. -/
theorem cqHeadWrite : Obligations.CqHeadWrite := by
  intro s n value q empty running good
  have isEmpty : s.qpState n = .empty ↔ empty := State.qpState_eq_empty_iff
  have runs : s.qpState n = .running ↔ running := State.qpState_eq_running_iff
  have isGood : s.headGood n value.toNat = true ↔ good := State.headGood_iff _
  have row : exec (.cqHeadWrite n value) s = .next (s.writeHead n value) := rfl
  rw [row]
  refine ⟨fun ignored => ?_, fun active live => ?_⟩
  · rw [← isEmpty] at ignored
    rw [State.writeHead_of_ignored ignored]
  · rw [State.writeHead_of_live active (mt isEmpty.1 live)]
    refine ⟨fun taken => ?_, fun bad idle => ?_, fun bad run client => ?_, fun bad run admin => ?_⟩
    · rw [if_pos (isGood.2 taken)]
    · rw [if_neg (mt isGood.1 bad), if_neg (mt runs.1 idle)]
    · rw [if_neg (mt isGood.1 bad), if_pos (runs.2 run), State.badIndex_client client]
    · subst admin
      have ready : s.ctl.device = .ready := State.qpState_eq_running_iff.1 (runs.2 run)
      rw [if_neg (mt isGood.1 bad), if_pos (runs.2 run), State.badIndex_admin ready]

end Sys2Proof.Machine
end

section
/-! SUPPORT. The fetches of descriptors and commands (R2, R142, R143, R156), and the posting of a queue pair's head entry (R20,
R146, R148). -/

namespace Sys2Proof.Machine

theorem fetchTurn_eq (last n : QpId) : fetchTurn last n = (n - (last + 1)).val := by
  simp only [fetchTurn, Fin.sub_def, Fin.val_add]
  omega

/-- When a record qualifies (R148). -/
theorem Notify.qualifies_iff (m : Notify) (notify : Bool) :
    m.qualifies notify = true ↔ m = .all ∨ (m = .flagged ∧ notify = true) := by
  cases m <;> simp [Notify.qualifies]

namespace State

variable (s : State)

/-! ## The fetch arbiter (R2, R142, R143) -/

theorem execFetchIssue_eq : exec .fetchIssue s = .next (s.fetchIssue?.getD s) := rfl

section
variable {s} {n : QpId}

theorem fetchEligible_iff : s.fetchEligible n = true ↔ s.Eligible n := by
  simp only [fetchEligible, Bool.and_eq_true, bne_iff_ne, beq_iff_eq, decide_eq_true_eq, Bool.not_eq_true', and_assoc]
  constructor
  · rintro ⟨client, ready, running, pending, depth, clear⟩
    exact ⟨client, ready, s.qpState_client client ▸ running, pending, depth, clear⟩
  · rintro ⟨client, ready, running, pending, depth, clear⟩
    exact ⟨client, ready, (s.qpState_client client).trans running, pending, depth, clear⟩

/-- The eligible queue pair that is the fewest steps after the one served last takes the lowest FREE entry. -/
theorem fetchIssue?_eq_some {e : EntryId} (eligible : s.Eligible n)
    (turn : ∀ m, s.Eligible m → fetchTurn s.qe.fetchPtr n ≤ fetchTurn s.qe.fetchPtr m) (free : (s.entry e).state = .free)
    (first : ∀ f, f < e → (s.entry f).state ≠ .free) :
    s.fetchIssue? = some
      (({ s with qe.fetchPtr := n } |>.setEntry e { qp := n, subIndex := (s.qp n).fetchIndex, state := .fetching }
        |>.setInflight n (s.inflight n ++ [e])
        |>.setQp n { s.qp n with fetching := true }).handRead
        { requester := .descriptor n, address := (s.qp n).sqBase + 32 * (s.qp n).fetchIndex, length := 32 }) := by
  have entry : s.freeEntryIndex = some e := firstIndex_eq_some.2 ⟨beq_iff_eq.2 free, fun f hf => beq_false_of_ne (first f hf)⟩
  have next : firstAfter s.qe.fetchPtr s.fetchEligible = some n := by
    refine firstAfter_eq_some.2 ⟨fetchEligible_iff.2 eligible, fun m hm => ?_⟩
    have := turn m (fetchEligible_iff.1 hm)
    rwa [fetchTurn_eq, fetchTurn_eq] at this
  rw [fetchIssue?, entry, next]
  rfl

/-- Without an eligible queue pair or without a FREE entry the arbiter fetches nothing. -/
theorem fetchIssue?_eq_none (h : (∀ n, ¬s.Eligible n) ∨ ∀ e, (s.entry e).state ≠ .free) : s.fetchIssue? = none := by
  unfold fetchIssue?
  obtain h | h := h
  · rw [firstAfter_eq_none.2 fun n => Bool.eq_false_iff.2 (mt fetchEligible_iff.1 (h n))]
    cases s.freeEntryIndex <;> rfl
  · have none : s.freeEntryIndex = none := firstIndex_eq_none.2 fun e => beq_false_of_ne (h e)
    rw [none]

/-! ## The command fetch (R156) -/

theorem commandFetch?_eq_some (idle : s.au.executor = .idle) (ready : s.ctl.device = .ready) (pending : 0 < s.pendingCount 0) :
    s.commandFetch? = some
      (((s.setExecutor .fetching).setQp 0 { s.qp 0 with fetching := true }).handRead
        { requester := .command, address := (s.qp 0).sqBase + 32 * (s.qp 0).fetchIndex, length := 32 }) :=
  if_pos ⟨idle, ready, pending⟩

theorem commandFetch?_eq_none (h : s.au.executor ≠ .idle ∨ s.ctl.device ≠ .ready ∨ s.pendingCount 0 = 0) :
    s.commandFetch? = none := by
  refine if_neg fun ⟨idle, ready, pending⟩ => ?_
  rcases h with busy | other | nothing
  · exact busy idle
  · exact other ready
  · exact pending.ne' nothing

end

theorem execCommandFetchIssue_eq : exec .commandFetchIssue s = .next (s.commandFetch?.getD s) := rfl

end State

/-- Settles O29: the searches find the queue pair next in turn and the lowest FREE entry. -/
theorem fetchesServeTheirTurn : Obligations.FetchesServeTheirTurn := by
  refine fun s => ⟨fun n e eligible turn free first => ?_, fun nothing => ?_, fun idle ready pending => ?_, fun nothing => ?_⟩
  · rw [s.execFetchIssue_eq, State.fetchIssue?_eq_some eligible turn free first]
    rfl
  · rw [s.execFetchIssue_eq, State.fetchIssue?_eq_none nothing]
    rfl
  · rw [s.execCommandFetchIssue_eq, State.commandFetch?_eq_some idle ready pending]
    rfl
  · rw [s.execCommandFetchIssue_eq, State.commandFetch?_eq_none nothing]
    rfl

namespace State

variable (s : State) (n : QpId)

/-! ## The posting of the head entry (R20, R146) -/

theorem execCompletionPost_eq : exec (.completionPost n) s = .next (((s.post? n).map State.settle).getD s) := rfl

/-- Client queue pairs' records are written in READY and HALTED (10.4). -/
theorem clientRecords_iff : s.clientRecords = true ↔ s.ctl.device = .ready ∨ s.ctl.device = .halted := by simp [clientRecords]

/-- A completion ring has space while the records not consumed and one more fill less than the ring (R146). -/
theorem ringSpace_iff :
    s.ringSpace n = true ↔
      ((s.qp n).writeIndex + (s.qp n).cqSize - (s.qp n).head) % (s.qp n).cqSize + 1 < (s.qp n).cqSize := decide_eq_true_iff

/-- The state once a record has been handed over for the slot at the write index, and the write index has passed on (R146). -/
def recordWritten (source : WriteSource) (bytes : List Byte) : State :=
  (s.takeWrite (.memory source ((s.qp n).cqBase + 16 * (s.qp n).writeIndex) bytes)).setQp n
    { s.qp n with
      writeIndex := if (s.qp n).writeIndex + 1 = (s.qp n).cqSize then 0 else (s.qp n).writeIndex + 1
      lap := if (s.qp n).writeIndex + 1 = (s.qp n).cqSize then !(s.qp n).lap else (s.qp n).lap }

/-- A record that qualifies signals the queue pair's vector (R148). -/
theorem writeRecord_eq (source : WriteSource) (bytes : List Byte) (qualifies : Bool) :
    s.writeRecord n source bytes qualifies =
      if qualifies then (s.recordWritten n source bytes).signal (s.qp n).vector else s.recordWritten n source bytes := rfl

/-- The transfer table does not change as a record is written. -/
theorem writeRecord_tt (source : WriteSource) (bytes : List Byte) (qualifies : Bool) :
    (s.writeRecord n source bytes qualifies).tt = s.tt := by
  rw [writeRecord_eq]
  split
  · exact signal_tt _ _
  · rfl

/-- The head entry is ready to post (R146). -/
structure Posts (e : EntryId) : Prop where
  client : n ≠ 0
  device : s.ctl.device = .ready ∨ s.ctl.device = .halted
  done : (s.entry e).state = .done
  state : (s.qp n).state ≠ .aborting
  space : s.ringSpace n = true

section
variable {s n}

/-- A head entry that is ready to post leaves its record, and its place at the head of the list. -/
theorem post?_eq_some {e : EntryId} {rest : List EntryId} (list : s.inflight n = e :: rest) (own : (s.entry e).qp = n)
    (ready : s.Posts n e) :
    s.post? n = some
      (((s.writeRecord n .completion
        (transferRecord (s.entry e) (s.qp n).lap (ringNext (s.entry e).subIndex (s.qp n).sqSize))
        ((s.qp n).notify.qualifies (s.entry e).notify)).setInflight n rest).setEntry e {}) := by
  have same := s.writeRecord_tt n .completion
    (transferRecord (s.entry e) (s.qp n).lap (ringNext (s.entry e).subIndex (s.qp n).sqSize))
    ((s.qp n).notify.qualifies (s.entry e).notify)
  have entry := congrArg (fun t : TransferTable => t.entries[e]) same
  have head := (congrArg (fun t : TransferTable => t.inflight[n]) same).trans list
  rw [post?, list]
  dsimp only
  rw [if_pos ⟨ready.client, s.clientRecords_iff.2 ready.device, ready.done, ready.state, ready.space⟩]
  refine congrArg some (freeEntry_eq (a := []) head ((congrArg Entry.qp entry).trans own) ?_ List.not_mem_nil)
  exact ((congrArg Entry.state entry).trans ready.done).trans_ne (by decide)

theorem post?_eq_none (h : ∀ e ∈ (s.inflight n).head?, ¬s.Posts n e) : s.post? n = none := by
  unfold post?
  split
  · rfl
  · next e rest list =>
    refine if_neg fun ⟨client, device, done, state, space⟩ => h e (by simp [list]) ?_
    exact ⟨client, s.clientRecords_iff.1 device, done, state, space⟩

end

end State

/-- Settles O34: the record is the one `writeRecord` hands over, and the head entry is then freed. -/
theorem headEntryPosted : Obligations.HeadEntryPosted := by
  intro s n q space
  have hasSpace : s.ringSpace n = true ↔ space := s.ringSpace_iff n
  refine ⟨?_, fun nothing => ?_⟩
  · intro e rest client device list done own state room record wraps t qualifies
    have posts := State.post?_eq_some list own ⟨client, device, done, state, hasSpace.2 room⟩
    rw [s.execCompletionPost_eq, posts, State.writeRecord_eq]
    have qualified := Notify.qualifies_iff q.notify (s.entry e).notify
    refine ⟨fun yes => ?_, fun no => ?_⟩
    · rw [if_pos (qualified.2 yes)]
      rfl
    · rw [if_neg (mt qualified.1 no)]
      rfl
  · rw [s.execCompletionPost_eq, State.post?_eq_none fun e head posts => ?_]
    · rfl
    · rcases nothing with admin | disabled | stopping | aborting | full | waits
      · exact posts.client admin
      · simpa [disabled] using posts.device
      · simpa [stopping] using posts.device
      · exact posts.state aborting
      · exact full (hasSpace.1 posts.space)
      · exact waits e head posts.done

end Sys2Proof.Machine
end

section
/-! SUPPORT. CREATE_QUEUE and DELETE_QUEUE once accepted (R22, R109, R151 to R153, R157), and what an ABORT deletion makes of each
entry (R22). -/

namespace Sys2Proof.Machine

/-! ## The fields of a queue pair's record (R137, R148, R151) -/

theorem Notify.ofCode_toNat (b : BitVec 2) : Notify.ofCode b.toNat = if b = 0 then .none else if b = 1 then .flagged else .all := by
  unfold Notify.ofCode
  split
  · next h => rw [if_pos (BitVec.eq_of_toNat_eq h)]
  · next h =>
    obtain rfl : b = 1 := BitVec.eq_of_toNat_eq h
    rfl
  · next h0 h1 => rw [if_neg fun e => h0 (congrArg BitVec.toNat e), if_neg fun e => h1 (congrArg BitVec.toNat e)]

theorem ringSizeOk_iff (n : Nat) : ringSizeOk n = true ↔ RingSize n := by
  refine ⟨ringSizeOk_size, fun ⟨k, low, size⟩ => ?_⟩
  simp only [ringSizeOk, List.any_eq_true, List.mem_range'_1, beq_iff_eq]
  exact ⟨k, ⟨low, k.isLt⟩, size⟩

theorem ringOk_iff (base size record : Nat) : ringOk base size record = true ↔ RingFits base size record := by
  simp only [ringOk, Bool.and_eq_true, ringSizeOk_iff, decide_eq_true_eq, and_assoc]
  rfl

/-- An orphaned flush request names no fence (R109). -/
theorem Tag.orphan_eq (e : EntryId) (t : Tag) :
    t.orphan e = if t = .outstanding (.flush (some e)) then .outstanding (.flush none) else t := by
  unfold Tag.orphan
  split
  · next f => by_cases h : f = e <;> simp [h]
  · next other => rw [if_neg (other e)]

namespace State

variable {s : State}

/-! ## The checks (R151, R152, R157) -/

theorem ofNat_queue {b : Byte} {n : QpId} (h : b.toNat = n.val) : (Fin.ofNat 16 b.toNat : QpId) = n := by simp [h]

theorem checkCommand_createQueue {head : CommandHead} {c : CreateQueue} (accepted : s.Accepts head (.createQueue c)) :
    s.checkCommand (.createQueue c) head.reserved = none := by
  obtain ⟨⟨low, high⟩, sq, cq, ⟨x, context, used⟩, ⟨shallow, deep⟩, notify⟩ := accepted.params
  have params : s.badParameter (.createQueue c) = false := by
    have bound : c.context.toNat ≤ 15 := by omega
    have named : (Fin.ofNat 16 c.context.toNat : ContextId) = x := by simp [context]
    have mode : ((s.context (Fin.ofNat 16 c.context.toNat)).mode != .off) = true := by rwa [named, bne_iff_ne]
    simp only [badParameter, low, high, (ringOk_iff _ _ _).2 sq, (ringOk_iff _ _ _).2 cq, bound, mode, shallow, deep, notify,
      decide_true, Bool.and_self, Bool.not_true]
  have free : s.inUse (.createQueue c) = false := by
    have number : c.qp.toNat = (Fin.ofNat 16 c.qp.toNat : QpId).val := (Nat.mod_eq_of_lt (by omega)).symm
    exact bne_eq_false_iff_eq.2 (by_contra fun busy => accepted.free ⟨_, number, busy⟩)
  simp [checkCommand, accepted.reserved, params, free, wrongState, overlapping]

theorem checkCommand_deleteQueue {head : CommandHead} {c : DeleteQueue} (accepted : s.Accepts head (.deleteQueue c)) :
    s.checkCommand (.deleteQueue c) head.reserved = none := by
  obtain ⟨⟨low, high⟩, mode⟩ := accepted.params
  have fit : s.wrongState (.deleteQueue c) = false := by
    have number : c.qp.toNat = (Fin.ofNat 16 c.qp.toNat : QpId).val := (Nat.mod_eq_of_lt (by omega)).symm
    have state := not_exists.1 accepted.fit (Fin.ofNat 16 c.qp.toNat)
    rw [wrongState]
    split
    · rfl
    · rfl
    · next notRunning notFailed => exact absurd ⟨number, notRunning, notFailed⟩ state
  simp [checkCommand, accepted.reserved, badParameter, low, high, mode, inUse, fit, overlapping]

/-- The return of QP0's command read leaves a client queue pair's record as it stands. -/
theorem commandTaken_qp_client (p : PlaceId) {n : QpId} (client : n ≠ 0) : (s.commandTaken p).qp n = s.qp n :=
  (setQp_qp _ _ _ _).trans (if_neg client)

/-! ## What an ABORT deletion makes of an entry (R22, R109) -/

section
variable (s) (e : EntryId)

/-- An entry freed as it stands: it leaves its in-flight list and takes its reset values (R3, R22). -/
def entryFreed : State :=
  (s.setInflight (s.entry e).qp ((s.inflight (s.entry e).qp).erase e)).setEntry e {}

/-- An entry stopped at its cursor: it winds down (R16, R22). -/
def entryStopped : State :=
  s.setEntry e { s.entry e with state := .winding, stop := some (s.entry e).cursor }

end

section
variable {e : EntryId}

theorem abortEntry_of_kept (h : (s.entry e).state = .free ∨ (s.entry e).state = .fetching) : s.abortEntry e = s := by
  unfold abortEntry
  rcases h with h | h <;> rw [h]

theorem freeEntry_of_not_flushing (h : (s.entry e).state ≠ .flushing) : s.freeEntry e = s.entryFreed e := by
  rw [freeEntry, if_neg h, entryFreed]

theorem abortEntry_of_waiting (h : (s.entry e).state = .gated ∨ (s.entry e).state = .done) : s.abortEntry e = s.entryFreed e := by
  rw [← freeEntry_of_not_flushing (by rcases h with h | h <;> simp [h]), abortEntry]
  rcases h with h | h <;> rw [h]

/-- A RUNNING or WINDING entry is stopped, and then ends if nothing of it lives. -/
theorem abortEntry_of_active (h : (s.entry e).state = .running ∨ (s.entry e).state = .winding) :
    s.abortEntry e = (s.entryStopped e).closeEntry e := by
  unfold abortEntry
  rcases h with h | h <;> simp only [h]
  · rfl
  · rw [entryStopped, ← h]
    rfl

theorem entryStopped_entry :
    (s.entryStopped e).entry e = { s.entry e with state := .winding, stop := some (s.entry e).cursor } :=
  setEntry_entry_self _ _ _

theorem entryStopped_closeEntry_of_empty (empty : (s.entry e).live = 0) : (s.entryStopped e).closeEntry e = s.entryFreed e := by
  have ends : ((s.entryStopped e).entry e).Freed := by
    rw [entryStopped_entry]
    exact ⟨rfl, empty, rfl⟩
  rw [closeEntry_of_freed ends, entryStopped_entry]
  exact setEntry_setEntry (s.setInflight _ _) e _ _

theorem entryStopped_closeEntry_of_live (live : (s.entry e).live ≠ 0) : (s.entryStopped e).closeEntry e = s.entryStopped e := by
  refine if_neg fun ⟨_, empty⟩ => live ?_
  rwa [entryStopped_entry] at empty

/-- A FLUSHING fence is freed, and its flush requests are withdrawn or orphaned (R109). -/
theorem abortEntry_of_flushing (h : (s.entry e).state = .flushing) :
    s.abortEntry e = { s.entryFreed e with sp.spokes := (s.withdrawFlushes e).sp.spokes } := by
  rw [abortEntry, h]
  dsimp only
  rw [freeEntry, if_pos h]
  rfl

/-- What the withdrawal of a fence's flush requests leaves of a spoke (R109). -/
theorem withdrawFlushes_spoke (k : SpokeId) :
    (s.withdrawFlushes e).sp.spokes[k] =
      { s.spoke k with
        flushList := (s.spoke k).flushList.filter (· ≠ e), tags := vmap (Tag.orphan e) (s.spoke k).tags } := by
  have others : (fun f : EntryId => f != e) = fun f => decide (f ≠ e) :=
    funext fun f => Bool.eq_iff_iff.2 (by simp)
  rw [← others]
  exact vmap_getElem _ _ _ _

end

end State

/-- Settles O37: the command passes its checks, and its fields make the record. -/
theorem createQueueMakesRecord : Obligations.CreateQueueMakesRecord := by
  intro s p r head c n x v read ready accepted queue context vector
  have checked := State.checkCommand_createQueue (accepted.commandTaken p)
  have row : exec (.createQueue head c) s = .next (s.deliver head (.createQueue c)) := rfl
  have contextId : (Fin.ofNat 16 c.context.toNat : ContextId) = x := by simp [context]
  have vectorId : (Fin.ofNat 16 c.vector.toNat : VectorId) = v := by simp [vector]
  rw [row, State.deliver_of_checked read ready checked, State.accept, State.acceptCreateQueue, State.ofNat_queue queue,
    contextId, vectorId, Notify.ofCode_toNat]
  rfl

/-- Settles O38: the command passes its checks and gives the queue pair its new state; an ABORT's treatment of an entry goes by
the entry's state. -/
theorem deleteQueueStopsEntries : Obligations.DeleteQueueStopsEntries := by
  refine ⟨fun s p r head c n read ready accepted queue => ?_, fun s e => ?_⟩
  · intro t
    have client : n ≠ 0 := by
      rw [← State.ofNat_queue queue]
      exact State.ofNat_client accepted.params.1.1 accepted.params.1.2
    have record : t.qp n = s.qp n := State.commandTaken_qp_client p client
    have checked := State.checkCommand_deleteQueue (accepted.commandTaken p)
    have row : exec (.deleteQueue head c) s =
        .next ((s.commandTaken p).acceptDeleteQueue c (s.heldOf head (.deleteQueue c))).settle :=
      congrArg (fun u : State => Host.Outcome.next u.settle) (State.deliver_of_checked read ready checked)
    rw [row, State.acceptDeleteQueue, State.ofNat_queue queue, ← record]
    refine ⟨fun drain => ?_, fun abort => ?_⟩
    · rw [if_pos drain]
      rfl
    · rw [if_neg (by simp [abort])]
      rfl
  · intro x freed stopped
    refine ⟨State.abortEntry_of_kept, State.abortEntry_of_waiting, fun active => ⟨fun empty => ?_, fun live => ?_⟩,
      fun flushing => ?_⟩
    · exact (State.abortEntry_of_active active).trans (State.entryStopped_closeEntry_of_empty empty)
    · exact (State.abortEntry_of_active active).trans (State.entryStopped_closeEntry_of_live live)
    · refine ⟨(s.withdrawFlushes e).sp.spokes, State.abortEntry_of_flushing flushing, fun k => ?_⟩
      refine ⟨vmap (Tag.orphan e) (s.spoke k).tags, State.withdrawFlushes_spoke k, fun g => ?_⟩
      exact (vmap_getElem _ _ _ _).trans (Tag.orphan_eq e _)

end Sys2Proof.Machine
end

section
/-! SUPPORT. The event list (R165, R166), and the records of QP0's completion ring (R146, R159, R160, R167). -/

namespace Sys2Proof.Machine

/-! ## An event raised (R166) -/

section
variable (overflow : Bool) (source : EventSource) (kind : EventKind) (reason : EventReason)

/-- The entry whose key is in the list counts the event; no other entry has the key. -/
theorem addEvent_of_present {a b : List Event} {e : Event}
    (keys : (a ++ e :: b).Pairwise fun x y => ¬(x.source = y.source ∧ x.kind = y.kind)) (counted : e.count ≤ 255) :
    addEvent (a ++ e :: b) overflow e.source e.kind reason =
      (a ++ { e with count := if e.count = 255 then 255 else e.count + 1 } :: b, overflow) := by
  obtain ⟨-, inTail, across⟩ := List.pairwise_append.1 keys
  obtain ⟨after, -⟩ := List.pairwise_cons.1 inTail
  have before : ∀ x ∈ a, ¬(x.source = e.source ∧ x.kind = e.kind) := fun x hx => across x hx e List.mem_cons_self
  have behind : ∀ x ∈ b, ¬(x.source = e.source ∧ x.kind = e.kind) := fun x hx ⟨hs, hk⟩ => after x hx ⟨hs.symm, hk.symm⟩
  have count : min (e.count + 1) Config.eventCountMax = if e.count = 255 then 255 else e.count + 1 := by
    unfold Config.eventCountMax
    split <;> omega
  rw [addEvent, if_pos (by simp), List.map_append, List.map_cons, if_pos ⟨rfl, rfl⟩, count,
    List.map_congr_left fun x hx => if_neg (before x hx), List.map_congr_left fun x hx => if_neg (behind x hx), List.map_id',
    List.map_id']

theorem addEvent_of_absent {events : List Event} (absent : ∀ e ∈ events, ¬(e.source = source ∧ e.kind = kind)) :
    addEvent events overflow source kind reason =
      if events.length < 8 then (events ++ [{ source := source, kind := kind, reason := reason, count := 1 }], overflow)
      else (events, true) :=
  if_neg (by simpa using absent)

end

/-- Settles O22: the list by whether it holds the key, and by its length. -/
theorem eventRaised : Obligations.EventRaised := by
  refine fun s source kind reason ok => ⟨fun disabled => if_pos disabled, fun enabled => ?_⟩
  have raised : s.raise source kind reason =
      { s with
        au.events := (addEvent s.au.events s.au.overflow source kind reason).1
        au.overflow := (addEvent s.au.events s.au.overflow source kind reason).2 } := if_neg enabled
  refine ⟨fun a b e list hs hk => ?_, fun absent => ⟨fun room => ?_, fun full => ?_⟩⟩
  · subst hs hk
    have counted : e.count ≤ 255 := (ok.counts e (by simp [list])).2
    rw [raised, list, addEvent_of_present _ _ (list ▸ ok.keys) counted]
  · rw [raised, addEvent_of_absent _ _ _ _ absent, if_pos room]
  · rw [raised, addEvent_of_absent _ _ _ _ absent, if_neg (by omega)]

/-! ## The records of QP0's completion ring (R146, R159, R160, R167) -/

namespace State

variable (s : State)

theorem execAdminCompletionWrite_eq : exec .adminCompletionWrite s = .next (s.adminCompletion?.getD s) := rfl

theorem execEventRecordWrite_eq : exec .eventRecordWrite s = .next (s.eventWrite?.getD s) := rfl

/-- QP0's records are written while the device is READY and the ring has space (R160). -/
def AdminRingOpen : Prop := s.ctl.device = .ready ∧ s.ringSpace 0 = true

/-- The executor holds a completion that is ready to be written (R155). -/
def Posting : Prop := ∃ c status info, s.au.executor = .posting c status info

section
variable {s}

theorem adminCompletion?_eq_some {c : HeldCommand} {status : AdminStatus} {info : Nat}
    (posting : s.au.executor = .posting c status info) (ready : s.AdminRingOpen) :
    s.adminCompletion? = some
      ((s.writeRecord 0 .adminRecord
        (commandRecord c status info (s.qp 0).lap (ringNext c.subIndex (s.qp 0).sqSize)) true).setExecutor .idle) := by
  rw [adminCompletion?, posting]
  exact if_pos ready

theorem adminCompletion?_eq_none (h : ¬s.Posting ∨ ¬s.AdminRingOpen) : s.adminCompletion? = none := by
  unfold adminCompletion?
  split
  · next c status info posting => exact if_neg (h.resolve_left (not_not_intro ⟨c, status, info, posting⟩))
  · rfl

theorem eventWrite?_eq_some {e : Event} {rest : List Event} (quiet : ¬s.Posting) (list : s.au.events = e :: rest)
    (ready : s.AdminRingOpen) :
    s.eventWrite? = some
      { s.writeRecord 0 .adminRecord (eventRecord e s.au.overflow (s.qp 0).lap (s.qp 0).fetchIndex) true with
        au.events := rest, au.overflow := false } := by
  unfold eventWrite?
  split
  · next c status info posting => exact absurd ⟨c, status, info, posting⟩ quiet
  · next empty _ => cases empty.symm.trans list
  · next cons _ =>
    cases cons.symm.trans list
    exact if_pos ready

theorem eventWrite?_eq_none (h : s.Posting ∨ s.au.events = [] ∨ ¬s.AdminRingOpen) : s.eventWrite? = none := by
  unfold eventWrite?
  split
  · rfl
  · rfl
  · next cons quiet =>
    refine if_neg ?_
    rcases h with ⟨c, status, info, posting⟩ | empty | shut
    · exact absurd posting (quiet c status info)
    · cases empty.symm.trans cons
    · exact shut

end

end State

/-- Settles O35: each row by what the executor holds, the event list and the ring. -/
theorem adminRecordsWritten : Obligations.AdminRecordsWritten := by
  intro s q open_ wraps written
  have opens : s.AdminRingOpen ↔ open_ := and_congr_right' (s.ringSpace_iff 0)
  rw [s.execAdminCompletionWrite_eq, s.execEventRecordWrite_eq]
  refine ⟨fun c status info posting => ⟨?_, fun ready => ?_⟩, fun quiet => ?_, fun shut => ⟨?_, ?_⟩⟩
  · rw [State.eventWrite?_eq_none (.inl ⟨c, status, info, posting⟩)]
    rfl
  · rw [State.adminCompletion?_eq_some posting (opens.2 ready)]
    rfl
  · have quiet : ¬s.Posting := fun ⟨c, status, info, posting⟩ => quiet c status info posting
    refine ⟨?_, fun empty => ?_, fun e rest list ready => ?_⟩
    · rw [State.adminCompletion?_eq_none (.inl quiet)]
      rfl
    · rw [State.eventWrite?_eq_none (.inr (.inl empty))]
      rfl
    · rw [State.eventWrite?_eq_some quiet list (opens.2 ready)]
      rfl
  · rw [State.adminCompletion?_eq_none (.inr (mt opens.1 shut))]
    rfl
  · rw [State.eventWrite?_eq_none (.inr (.inr (mt opens.1 shut)))]
    rfl

end Sys2Proof.Machine
end

section
/-! SUPPORT. Command records as software writes them (R184, 11.4): what is read back of the record of a command. -/

namespace Sys2Proof

/-- A word written by all its bytes is read back. -/
theorem ofNat_leNat_leBytes {w n : Nat} (fits : w ≤ 8 * n) (v : BitVec w) : BitVec.ofNat w (leNat (leBytes n v.toNat)) = v := by
  have bound : v.toNat < 256 ^ n := calc
    v.toNat < 2 ^ w := v.isLt
    _ ≤ 2 ^ (8 * n) := Nat.pow_le_pow_right (by decide) fits
    _ = 256 ^ n := Nat.pow_mul 2 8 n
  rw [leNat_leBytes, Nat.mod_eq_of_lt bound, BitVec.ofNat_toNat, BitVec.setWidth_eq]

/-- The vector and the notify mode share byte 11 of CREATE_QUEUE, whose two top bits are reserved (11.4). -/
theorem vectorNotify_fields (v : BitVec 4) (m : BitVec 2) :
    let b : Byte := v.setWidth 8 ||| (m.setWidth 8 <<< 4)
    b.setWidth 4 = v ∧ b.extractLsb' 4 2 = m ∧ (b.extractLsb' 6 2 != 0) = false := by
  revert v m
  decide

theorem decodeCommandFields_encodeCommand (tag : BitVec 32) (c : AdminCommand) :
    decodeCommandFields (encodeCommand tag c) = some c := by
  cases c with
  | createQueue p =>
    obtain ⟨qp, context, depth, vector, notify, sqSize, cqSize, sqBase, cqBase⟩ := p
    obtain ⟨hv, hn, -⟩ := vectorNotify_fields vector notify
    refine congrArg (some <| AdminCommand.createQueue ·) ((CreateQueue.mk.injEq ..).mpr ?_)
    exact ⟨rfl, rfl, rfl, hv, hn, ofNat_leNat_leBytes (n := 2) (by decide) sqSize,
      ofNat_leNat_leBytes (n := 2) (by decide) cqSize, ofNat_leNat_leBytes (n := 8) (by decide) sqBase,
      ofNat_leNat_leBytes (n := 8) (by decide) cqBase⟩
  | setContext p =>
    obtain ⟨context, mode, pageSize, dirLength, dirBase⟩ := p
    refine congrArg (some <| AdminCommand.setContext ·) ((SetContext.mk.injEq ..).mpr ?_)
    exact ⟨rfl, rfl, rfl, ofNat_leNat_leBytes (n := 4) (by decide) dirLength, ofNat_leNat_leBytes (n := 8) (by decide) dirBase⟩
  | invalidatePages p =>
    obtain ⟨context, count, first⟩ := p
    refine congrArg (some <| AdminCommand.invalidatePages ·) ((InvalidatePages.mk.injEq ..).mpr ?_)
    exact ⟨rfl, ofNat_leNat_leBytes (n := 4) (by decide) count, ofNat_leNat_leBytes (n := 4) (by decide) first⟩
  | setWindow p =>
    obtain ⟨window, target, form, access, posted, base, size⟩ := p
    have flag : (if posted then (1 : Byte) else 0).getLsbD 0 = posted := by cases posted <;> rfl
    refine congrArg (some <| AdminCommand.setWindow ·) ((SetWindow.mk.injEq ..).mpr ?_)
    exact ⟨rfl, rfl, rfl, rfl, flag, ofNat_leNat_leBytes (n := 6) (by decide) base,
      ofNat_leNat_leBytes (n := 6) (by decide) size⟩
  | spokeStart p =>
    obtain ⟨spoke, timeout⟩ := p
    refine congrArg (some <| AdminCommand.spokeStart ·) ((SpokeStart.mk.injEq ..).mpr ?_)
    exact ⟨rfl, ofNat_leNat_leBytes (n := 2) (by decide) timeout⟩
  | query p =>
    obtain ⟨subject, object, buffer⟩ := p
    refine congrArg (some <| AdminCommand.query ·) ((Query.mk.injEq ..).mpr ?_)
    exact ⟨rfl, rfl, ofNat_leNat_leBytes (n := 8) (by decide) buffer⟩
  | _ => rfl

theorem reservedBitsSet_encodeCommand (tag : BitVec 32) (c : AdminCommand) : reservedBitsSet (encodeCommand tag c) = false := by
  cases c with
  | createQueue p =>
    obtain ⟨-, -, clear⟩ := vectorNotify_fields p.vector p.notify
    exact clear
  | setWindow p =>
    have clear : ((if p.posted then (1 : Byte) else 0).extractLsb' 1 7 != 0) = false := by cases p.posted <;> rfl
    exact clear
  | _ => rfl

/-- No byte that a command's layout marks reserved holds a field of it (11.4). -/
theorem reservedSet_encodeCommand (tag : BitVec 32) (c : AdminCommand) : reservedSet (encodeCommand tag c) = false := by
  have bytes : (([1, 2, 3] ++ reservedBytes (byteAt (encodeCommand tag c) 0)).any
      fun i => byteAt (encodeCommand tag c) i != 0) = false := by
    cases c <;> rfl
  rw [reservedSet, bytes, reservedBitsSet_encodeCommand]
  rfl

theorem decodeCommand_encodeCommand (tag : BitVec 32) (c : AdminCommand) :
    decodeCommand (encodeCommand tag c) =
      { opcode := c.opcode, head := { tag := tag, reserved := false }, command := some c } := by
  have opcode : byteAt (encodeCommand tag c) 0 = c.opcode := rfl
  have word : BitVec.ofNat 32 (field (encodeCommand tag c) 4 4) = tag := ofNat_leNat_leBytes (n := 4) (by decide) tag
  rw [decodeCommand, opcode, word, reservedSet_encodeCommand, decodeCommandFields_encodeCommand]

theorem encodeParameters_length (c : AdminCommand) : (encodeParameters c).length = 24 := by cases c <;> rfl

theorem encodeCommand_length (tag : BitVec 32) (c : AdminCommand) : (encodeCommand tag c).length = 32 := by
  rw [encodeCommand, List.length_append, encodeParameters_length]
  rfl

end Sys2Proof
end

section
/-! SUPPORT. The executor's command read (R156, R157, R172, R177): its end, and a command's row as the whole return of the read. -/

namespace Sys2Proof.Machine

namespace State

variable {s : State} {p : PlaceId} {r : ReadInFlight} {head : CommandHead} {c : AdminCommand}

/-! ## The end of the command read (R156, R177) -/

theorem readEnd_command (h : r.request.requester = .command) (ok : Bool) :
    s.readEnd r ok = s.commandEnd (if ok then some (decodeCommand r.buffer) else none) := by rw [readEnd, h]

/-- A record is taken from the slot at the fetch index, which passes to the next one. -/
theorem commandEnd_of_record (ready : s.ctl.device = .ready) (record : CommandRecord) :
    s.commandEnd (some record) =
      (s.setQp 0
        { s.qp 0 with fetching := false, fetchIndex := ringNext (s.qp 0).fetchIndex (s.qp 0).sqSize }).takeCommand record
          (s.qp 0).fetchIndex := by
  simp [commandEnd, ready, modQp]

theorem commandEnd_of_error (ready : s.ctl.device = .ready) :
    s.commandEnd none =
      { (s.setQp 0 { s.qp 0 with fetching := false }).setExecutor .idle with
        ctl.device := .halted, ctl.haltReason := .adminFetch } := by
  unfold commandEnd
  simp only [ready]
  exact if_pos ready

theorem commandEnd_of_notReady (other : s.ctl.device ≠ .ready) (record : Option CommandRecord) :
    s.commandEnd record = (s.setQp 0 { s.qp 0 with fetching := false }).setExecutor .idle := by
  unfold commandEnd
  dsimp only
  split
  · next ready => exact absurd ready other
  · next ready => exact absurd ready other
  · rfl

theorem takeCommand_of_undefined {record : CommandRecord} (undefined : record.command = none) (index : Nat) :
    s.takeCommand record index =
      s.setExecutor
        (.posting { opcode := record.opcode, tag := record.head.tag, subIndex := index, object := 0 } .badCommand 0) := by
  rw [takeCommand, undefined]

/-! ## A command's row (R156, R157; log entry 12) -/

/-- A command's row delivers the command, and runs the internal rows where its command can bring any about. -/
theorem exec_row (head : CommandHead) (c : AdminCommand) (s : State) :
    exec (c.row head) s = .next (afterRow c (s.deliver head c)) := by cases c <;> rfl

theorem afterRow_eq_or (c : AdminCommand) (u : State) : afterRow c u = u ∨ afterRow c u = u.settle := by
  cases c <;> simp [afterRow]

theorem deliver_of_noRead (nothing : ∀ p r, (s.place p).read = some r → r.request.requester ≠ .command) :
    s.deliver head c = s := by
  have nowhere : s.commandPlace = none := firstIndex_eq_none.2 fun p => by
    cases hr : (s.place p).read with
    | none => rfl
    | some x => simpa using nothing p x hr
  rw [deliver, nowhere]

theorem deliver_eq_commandEnd (h : s.CommandReadAt p r) :
    s.deliver head c = (s.clearPlace p).commandEnd (some { opcode := c.opcode, head := head, command := some c }) := by
  rw [deliver, commandPlace_eq h]

/-! ## The return of a whole record (R172) -/

@[simp] theorem setPlace_setPlace (x y : Place) : (s.setPlace p x).setPlace p y = s.setPlace p y := by
  simp [setPlace, Vector.set_set]

theorem readOf_eq_some (read : (s.place p).read = some r) {ident : BitVec 8} (number : ident.toNat = p.val + 32 * r.g.val) :
    s.readOf ident = some (p, r) := by
  have place : (Fin.ofNat 32 ident.toNat : PlaceId) = p := Fin.ext (show ident.toNat % 32 = p.val by omega)
  have g : r.g.val = ident.toNat / 32 := by omega
  simp only [readOf, place, read, if_pos g]

/-- A completion that fills the whole record of a fetch or a walk in flight ends the read. -/
theorem readCompletion_of_whole (read : (s.place p).read = some r) (control : ∀ i, r.request.requester ≠ .data i)
    {ident : BitVec 8} (number : ident.toNat = p.val + 32 * r.g.val) {bytes : List Byte}
    (length : r.request.length = bytes.length) (fresh : r.returned = 0) (buffer : r.buffer.length = bytes.length) :
    s.readCompletion ident true 0 bytes =
      (s.clearPlace p).readEnd { r with returned := bytes.length, buffer := bytes } true := by
  have clip : clipBytes r.request.length 0 bytes = bytes := by rw [clipBytes, length, Nat.sub_zero, List.take_length]
  have record : placeBytes r.buffer 0 bytes = bytes := by
    rw [placeBytes_zero, List.drop_eq_nil_of_le buffer.le, List.append_nil]
  have placed : s.placeRead p r 0 bytes =
      s.setPlace p { s.place p with read := some { r with returned := bytes.length, buffer := bytes } } := by
    unfold placeRead
    split
    · next i data => exact absurd data (control i)
    · rw [fresh, Nat.zero_add, record]
  rw [readCompletion, readOf_eq_some read number]
  simp only [if_true, clip, placed, setPlace_place_self, if_pos length.le, clearPlace, setPlace_setPlace]

end State

/-- Settles O8: the record is placed whole, its read ends with the record, and the bytes are read back as the command. -/
theorem commandReadRunsItsRow : Obligations.CommandReadRunsItsRow := by
  intro s p r ident tag c read length fresh buffer number
  let head : CommandHead := { tag := tag, reserved := false }
  have whole : s.readCompletion ident true 0 (encodeCommand tag c) = s.deliver head c := by
    have record := encodeCommand_length tag c
    rw [State.readCompletion_of_whole read.read (by simp [read.command]) number (length.trans record.symm) fresh
      (buffer.trans record.symm), State.readEnd_command (by exact read.command), State.deliver_eq_commandEnd read]
    simp only [if_true, decodeCommand_encodeCommand, head]
  refine ⟨s.deliver head c, congrArg (fun u : State => Host.Outcome.next u.settle) whole, ?_⟩
  rw [State.exec_row]
  exact (State.afterRow_eq_or c _).imp (congrArg _) (congrArg _)

/-- Settles O33: the end of the read by the device state, and a command's row by the read in flight. -/
theorem commandReadEnds : Obligations.CommandReadEnds := by
  refine ⟨fun s r command => ?_, fun s head c => ⟨fun nothing => ?_, fun p r read other => ?_⟩⟩
  · intro q kept record
    refine ⟨fun ready => ⟨fun undefined => ?_, ?_⟩, fun other ok => ?_⟩
    · rw [State.readEnd_command command, if_pos rfl, State.commandEnd_of_record ready, State.takeCommand_of_undefined undefined]
      rfl
    · rw [State.readEnd_command command]
      exact State.commandEnd_of_error ready
    · rw [State.readEnd_command command, State.commandEnd_of_notReady other]
  · rw [State.exec_row, State.deliver_of_noRead nothing]
  · rw [State.exec_row, State.deliver_eq_commandEnd read, State.commandEnd_of_notReady (by exact other)]
    rfl

end Sys2Proof.Machine
end

section
/-! SUPPORT. The checks of a fetched command (R157), and an accepted QUERY (R161). -/

namespace Sys2Proof.Machine

/-- An object of the part's with a property is named by its number. -/
theorem exists_numbered_iff {n m : Nat} [NeZero n] {P : Fin n → Prop} :
    (∃ i : Fin n, m = i.val ∧ P i) ↔ m < n ∧ P (Fin.ofNat n m) := by
  constructor
  · rintro ⟨i, rfl, h⟩
    exact ⟨i.isLt, by simpa using h⟩
  · rintro ⟨h, holds⟩
    exact ⟨_, (Nat.mod_eq_of_lt h).symm, holds⟩

namespace State

section
variable {s : State} {c : AdminCommand}

/-! ## The parameters (R36, R87 to R89, R97, R99, R100, R103, R105, R151, R152, R161) -/

theorem namesSpoke_iff (b : Byte) : s.namesSpoke b = true ↔ ∃ k, s.Names b k := by
  refine ⟨fun named => ?_, namesSpoke_of_names⟩
  simp only [namesSpoke, isLogical, Bool.and_eq_true, decide_eq_true_eq, beq_iff_eq] at named
  exact exists_numbered_iff.2 named

theorem queryParams_iff (p : Query) : s.badParameter (.query p) = false ↔ s.ParamsOk (.query p) := by
  simp only [badParameter, ParamsOk, Bool.not_eq_false', Bool.and_eq_true, decide_eq_true_eq, Config.hostTop]
  rw [and_right_comm]
  refine and_congr_left' ?_
  split
  · next spoke => simp [spoke, bufferSize, namesSpoke_iff]
  · next queue => simp [queue, bufferSize]
  · next windows => simp [windows, bufferSize]
  · next context => simp [context, bufferSize]
  · next other0 other1 other2 other3 =>
    simp only [imp_false] at other0 other1 other2 other3
    simp [other0, other1, other2, other3]

theorem setWindowParams_iff (p : SetWindow) : s.badParameter (.setWindow p) = false ↔ s.ParamsOk (.setWindow p) := by
  simp only [badParameter, ParamsOk, Bool.not_eq_false', Bool.and_eq_true, decide_eq_true_eq, and_assoc, windowSizeOk_iff]
  refine and_congr_right fun named => ?_
  have number : (Fin.ofNat 8 p.window.toNat : WindowId).val = p.window.toNat := Nat.mod_eq_of_lt (by omega)
  rw [number]

theorem createQueueParams_iff (p : CreateQueue) : s.badParameter (.createQueue p) = false ↔ s.ParamsOk (.createQueue p) := by
  simp only [badParameter, ParamsOk, Bool.not_eq_false', Bool.and_eq_true, decide_eq_true_eq, and_assoc, ringOk_iff,
    exists_numbered_iff, bne_iff_ne, Nat.lt_succ_iff]

/-- The check for BAD_PARAMETER is the one each command's rule asks for. -/
theorem badParameter_eq_false_iff (c : AdminCommand) : s.badParameter c = false ↔ s.ParamsOk c := by
  cases c with
  | createQueue p => exact createQueueParams_iff p
  | setWindow p => exact setWindowParams_iff p
  | query p => exact queryParams_iff p
  | setContext p =>
    simp only [badParameter, ParamsOk, Bool.not_eq_false', Bool.and_eq_true, Bool.or_eq_true, decide_eq_true_eq, and_assoc]
    rfl
  | spokeStart p => simp [badParameter, ParamsOk, namesSpoke_iff, ← BitVec.toNat_inj]
  | spokeStop b => simp [badParameter, ParamsOk, namesSpoke_iff]
  | spokeReset b => simp [badParameter, ParamsOk, namesSpoke_iff]
  | invalidatePages p =>
    simp only [badParameter, ParamsOk, Bool.not_eq_false', Bool.and_eq_true, decide_eq_true_eq, and_assoc]
    rfl
  | _ => simp [badParameter, ParamsOk, and_assoc]

theorem badParameter_iff (c : AdminCommand) : s.badParameter c = true ↔ ¬s.ParamsOk c := by
  rw [← badParameter_eq_false_iff, Bool.not_eq_false]

/-! ## The state of what a command names -/

/-- A context is in use while a client queue pair is bound to it (R87, R88, R138). -/
theorem boundQps_ne_nil_iff {b : Byte} (hb : b.toNat ≤ 15) :
    (s.boundQps (Fin.ofNat 16 b.toNat) != []) = true ↔
      ∃ n : QpId, n ≠ 0 ∧ (s.qp n).state ≠ .empty ∧ b.toNat = (s.qp n).context.val := by
  have number (x : ContextId) : x = Fin.ofNat 16 b.toNat ↔ b.toNat = x.val := by
    rw [Fin.ext_iff, eq_comm, show (Fin.ofNat 16 b.toNat : ContextId).val = b.toNat from Nat.mod_eq_of_lt (by omega)]
  simp only [bne_iff_ne, boundQps, ne_eq, List.filter_eq_nil_iff, not_forall, List.mem_finRange, Bool.and_eq_true, beq_iff_eq,
    number, and_assoc, not_not, exists_prop, true_and]

theorem inUse_iff (ok : s.ParamsOk c) : s.inUse c = true ↔ s.Busy c := by
  cases c with
  | createQueue p =>
    have named : p.qp.toNat < 16 := Nat.lt_succ_of_le ok.1.2
    simp only [inUse, Busy, exists_numbered_iff, named, true_and, bne_iff_ne]
  | setContext p => exact boundQps_ne_nil_iff ok.1
  | clearContext b => exact boundQps_ne_nil_iff ok
  | _ => exact iff_of_false Bool.false_ne_true id

theorem wrongState_iff (ok : s.ParamsOk c) : s.wrongState c = true ↔ s.Unfit c := by
  have below {b : Byte} (named : ∃ k, s.Names b k) : b.toNat < 8 := (exists_numbered_iff.1 named).1
  cases c with
  | deleteQueue p =>
    have named : p.qp.toNat < 16 := Nat.lt_succ_of_le ok.1.2
    simp only [wrongState, Unfit, exists_numbered_iff, named, true_and]
    cases (s.qp (Fin.ofNat 16 p.qp.toNat)).state <;> decide
  | setBundle h l =>
    simp only [wrongState, Unfit, List.any_eq_true, List.mem_finRange, true_and, Bool.and_eq_true, decide_eq_true_eq, isLogical,
      beq_iff_eq, bne_iff_ne, and_assoc]
  | spokeStart p => simp only [wrongState, Unfit, exists_numbered_iff, below ok.1, true_and, bne_iff_ne]
  | spokeStop b => simp only [wrongState, Unfit, exists_numbered_iff, below ok, true_and, bne_iff_ne]
  | spokeReset b =>
    simp only [wrongState, Unfit, exists_numbered_iff, below ok, true_and, Bool.not_eq_true', ← Bool.not_eq_true,
      SpokeState.linked_iff, not_or]
  | _ => exact iff_of_false Bool.false_ne_true id

theorem overlapping_iff (ok : s.ParamsOk c) : s.overlapping c = true ↔ s.Collides c := by
  cases c with
  | setWindow p =>
    have number : (Fin.ofNat 8 p.window.toNat : WindowId).val = p.window.toNat := Nat.mod_eq_of_lt (Nat.lt_succ_of_le ok.1)
    have sameClass (o : WindowId) : striped o = striped (Fin.ofNat 8 p.window.toNat) ↔ (o.val < 2 ↔ p.window.toNat < 2) := by
      rw [Bool.eq_iff_iff, striped_iff, striped_iff, number]
    simp only [overlapping, Collides, overlaps_iff, sameClass, ne_eq, Fin.ext_iff, number, Window.range_eq_some, and_assoc,
      exists_and_left, exists_eq_left']
    rfl
  | _ => exact iff_of_false Bool.false_ne_true id

/-! ## The checks in their order (R157) -/

theorem checkCommand_commandTaken (p : PlaceId) (reserved : Bool) :
    (s.commandTaken p).checkCommand c reserved = s.checkCommand c reserved := by
  have params : (s.commandTaken p).badParameter c = s.badParameter c := by cases c <;> rfl
  have used : (s.commandTaken p).inUse c = s.inUse c := by
    cases c <;> simp only [inUse, boundQps, commandTaken_qp_state, commandTaken_qp_context]
  have state : (s.commandTaken p).wrongState c = s.wrongState c := by
    cases c
    case deleteQueue => simp only [wrongState, commandTaken_qp_state]
    all_goals rfl
  have ranges : (s.commandTaken p).overlapping c = s.overlapping c := by cases c <;> rfl
  rw [checkCommand, params, used, state, ranges, checkCommand]

theorem checkCommand_of_accepts {head : CommandHead} (accepted : s.Accepts head c) : s.checkCommand c head.reserved = none := by
  obtain ⟨reserved, params, free, fit, apart⟩ := accepted
  simp [checkCommand, reserved, badParameter_iff, params, inUse_iff params, free, wrongState_iff params, fit,
    overlapping_iff params, apart]

/-- A refused command changes nothing but the executor. -/
theorem exec_row_of_refused {p : PlaceId} {r : ReadInFlight} (read : s.CommandReadAt p r) (ready : s.ctl.device = .ready)
    {head : CommandHead} {status : AdminStatus} (refused : s.checkCommand c head.reserved = some status) :
    exec (c.row head) s =
      .next (afterRow c ((s.commandTaken p).setExecutor (.posting (s.heldOf head c) status 0))) := by
  have taken := (s.checkCommand_commandTaken p head.reserved).trans refused
  rw [exec_row, deliver_eq_takeCommand read ready, takeCommand]
  dsimp only
  rw [taken]
  rfl

end

/-! ## The lengths of the snapshots (R162 to R164, 11.7) -/

section
variable (s : State)

theorem zeros_length (n : Nat) : (zeros n).length = n := List.length_replicate

theorem spokeSnapshot_length (k : SpokeId) : (s.spokeSnapshot k).length = 64 := by
  unfold spokeSnapshot
  simp only [List.length_append, leBytes_length, zeros_length]

theorem queuePart_length (n : QpId) : (s.queuePart n).length = 64 := by
  unfold queuePart
  simp only [List.length_append, leBytes_length, zeros_length]

theorem entryPart_length (e : EntryId) : (s.entryPart e).length = 32 := by
  unfold entryPart
  simp only [List.length_append, leBytes_length, zeros_length]

theorem queueSnapshot_length (n : QpId) : (s.queueSnapshot n).length = 64 + 32 * (s.inflight n).length := by
  rw [queueSnapshot, List.length_append, queuePart_length, List.length_flatMap]
  simp [entryPart_length, Nat.mul_comm]

theorem windowPart_length (w : WindowId) : (s.windowPart w).length = 32 := by
  unfold windowPart
  simp only [List.length_append, leBytes_length, zeros_length]

theorem windowsSnapshot_length : s.windowsSnapshot.length = 256 := by
  rw [windowsSnapshot, List.length_flatMap]
  simp [windowPart_length]

theorem contextSnapshot_length (c : ContextId) : (s.contextSnapshot c).length = 64 := by
  unfold contextSnapshot
  simp only [List.length_append, leBytes_length, zeros_length]

end

end State

/-- Settles O36: each check is the condition its rule asks for, and a command that fails one is refused. -/
theorem commandsCheckedInOrder : Obligations.CommandsCheckedInOrder := by
  intro s p r head c read ready refused
  have refuse {status : AdminStatus} (h : s.checkCommand c head.reserved = some status) :
      exec (c.row head) s = refused status := State.exec_row_of_refused read ready h
  refine ⟨fun reserved => refuse ?_, fun clear bad => refuse ?_, fun clear ok busy => refuse ?_,
    fun clear ok free unfit => refuse ?_, fun clear ok free fit collides => refuse ?_⟩
  · simp [State.checkCommand, reserved]
  · simp [State.checkCommand, clear, State.badParameter_iff, bad]
  · simp [State.checkCommand, clear, State.badParameter_iff, ok, State.inUse_iff ok, busy]
  · simp [State.checkCommand, clear, State.badParameter_iff, ok, State.inUse_iff ok, free, State.wrongState_iff ok, unfit]
  · simp [State.checkCommand, clear, State.badParameter_iff, ok, State.inUse_iff ok, free, State.wrongState_iff ok, fit,
      State.overlapping_iff ok, collides]

/-- Settles O44: the command passes its checks, and the subject gives the snapshot and its length. -/
theorem queryWritesSnapshot : Obligations.QueryWritesSnapshot := by
  intro s p r head c bytes len read ready accepted t subject
  have snapshot : t.snapshot c = bytes ∧ bytes.length = len := by
    obtain ⟨k, spoke, number, snap, fixed⟩ | ⟨n, queue, number, snap, fixed⟩ | ⟨windows, snap, fixed⟩ |
      ⟨x, context, number, snap, fixed⟩ := subject
    · rw [State.snapshot, spoke, State.ofNat_spoke number, snap, fixed]
      exact ⟨rfl, t.spokeSnapshot_length k⟩
    · rw [State.snapshot, queue, State.ofNat_queue number, snap, fixed]
      exact ⟨rfl, t.queueSnapshot_length n⟩
    · rw [State.snapshot, windows, snap, fixed]
      exact ⟨rfl, t.windowsSnapshot_length⟩
    · rw [State.snapshot, context, State.ofNat_queue number, snap, fixed]
      exact ⟨rfl, t.contextSnapshot_length x⟩
  obtain ⟨taken, length⟩ := snapshot
  have checked := (s.checkCommand_commandTaken p head.reserved).trans (State.checkCommand_of_accepts accepted)
  have row : exec (.query head c) s = .next (s.deliver head (.query c)) := rfl
  refine ⟨length, ?_⟩
  rw [row, State.deliver_of_checked read ready checked, State.accept, State.acceptQuery, taken, length]
  rfl

end Sys2Proof.Machine
end

section
/-! SUPPORT. ENABLE_SET and the end of STOPPING (R139, R175, R176, R179), and the two claims about every step that rest on what each row
moves: posted writes and messages stay in order (R121, R173), and the administration ring registers stay (R175, R180). -/

namespace Sys2Proof.Machine

/-- A test of every member of a vector, by the index of the member. -/
theorem toList_all_iff {α : Type} {n : Nat} (v : Vector α n) (p : α → Bool) :
    v.toList.all p = true ↔ ∀ i : Fin n, p v[i] = true := by
  rw [List.all_eq_true]
  constructor
  · exact fun h i => h _ (Vector.mem_toList_iff.2 (Vector.getElem_mem i.isLt))
  · intro h x hx
    obtain ⟨i, hi, rfl⟩ := Vector.getElem_of_mem (Vector.mem_toList_iff.1 hx)
    exact h ⟨i, hi⟩

/-! ## The administration configuration (R139, R176) -/

theorem sizes_low (v : BitVec 32) : (v.extractLsb' 0 16).toNat = v.toNat % 65536 := by simp

theorem sizes_high (v : BitVec 32) : (v.extractLsb' 16 16).toNat = v.toNat / 65536 := by
  have := v.isLt
  rw [BitVec.extractLsb'_toNat, Nat.shiftRight_eq_div_pow]
  omega

/-- The configuration is valid when both rings fit. -/
theorem Control.valid_iff (c : Control) :
    c.valid = true ↔
      RingFits c.adminSqBase.toNat (c.adminSizes.toNat % 65536) 32 ∧
        RingFits c.adminCqBase.toNat (c.adminSizes.toNat / 65536) 16 := by
  rw [valid, Bool.and_eq_true, ringOk_iff, ringOk_iff, sizes_low, sizes_high]

namespace State

variable {s : State}

theorem enable_of_not_disabled (h : s.ctl.device ≠ .disabled) : s.enable = s := if_neg h

theorem enable_of_invalid (h : s.ctl.device = .disabled) (bad : ¬s.ctl.valid = true) :
    s.enable = { s with ctl.device := .halted, ctl.haltReason := .badAdminConfig } := by
  rw [enable, if_pos h, if_neg bad]

theorem enable_of_valid (h : s.ctl.device = .disabled) (good : s.ctl.valid = true) :
    s.enable = ({ s with ctl.device := .ready } : State).setQp 0 (adminQueue s.ctl) := by
  rw [enable, if_pos h, if_pos good]

/-! ## The end of STOPPING (R179) -/

/-- STOPPING ends when the part has come to rest. -/
theorem stoppingOver_iff :
    s.stoppingOver = true ↔
      s.ctl.device = .stopping ∧ (∀ k, (s.spoke k).state = .off) ∧ (∀ i, (s.seg i).state = .retired) ∧
        (∀ e, (s.entry e).state = .free) ∧ (∀ p, (s.place p).read = none) ∧ s.hp.fetchList = [] ∧ s.hp.walkList = [] ∧
        s.hp.dataList = [] ∧ s.hp.writes = [] := by
  simp only [stoppingOver, Bool.and_eq_true, toList_all_iff, beq_iff_eq, Option.isNone_iff_eq_none, and_assoc]
  rfl

theorem endStopping?_eq_some (h : s.stoppingOver = true) :
    s.endStopping? = some (s.resetBlocks { s.ctl with device := .disabled, haltReason := .none }) := if_pos h

theorem endStopping?_eq_none (h : ¬s.stoppingOver = true) : s.endStopping? = none := if_neg h

end State

/-- Settles O27: the register write by the device state and the configuration, and the end of STOPPING by whether the part is at
rest. -/
theorem deviceEntersAndLeavesService : Obligations.DeviceEntersAndLeavesService := by
  refine ⟨fun s => ?_, fun s => ?_⟩
  · intro sqSize cqSize valid
    have checked : s.ctl.valid = true ↔ valid := s.ctl.valid_iff
    have row : exec .enableSet s = .next s.enable := rfl
    rw [row]
    refine ⟨fun other => ?_, fun disabled bad => ?_, fun disabled good => ?_⟩
    · rw [State.enable_of_not_disabled other]
    · rw [State.enable_of_invalid disabled (mt checked.1 bad)]
    · rw [State.enable_of_valid disabled (checked.2 good), State.adminQueue, sizes_low, sizes_high]
  · intro ended
    have atRest : s.stoppingOver = true ↔ ended := State.stoppingOver_iff
    have row : exec .stoppingEnd s = .next (s.endStopping?.getD s) := rfl
    rw [row]
    refine ⟨s.resetPart, rfl, fun ended => ?_, fun busy => ?_⟩
    · rw [State.endStopping?_eq_some (atRest.2 ended)]
      rfl
    · rw [State.endStopping?_eq_none (mt atRest.1 busy)]
      rfl

/-! ## What every step hands over (R121, R173) -/

/-- The messages put on the links, and the posted writes sent and waiting, come behind those of before. -/
structure InOrder (s t : State) : Prop where
  frames : ∃ l, t.wire.frames = s.wire.frames ++ l
  writes : ∃ l, t.wire.writes ++ t.hp.writes = s.wire.writes ++ s.hp.writes ++ l

theorem Moves.inOrder {s t : State} (h : Moves s t) : InOrder s t := ⟨h.frames, h.writes⟩

/-- A change of neither messages nor posted writes. -/
theorem InOrder.of_same {s t : State} (wire : t.wire = s.wire) (writes : t.hp.writes = s.hp.writes) : InOrder s t :=
  ⟨⟨[], by rw [wire, List.append_nil]⟩, [], by rw [wire, writes, List.append_nil]⟩

namespace State

/-- A register write moves, or changes an administration ring register alone. -/
theorem writeRegister_inOrder (s : State) (offset : BitVec 12) (value : BitVec 32) : InOrder s (s.writeRegister offset value) := by
  unfold writeRegister
  split
  · split
    · exact s.enable_moves.inOrder
    · exact s.disable_moves.inOrder
  iterate 5 exact .of_same rfl rfl
  · split
    · next n isHead _ =>
      cases isHead with
      | true => exact (s.writeHead_moves n value).inOrder
      | false => exact (s.writeTail_moves n value).inOrder
    · exact .of_same rfl rfl

/-- By the end of STOPPING every posted write has been sent (R179), so none is discarded. -/
theorem stoppingEnd_inOrder (s : State) : InOrder s (s.endStopping?.getD s) := by
  by_cases ends : s.stoppingOver = true
  · obtain ⟨-, -, -, -, -, -, -, -, writes⟩ := stoppingOver_iff.1 ends
    rw [endStopping?_eq_some ends]
    exact .of_same rfl writes.symm
  · rw [endStopping?_eq_none ends]
    exact .of_same rfl rfl

/-- The end of STOPPING leaves the administration ring registers as they are (R175). -/
theorem stoppingEnd_registers (s : State) :
    let t := s.endStopping?.getD s
    t.ctl.adminSqBase = s.ctl.adminSqBase ∧ t.ctl.adminCqBase = s.ctl.adminCqBase ∧ t.ctl.adminSizes = s.ctl.adminSizes := by
  by_cases ends : s.stoppingOver = true
  · rw [endStopping?_eq_some ends]
    exact ⟨rfl, rfl, rfl⟩
  · rw [endStopping?_eq_none ends]
    exact ⟨rfl, rfl, rfl⟩

end State

/-- A row moves, or is a reset, the end of STOPPING or a register write. -/
theorem Instr.moving_or (c : Instr) :
    Instr.moving c = true ∨ (c = .powerOnReset ∨ c = .functionReset) ∨ c = .stoppingEnd ∨
      ∃ offset value, c = .registerWriteOther offset value := by
  cases c
  case powerOnReset => exact .inr (.inl (.inl rfl))
  case functionReset => exact .inr (.inl (.inr rfl))
  case stoppingEnd => exact .inr (.inr (.inl rfl))
  case registerWriteOther offset value => exact .inr (.inr (.inr ⟨offset, value, rfl⟩))
  all_goals exact .inl rfl

/-- Every row but a reset keeps the order. -/
theorem exec_inOrder {c : Instr} {s t : State} (other : ¬(c = .powerOnReset ∨ c = .functionReset)) (e : exec c s = .next t) :
    InOrder s t := by
  obtain moving | reset | rfl | ⟨offset, value, rfl⟩ := Instr.moving_or c
  · exact (exec_moves moving e).inOrder
  · exact absurd reset other
  · cases e
    exact s.stoppingEnd_inOrder
  · cases e
    exact s.writeRegister_inOrder offset value

/-- A reset is one of two rows, and both do the same (R180). -/
theorem exec_reset {c : Instr} {s t : State} (reset : c = .powerOnReset ∨ c = .functionReset) (e : exec c s = .next t) :
    t = s.resetPart := by
  rcases reset with rfl | rfl <;> (cases e; rfl)

/-- A step with a command waiting carries out the one at the front. -/
theorem exec_of_step {s t : State} {c : Instr} {rest : List Instr} (front : s.pending = c :: rest) (h : step s = .next t) :
    exec c { s with pending := rest } = .next t := by
  rwa [step, front] at h

/-- Settles O5: a row is a reset, which leaves what has been sent and discards what waits, or it keeps the order. -/
theorem postedWritesStayInOrder : Obligations.PostedWritesStayInOrder := by
  intro s t c rest front h
  have row := exec_of_step front h
  split
  · next reset =>
    obtain rfl := exec_reset reset row
    exact ⟨⟨[], (List.append_nil _).symm⟩, rfl, rfl⟩
  · next other =>
    obtain ⟨frames, writes⟩ := exec_inOrder other row
    exact ⟨frames, writes⟩

/-- Settles O6: a row is a reset, or the end of STOPPING, or it moves. -/
theorem adminRegistersKept : Obligations.AdminRegistersKept := by
  intro s t c rest front h noWrite
  have row := exec_of_step front h
  split
  · next reset =>
    obtain rfl := exec_reset reset row
    exact ⟨rfl, rfl, rfl⟩
  · next other =>
    obtain moving | reset | rfl | ⟨offset, value, rfl⟩ := Instr.moving_or c
    · have moves := exec_moves moving row
      exact ⟨moves.sqBase, moves.cqBase, moves.sizes⟩
    · exact absurd reset other
    · cases row
      exact State.stoppingEnd_registers { s with pending := rest }
    · exact absurd rfl (noWrite offset value)

end Sys2Proof.Machine
end

section
/-! SUPPORT. The register window (R138, R174, R175, 11.8): which offsets hold an index register, and what a write and a read do there. -/

namespace Sys2Proof.Machine

/-! ## The offsets of the index registers (11.8) -/

theorem tailOffset_toNat (n : QpId) : (BitVec.ofNat 12 (0x100 + 8 * n.val)).toNat = 0x100 + 8 * n.val := by
  rw [BitVec.toNat_ofNat, Nat.mod_eq_of_lt]
  omega

theorem headOffset_toNat (n : QpId) : (BitVec.ofNat 12 (0x104 + 8 * n.val)).toNat = 0x104 + 8 * n.val := by
  rw [BitVec.toNat_ofNat, Nat.mod_eq_of_lt]
  omega

namespace State

theorem indexRegister_tail (n : QpId) : indexRegister (BitVec.ofNat 12 (0x100 + 8 * n.val)).toNat = some (n, false) := by
  have inside : 0x100 ≤ 0x100 + 8 * n.val ∧ 0x100 + 8 * n.val < 0x180 ∧ (0x100 + 8 * n.val) % 4 = 0 := by omega
  have number : (Fin.ofNat 16 ((0x100 + 8 * n.val - 0x100) / 8) : QpId) = n :=
    Fin.ext (show (0x100 + 8 * n.val - 0x100) / 8 % 16 = n.val by omega)
  have half : decide ((0x100 + 8 * n.val) % 8 = 4) = false := decide_eq_false (by omega)
  rw [tailOffset_toNat, indexRegister, if_pos inside, number, half]

theorem indexRegister_head (n : QpId) : indexRegister (BitVec.ofNat 12 (0x104 + 8 * n.val)).toNat = some (n, true) := by
  have inside : 0x100 ≤ 0x104 + 8 * n.val ∧ 0x104 + 8 * n.val < 0x180 ∧ (0x104 + 8 * n.val) % 4 = 0 := by omega
  have number : (Fin.ofNat 16 ((0x104 + 8 * n.val - 0x100) / 8) : QpId) = n :=
    Fin.ext (show (0x104 + 8 * n.val - 0x100) / 8 % 16 = n.val by omega)
  have half : decide ((0x104 + 8 * n.val) % 8 = 4) = true := decide_eq_true (by omega)
  rw [headOffset_toNat, indexRegister, if_pos inside, number, half]

theorem indexRegister_eq_none {o : Nat} (h : ¬(0x100 ≤ o ∧ o < 0x180 ∧ o % 4 = 0)) : indexRegister o = none := if_neg h

/-- No index register stands below offset 0x100. -/
theorem le_of_indexRegister {o : Nat} {x : QpId × Bool} (h : indexRegister o = some x) : 0x100 ≤ o := by
  by_contra low
  rw [indexRegister_eq_none fun inside => low inside.1] at h
  cases h

variable (s : State) {offset : BitVec 12} {n : QpId} {isHead : Bool}

/-! ## Writes (R174, R175, R186) -/

/-- A write at the offset of an index register is that register's write. -/
theorem writeRegister_of_index (h : indexRegister offset.toNat = some (n, isHead)) (value : BitVec 32) :
    s.writeRegister offset value = if isHead then s.writeHead n value else s.writeTail n value := by
  have high := le_of_indexRegister h
  unfold writeRegister
  split
  iterate 6 next o => omega
  rw [h]

/-- A write to STATUS, or where no register stands, is ignored. -/
theorem writeRegister_of_other (other : offset ∉ [0x000, 0x008, 0x010, 0x014, 0x018, 0x01C])
    (none : indexRegister offset.toNat = none) (value : BitVec 32) : s.writeRegister offset value = s := by
  unfold writeRegister
  split
  iterate 6 next o => exact absurd (by simp [← BitVec.toNat_inj, o]) other
  rw [none]

/-! ## Reads (R174, R175, R186) -/

/-- An index register shows the tail or the head of a queue pair that is not EMPTY. -/
theorem readRegister_of_index (h : indexRegister offset.toNat = some (n, isHead)) :
    s.readRegister offset =
      if s.qpState n = .empty then 0 else BitVec.ofNat 32 (if isHead then (s.qp n).head else (s.qp n).tail) := by
  have high := le_of_indexRegister h
  unfold readRegister
  split
  iterate 7 next o => omega
  rw [h]

theorem readRegister_of_other (other : offset ∉ [0x000, 0x004, 0x008, 0x010, 0x014, 0x018, 0x01C])
    (none : indexRegister offset.toNat = none) : s.readRegister offset = 0 := by
  unfold readRegister
  split
  iterate 7 next o => exact absurd (by simp [← BitVec.toNat_inj, o]) other
  rw [none]

/-- STATUS shows the codes of the device state and the halt reason (11.8). -/
theorem readRegister_status : (s.readRegister 0x004).toNat = s.ctl.device.code + 256 * s.ctl.haltReason.code := by
  have value : s.readRegister 0x004 = BitVec.ofNat 32 (s.ctl.device.code + 256 * s.ctl.haltReason.code) := rfl
  rw [value]
  cases s.ctl.device <;> cases s.ctl.haltReason <;> rfl

end State

/-- The halves of a 64-bit register make the register. -/
theorem halves_append (r : BitVec 64) : r.extractLsb' 32 32 ++ r.extractLsb' 0 32 = r :=
  BitVec.extractLsb'_append_extractLsb' (w := 32) (len := 32)

/-- Settles O26: a register by its offset, and an index register by its queue pair's state. -/
theorem registerWindow : Obligations.RegisterWindow := by
  refine ⟨fun s offset value => ⟨rfl, rfl, rfl, rfl, rfl, fun other outside => ?_, ?_, fun n => ⟨?_, ?_⟩⟩, fun s =>
    ⟨rfl, s.readRegister_status, rfl, halves_append _, halves_append _, fun n => ?_, fun offset other outside => ?_⟩⟩
  · exact congrArg Host.Outcome.next (s.writeRegister_of_other other (State.indexRegister_eq_none outside) value)
  · have row : exec (.registerWriteOther 0x000 value) s = .next (if value.getLsbD 0 then s.enable else s.disable) := rfl
    rw [row]
    split <;> rfl
  · exact congrArg Host.Outcome.next (s.writeRegister_of_index (State.indexRegister_tail n) value)
  · exact congrArg Host.Outcome.next (s.writeRegister_of_index (State.indexRegister_head n) value)
  · intro empty
    have isEmpty : s.qpState n = .empty ↔ empty := State.qpState_eq_empty_iff
    rw [s.readRegister_of_index (State.indexRegister_tail n), s.readRegister_of_index (State.indexRegister_head n), ← isEmpty]
    exact ⟨fun h => ⟨if_pos h, if_pos h⟩, fun h => ⟨if_neg h, if_neg h⟩⟩
  · exact s.readRegister_of_other other (State.indexRegister_eq_none outside)

end Sys2Proof.Machine
end

section
/-! SUPPORT. The host port (R66, R67, R170 to R173): the read next in turn, the oldest write, and what a completion or the timer does to
the read in its place. -/

namespace Sys2Proof.Machine

/-! ## The kinds in turn (R171) -/

/-- The kinds are tried in the order of their turns. -/
theorem ReadKind.after_sorted (last : ReadKind) : last.after.Pairwise (readTurn last · < readTurn last ·) := by
  cases last <;> decide

theorem ReadKind.mem_after (last k : ReadKind) : k ∈ last.after := by cases last <;> cases k <;> decide

/-- The first member of a list with a property, where the list is ordered by a rank and no other member with the property ranks
lower. -/
theorem find_of_least {α : Type} {l : List α} {rank : α → Nat} (sorted : l.Pairwise (rank · < rank ·)) {p : α → Bool} {a : α}
    (mem : a ∈ l) (holds : p a = true) (least : ∀ b, p b = true → rank a ≤ rank b) : l.find? p = some a := by
  induction l with
  | nil => cases mem
  | cons b l ih =>
    obtain ⟨below, sorted⟩ := List.pairwise_cons.1 sorted
    rcases List.mem_cons.1 mem with rfl | mem
    · exact List.find?_cons_of_pos holds
    · rw [List.find?_cons_of_neg fun pb => (below a mem).not_ge (least b pb)]
      exact ih sorted mem

namespace State

section
variable (s : State)

theorem execHostReadIssue_eq : exec .hostReadIssue s = .next (s.readIssue?.getD s) := rfl

theorem execHostWriteSent_eq : exec .hostWriteSent s = .next (s.sendWrite?.getD s) := rfl

end

variable {s : State}

/-! ## HOST_READ_ISSUE (R170, R171) -/

/-- The oldest request of the kind next in turn takes the lowest free place. -/
theorem readIssue?_eq_some {p : PlaceId} {k : ReadKind} {r : ReadRequest} {rest : List ReadRequest}
    (free : (s.place p).read = none) (first : ∀ q, q < p → (s.place q).read ≠ none) (list : s.requests k = r :: rest)
    (turn : ∀ j, s.requests j ≠ [] → readTurn s.hp.lastKind k ≤ readTurn s.hp.lastKind j) :
    s.readIssue? = some { (s.setRequests k rest).startRead p r with hp.lastKind := k } := by
  have place : s.freePlace = some p :=
    firstIndex_eq_some.2 ⟨by rw [free]; rfl, fun q hq => Option.isNone_eq_false_iff.2 (Option.isSome_iff_ne_none.2 (first q hq))⟩
  have kind : (s.hp.lastKind.after.find? fun k => s.requests k != []) = some k :=
    find_of_least s.hp.lastKind.after_sorted (s.hp.lastKind.mem_after k) (by rw [list]; rfl) fun j hj =>
      turn j (bne_iff_ne.1 hj)
  rw [readIssue?, place, kind]
  simp only [list]

theorem readIssue?_eq_none (h : (∀ p, (s.place p).read ≠ none) ∨ ∀ k, s.requests k = []) : s.readIssue? = none := by
  unfold readIssue?
  obtain full | idle := h
  · have place : s.freePlace = none :=
      firstIndex_eq_none.2 fun p => Option.isNone_eq_false_iff.2 (Option.isSome_iff_ne_none.2 (full p))
    rw [place]
  · have kind : (s.hp.lastKind.after.find? fun k => s.requests k != []) = none :=
      List.find?_eq_none.2 fun k _ => by simp [idle k]
    rw [kind]
    cases s.freePlace <;> rfl

/-! ## HOST_WRITE_SENT (R173) -/

theorem sendWrite?_eq_some {w : HostWrite} {rest : List HostWrite} (list : s.hp.writes = w :: rest) :
    s.sendWrite? = some { s with hp.writes := rest, wire.writes := s.wire.writes ++ [w] } := by rw [sendWrite?, list]

theorem sendWrite?_eq_none (list : s.hp.writes = []) : s.sendWrite? = none := by rw [sendWrite?, list]

end State

/-- Settles O30: the searches find the lowest free place and the kind next in turn, and the write is the head of its list. -/
theorem hostPortServesInTurn : Obligations.HostPortServesInTurn := by
  refine fun s => ⟨fun p k r rest free first list turn => ?_, fun nothing => ?_, fun w rest list => ?_, fun list => ?_⟩
  · rw [s.execHostReadIssue_eq, State.readIssue?_eq_some free first list turn]
    cases k <;> rfl
  · rw [s.execHostReadIssue_eq, State.readIssue?_eq_none nothing]
    rfl
  · rw [s.execHostWriteSent_eq, State.sendWrite?_eq_some list]
    rfl
  · rw [s.execHostWriteSent_eq, State.sendWrite?_eq_none list]
    rfl

namespace State

variable {s : State} {p : PlaceId} {r : ReadInFlight} {ident : BitVec 8} {position : Nat} {bytes : List Byte}

/-! ## The read in a place (R170, R172) -/

theorem readTimeout_of_none (h : (s.place p).read = none) : s.readTimeout p = s := by rw [readTimeout, h]

theorem readTimeout_of_read (h : (s.place p).read = some r) : s.readTimeout p = (s.clearPlace p).readEnd r false := by
  rw [readTimeout, h]

/-- No read in the place an identifier names carries it. -/
theorem readOf_eq_none (place : p.val = ident.toNat % 32)
    (other : ∀ r, (s.place p).read = some r → r.g.val ≠ ident.toNat / 32) : s.readOf ident = none := by
  have named : (Fin.ofNat 32 ident.toNat : PlaceId) = p := Fin.ext place.symm
  rw [readOf, named]
  split
  · next r read => exact if_neg (other r read)
  · rfl

theorem readCompletion_of_none (h : s.readOf ident = none) (ok : Bool) : s.readCompletion ident ok position bytes = s := by
  rw [readCompletion, h]

theorem readCompletion_of_error (h : s.readOf ident = some (p, r)) :
    s.readCompletion ident false position bytes = (s.clearPlace p).readEnd r false := by
  simp [readCompletion, h]

/-- A completion with data whose bytes leave the state `t` and the read `x` in its place: the read goes on while bytes are missing, and
ends otherwise. -/
theorem readCompletion_of_data (h : s.readOf ident = some (p, r)) {t : State} {x : ReadInFlight} {place : Place}
    (placed : s.placeRead p r position (clipBytes r.request.length position bytes) =
      t.setPlace p { place with read := some x }) :
    (x.returned < x.request.length →
      s.readCompletion ident true position bytes = t.setPlace p { place with read := some x }) ∧
    (x.request.length ≤ x.returned →
      s.readCompletion ident true position bytes = (t.setPlace p { place with read := none }).readEnd x true) := by
  simp only [readCompletion, h, if_true, placed, setPlace_place_self, clearPlace, setPlace_setPlace]
  exact ⟨fun missing => if_neg (not_le.2 missing), fun whole => if_pos whole⟩

/-! ## The placing of bytes (R66, R67) -/

theorem placeRead_of_data {i : SegId} {j : SlotId} (data : r.request.requester = .data i) (slot : (s.seg i).slot = some j) :
    s.placeRead p r position bytes =
      (s.setSlot j { s.slot j with data := placeBytes (s.slot j).data position bytes }).setPlace p
        { s.place p with read := some { r with returned := r.returned + bytes.length } } := by
  rw [placeRead, data]
  simp only [fillSlot, slot]

theorem placeRead_of_record (record : ∀ i, r.request.requester ≠ .data i) :
    s.placeRead p r position bytes =
      s.setPlace p
        { s.place p with
          read := some { r with returned := r.returned + bytes.length, buffer := placeBytes r.buffer position bytes } } := by
  unfold placeRead
  split
  · next i data => exact absurd data (record i)
  · rfl

end State

/-- Settles O31: the completion by the read in its place, and data by where its bytes go and whether any are missing then. -/
theorem readCompletionsPlaceBytes : Obligations.ReadCompletionsPlaceBytes := by
  intro s ident position bytes p place completion timeout free
  have completes (ok : Bool) : completion ok = .next (s.readCompletion ident ok position bytes).settle := rfl
  have expires : timeout = .next (s.readTimeout p).settle := rfl
  refine ⟨fun empty => ?_, fun other ok => ?_, fun r read => ⟨?_, fun g => ⟨?_, ?_⟩⟩⟩
  · rw [expires, State.readTimeout_of_none empty]
  · rw [completes, State.readCompletion_of_none (State.readOf_eq_none place other)]
  · rw [expires, State.readTimeout_of_read read]
    rfl
  · rw [completes, State.readCompletion_of_error (State.readOf_eq_some read (by omega))]
    rfl
  · have found : s.readOf ident = some (p, r) := State.readOf_eq_some read (by omega)
    have settles {u v : State} (h : u = v) : (.next u.settle : Result) = .next v.settle := by rw [h]
    refine ⟨fun i j data slot => ?_, fun record => ?_⟩
    · obtain ⟨goesOn, ends⟩ := State.readCompletion_of_data found (State.placeRead_of_data data slot)
      exact ⟨settles ∘ goesOn, settles ∘ ends⟩
    · obtain ⟨goesOn, ends⟩ := State.readCompletion_of_data found (State.placeRead_of_record record)
      exact ⟨settles ∘ goesOn, settles ∘ ends⟩

end Sys2Proof.Machine
end

section
/-! SUPPORT. What the steps after the start of STOPPING leave of a part that stops, and the resets of its spokes (R12, R16, R22, R58, R105,
R117). -/

namespace Sys2Proof.Machine

/-! ## Entries that have been stopped (R16, R22) -/

/-- An entry that the start of STOPPING has dealt with: FREE, FETCHING until its read ends, or winding down to be freed. -/
def Entry.Stopped (x : Entry) : Prop :=
  x.state = .free ∨ x.state = .fetching ∨ (x.state = .winding ∧ x.stop.isSome = true)

theorem Entry.stopped_empty : ({} : Entry).Stopped := .inl rfl

/-- A stopped entry that takes a segment's report is a stopped one. -/
theorem Entry.Stopped.reported {x : Entry} (h : x.Stopped) (offset : Nat) (how : SegEnd) : (x.reported offset how).Stopped := by
  cases how with
  | success dropped posted => exact h
  | failure f =>
    have state : (x.reported offset (.failure f)).state = x.state := by
      refine if_neg fun running => ?_
      obtain e | e | ⟨e, -⟩ := h <;> rw [e] at running <;> cases running
    rw [Stopped, state]
    exact h

/-- A stopped entry never becomes DONE: without live segments it is freed. -/
theorem Entry.Stopped.closed {x : Entry} (h : x.Stopped) (kept : ¬x.Freed) : x.closed.Stopped := by
  have state : x.closed.state = x.state := if_neg fun ends => by
    obtain e | e | ⟨-, stop⟩ := h
    · rw [e] at ends; cases ends.1
    · rw [e] at ends; cases ends.1
    · exact kept ⟨ends.1, ends.2, stop⟩
  rw [Stopped, state]
  exact h

/-! ## What the steps leave of a part that stops -/

/-- What every step from the abandoning of the executor's command on keeps: stopped entries stay stopped, the members of a posted-spoke
set stay or take the mark of a reset, marks stay, and no invalidation begins. -/
structure Rests (s t : State) : Prop where
  entry : ∀ e, (s.entry e).Stopped → (t.entry e).Stopped
  member : ∀ (n : QpId) (k : SpokeId), (s.posted n)[k] = .member →
    (t.posted n)[k] = .member ∨ (t.posted n)[k] = .marked .spokeReset
  marked : ∀ (n : QpId) (k : SpokeId) (status : Status), (s.posted n)[k] = .marked status → (t.posted n)[k] = .marked status
  invalidation : s.tu.invalidation = none → t.tu.invalidation = none

namespace Rests

variable {s t u : State}

/-- A change outside the transfer table and the invalidation record. -/
theorem of_same (tt : t.tt = s.tt) (invalidation : t.tu.invalidation = s.tu.invalidation) : Rests s t where
  entry e h := by rwa [State.entry, tt]
  member n k h := .inl (by rwa [State.posted, tt])
  marked n k _ h := by rwa [State.posted, tt]
  invalidation h := invalidation.trans h

theorem refl (s : State) : Rests s s := of_same rfl rfl

theorem trans (h : Rests s t) (g : Rests t u) : Rests s u where
  entry e := g.entry e ∘ h.entry e
  member n k m := (h.member n k m).elim (g.member n k) fun marked => .inr (g.marked n k _ marked)
  marked n k status := g.marked n k status ∘ h.marked n k status
  invalidation := g.invalidation ∘ h.invalidation

theorem foldl {α : Type} (f : State → α → State) (h : ∀ s a, Rests s (f s a)) (l : List α) (s : State) : Rests s (l.foldl f s) := by
  induction l generalizing s with
  | nil => exact refl s
  | cons a l ih => exact (h s a).trans (ih (f s a))

end Rests

namespace State

variable (s : State) (i : SegId)

/-- A segment's end: its entry takes the report, and its posted-spoke set at most one spoke that was no member (R12, R58). -/
theorem retire_rests (how : SegEnd) : Rests s (s.retire i how) := by
  have posted (n : QpId) (k : SpokeId) (present : (s.posted n)[k] ≠ .absent) :
      ((s.retire i how).posted n)[k] = (s.posted n)[k] := by
    rw [retire_posted]
    split
    · unfold SegEnd.joined
      split
      · rw [joinPosted_getElem, if_neg fun absent => present absent.2]
      · rfl
    · rfl
  have tu : (s.retire i how).tu = s.tu := by rw [retire_blocks]
  refine ⟨fun e h => ?_, fun n k h => .inl ?_, fun n k status h => ?_, fun h => tu ▸ h⟩
  · by_cases own : e = (s.seg i).entry
    · subst own
      have reported := h.reported (s.seg i).offset how
      by_cases freed : ((s.entry (s.seg i).entry).reported (s.seg i).offset how).Freed
      · rw [retire_of_freed freed, setEntry_entry_self]
        exact Entry.stopped_empty
      · rw [retire_of_kept freed, setEntry_entry_self]
        exact reported.closed freed
    · rwa [retire_entry_of_ne s i how own]
  · rw [posted n k (by rw [h]; exact nofun), h]
  · rw [posted n k (by rw [h]; exact nofun), h]

theorem modSeg_rests (f : Segment → Segment) : Rests s (s.modSeg i f) := .of_same rfl rfl

theorem handRead_rests (r : ReadRequest) : Rests s (s.handRead r) := by
  unfold handRead
  split <;> exact .of_same rfl rfl

theorem joinIssue_rests : Rests s (s.joinIssue i) := by
  unfold joinIssue
  split
  · exact .refl s
  · split
    · exact .of_same rfl rfl
    · exact s.retire_rests i _

theorem gatherWrite_rests : Rests s (s.gatherWrite i) := by
  unfold gatherWrite
  split
  · exact Rests.trans (t := s.takeWrite _) (.of_same rfl rfl) (retire_rests _ i _)
  · exact .refl s

theorem scatterRead_rests : Rests s (s.scatterRead i) := by
  unfold scatterRead
  split
  · exact (s.handRead_rests _).trans (modSeg_rests _ i _)
  · exact .refl s

theorem beginAccess_rests : Rests s (s.beginAccess i) := by
  unfold beginAccess
  split
  · exact s.gatherWrite_rests i
  · exact s.scatterRead_rests i
  · exact .refl s

theorem takeAnswer_rests (a : TransAnswer) : Rests s (s.takeAnswer i a) := by
  unfold takeAnswer
  split
  · exact s.retire_rests i _
  · dsimp only
    split
    · exact (s.modSeg_rests i _).trans (beginAccess_rests _ i)
    · exact .of_same rfl rfl

theorem giveToWalk_rests (key : Key) : Rests s (s.giveToWalk i key) := by
  unfold giveToWalk
  split
  · exact .of_same rfl rfl
  · split
    · unfold startWalk
      exact Rests.trans (t := s.setWalk _ _) (.of_same rfl rfl) (handRead_rests _ _)
    · exact .of_same rfl rfl

theorem ask_rests : Rests s (s.ask i) := by
  unfold ask
  split
  · exact s.takeAnswer_rests i _
  · exact s.giveToWalk_rests i _

theorem translate_rests : Rests s (s.translate i) := (s.modSeg_rests i _).trans (ask_rests _ i)

theorem grantSlot_rests (j : SlotId) : Rests s (s.grantSlot j i) := by
  unfold grantSlot
  extract_lets slot granted
  have grant : Rests s granted := .of_same rfl rfl
  split
  · split
    · exact grant.trans (granted.translate_rests i)
    · exact grant.trans (granted.scatterRead_rests i)
  · exact grant.trans (granted.joinIssue_rests i)

theorem grantSlotsFor_rests (n : Nat) : Rests s (grantSlotsFor n s) := by
  induction n generalizing s with
  | zero => exact .refl s
  | succ n ih =>
    unfold grantSlotsFor
    split
    · next t grant =>
      obtain ⟨j, i, -, -, rfl⟩ := slotGrant_some s grant
      exact (s.grantSlot_rests i j).trans (ih _)
    · exact .refl s

theorem grantSlots_rests : Rests s s.grantSlots := s.grantSlotsFor_rests _

theorem takeResolution_rests (a : Answer) : Rests s (s.takeResolution i a) := by
  unfold takeResolution
  split
  · exact s.retire_rests i _
  · exact s.retire_rests i _
  · dsimp only
    split
    · exact .of_same rfl rfl
    · exact (s.modSeg_rests i _).trans (joinIssue_rests _ i)
    · exact (s.modSeg_rests i _).trans (translate_rests _ i)

theorem releaseHeld_rests (held : List SegId) : Rests s (s.releaseHeld held) :=
  .foldl _ (fun t i => (t.takeResolution_rests i _).trans (grantSlots_rests _)) _ _

/-! ## A spoke that is reset (R105, R117) -/

section
variable (k : SpokeId) (status : Status)

/-- The end of a flush request is no business of a stopped entry, which is not FLUSHING (R11). -/
theorem endFlush_rests (e : EntryId) (result : Option Status) : Rests s (s.endFlush e k result) := by
  by_cases flushing : (s.entry e).state = .flushing
  · rw [s.endFlush_of_flushing k flushing]
    refine ⟨fun f h => ?_, fun n k h => .inl h, fun n k _ h => h, id⟩
    have other : f ≠ e := fun same => by
      subst same
      rw [Entry.Stopped, flushing] at h
      simp at h
    rwa [setEntry_entry, if_neg other]
  · rw [s.endFlush_of_other k flushing]
    exact .refl s

theorem endTag_rests (g : Tag) : Rests s (s.endTag k status g) := by
  unfold endTag
  split
  · next r =>
    refine Rests.trans ?_ (grantSlots_rests _)
    unfold endRequest
    split
    · exact s.retire_rests _ _
    · exact s.retire_rests _ _
    · exact s.endFlush_rests k _ _
    · exact .refl s
  · exact .refl s

theorem endOutstanding_rests : Rests s (s.endOutstanding k status) := by
  rw [endOutstanding_eq]
  exact Rests.trans (t := s.setSpoke k { s.spoke k with tags := Vector.replicate 32 .free }) (.of_same rfl rfl)
    (.foldl _ (fun t _ => t.endTag_rests k status _) _ _)

theorem failWaiting_rests : Rests s (s.failWaiting k status) := by
  have issue : Rests s (s.failIssue k status) :=
    Rests.trans (t := s.setIssue k []) (.of_same rfl rfl)
      (.foldl _ (fun t i => (t.retire_rests i _).trans (grantSlots_rests _)) _ _)
  have flushes (t : State) : Rests t (t.failFlushes k status) :=
    Rests.trans (t := t.modSpoke k fun x => { x with flushList := [] }) (.of_same rfl rfl)
      (.foldl _ (fun t e => t.endFlush_rests k e _) _ _)
  exact issue.trans (flushes _)

theorem markPosted_rests : Rests s (s.markPosted k .spokeReset) := by
  refine ⟨fun _ h => h, fun n j h => ?_, fun n j status h => ?_, id⟩
  · rw [markPosted_posted]
    split
    · exact .inr rfl
    · exact .inl h
  · rw [markPosted_posted, if_neg fun both => by rw [h] at both; cases both.2]
    exact h

end

theorem sendFrame_rests (k : SpokeId) (m : TxMessage) : Rests s (s.sendFrame k m) := .of_same rfl rfl

/-- The state in which the posted writes of a spoke that is reset are marked: its requests have ended. -/
def resetWork (k : SpokeId) : State :=
  ((s.modSpoke k fun x => { x with state := .resetting, credits := 0 }).endOutstanding k .spokeReset).failWaiting k .spokeReset

theorem startReset_eq_resetWork (k : SpokeId) :
    s.startReset k = ((s.resetWork k).markPosted k .spokeReset).sendFrame k .linkReset := rfl

theorem resetWork_rests (k : SpokeId) : Rests s (s.resetWork k) := by
  have leaves : Rests s (s.modSpoke k fun x => { x with state := .resetting, credits := 0 }) := .of_same rfl rfl
  unfold resetWork
  exact (leaves.trans (endOutstanding_rests _ k _)).trans (failWaiting_rests _ k _)

theorem startReset_rests (k : SpokeId) : Rests s (s.startReset k) := by
  rw [startReset_eq_resetWork]
  exact ((s.resetWork_rests k).trans (markPosted_rests _ k)).trans (sendFrame_rests _ k _)

/-- A spoke in its reset sequence, with nothing outstanding and nothing waiting. -/
structure SpokeReset (k : SpokeId) : Prop where
  state : (s.spoke k).state = .resetting
  credits : (s.spoke k).credits = 0
  tags : ∀ g : TagId, (s.spoke k).tags[g] = .free
  flushes : (s.spoke k).flushList = []
  issue : s.issue k = []

theorem resetWork_spokeReset (k : SpokeId) : (s.resetWork k).SpokeReset k := by
  have record := s.modSpoke_spoke_self k fun x => { x with state := .resetting, credits := 0 }
  rw [resetWork]
  generalize (s.modSpoke k fun x => { x with state := .resetting, credits := 0 }) = t at record ⊢
  obtain ⟨link, tags, flushes, issue⟩ := t.endAll_here k .spokeReset (by rw [record]; exact nofun)
  rw [record] at link
  generalize (t.endOutstanding k .spokeReset).failWaiting k .spokeReset = u at link tags flushes issue ⊢
  exact ⟨congrArg (·.1) link, congrArg (·.2.2.2.1) link, tags, flushes, issue⟩

/-- The posted writes sent on a spoke that is reset take the mark (R12). -/
theorem startReset_marks {k : SpokeId} {n : QpId} (member : (s.posted n)[k] = .member) :
    ((s.startReset k).posted n)[k] = .marked .spokeReset := by
  rw [startReset_eq_resetWork, sendFrame_posted, markPosted_posted]
  split
  · rfl
  · next other => exact ((s.resetWork_rests k).member n k member).resolve_left fun still => other ⟨rfl, still⟩

variable {s}

theorem SpokeReset.of_on {t : State} {k : SpokeId} (h : s.SpokeReset k) (on : On k s t) : t.SpokeReset k where
  state := on.state.trans h.state
  credits := on.credits.trans h.credits
  tags g := on.free g (h.tags g)
  flushes := on.flush h.flushes
  issue := (on.issue (by rw [h.state]; exact nofun)).trans h.issue

theorem startReset_spokeReset (s : State) (k : SpokeId) : (s.startReset k).SpokeReset k :=
  (s.resetWork_spokeReset k).of_on ((markPosted_on _ k k _).trans (sendFrame_on _ k k _))

end State

/-! ## The blocks out of reach -/

/-- What every step from the withdrawal of the fetches on leaves as it stands, the abandoning of the executor's command apart. -/
structure Apart (s t : State) : Prop extends State.Elsewhere s t where
  carrierIn : t.sp.carrierIn = s.sp.carrierIn
  au : t.au = s.au

theorem Keeps.apart {s t : State} (h : Keeps s t) : Apart s t := ⟨h.elsewhere, h.carrierIn, h.au⟩

namespace Apart

variable {s t u : State}

theorem trans (h : Apart s t) (g : Apart t u) : Apart s u :=
  ⟨h.toElsewhere.trans g.toElsewhere, g.carrierIn.trans h.carrierIn, g.au.trans h.au⟩

theorem refl (s : State) : Apart s s := (Keeps.refl s).apart

theorem foldl {α : Type} (f : State → α → State) (h : ∀ s a, Apart s (f s a)) (l : List α) (s : State) : Apart s (l.foldl f s) := by
  induction l generalizing s with
  | nil => exact refl s
  | cons a l ih => exact (h s a).trans (ih (f s a))

/-- Blocks out of reach of the executor as well. -/
theorem setExecutor (h : Apart s t) (x : Executor) : Apart (s.setExecutor x) (t.setExecutor x) where
  toElsewhere := { h.toElsewhere with }
  carrierIn := h.carrierIn
  au := congrArg (fun a : AdminUnit => { a with executor := x }) h.au

end Apart

namespace State

variable (s : State) (k : SpokeId)

section
variable (status : Status)

theorem endOutstanding_apart : Apart s (s.endOutstanding k status) :=
  Apart.trans ⟨s.setSpoke_elsewhere k _, rfl, rfl⟩ (s.endOutstanding_spec k status).apart

theorem failWaiting_apart : Apart s (s.failWaiting k status) := by
  have issue : Apart s (s.failIssue k status) :=
    Apart.trans ⟨s.setIssue_elsewhere k [], rfl, rfl⟩ (s.failIssue_spec k status).apart
  have flushes (t : State) : Apart t (t.failFlushes k status) :=
    Apart.trans ⟨t.setSpoke_elsewhere k _, rfl, rfl⟩ (t.failFlushes_spec k status).apart
  exact issue.trans (flushes _)

theorem endOutstanding_wire : (s.endOutstanding k status).wire = s.wire := (s.endOutstanding_spec k status).wire

theorem failWaiting_wire : (s.failWaiting k status).wire = s.wire :=
  ((s.failIssue k status).failFlushes_spec k status).wire.trans (s.failIssue_spec k status).wire

theorem markPosted_apart : Apart s (s.markPosted k status) :=
  ⟨⟨rfl, rfl, rfl, rfl, rfl, rfl, rfl, rfl, rfl, rfl, ⟨[], (List.append_nil _).symm⟩, rfl, rfl⟩, rfl, rfl⟩

theorem markPosted_wire : (s.markPosted k status).wire = s.wire := rfl

theorem sendFrame_apart (m : TxMessage) : Apart s (s.sendFrame k m) :=
  ⟨⟨rfl, rfl, rfl, rfl, rfl, rfl, rfl, rfl, rfl, rfl, ⟨[], (List.append_nil _).symm⟩, rfl, rfl⟩, rfl, rfl⟩

end

theorem resetWork_wire : (s.resetWork k).wire = s.wire := by
  rw [resetWork, failWaiting_wire, endOutstanding_wire]
  rfl

theorem startReset_apart : Apart s (s.startReset k) := by
  have leaves : Apart s (s.modSpoke k fun x => { x with state := .resetting, credits := 0 }) :=
    ⟨s.setSpoke_elsewhere k _, rfl, rfl⟩
  have work : Apart s (s.resetWork k) := by
    unfold resetWork
    exact (leaves.trans (endOutstanding_apart _ k _)).trans (failWaiting_apart _ k _)
  rw [startReset_eq_resetWork]
  exact (work.trans (markPosted_apart _ k _)).trans (sendFrame_apart _ k _)

end State

/-! ## The spokes (R117) -/

/-- A spoke in this state begins the reset sequence when STOPPING begins. -/
def SpokeState.stops : SpokeState → Bool
  | .off => false
  | .resetting => false
  | _ => true

theorem SpokeState.stops_iff (x : SpokeState) : x.stops = true ↔ x ≠ .off ∧ x ≠ .resetting := by cases x <;> simp [stops]

theorem State.stopSpoke_eq (s : State) (k : SpokeId) :
    s.stopSpoke k = if (s.spoke k).state.stops then s.startReset k else s := by
  unfold State.stopSpoke
  cases (s.spoke k).state <;> rfl

/-- What the resets of the spokes in a list do: each of them is in its reset sequence with the posted writes sent on it marked, and has
sent one LINK_RESET, in the order of the list; every other spoke is left alone. -/
structure Resets (l : List SpokeId) (s t : State) : Prop where
  rests : Rests s t
  others : ∀ k, k ∉ l → On k s t
  reset : ∀ k ∈ l, t.SpokeReset k
  marks : ∀ k ∈ l, ∀ n, (s.posted n)[k] = .member → (t.posted n)[k] = .marked .spokeReset
  frames : t.wire.frames = s.wire.frames ++ l.map fun k => { spoke := k, message := .linkReset }

namespace Resets

variable {l m : List SpokeId} {s t u : State}

theorem nil (s : State) : Resets [] s s where
  rests := .refl s
  others k _ := .refl k s
  reset _ h := nomatch h
  marks _ h := nomatch h
  frames := (List.append_nil _).symm

theorem one (s : State) (k : SpokeId) : Resets [k] s (s.startReset k) where
  rests := s.startReset_rests k
  others j h := s.startReset_on k j fun e => h (List.mem_singleton.2 e)
  reset j h := by
    obtain rfl := List.mem_singleton.1 h
    exact s.startReset_spokeReset j
  marks j h n member := by
    obtain rfl := List.mem_singleton.1 h
    exact s.startReset_marks member
  frames := by rw [State.startReset_eq_resetWork, State.sendFrame_wire_frames, State.markPosted_wire, State.resetWork_wire]; rfl

theorem append (h : Resets l s t) (g : Resets m t u) (apart : ∀ k ∈ l, k ∉ m) : Resets (l ++ m) s u where
  rests := h.rests.trans g.rests
  others k out := by
    rw [List.mem_append, not_or] at out
    exact (h.others k out.1).trans (g.others k out.2)
  reset k mem := by
    rcases List.mem_append.1 mem with first | last
    · exact (h.reset k first).of_on (g.others k (apart k first))
    · exact g.reset k last
  marks k mem n member := by
    rcases List.mem_append.1 mem with first | last
    · exact g.rests.marked n k _ (h.marks k first n member)
    · exact (h.rests.member n k member).elim (g.marks k last n) (g.rests.marked n k _)
  frames := by rw [g.frames, h.frames, List.map_append, List.append_assoc]

/-- Every spoke of a list that is neither OFF nor RESETTING is reset, in the order of the list. -/
theorem foldl (l : List SpokeId) (once : l.Nodup) (s : State) :
    Resets (l.filter fun k => (s.spoke k).state.stops) s (l.foldl State.stopSpoke s) := by
  induction l generalizing s with
  | nil => exact nil s
  | cons k l ih =>
    obtain ⟨fresh, once⟩ := List.nodup_cons.1 once
    rw [List.foldl_cons, State.stopSpoke_eq]
    cases stops : (s.spoke k).state.stops with
    | false =>
      rw [List.filter_cons_of_neg (p := fun k => (s.spoke k).state.stops) (by rw [stops]; exact nofun)]
      exact ih once s
    | true =>
      have same : (l.filter fun j => ((s.startReset k).spoke j).state.stops) = l.filter fun j => (s.spoke j).state.stops :=
        List.filter_congr fun j hj => by rw [(s.startReset_on k j fun e => fresh (e ▸ hj)).state]
      rw [List.filter_cons_of_pos (p := fun k => (s.spoke k).state.stops) stops, ← same]
      refine (one s k).append (ih once _) fun j hj => ?_
      rw [List.mem_singleton.1 hj]
      exact fun mem => fresh (List.mem_of_mem_filter mem)

end Resets

end Sys2Proof.Machine
end

section
/-! SUPPORT. The fetches withdrawn and the entries stopped as STOPPING begins (R3, R16, R22, R23, R169, R178). -/

namespace Sys2Proof.Machine

/-! ## The fetches withdrawn (R23, R169, R178) -/

/-- What the withdrawal of fetches does: it changes the transfer table, queue pair records and the executor alone, frees entries that
were FETCHING, and takes no other from its in-flight list. -/
structure Withdraws (s t : State) : Prop where
  frame : ∃ tt qps x, t = { s with tt := tt, qe.qps := qps, au.executor := x }
  posted : t.tt.posted = s.tt.posted
  entry : ∀ e, t.entry e = s.entry e ∨ ((s.entry e).state = .fetching ∧ t.entry e = {})
  listed : ∀ n, ∀ e ∈ s.inflight n, (s.entry e).state = .fetching ∨ e ∈ t.inflight n

namespace Withdraws

variable {s t u : State}

theorem refl (s : State) : Withdraws s s := ⟨⟨_, _, _, rfl⟩, rfl, fun _ => .inl rfl, fun _ _ => .inr⟩

theorem trans (h : Withdraws s t) (g : Withdraws t u) : Withdraws s u where
  frame := by
    obtain ⟨_, _, _, rfl⟩ := h.frame
    obtain ⟨tt, qps, x, rfl⟩ := g.frame
    exact ⟨tt, qps, x, rfl⟩
  posted := g.posted.trans h.posted
  entry e := by
    obtain same | ⟨fetching, freed⟩ := h.entry e
    · rw [← same]
      exact g.entry e
    · obtain still | ⟨again, -⟩ := g.entry e
      · exact .inr ⟨fetching, still.trans freed⟩
      · rw [freed] at again
        cases again
  listed n e mem := by
    obtain fetching | mem := h.listed n e mem
    · exact .inl fetching
    · obtain fetching | mem := g.listed n e mem
      · obtain same | ⟨before, -⟩ := h.entry e
        · exact .inl (same ▸ fetching)
        · exact .inl before
      · exact .inr mem

theorem foldl {α : Type} (f : State → α → State) (h : ∀ s a, Withdraws s (f s a)) (l : List α) (s : State) :
    Withdraws s (l.foldl f s) := by
  induction l generalizing s with
  | nil => exact refl s
  | cons a l ih => exact (h s a).trans (ih (f s a))

end Withdraws

namespace State

variable (s : State)

section
variable {s} {e : EntryId}

/-- An entry that is freed alone leaves its place and its list. -/
theorem entryFreed_entry_of_ne {f : EntryId} (other : f ≠ e) : (s.entryFreed e).entry f = s.entry f := by
  rw [entryFreed, setEntry_entry, if_neg other, setInflight_entry]

theorem entryFreed_inflight_of_ne {f : EntryId} (other : f ≠ e) {n : QpId} (mem : f ∈ s.inflight n) :
    f ∈ (s.entryFreed e).inflight n := by
  rw [entryFreed, setEntry_inflight, setInflight_inflight]
  split
  · next own =>
    subst own
    exact (List.mem_erase_of_ne other).2 mem
  · exact mem

theorem fetchingEntry_state {n : QpId} (found : s.fetchingEntry n = some e) : (s.entry e).state = .fetching := by
  rw [fetchingEntry] at found
  simpa using List.find?_some found

/-- A fetch that comes to nothing frees the FETCHING entry that stands first in the list (R3, R22). -/
theorem dropFetch_eq_entryFreed {n : QpId} (found : s.fetchingEntry n = some e) : s.dropFetch n = s.entryFreed e := by
  rw [dropFetch, found]
  exact freeEntry_of_not_flushing (by rw [fetchingEntry_state found]; exact nofun)

end

theorem dropFetch_withdraws (n : QpId) : Withdraws s (s.dropFetch n) := by
  cases found : s.fetchingEntry n with
  | none =>
    rw [dropFetch, found]
    exact .refl s
  | some e =>
    have fetching := fetchingEntry_state found
    rw [dropFetch_eq_entryFreed found]
    refine ⟨⟨_, _, _, rfl⟩, rfl, fun f => ?_, fun m f mem => ?_⟩
    · by_cases same : f = e
      · subst same
        exact .inr ⟨fetching, setEntry_entry_self _ _ _⟩
      · exact .inl (entryFreed_entry_of_ne same)
    · by_cases same : f = e
      · exact .inl (same ▸ fetching)
      · exact .inr (entryFreed_inflight_of_ne same mem)

theorem modQp_withdraws (n : QpId) (f : QueuePair → QueuePair) : Withdraws s (s.modQp n f) :=
  ⟨⟨_, _, _, rfl⟩, rfl, fun _ => .inl rfl, fun _ _ => .inr⟩

theorem setExecutor_withdraws (x : Executor) : Withdraws s (s.setExecutor x) :=
  ⟨⟨_, _, _, rfl⟩, rfl, fun _ => .inl rfl, fun _ _ => .inr⟩

theorem withdrawFetch_withdraws (r : ReadRequest) : Withdraws s (s.withdrawFetch r) := by
  unfold withdrawFetch
  split
  · exact (s.modQp_withdraws _ _).trans (dropFetch_withdraws _ _)
  · exact (s.modQp_withdraws 0 _).trans (setExecutor_withdraws _ _)
  · exact .refl s

theorem withdrawFetches_withdraws :
    Withdraws { s with ctl.device := .stopping, hp.fetchList := [] } s.withdrawFetches :=
  .foldl _ withdrawFetch_withdraws _ _

/-- The record of a queue pair whose fetch is withdrawn. -/
theorem withdrawFetch_qp (r : ReadRequest) (n : QpId) :
    (s.withdrawFetch r).qp n =
      { s.qp n with
        fetching := if r.requester = .descriptor n ∨ (n = 0 ∧ r.requester = .command) then false else (s.qp n).fetching } := by
  unfold withdrawFetch
  split
  · next m descriptor =>
    have qe (t : State) : (t.dropFetch m).qe = t.qe := by
      unfold dropFetch
      split
      · exact (t.freeEntry_keeps _).qe
      · rfl
    have record : ((s.modQp m fun q => { q with fetching := false }).dropFetch m).qp n =
        (s.modQp m fun q => { q with fetching := false }).qp n :=
      congrArg (fun q : QueueEngine => q.qps[n]) (qe _)
    rw [record, modQp_qp]
    by_cases own : n = m
    · subst own
      simp [descriptor]
    · simp [descriptor, own, eq_comm (a := m)]
  · next command =>
    rw [setExecutor_qp, modQp_qp]
    by_cases admin : n = 0
    · subst admin
      simp [command]
    · simp [command, admin]
  · next noDescriptor noCommand =>
    rw [if_neg]
    rintro (descriptor | ⟨-, command⟩)
    · exact noDescriptor n descriptor
    · exact noCommand command

/-- The executor whose fetch is withdrawn is IDLE (R169). -/
theorem withdrawFetch_executor (r : ReadRequest) :
    (s.withdrawFetch r).au.executor = if r.requester = .command then .idle else s.au.executor := by
  unfold withdrawFetch
  split
  · next m descriptor =>
    rw [if_neg (by rw [descriptor]; exact nofun)]
    unfold dropFetch
    split
    · exact congrArg AdminUnit.executor (freeEntry_keeps _ _).au
    · rfl
  · next command => rw [if_pos command]; rfl
  · next noCommand => rw [if_neg noCommand]

theorem foldl_withdrawFetch_qp (l : List ReadRequest) (n : QpId) :
    (l.foldl withdrawFetch s).qp n =
      { s.qp n with
        fetching :=
          if ∃ r ∈ l, r.requester = .descriptor n ∨ (n = 0 ∧ r.requester = .command) then false else (s.qp n).fetching } := by
  induction l generalizing s with
  | nil => simp
  | cons r l ih =>
    rw [List.foldl_cons, ih, withdrawFetch_qp]
    simp only [List.exists_mem_cons_iff]
    by_cases first : r.requester = .descriptor n ∨ (n = 0 ∧ r.requester = .command)
    · simp [first]
    · simp [first]

theorem foldl_withdrawFetch_executor (l : List ReadRequest) :
    (l.foldl withdrawFetch s).au.executor = if ∀ r ∈ l, r.requester ≠ .command then s.au.executor else .idle := by
  induction l generalizing s with
  | nil => simp
  | cons r l ih =>
    rw [List.foldl_cons, ih, withdrawFetch_executor]
    by_cases first : r.requester = .command <;> simp [first]

/-! ## The entries stopped (R16, R22, R23) -/

end State

/-- What an ABORT deletion makes of an entry (R22). -/
def Entry.aborted (x : Entry) : Entry :=
  match x.state with
  | .free => x
  | .fetching => x
  | .running => if x.live = 0 then {} else { x with state := .winding, stop := some x.cursor }
  | .winding => if x.live = 0 then {} else { x with state := .winding, stop := some x.cursor }
  | _ => {}

theorem Entry.aborted_of_kept {x : Entry} (h : x.state = .free ∨ x.state = .fetching) : x.aborted = x := by
  unfold aborted
  rcases h with h | h <;> rw [h]

theorem Entry.aborted_of_active {x : Entry} (h : x.state = .running ∨ x.state = .winding) :
    x.aborted = if x.live = 0 then {} else { x with state := .winding, stop := some x.cursor } := by
  unfold aborted
  rcases h with h | h <;> rw [h]

theorem Entry.aborted_of_ended {x : Entry} (h : x.state = .gated ∨ x.state = .flushing ∨ x.state = .done) : x.aborted = {} := by
  unfold aborted
  rcases h with h | h | h <;> rw [h]

/-- The kinds of states in which an ABORT deletion finds an entry (R22). -/
theorem Entry.state_cases (x : Entry) :
    (x.state = .free ∨ x.state = .fetching) ∨ (x.state = .running ∨ x.state = .winding) ∨
      (x.state = .gated ∨ x.state = .flushing ∨ x.state = .done) := by
  cases x.state <;> simp

theorem Entry.aborted_stopped (x : Entry) : x.aborted.Stopped := by
  obtain kept | active | ended := x.state_cases
  · rw [aborted_of_kept kept]
    exact kept.imp id .inl
  · rw [aborted_of_active active]
    split
    · exact stopped_empty
    · exact .inr (.inr ⟨rfl, rfl⟩)
  · rw [aborted_of_ended ended]
    exact stopped_empty

theorem Entry.aborted_aborted (x : Entry) : x.aborted.aborted = x.aborted := by
  obtain kept | active | ended := x.state_cases
  · rw [aborted_of_kept kept, aborted_of_kept kept]
  · rw [aborted_of_active active]
    split
    · rfl
    · next live => exact (aborted_of_active (.inr rfl)).trans (if_neg live)
  · rw [aborted_of_ended ended]
    rfl

/-- What the stopping of entries does: each is left alone or treated as an ABORT deletion treats it, and no other leaves its in-flight
list; posted-spoke sets and the window unit stay. -/
structure Aborts (s t : State) : Prop where
  keeps : Keeps s t
  wu : t.wu = s.wu
  posted : t.tt.posted = s.tt.posted
  entry : ∀ e, t.entry e = s.entry e ∨ t.entry e = (s.entry e).aborted
  listed : ∀ n, ∀ e ∈ s.inflight n, e ∈ t.inflight n ∨ t.entry e = (s.entry e).aborted

namespace Aborts

variable {s t u : State}

theorem refl (s : State) : Aborts s s := ⟨.refl s, rfl, rfl, fun _ => .inl rfl, fun _ _ => .inl⟩

/-- An entry once treated stays as it is. -/
theorem treated (h : Aborts s t) {e : EntryId} {x : Entry} (before : s.entry e = x.aborted) : t.entry e = x.aborted := by
  obtain same | again := h.entry e
  · rw [same, before]
  · rw [again, before, Entry.aborted_aborted]

theorem trans (h : Aborts s t) (g : Aborts t u) : Aborts s u where
  keeps := h.keeps.trans g.keeps
  wu := g.wu.trans h.wu
  posted := g.posted.trans h.posted
  entry e := by
    obtain same | treated := h.entry e
    · rw [← same]
      exact g.entry e
    · exact .inr (g.treated treated)
  listed n e mem := by
    obtain mem | treated := h.listed n e mem
    · obtain mem | treated := g.listed n e mem
      · exact .inl mem
      · obtain same | before := h.entry e
        · exact .inr (same ▸ treated)
        · exact .inr (g.treated before)
    · exact .inr (g.treated treated)

theorem foldl {α : Type} (f : State → α → State) (h : ∀ s a, Aborts s (f s a)) (l : List α) (s : State) :
    Aborts s (l.foldl f s) := by
  induction l generalizing s with
  | nil => exact refl s
  | cons a l ih => exact (h s a).trans (ih (f s a))

end Aborts

namespace State

variable (s : State)

theorem abortEntry_entry_self (e : EntryId) : (s.abortEntry e).entry e = (s.entry e).aborted := by
  obtain kept | active | waiting | flushing | done := (s.entry e).state_cases
  · rw [abortEntry_of_kept kept, Entry.aborted_of_kept kept]
  · rw [abortEntry_of_active active, Entry.aborted_of_active active]
    split
    · next empty => rw [entryStopped_closeEntry_of_empty empty]; exact setEntry_entry_self _ _ _
    · next live => rw [entryStopped_closeEntry_of_live live, entryStopped_entry]
  · rw [abortEntry_of_waiting (.inl waiting), Entry.aborted_of_ended (.inl waiting)]
    exact setEntry_entry_self _ _ _
  · rw [abortEntry_of_flushing flushing, Entry.aborted_of_ended (.inr (.inl flushing))]
    exact setEntry_entry_self _ _ _
  · rw [abortEntry_of_waiting (.inr done), Entry.aborted_of_ended (.inr (.inr done))]
    exact setEntry_entry_self _ _ _

/-- An ABORT deletion's treatment leaves an entry alone, stops it, or frees it, with a change of the spokes when it is a fence whose
flush requests are withdrawn (R22, R109). -/
theorem abortEntry_cases (e : EntryId) :
    s.abortEntry e = s ∨ s.abortEntry e = s.entryStopped e ∨
      ∃ spokes, s.abortEntry e = { s.entryFreed e with sp.spokes := spokes } := by
  obtain kept | active | waiting | flushing | done := (s.entry e).state_cases
  · exact .inl (abortEntry_of_kept kept)
  · rw [abortEntry_of_active active]
    by_cases empty : (s.entry e).live = 0
    · exact .inr (.inr ⟨_, entryStopped_closeEntry_of_empty empty⟩)
    · exact .inr (.inl (entryStopped_closeEntry_of_live empty))
  · exact .inr (.inr ⟨_, abortEntry_of_waiting (.inl waiting)⟩)
  · exact .inr (.inr ⟨_, abortEntry_of_flushing flushing⟩)
  · exact .inr (.inr ⟨_, abortEntry_of_waiting (.inr done)⟩)

theorem abortEntry_aborts (e : EntryId) : Aborts s (s.abortEntry e) := by
  have others : (s.abortEntry e).wu = s.wu ∧ (s.abortEntry e).tt.posted = s.tt.posted ∧
      ∀ f, f ≠ e → (s.abortEntry e).entry f = s.entry f ∧ ∀ n, f ∈ s.inflight n → f ∈ (s.abortEntry e).inflight n := by
    obtain kept | stopped | ⟨spokes, freed⟩ := s.abortEntry_cases e
    · rw [kept]
      exact ⟨rfl, rfl, fun f _ => ⟨rfl, fun _ mem => mem⟩⟩
    · rw [stopped]
      exact ⟨rfl, rfl, fun f other => ⟨(setEntry_entry _ _ _ _).trans (if_neg other), fun _ mem => mem⟩⟩
    · rw [freed]
      exact ⟨rfl, rfl, fun f other => ⟨entryFreed_entry_of_ne other, fun _ mem => entryFreed_inflight_of_ne other mem⟩⟩
  obtain ⟨wu, posted, others⟩ := others
  refine ⟨s.abortEntry_keeps e, wu, posted, fun f => ?_, fun n f mem => ?_⟩
  · by_cases same : f = e
    · exact .inr (same ▸ s.abortEntry_entry_self e)
    · exact .inl (others f same).1
  · by_cases same : f = e
    · exact .inr (same ▸ s.abortEntry_entry_self e)
    · exact .inl ((others f same).2 n mem)

/-- Every entry of a list is treated. -/
theorem foldl_abortEntry_entry (l : List EntryId) {e : EntryId} (mem : e ∈ l) :
    (l.foldl abortEntry s).entry e = (s.entry e).aborted := by
  induction l generalizing s with
  | nil => cases mem
  | cons f l ih =>
    have rest : Aborts (s.abortEntry f) (l.foldl abortEntry (s.abortEntry f)) := .foldl _ abortEntry_aborts _ _
    rw [List.foldl_cons]
    rcases List.mem_cons.1 mem with rfl | mem
    · exact rest.treated (s.abortEntry_entry_self e)
    · obtain same | treated := (s.abortEntry_aborts f).entry e
      · rw [ih _ mem, same]
      · exact rest.treated treated

theorem abortEntries_aborts (n : QpId) : Aborts s (s.abortEntries n) := .foldl _ abortEntry_aborts _ _

theorem abortAll_aborts : Aborts s s.abortAll := .foldl _ abortEntries_aborts _ _

/-- Every entry that stands in one of the lists of some queue pairs is treated. -/
theorem foldl_abortEntries_entry (l : List QpId) {n : QpId} (mem : n ∈ l) {e : EntryId} (listed : e ∈ s.inflight n) :
    (l.foldl abortEntries s).entry e = (s.entry e).aborted := by
  induction l generalizing s with
  | nil => cases mem
  | cons m l ih =>
    have first := s.abortEntries_aborts m
    have rest : Aborts (s.abortEntries m) (l.foldl abortEntries (s.abortEntries m)) := .foldl _ abortEntries_aborts _ _
    rw [List.foldl_cons]
    rcases List.mem_cons.1 mem with rfl | mem
    · exact rest.treated (s.foldl_abortEntry_entry _ listed)
    · obtain still | treated := first.listed n e listed
      · obtain same | treated := first.entry e
        · rw [ih _ mem still, same]
        · exact rest.treated treated
      · exact rest.treated treated

theorem abortAll_entry {n : QpId} {e : EntryId} (listed : e ∈ s.inflight n) : s.abortAll.entry e = (s.entry e).aborted :=
  s.foldl_abortEntries_entry _ (List.mem_finRange n) listed

/-! ## The entries once all are stopped (R22, R23) -/

/-- A listed entry that is not FETCHING is treated as an ABORT deletion treats it. -/
theorem stopped_entry {n : QpId} {e : EntryId} (listed : e ∈ s.inflight n) (other : (s.entry e).state ≠ .fetching) :
    s.withdrawFetches.abortAll.entry e = (s.entry e).aborted := by
  have withdraws := s.withdrawFetches_withdraws
  have same : s.withdrawFetches.entry e = s.entry e := (withdraws.entry e).resolve_right fun freed => other freed.1
  rw [abortAll_entry _ ((withdraws.listed n e listed).resolve_left other), same]

/-- Every listed entry is stopped: a FETCHING one is freed with its fetch withdrawn, or waits for its read's end. -/
theorem stopped_entry_stopped {n : QpId} {e : EntryId} (listed : e ∈ s.inflight n) :
    (s.withdrawFetches.abortAll.entry e).Stopped := by
  by_cases fetching : (s.entry e).state = .fetching
  · have kept : (s.withdrawFetches.entry e).state = .free ∨ (s.withdrawFetches.entry e).state = .fetching := by
      obtain same | ⟨-, freed⟩ := s.withdrawFetches_withdraws.entry e
      · exact .inr (same ▸ fetching)
      · rw [freed]
        exact .inl rfl
    obtain same | treated := s.withdrawFetches.abortAll_aborts.entry e
    · rw [same]
      exact kept.imp id .inl
    · rw [treated]
      exact Entry.aborted_stopped _
  · rw [s.stopped_entry listed fetching]
    exact Entry.aborted_stopped _

end State

end Sys2Proof.Machine
end

section
/-! SUPPORT. The start of STOPPING as a whole (R41, R94, R117, R169, R178). -/

namespace Sys2Proof.Machine

namespace State

variable (s : State)

/-! ## The executor, the window change and the invalidation (R41, R94, R169) -/

/-- An executor that holds a command, WAITING or POSTING, becomes IDLE; one whose fetch is in flight stays. -/
theorem abandonCommand_eq :
    s.abandonCommand = s.setExecutor (if s.au.executor = .fetching then .fetching else .idle) := by
  have self : s.setExecutor s.au.executor = s := rfl
  unfold abandonCommand
  cases h : s.au.executor with
  | idle => exact (h ▸ self).symm
  | fetching => exact (h ▸ self).symm
  | waiting c => rfl
  | posting c status info => rfl

/-- The held segments of a pending change are answered against the table as it stands. -/
theorem abandonWindow_eq :
    s.abandonWindow = ({ s with wu.quiesce := none } : State).releaseHeld ((s.wu.quiesce.map Quiesce.held).getD []) := by
  unfold abandonWindow
  cases h : s.wu.quiesce with
  | some q => rfl
  | none =>
    show s = { s with wu := { s.wu with quiesce := none } }
    rw [← h]

theorem abandonWindow_keeps : Keeps { s with wu.quiesce := none } s.abandonWindow := by
  rw [abandonWindow_eq]
  exact releaseHeld_keeps _ _

theorem abandonWindow_apart : Apart s s.abandonWindow :=
  Apart.trans (t := { s with wu.quiesce := none })
    ⟨⟨rfl, rfl, rfl, rfl, rfl, rfl, rfl, rfl, rfl, rfl, ⟨[], (List.append_nil _).symm⟩, rfl, rfl⟩, rfl, rfl⟩
    s.abandonWindow_keeps.apart

theorem abandonWindow_rests : Rests s s.abandonWindow := by
  rw [abandonWindow_eq]
  exact Rests.trans (t := { s with wu.quiesce := none }) (.of_same rfl rfl) (releaseHeld_rests _ _)

/-- Without a pending change none begins. -/
theorem quiesce_eq_none {s t : State} (plan : t.wu.quiesce.map Quiesce.plan = s.wu.quiesce.map Quiesce.plan)
    (clear : s.wu.quiesce = none) : t.wu.quiesce = none := by
  rwa [clear, Option.map_none, Option.map_eq_none_iff] at plan

theorem abandonInvalidation_apart : Apart s s.abandonInvalidation :=
  ⟨⟨rfl, rfl, rfl, rfl, rfl, rfl, rfl, rfl, rfl, rfl, ⟨[], (List.append_nil _).symm⟩, rfl, rfl⟩, rfl, rfl⟩

theorem abandonInvalidation_rests : Rests s s.abandonInvalidation :=
  ⟨fun _ h => h, fun _ _ => .inl, fun _ _ _ h => h, fun _ => rfl⟩

/-- The command, the window change and the invalidation in progress are abandoned. -/
def abandonAll : State := s.abandonCommand.abandonWindow.abandonInvalidation

theorem abandonCommand_rests : Rests s s.abandonCommand := by
  rw [abandonCommand_eq]
  exact .of_same rfl rfl

theorem abandonAll_rests : Rests s s.abandonAll :=
  (s.abandonCommand_rests.trans (abandonWindow_rests _)).trans (abandonInvalidation_rests _)

theorem abandonAll_apart : Apart (s.setExecutor (if s.au.executor = .fetching then .fetching else .idle)) s.abandonAll := by
  rw [← abandonCommand_eq]
  exact (abandonWindow_apart _).trans (abandonInvalidation_apart _)

theorem abandonAll_spoke_state (k : SpokeId) : (s.abandonAll.spoke k).state = (s.spoke k).state := by
  have released : (s.abandonAll.spoke k).state = (s.abandonCommand.spoke k).state := (s.abandonCommand.abandonWindow_keeps.on k).state
  rw [released, abandonCommand_eq, setExecutor_spoke]

theorem abandonAll_wire : s.abandonAll.wire = s.wire := by
  have released : s.abandonAll.wire = s.abandonCommand.wire := s.abandonCommand.abandonWindow_keeps.wire
  rw [released, abandonCommand_eq, setExecutor_wire]

theorem abandonAll_quiesce : s.abandonAll.wu.quiesce = none :=
  quiesce_eq_none (s := { s.abandonCommand with wu.quiesce := none }) s.abandonCommand.abandonWindow_keeps.plan rfl

theorem abandonAll_invalidation : s.abandonAll.tu.invalidation = none := rfl

/-! ## The start of STOPPING as a whole (R178) -/

theorem withdrawFetches_spoke (k : SpokeId) : s.withdrawFetches.spoke k = s.spoke k := by
  obtain ⟨_, _, _, e⟩ := s.withdrawFetches_withdraws.frame
  rw [e]
  rfl

theorem withdrawFetches_wire : s.withdrawFetches.wire = s.wire := by
  obtain ⟨_, _, _, e⟩ := s.withdrawFetches_withdraws.frame
  rw [e]

/-- The state in which the spokes are reset: all the rest has been withdrawn, stopped or abandoned. -/
def beforeResets : State := s.withdrawFetches.abortAll.abandonAll

theorem beginStopping_eq : s.beginStopping = s.beforeResets.stopSpokes := rfl

theorem beforeResets_rests : Rests s.withdrawFetches.abortAll s.beforeResets := by
  rw [beforeResets]
  exact abandonAll_rests _

/-- No spoke changes its state before the resets. -/
theorem beforeResets_spoke_state (k : SpokeId) : (s.beforeResets.spoke k).state = (s.spoke k).state := by
  rw [beforeResets, abandonAll_spoke_state, (s.withdrawFetches.abortAll_aborts.keeps.on k).state, withdrawFetches_spoke]

/-- No message is sent before the resets. -/
theorem beforeResets_wire : s.beforeResets.wire = s.wire := by
  rw [beforeResets, abandonAll_wire, s.withdrawFetches.abortAll_aborts.keeps.wire, withdrawFetches_wire]

/-- The posted-spoke sets' members of before stand in them as the spokes are reset. -/
theorem beforeResets_member {n : QpId} {k : SpokeId} (member : (s.posted n)[k] = .member) :
    (s.beforeResets.posted n)[k] = .member ∨ (s.beforeResets.posted n)[k] = .marked .spokeReset := by
  have same : s.withdrawFetches.abortAll.posted n = s.posted n :=
    congrArg (fun v : Vector (Vector Posted 8) 16 => v[n])
      (s.withdrawFetches.abortAll_aborts.posted.trans s.withdrawFetches_withdraws.posted)
  refine s.beforeResets_rests.member n k ?_
  rw [same]
  exact member

/-- The spokes that are reset, in ascending order (R117). -/
def resetSpokes : List SpokeId := (List.finRange 8).filter fun k => (s.spoke k).state.stops

theorem resetSpokes_sorted : s.resetSpokes.Pairwise (· < ·) := (finRange_sorted 8).filter _

theorem mem_resetSpokes (k : SpokeId) : k ∈ s.resetSpokes ↔ (s.spoke k).state ≠ .off ∧ (s.spoke k).state ≠ .resetting := by
  rw [resetSpokes, List.mem_filter, SpokeState.stops_iff]
  exact and_iff_right (List.mem_finRange k)

theorem beginStopping_resets : Resets s.resetSpokes s.beforeResets s.beginStopping := by
  have resets := Resets.foldl (List.finRange 8) (List.nodup_finRange 8) s.beforeResets
  simp only [beforeResets_spoke_state] at resets
  exact resets

theorem stopSpokes_quiet : Quiet s s.stopSpokes := .foldl _ (fun t k => by
  rw [stopSpoke_eq]
  split
  · exact t.startReset_quiet k
  · exact .refl t) _ _

theorem stopSpokes_apart : Apart s s.stopSpokes := .foldl _ (fun t k => by
  rw [stopSpoke_eq]
  split
  · exact t.startReset_apart k
  · exact .refl t) _ _

theorem beginStopping_quiesce : s.beginStopping.wu.quiesce = none := by
  rw [beginStopping_eq]
  refine quiesce_eq_none (stopSpokes_quiet _).plan ?_
  rw [beforeResets]
  exact abandonAll_quiesce _

/-- From the withdrawal of the fetches on, the blocks out of reach change by the executor alone. -/
theorem beginStopping_apart :
    Apart (s.withdrawFetches.setExecutor (if s.withdrawFetches.au.executor = .fetching then .fetching else .idle))
      s.beginStopping := by
  have stopped := s.withdrawFetches.abortAll_aborts.keeps.apart
  have abandoned := s.withdrawFetches.abortAll.abandonAll_apart
  rw [congrArg AdminUnit.executor stopped.au] at abandoned
  rw [beginStopping_eq, beforeResets]
  exact ((stopped.setExecutor _).trans abandoned).trans (stopSpokes_apart _)

/-- The blocks that the start of STOPPING changes in no other way than by the device state, the fetch list, the queue pair records and
the executor. -/
theorem beginStopping_frame :
    ∃ tt qps x, Apart { s with ctl.device := .stopping, hp.fetchList := [], tt := tt, qe.qps := qps, au.executor := x }
      s.beginStopping := by
  have apart := s.beginStopping_apart
  obtain ⟨tt, qps, x, e⟩ := s.withdrawFetches_withdraws.frame
  rw [e] at apart
  exact ⟨tt, qps, _, apart⟩

/-- A queue pair whose fetch is withdrawn has none outstanding. -/
theorem beginStopping_qp (n : QpId) :
    s.beginStopping.qp n =
      { s.qp n with
        fetching :=
          if ∃ r ∈ s.hp.fetchList, r.requester = .descriptor n ∨ (n = 0 ∧ r.requester = .command) then false
          else (s.qp n).fetching } :=
  (congrArg (fun q : QueueEngine => q.qps[n]) s.beginStopping_apart.qe).trans (foldl_withdrawFetch_qp _ _ n)

/-- The executor waits for a command fetch that has been issued, and is IDLE otherwise (R169). -/
theorem beginStopping_executor :
    s.beginStopping.au.executor =
      if s.au.executor = .fetching ∧ ∀ r ∈ s.hp.fetchList, r.requester ≠ .command then .fetching else .idle := by
  have executor : s.withdrawFetches.au.executor =
      if ∀ r ∈ s.hp.fetchList, r.requester ≠ .command then s.au.executor else .idle := foldl_withdrawFetch_executor _ _
  rw [s.beginStopping_apart.au, setExecutor_au_executor, executor]
  by_cases kept : ∀ r ∈ s.hp.fetchList, r.requester ≠ .command
  · rw [if_pos kept]
    exact if_congr (and_iff_left kept).symm rfl rfl
  · rw [if_neg kept, if_neg nofun, if_neg fun both => kept both.2]

/-- A listed entry is stopped as STOPPING begins, and stays so. -/
theorem beginStopping_entry {n : QpId} {e : EntryId} (listed : e ∈ s.inflight n) : (s.beginStopping.entry e).Stopped :=
  s.beginStopping_resets.rests.entry e (s.beforeResets_rests.entry e (s.stopped_entry_stopped listed))

theorem beginStopping_invalidation : s.beginStopping.tu.invalidation = none :=
  s.beginStopping_resets.rests.invalidation (by rw [beforeResets]; exact abandonAll_invalidation _)

theorem beginStopping_wu : s.beginStopping.wu = { windows := s.wu.windows, quiesce := none } := by
  obtain ⟨_, _, _, apart⟩ := s.beginStopping_frame
  have windows : s.beginStopping.wu.windows = s.wu.windows := apart.windows
  have quiesce := s.beginStopping_quiesce
  cases wu : s.beginStopping.wu
  rw [wu] at windows quiesce
  rw [← windows, ← quiesce]

/-- A spoke that is not reset keeps its state. -/
theorem beginStopping_spoke_state {k : SpokeId} (other : k ∉ s.resetSpokes) :
    (s.beginStopping.spoke k).state = (s.spoke k).state :=
  (s.beginStopping_resets.others k other).state.trans (s.beforeResets_spoke_state k)

/-- Every logical spoke is OFF, as before, or in its reset sequence (R117). -/
theorem beginStopping_spoke_state_eq (k : SpokeId) :
    if (s.spoke k).state = .off then (s.beginStopping.spoke k).state = .off else (s.beginStopping.spoke k).state = .resetting := by
  by_cases reset : k ∈ s.resetSpokes
  · rw [if_neg ((s.mem_resetSpokes k).1 reset).1]
    exact (s.beginStopping_resets.reset k reset).state
  · rw [s.beginStopping_spoke_state reset]
    split
    · next off => exact off
    · next on => exact not_not.1 fun other => reset ((s.mem_resetSpokes k).2 ⟨on, other⟩)

/-- The posted writes sent on a spoke that is reset take the mark (R12, R117). -/
theorem beginStopping_marks {n : QpId} {k : SpokeId} (reset : k ∈ s.resetSpokes) (member : (s.posted n)[k] = .member) :
    (s.beginStopping.posted n)[k] = .marked .spokeReset :=
  (s.beforeResets_member member).elim (s.beginStopping_resets.marks k reset n) (s.beginStopping_resets.rests.marked n k _)

/-- One LINK_RESET is sent on each spoke that is reset, in ascending order (R117). -/
theorem beginStopping_frames :
    s.beginStopping.wire.frames = s.wire.frames ++ s.resetSpokes.map fun k => { spoke := k, message := .linkReset } := by
  rw [s.beginStopping_resets.frames, beforeResets_wire]

end State

namespace State

variable (s : State)

theorem disable_of_active (active : s.ctl.device = .ready ∨ s.ctl.device = .halted) : s.disable = s.beginStopping.settle :=
  if_pos active

theorem disable_of_ignored (ignored : s.ctl.device = .disabled ∨ s.ctl.device = .stopping) : s.disable = s :=
  if_neg fun active => by rcases ignored with h | h <;> simp [h] at active

/-- A withdrawn descriptor fetch frees the FETCHING entry of its queue pair, if it has one (R23). -/
theorem withdrawFetch_descriptor (n : QpId) (address length : Nat) :
    s.withdrawFetch { requester := .descriptor n, address := address, length := length } =
      match s.fetchingEntry n with
      | some e => (s.setQp n { s.qp n with fetching := false }).entryFreed e
      | none => s.setQp n { s.qp n with fetching := false } := by
  have found : (s.setQp n { s.qp n with fetching := false }).fetchingEntry n = s.fetchingEntry n := rfl
  have drop : s.withdrawFetch { requester := .descriptor n, address := address, length := length } =
      (s.setQp n { s.qp n with fetching := false }).dropFetch n := rfl
  rw [drop]
  cases h : s.fetchingEntry n with
  | some e => exact dropFetch_eq_entryFreed (found.trans h)
  | none => rw [dropFetch, found, h]

section
variable {n : QpId} {e : EntryId} (listed : e ∈ s.inflight n)
include listed

/-- An entry with nothing left to wind down is freed (R22). -/
theorem stopped_entry_of_ended
    (ends : (s.entry e).state = .gated ∨ (s.entry e).state = .flushing ∨ (s.entry e).state = .done ∨
      (((s.entry e).state = .running ∨ (s.entry e).state = .winding) ∧ (s.entry e).live = 0)) :
    s.withdrawFetches.abortAll.entry e = {} := by
  have other : (s.entry e).state ≠ .fetching := fun fetching => by simp [fetching] at ends
  rw [s.stopped_entry listed other]
  obtain gated | flushing | done | ⟨active, empty⟩ := ends
  · exact Entry.aborted_of_ended (.inl gated)
  · exact Entry.aborted_of_ended (.inr (.inl flushing))
  · exact Entry.aborted_of_ended (.inr (.inr done))
  · exact (Entry.aborted_of_active active).trans (if_pos empty)

/-- An entry with live segments records its cursor as its stop offset and winds down (R16, R22). -/
theorem stopped_entry_of_live (active : (s.entry e).state = .running ∨ (s.entry e).state = .winding)
    (live : (s.entry e).live ≠ 0) :
    s.withdrawFetches.abortAll.entry e = { s.entry e with state := .winding, stop := some (s.entry e).cursor } := by
  have other : (s.entry e).state ≠ .fetching := fun fetching => by simp [fetching] at active
  rw [s.stopped_entry listed other, Entry.aborted_of_active active, if_neg live]

end

end State

/-- Settles O28: the sequence of the start of STOPPING, and what its parts change and leave. -/
theorem enableClearBeginsStopping : Obligations.EnableClearBeginsStopping := by
  refine fun s => ⟨fun ignored => congrArg Host.Outcome.next (s.disable_of_ignored ignored), fun active => ?_⟩
  intro withdraw withdrawn stopped left released reset u
  have withdraws : withdraw = State.withdrawFetch := by
    funext t ⟨requester, address, length⟩
    cases requester with
    | descriptor n =>
      rw [t.withdrawFetch_descriptor]
      rfl
    | command => rfl
    | walk w => rfl
    | data i => rfl
  have isWithdrawn : withdrawn = s.withdrawFetches := by
    dsimp only [withdrawn]
    rw [withdraws]
    rfl
  have isStopped : stopped = s.withdrawFetches.abortAll := by
    rw [← isWithdrawn]
    rfl
  have isLeft : left = stopped.abandonCommand := by
    dsimp only [left]
    unfold State.abandonCommand
    cases stopped.au.executor <;> rfl
  have isReleased : released = left.abandonWindow := by
    have wu : left.wu = s.wu := by
      obtain ⟨_, _, _, e⟩ := s.withdrawFetches_withdraws.frame
      rw [isLeft, State.abandonCommand_eq, State.setExecutor_wu, isStopped, s.withdrawFetches.abortAll_aborts.wu, e]
    dsimp only [released]
    unfold State.abandonWindow
    rw [wu]
    cases s.wu.quiesce <;> rfl
  have resets : reset = State.stopSpoke := by
    funext t k
    rw [State.stopSpoke_eq]
    by_cases stops : (t.spoke k).state.stops = true
    · have both := (SpokeState.stops_iff _).1 stops
      exact (if_neg (not_or.2 both)).trans (if_pos stops).symm
    · have either := not_and_or.1 (mt (SpokeState.stops_iff _).2 stops)
      exact (if_pos (either.imp not_not.1 not_not.1)).trans (if_neg stops).symm
  have isStopping : u = s.beginStopping := by
    dsimp only [u]
    rw [resets, isReleased, isLeft, isStopped]
    rfl
  rw [isStopping, isStopped]
  obtain ⟨tt, qps, x, apart⟩ := s.beginStopping_frame
  refine ⟨congrArg Host.Outcome.next (s.disable_of_active active), fun n e listed => ⟨fun ends => ?_, fun runs live => ?_⟩,
    apart.ctl, apart.fetchList, apart.places, s.beginStopping_wu, s.beginStopping_invalidation, apart.contexts, apart.low,
    apart.high, apart.carrierIn, by rw [apart.au], by rw [apart.au], by rw [apart.qe], by rw [apart.qe],
    s.beginStopping_qp, s.beginStopping_executor,
    fun n e listed => s.beginStopping_entry listed, s.beginStopping_spoke_state_eq, fun k on other => ?_, apart.sent,
    s.resetSpokes, s.resetSpokes_sorted, s.mem_resetSpokes, s.beginStopping_frames⟩
  · exact s.stopped_entry_of_ended listed ends
  · exact s.stopped_entry_of_live listed runs live
  · have reset := (s.mem_resetSpokes k).2 ⟨on, other⟩
    obtain ⟨-, credits, tags, flushes, issue⟩ := s.beginStopping_resets.reset k reset
    exact ⟨credits, tags, flushes, issue, fun n => s.beginStopping_marks reset⟩

end Sys2Proof.Machine
end

section
/-! SUPPORT. Records that software writes, read back (R181, R184, 11.1, 11.4): a record put together again from its
fields, and a command's record from what is read of it. -/

namespace Sys2Proof

/-! ## Numbers in a record (11) -/

/-- A number that its bytes have room for is read back. -/
theorem leNat_leBytes_of_lt {n v : Nat} (fits : v < 256 ^ n) : leNat (leBytes n v) = v :=
  (leNat_leBytes n v).trans (Nat.mod_eq_of_lt fits)

theorem leNat_lt (bytes : List Byte) : leNat bytes < 256 ^ bytes.length := by
  induction bytes with
  | nil => exact Nat.one_pos
  | cons b bs ih =>
    have low := b.isLt
    rw [leNat, List.length_cons, Nat.pow_succ]
    omega

/-- Bytes are the little-endian bytes of the number they hold. -/
theorem leBytes_leNat (bytes : List Byte) : leBytes bytes.length (leNat bytes) = bytes := by
  induction bytes with
  | nil => rfl
  | cons b bs ih =>
    have high : (b.toNat + 256 * leNat bs) / 256 = leNat bs := by
      have low := b.isLt
      omega
    have low : BitVec.ofNat 8 (b.toNat + 256 * leNat bs) = b :=
      BitVec.eq_of_toNat_eq ((Nat.add_mul_mod_self_left _ _ _).trans (Nat.mod_eq_of_lt b.isLt))
    rw [List.length_cons, leNat, leBytes, high, low, ih]

/-- A field read as a word of its width is written as the bytes that stand there. -/
theorem leBytes_field {rec : List Byte} {i n : Nat} (inside : i + n ≤ rec.length) :
    leBytes n (BitVec.ofNat (8 * n) (field rec i n)).toNat = (rec.drop i).take n := by
  have length : ((rec.drop i).take n).length = n := by
    rw [List.length_take, List.length_drop]
    omega
  have fits : field rec i n < 2 ^ (8 * n) := by
    have bound := leNat_lt ((rec.drop i).take n)
    rwa [length, ← Nat.pow_mul 2 8 n] at bound
  have bytes := leBytes_leNat ((rec.drop i).take n)
  rw [length] at bytes
  rwa [BitVec.toNat_ofNat, Nat.mod_eq_of_lt fits]

/-! ## Descriptors (R181, 11.1) -/

theorem decodeDescriptor_encodeDescriptor {d : Descriptor} (length : d.length < 2 ^ 32) (fabric : d.fabric < 2 ^ 64)
    (near : d.near < 2 ^ 64) : decodeDescriptor (encodeDescriptor d) = d :=
  (Descriptor.mk.injEq ..).mpr
    ⟨rfl, rfl, ofNat_leNat_leBytes (n := 4) (by decide) d.tag, leNat_leBytes_of_lt (n := 4) length,
      leNat_leBytes_of_lt (n := 8) fabric, leNat_leBytes_of_lt (n := 8) near⟩

/-! ## A record put together from its fields -/

/-- From byte i on, a record holds these bytes and no more. -/
def HoldsFrom (rec : List Byte) (i : Nat) (bytes : List Byte) : Prop := rec.drop i = bytes

/-- A command record of the full length, with 0 in every byte that the layout of this opcode marks r as a whole (R184). -/
structure Unmarked (rec : List Byte) (opcode : Byte) : Prop where
  length : rec.length = 32
  clear : ∀ j ∈ [1, 2, 3] ++ reservedBytes opcode, byteAt rec j = 0

namespace Unmarked

variable {rec bytes : List Byte} {opcode : Byte} {i : Nat} (h : Unmarked rec opcode)
include h

theorem nothing : HoldsFrom rec 32 [] := List.drop_of_length_le h.length.le

theorem byte (rest : HoldsFrom rec (i + 1) bytes) (inside : i + 1 ≤ 32 := by decide) :
    HoldsFrom rec i (byteAt rec i :: bytes) := by
  have within : i < rec.length := h.length ▸ inside
  rw [HoldsFrom, List.drop_eq_getElem_cons within, rest, byteAt, List.getD_eq_getElem _ _ within]

theorem number (n : Nat) (rest : HoldsFrom rec (i + n) bytes) (inside : i + n ≤ 32 := by decide) :
    HoldsFrom rec i (leBytes n (BitVec.ofNat (8 * n) (field rec i n)).toNat ++ bytes) := by
  rw [HoldsFrom, leBytes_field (h.length ▸ inside), ← rest, ← List.drop_drop, List.take_append_drop]

theorem reserved (n : Nat) (rest : HoldsFrom rec (i + n) bytes)
    (marked : (List.range' i n).all ([1, 2, 3] ++ reservedBytes opcode).contains = true := by rfl)
    (inside : i + n ≤ 32 := by decide) : HoldsFrom rec i (List.replicate n 0 ++ bytes) := by
  induction n generalizing i with
  | zero => exact rest
  | succ n ih =>
    rw [List.range'_succ, List.all_cons, Bool.and_eq_true, List.contains_iff_mem] at marked
    obtain ⟨first, others⟩ := marked
    have tail := h.byte (ih (by rwa [Nat.add_right_comm]) others (by omega)) (by omega)
    rwa [h.clear i first] at tail

end Unmarked

/-! ## Command records (R184, 11.4) -/

theorem reservedSet_eq_false_iff (rec : List Byte) :
    reservedSet rec = false ↔
      (∀ j ∈ [1, 2, 3] ++ reservedBytes (byteAt rec 0), byteAt rec j = 0) ∧ reservedBitsSet rec = false := by
  simp only [reservedSet, Bool.or_eq_false_iff, List.any_eq_false, bne_iff_ne, not_not]

/-- Byte 11 of CREATE_QUEUE is its two fields when its reserved bits are 0 (11.4). -/
theorem vectorNotify_of_clear (b : Byte) (clear : (b.extractLsb' 6 2 != 0) = false) :
    ((b.setWidth 4).setWidth 8 ||| ((b.extractLsb' 4 2).setWidth 8 <<< 4)) = b := by
  revert b
  decide

/-- Byte 12 of SET_WINDOW is its posted bit when its reserved bits are 0 (11.4). -/
theorem posted_of_clear (b : Byte) (clear : (b.extractLsb' 1 7 != 0) = false) :
    (if b.getLsbD 0 then 1 else 0) = b := by
  revert b
  decide

theorem opcode_of_decode {rec : List Byte} {c : AdminCommand} (command : decodeCommandFields rec = some c) :
    byteAt rec 0 = c.opcode := by
  unfold decodeCommandFields at command
  split at command
  case h_14 => cases command
  all_goals
    next opcode =>
    cases command
    exact BitVec.eq_of_toNat_eq opcode

section
variable {rec : List Byte} {c : AdminCommand} (length : rec.length = 32) (command : decodeCommandFields rec = some c)
  (clear : reservedSet rec = false)
include length command clear

/-- Bytes 8 to 31 of a record without reserved bits are the parameters that are read of it (R184). -/
theorem encodeParameters_of_decode : HoldsFrom rec 8 (encodeParameters c) := by
  have opcode := opcode_of_decode command
  obtain ⟨bytes, bits⟩ := (reservedSet_eq_false_iff rec).1 clear
  have h : Unmarked rec c.opcode := ⟨length, opcode ▸ bytes⟩
  rw [reservedBitsSet, opcode] at bits
  rw [decodeCommandFields, opcode] at command
  cases c with
  | createQueue p =>
    obtain rfl := AdminCommand.createQueue.inj (Option.some.inj command)
    rw [encodeParameters, vectorNotify_of_clear _ bits]
    simp only [List.append_assoc, List.cons_append, List.nil_append]
    exact h.byte <| h.byte <| h.byte <| h.byte <| h.number 2 <| h.number 2 <| h.number 8 <| h.number 8 h.nothing
  | deleteQueue p =>
    obtain rfl := AdminCommand.deleteQueue.inj (Option.some.inj command)
    exact h.byte <| h.byte <| h.reserved 22 h.nothing
  | setContext p =>
    obtain rfl := AdminCommand.setContext.inj (Option.some.inj command)
    simp only [encodeParameters, List.append_assoc]
    exact h.byte <| h.byte <| h.byte <| h.reserved 1 <| h.number 4 <| h.number 8 <| h.reserved 8 h.nothing
  | invalidatePages p =>
    obtain rfl := AdminCommand.invalidatePages.inj (Option.some.inj command)
    simp only [encodeParameters, List.append_assoc]
    exact h.byte <| h.reserved 3 <| h.number 4 <| h.number 4 <| h.reserved 12 h.nothing
  | setWindow p =>
    obtain rfl := AdminCommand.setWindow.inj (Option.some.inj command)
    rw [encodeParameters, posted_of_clear _ bits]
    simp only [List.append_assoc]
    exact h.byte <| h.byte <| h.byte <| h.byte <| h.byte <| h.reserved 3 <| h.number 6 <| h.reserved 2 <| h.number 6 <|
      h.reserved 2 h.nothing
  | setBundle half layout =>
    obtain ⟨rfl, rfl⟩ := AdminCommand.setBundle.inj (Option.some.inj command)
    exact h.byte <| h.byte <| h.reserved 22 h.nothing
  | spokeStart p =>
    obtain rfl := AdminCommand.spokeStart.inj (Option.some.inj command)
    simp only [encodeParameters, List.append_assoc]
    exact h.byte <| h.reserved 1 <| h.number 2 <| h.reserved 20 h.nothing
  | query p =>
    obtain rfl := AdminCommand.query.inj (Option.some.inj command)
    simp only [encodeParameters, List.append_assoc]
    exact h.byte <| h.byte <| h.reserved 6 <| h.number 8 <| h.reserved 8 h.nothing
  | clearContext | invalidateContext | clearWindow | spokeStop | spokeReset =>
    cases command
    exact h.byte <| h.reserved 23 h.nothing

/-- A record without reserved bits is what software writes for the command that is read of it (R184). -/
theorem eq_encodeCommand_of_decode : rec = encodeCommand (BitVec.ofNat 32 (field rec 4 4)) c := by
  have opcode := opcode_of_decode command
  obtain ⟨bytes, -⟩ := (reservedSet_eq_false_iff rec).1 clear
  have h : Unmarked rec c.opcode := ⟨length, opcode ▸ bytes⟩
  have whole := h.byte (i := 0) <| h.reserved 3 <| h.number 4 <| encodeParameters_of_decode length command clear
  rw [opcode] at whole
  exact whole

end

/-- Settles O9: a written record is read by its fields, and a record read without reserved bits is put together from them. -/
theorem softwareRecordsReadBack : Obligations.SoftwareRecordsReadBack := by
  refine ⟨⟨fun tag c => ⟨encodeCommand_length tag c, decodeCommand_encodeCommand tag c⟩, fun d length fabric near =>
    ⟨rfl, decodeDescriptor_encodeDescriptor length fabric near⟩⟩, fun rec tag c length command head => ?_⟩
  obtain ⟨word, clear⟩ := (CommandHead.mk.injEq ..).mp head
  rw [← word]
  exact eq_encodeCommand_of_decode length command clear

end Sys2Proof
end

section
/-! SUPPORT. Completion and event records (R146, R159, R167, R182, 11.2, 11.3): a number, a code and flags written into a record
are the field that stands there. -/

namespace Sys2Proof

/-! ## A field as it was written (11) -/

section
variable {rec : List Byte} {start n v : Nat}

theorem field_eq_mod (written : field rec start n = leNat (leBytes n v)) : field rec start n = v % 256 ^ n :=
  written.trans (leNat_leBytes n v)

theorem field_eq (fits : v < 256 ^ n) (written : field rec start n = leNat (leBytes n v)) : field rec start n = v :=
  written.trans (leNat_leBytes_of_lt fits)

theorem field_eq_zero (written : field rec start n = leNat (leBytes n 0)) : field rec start n = 0 :=
  field_eq (Nat.pow_pos (by decide)) written

/-- A code written into one byte is the position of what it stands for. -/
theorem getElem?_field {α : Type} {codes : List α} {x : α} (coded : codes[v]? = some x)
    (written : field rec start 1 = leNat (leBytes 1 v)) (short : codes.length ≤ 256 := by decide) :
    codes[field rec start 1]? = some x := by
  obtain ⟨position, -⟩ := List.getElem?_eq_some_iff.1 coded
  rw [field_eq (position.trans_le short) written, coded]

end

end Sys2Proof

namespace Sys2Proof.Machine

/-! ## Codes (11.3) -/

theorem Status.getElem?_code (x : Status) :
    ([.ok, .badDescriptor, .unmapped, .windowAccess, .translationFault, .hostReadError, .spokeUnavailable, .spokeTimeout,
      .spokeReset, .linkLost, .targetError, .noTarget] : List Status)[x.code]? = some x := by cases x <;> rfl

theorem AdminStatus.getElem?_code (x : AdminStatus) :
    ([.ok, .badCommand, .badParameter, .inUse, .wrongState, .overlap, .trainFailed] : List AdminStatus)[x.code]? = some x := by
  cases x <;> rfl

theorem EventKind.getElem?_code (x : EventKind) :
    ([none, some .spokeUp, some .spokeTrainFailed, some .spokeFaulted, some .spokeLinkLost, some .queueFailed] :
      List (Option EventKind))[x.code]? = some (some x) := by cases x <;> rfl

theorem EventReason.getElem?_code (x : EventReason) :
    ([.none, .timeout, .creditStall, .linkErrors, .fetchError, .badIndex] : List EventReason)[x.code]? = some x := by
  cases x <;> rfl

theorem EventSource.code_lt (x : EventSource) : x.code < 256 := by
  cases x with
  | spoke k => exact k.isLt.trans (by decide)
  | queue n => exact n.isLt.trans (by decide)

/-! ## Flags -/

theorem flagBit_le (b : Bool) (i : Nat) : flagBit b i ≤ 2 ^ i := by
  unfold flagBit
  split
  · exact le_rfl
  · exact Nat.zero_le _

theorem field_one_flag {rec : List Byte} {start : Nat} {b : Bool} (written : field rec start 1 = leNat (leBytes 1 (flagBit b 0))) :
    field rec start 1 = if b = true then 1 else 0 := field_eq ((flagBit_le b 0).trans_lt (by decide)) written

/-- Settles O11: each record field by field, as the bytes of its numbers. -/
theorem writtenRecordsHoldTheirFields : Obligations.WrittenRecordsHoldTheirFields := by
  refine ⟨fun x lap next length offset detail index => ?_, fun c status info lap next word index => ?_,
    fun e overflow lap next count index => ?_⟩ <;> intro r
  · have done : x.bytesDone ≤ x.length := (bytesDone_isLeast x).2 (.inl rfl)
    have flags : flagBit lap 0 + flagBit x.dropped 1 < 256 := by
      have first := flagBit_le lap 0
      have second := flagBit_le x.dropped 1
      omega
    exact ⟨rfl, field_eq x.tag.isLt rfl, field_eq (by omega) rfl, getElem?_field (Status.getElem?_code _) rfl,
      field_eq (by omega) rfl, field_eq flags rfl, field_eq detail rfl, field_eq (by omega) rfl⟩
  · exact ⟨rfl, field_eq c.tag.isLt rfl, field_eq word rfl, getElem?_field (AdminStatus.getElem?_code status) rfl, rfl,
      field_eq_zero rfl, field_eq (by omega) rfl, field_eq_zero rfl, field_one_flag rfl⟩
  · have flags : flagBit lap 0 + 2 + flagBit overflow 2 < 256 := by
      have first := flagBit_le lap 0
      have second := flagBit_le overflow 2
      omega
    have source : field r 0 1 = e.source.code := field_eq e.source.code_lt rfl
    exact ⟨rfl, source, getElem?_field (EventKind.getElem?_code _) rfl, getElem?_field (EventReason.getElem?_code _) rfl,
      field_eq (by omega) rfl, field_eq_zero rfl, field_eq (by omega) rfl, field_eq_zero rfl, field_eq flags rfl⟩

end Sys2Proof.Machine
end

section
/-! SUPPORT. The QUERY snapshots (R162 to R164, 11.7): a record as the numbers it is written from, the bits of a byte of flags,
the counts, and the records that a snapshot holds one behind the other. -/

namespace Sys2Proof

/-! ## Numbers one behind the other (11) -/

/-- Numbers written one behind the other, each with the count of its bytes. -/
def numbers (parts : List (Nat × Nat)) : List Byte := parts.flatMap fun p => leBytes p.1 p.2

theorem numbers_nil : numbers [] = [] := rfl

theorem numbers_cons (n v : Nat) (parts : List (Nat × Nat)) : numbers ((n, v) :: parts) = leBytes n v ++ numbers parts := rfl

/-- The count of bytes and the number that begin at a byte. -/
def numberAt : List (Nat × Nat) → Nat → Option (Nat × Nat)
  | [], _ => none
  | p :: parts, start => if start = 0 then some p else if p.1 ≤ start then numberAt parts (start - p.1) else none

theorem field_numbers {parts : List (Nat × Nat)} {start n v : Nat} (stands : numberAt parts start = some (n, v)) :
    field (numbers parts) start n = leNat (leBytes n v) := by
  induction parts generalizing start with
  | nil => cases stands
  | cons p parts ih =>
    rw [numberAt] at stands
    rw [numbers_cons, field]
    split at stands
    · next first =>
      cases stands
      rw [first, List.drop_zero, List.take_left' (leBytes_length n v)]
    · obtain ⟨behind, stands⟩ := Option.ite_none_right_eq_some.1 stands
      have passed : (leBytes p.1 p.2).length ≤ start := (leBytes_length _ _).trans_le behind
      rw [List.drop_append, List.drop_of_length_le passed, List.nil_append, leBytes_length]
      exact ih stands

/-- The number that a record is written with at a byte is the field that begins there. -/
theorem field_of_parts {rec : List Byte} {parts : List (Nat × Nat)} (layout : rec = numbers parts) ⦃start n v : Nat⦄
    (stands : numberAt parts start = some (n, v)) : field rec start n = leNat (leBytes n v) := layout ▸ field_numbers stands

end Sys2Proof

namespace Sys2Proof.Machine

/-- Bytes of 0 are the number 0. -/
theorem zeros_eq_leBytes (n : Nat) : zeros n = leBytes n 0 := by
  induction n with
  | zero => rfl
  | succ n ih => exact congrArg (0 :: ·) ih

/-! ## Bytes of flags (11.7) -/

/-- Flags at the bits 0 to n - 1 are the number with those bits. -/
theorem sum_flagBit {n : Nat} (f : Fin n → Bool) : ∑ i : Fin n, flagBit (f i) i.val = Nat.ofBits f := by
  induction n with
  | zero => rfl
  | succ n ih =>
    have double (b : Bool) (i : Nat) : flagBit b (i + 1) = 2 * flagBit b i := by cases b <;> simp [flagBit, Nat.pow_succ']
    have first : flagBit (f 0) 0 = (f 0).toNat := by cases f 0 <;> rfl
    have others : ∑ i : Fin n, flagBit (f i.succ) i.val = Nat.ofBits (f ∘ Fin.succ) := ih (f ∘ Fin.succ)
    rw [Fin.sum_univ_succ, Nat.ofBits_succ, ← others, Finset.mul_sum, Nat.add_comm]
    simp only [Fin.val_succ, Fin.val_zero, double, first]

theorem three_flags (a b c : Bool) : flagBit a 0 + flagBit b 1 + flagBit c 2 = Nat.ofBits ![a, b, c] := by
  rw [← sum_flagBit, Fin.sum_univ_three]
  rfl

theorem four_flags (a b c d : Bool) :
    flagBit a 0 + flagBit b 1 + flagBit c 2 + flagBit d 3 = Nat.ofBits ![a, b, c, d] := by
  rw [← sum_flagBit, Fin.sum_univ_four]
  rfl

theorem five_flags (a b c d e : Bool) :
    flagBit a 0 + flagBit b 1 + flagBit c 2 + flagBit d 3 + flagBit e 4 = Nat.ofBits ![a, b, c, d, e] := by
  rw [← sum_flagBit, Fin.sum_univ_five]
  rfl

theorem State.postedBits_eq (v : Vector Posted 8) : State.postedBits v = Nat.ofBits fun k : Fin 8 => v[k] != .absent := by
  rw [← sum_flagBit, Fin.sum_univ_def]
  rfl

theorem field_flags (start : Nat) {rec : List Byte} {v n : Nat} {f : Fin n → Bool} (flags : v = Nat.ofBits f)
    (written : field rec start 1 = leNat (leBytes 1 v)) (few : n ≤ 8 := by decide) :
    field rec start 1 < 2 ^ n ∧ ∀ i : Fin n, (field rec start 1).testBit i.val = f i := by
  have bound : Nat.ofBits f < 2 ^ n := Nat.ofBits_lt_two_pow f
  have value : field rec start 1 = Nat.ofBits f := by
    rw [field_eq ((flags ▸ bound).trans_le (Nat.pow_le_pow_right (by decide) few)) written, flags]
  rw [value]
  exact ⟨bound, fun i => Nat.testBit_ofBits_lt f i.val i.isLt⟩

/-! ## Counts and numbers of a collection's members -/

theorem field_fin {rec : List Byte} {start n : Nat} {i : Fin n} (written : field rec start 1 = leNat (leBytes 1 i.val))
    (few : n ≤ 256 := by decide) : field rec start 1 = i.val := field_eq (i.isLt.trans_le few) written

theorem field_count {rec : List Byte} {start v n : Nat} {p : Fin n → Bool} (count : v = ((List.finRange n).filter p).length)
    (written : field rec start 1 = leNat (leBytes 1 v)) (few : n < 256 := by decide) :
    field rec start 1 = ((List.finRange n).filter p).length := by
  have most : v ≤ n := calc
    v = ((List.finRange n).filter p).length := count
    _ ≤ (List.finRange n).length := List.length_filter_le _ _
    _ = n := List.length_finRange
  rw [field_eq (most.trans_lt few) written, count]

/-! ## Records one behind the other -/

/-- Of records of one size, the record of each member stands at its place. -/
theorem take_drop_flatMap {α : Type} {size : Nat} {part : α → List Byte} (sizes : ∀ x, (part x).length = size) {l : List α}
    {j : Nat} {x : α} (listed : l[j]? = some x) : ((l.flatMap part).drop (size * j)).take size = part x := by
  induction l generalizing j with
  | nil => cases listed
  | cons y l ih =>
    rw [List.flatMap_cons]
    cases j with
    | zero =>
      cases listed
      exact List.take_left' (sizes x)
    | succ j =>
      rw [Nat.mul_succ, Nat.add_comm, ← List.drop_drop, List.drop_left' (sizes y)]
      exact ih listed

namespace State

variable (s : State)

theorem field_queueSnapshot (n : QpId) {start m : Nat} (within : start + m ≤ 64) :
    field (s.queueSnapshot n) start m = field (s.queuePart n) start m := field_append _ (by rwa [s.queuePart_length])

theorem entryPart_stands {n : QpId} {j : Nat} {e : EntryId} (listed : (s.inflight n)[j]? = some e) :
    ((s.queueSnapshot n).drop (64 + 32 * j)).take 32 = s.entryPart e := by
  rw [queueSnapshot, ← List.drop_drop, List.drop_left' (s.queuePart_length n)]
  exact take_drop_flatMap s.entryPart_length listed

theorem windowPart_stands (w : WindowId) : (s.windowsSnapshot.drop (32 * w.val)).take 32 = s.windowPart w :=
  take_drop_flatMap s.windowPart_length (by simp)

theorem boundQps_eq (c : ContextId) :
    s.boundQps c = (List.finRange 16).filter fun n => decide (n ≠ 0 ∧ (s.qp n).state ≠ .empty ∧ (s.qp n).context = c) := by
  refine List.filter_congr fun n _ => ?_
  rw [Bool.eq_iff_iff]
  simp [and_assoc]

end State

/-! ## Codes (11.4, 11.7) -/

theorem SpokeState.getElem?_code (x : SpokeState) :
    ([.off, .training, .up, .draining, .faulted, .resetting] : List SpokeState)[x.code]? = some x := by cases x <;> rfl

theorem QpState.getElem?_code (x : QpState) :
    ([.empty, .running, .failed, .draining, .aborting] : List QpState)[x.code]? = some x := by cases x <;> rfl

theorem Notify.getElem?_code (x : Notify) : ([.none, .flagged, .all] : List Notify)[x.code]? = some x := by cases x <;> rfl

theorem EntryState.getElem?_code (x : EntryState) :
    ([.free, .fetching, .gated, .running, .winding, .flushing, .done] : List EntryState)[x.code]? = some x := by
  cases x <;> rfl

theorem Kind.getElem?_code (x : Option Kind) :
    ([none, some .gather, some .scatter, some .relay, some .fill, some .fence, some .mark] :
      List (Option Kind))[(x.map Kind.code).getD 0]? = some x := by
  cases x with
  | none => rfl
  | some k => cases k <;> rfl

theorem Form.getElem?_code (x : Form) : ([.full, .loc] : List Form)[x.code]? = some x := by cases x <;> rfl

theorem Access.getElem?_code (x : Access) : ([.readWrite, .readOnly, .writeDrop] : List Access)[x.code]? = some x := by
  cases x <;> rfl

theorem ContextMode.getElem?_code (x : ContextMode) : ([.off, .bypass, .translate] : List ContextMode)[x.code]? = some x := by
  cases x <;> rfl

theorem PageSize.getElem?_code (x : PageSize) : ([.k4, .k64, .m2] : List PageSize)[x.code]? = some x := by cases x <;> rfl

/-! ## The snapshots as the numbers they are written from (11.7) -/

namespace State

variable (s : State)

theorem spokeSnapshot_eq_numbers (k : SpokeId) :
    let x := s.spoke k
    s.spokeSnapshot k =
      numbers [(1, k.val), (1, x.state.code), (1, (s.layoutOf k).code),
        (1, flagBit (s.carrierPresent k) 0 + flagBit (s.carrierOut k) 1 + flagBit (s.creditWaitRunning k) 2),
        (2, x.timeout.toNat), (1, x.grant), (1, x.credits), (1, x.outstandingTags), (1, x.quarantinedTags), (1, x.linkErrors),
        (1, x.drainTimeouts), (1, x.attempt), (1, x.flushList.length), (2, (s.issue k).length), (48, 0)] := by
  unfold spokeSnapshot
  simp only [numbers_cons, numbers_nil, List.append_assoc, List.append_nil, zeros_eq_leBytes]

theorem queuePart_eq_numbers (n : QpId) :
    let q := s.qp n
    s.queuePart n =
      numbers [(1, n.val), (1, (s.qpState n).code), (1, q.context.val), (1, q.depth), (1, q.vector.val), (1, q.notify.code),
        (1, flagBit q.fetching 0 + flagBit q.lap 1 + flagBit (s.qe.arms[q.vector] == .fired) 2 +
          flagBit s.hp.messagePending[q.vector] 3),
        (1, postedBits (s.posted n)), (2, q.sqSize), (2, q.cqSize), (2, q.tail), (2, q.fetchIndex), (2, q.writeIndex),
        (2, q.head), (2, s.unconsumed n), (2, s.pendingCount n), (1, (s.inflight n).length), (1, s.held n), (6, 0),
        (8, q.sqBase), (8, q.cqBase), (16, 0)] := by
  unfold queuePart
  simp only [numbers_cons, numbers_nil, List.append_assoc, List.append_nil, zeros_eq_leBytes]

theorem entryPart_eq_numbers (e : EntryId) :
    let x := s.entry e
    s.entryPart e =
      numbers [(1, e.val), (1, x.state.code), (1, (x.kind.map Kind.code).getD 0),
        (1, flagBit x.ordered 0 + flagBit x.notify 1 + flagBit x.dropped 2 + flagBit x.failed.isSome 3 +
          flagBit x.stop.isSome 4),
        (2, x.subIndex), (1, x.live), (1, x.flushes), (4, x.tag.toNat), (3, x.length), (1, x.outcome.status.code),
        (3, x.cursor), (3, (x.failed.map LowestFailure.offset).getD 0), (3, x.stop.getD 0), (3, x.bytesDone),
        (2, x.outcome.detail), (2, 0)] := by
  unfold entryPart
  simp only [numbers_cons, numbers_nil, List.append_assoc, List.append_nil, zeros_eq_leBytes]

theorem windowPart_eq_numbers (w : WindowId) :
    let x := s.window w
    s.windowPart w =
      numbers [(1, w.val), (1, flagBit x.enabled 0), (1, x.target.val), (1, x.form.code), (1, x.access.code),
        (1, flagBit x.posted 0), (2, 0), (8, x.base), (8, x.size), (8, 0)] := by
  unfold windowPart
  simp only [numbers_cons, numbers_nil, List.append_assoc, List.append_nil, zeros_eq_leBytes]

theorem contextSnapshot_eq_numbers (c : ContextId) :
    let x := s.context c
    s.contextSnapshot c =
      numbers [(1, c.val), (1, x.mode.code), (1, x.pageSize.code), (1, 0), (4, x.dirLength), (8, x.dirBase),
        (1, s.cacheCount c), (1, s.walkCount c), (1, (s.boundQps c).length), (1, s.tu.victim.val),
        (1, s.tu.cache.toList.countP Option.isSome), (43, 0)] := by
  unfold contextSnapshot
  simp only [numbers_cons, numbers_nil, List.append_assoc, List.append_nil, zeros_eq_leBytes]

end State

/-- Settles O45: each snapshot field by field, from the numbers it is written from. -/
theorem snapshotsHoldTheirFields : Obligations.SnapshotsHoldTheirFields := by
  refine ⟨fun s k => ?_, fun s n => ?_, fun s w => ?_, fun s c => ?_⟩
  · intro r x
    have part := field_of_parts (s.spokeSnapshot_eq_numbers k)
    obtain ⟨below, flag⟩ :=
      field_flags 3 (three_flags (s.carrierPresent k) (s.carrierOut k) (s.creditWaitRunning k)) (part rfl)
    exact ⟨s.spokeSnapshot_length k, field_fin (part rfl), getElem?_field (SpokeState.getElem?_code _) (part rfl),
      getElem?_field (layouts_code (s.layoutOf k)) (part rfl), (Bool.eq_iff_iff.1 (flag 0)).trans (s.carrierPresent_iff k),
      (Bool.eq_iff_iff.1 (flag 1)).trans bne_iff_ne, (Bool.eq_iff_iff.1 (flag 2)).trans (s.creditWaitRunning_iff k),
      below, field_eq x.timeout.isLt (part rfl), field_eq_mod (part rfl), field_eq_mod (part rfl),
      field_count (countP_toList_eq_length _ _) (part rfl), field_count (countP_toList_eq_length _ _) (part rfl),
      field_eq_mod (part rfl), field_eq_mod (part rfl), field_eq_mod (part rfl), field_eq_mod (part rfl),
      field_eq_mod (part rfl), field_eq_zero (part rfl)⟩
  · intro r q
    have part {start m v : Nat} (stands : numberAt _ start = some (m, v)) (within : start + m ≤ 64 := by decide) :
        field r start m = leNat (leBytes m v) :=
      (s.field_queueSnapshot n within).trans (field_of_parts (s.queuePart_eq_numbers n) stands)
    obtain ⟨below, flag⟩ :=
      field_flags 6 (four_flags q.fetching q.lap (s.qe.arms[q.vector] == .fired) s.hp.messagePending[q.vector]) (part rfl)
    obtain ⟨-, posted⟩ := field_flags 7 (State.postedBits_eq (s.posted n)) (part rfl)
    refine ⟨s.queueSnapshot_length n, field_fin (part rfl), getElem?_field (QpState.getElem?_code _) (part rfl),
      field_fin (part rfl), field_eq_mod (part rfl), field_fin (part rfl), getElem?_field (Notify.getElem?_code _) (part rfl),
      below, flag 0, flag 1, (Bool.eq_iff_iff.1 (flag 2)).trans beq_iff_eq, flag 3,
      fun k => (Bool.eq_iff_iff.1 (posted k)).trans bne_iff_ne, field_eq_mod (part rfl), field_eq_mod (part rfl),
      field_eq_mod (part rfl), field_eq_mod (part rfl), field_eq_mod (part rfl), field_eq_mod (part rfl),
      field_eq_mod (part rfl), field_eq_mod (part rfl), field_eq_mod (part rfl), field_eq_mod (part rfl),
      field_eq_zero (part rfl), field_eq_mod (part rfl), field_eq_mod (part rfl), field_eq_zero (part rfl), ?_⟩
    intro j e listed b x
    have record : b = s.entryPart e := s.entryPart_stands listed
    have part := field_of_parts (record.trans (s.entryPart_eq_numbers e))
    obtain ⟨below, flag⟩ := field_flags 3 (five_flags x.ordered x.notify x.dropped x.failed.isSome x.stop.isSome) (part rfl)
    exact ⟨field_fin (part rfl), getElem?_field (EntryState.getElem?_code _) (part rfl),
      getElem?_field (Kind.getElem?_code _) (part rfl), below, flag 0, flag 1, flag 2, flag 3, flag 4, field_eq_mod (part rfl),
      field_eq_mod (part rfl), field_eq_mod (part rfl), field_eq x.tag.isLt (part rfl), field_eq_mod (part rfl),
      getElem?_field (Status.getElem?_code _) (part rfl), field_eq_mod (part rfl), field_eq_mod (part rfl),
      field_eq_mod (part rfl), field_eq_mod (part rfl), field_eq_mod (part rfl), field_eq_zero (part rfl)⟩
  · intro r b x
    have record : b = s.windowPart w := s.windowPart_stands w
    have part := field_of_parts (record.trans (s.windowPart_eq_numbers w))
    exact ⟨s.windowsSnapshot_length, field_fin (part rfl), field_one_flag (part rfl), field_fin (part rfl),
      getElem?_field (Form.getElem?_code _) (part rfl), getElem?_field (Access.getElem?_code _) (part rfl),
      field_one_flag (part rfl), field_eq_zero (part rfl), field_eq_mod (part rfl), field_eq_mod (part rfl),
      field_eq_zero (part rfl)⟩
  · intro r x
    have part := field_of_parts (s.contextSnapshot_eq_numbers c)
    exact ⟨s.contextSnapshot_length c, field_fin (part rfl), getElem?_field (ContextMode.getElem?_code _) (part rfl),
      getElem?_field (PageSize.getElem?_code _) (part rfl), field_eq_zero (part rfl), field_eq_mod (part rfl),
      field_eq_mod (part rfl), field_count (countP_toList_eq_length _ _) (part rfl),
      field_count (countP_toList_eq_length _ _) (part rfl), field_count (congrArg List.length (s.boundQps_eq c)) (part rfl),
      field_fin (part rfl), field_count (countP_toList_eq_length _ _) (part rfl), field_eq_zero (part rfl)⟩

end Sys2Proof.Machine
end

section
/-! SUPPORT. A step, and the run of internal rows that follows a command in it (log entries 5 and 8). -/

namespace Sys2Proof.Machine

namespace State

variable (s : State)

/-! ## Settling -/

/-- The row of an internal step carries it out, and changes nothing when its conditions do not hold (log entry 5). -/
theorem exec_internalRow (i : Internal) : exec i.row s = .next ((s.internal? i).getD s) := by
  cases i with
  | windowChangeApply => exact s.execWindowChangeApply_eq
  | slotGrant => exact s.execSlotGrant_eq
  | gateRelease e => exact s.execGateRelease_eq e
  | fenceStart e => exact s.execFenceStart_eq e
  | flushSend k => exact s.execFlushSend_eq k
  | requestSend k => exact s.execRequestSend_eq k
  | drainComplete k => exact s.execDrainComplete_eq k
  | invalidationComplete => exact s.execInvalidationComplete_eq
  | queueDeleteComplete n => exact s.execQueueDeleteComplete_eq n

theorem settled_iff : s.settled = true ↔ ∀ i ∈ s.internals, s.internal? i = none := by
  rw [settled, Option.isNone_iff_eq_none, nextInternal, List.findSome?_eq_none_iff]

/-- A run of settling carries out rows until the state is settled or the bound is reached. -/
theorem settleFor_runRows (fuel : Nat) :
    ∃ l : List Internal, RunRows s l (settleFor fuel s) ∧ ((settleFor fuel s).settled = true ∨ l.length = fuel) := by
  induction fuel generalizing s with
  | zero => exact ⟨[], .done s, .inr rfl⟩
  | succ fuel ih =>
    unfold settleFor
    split
    · next t acts =>
      obtain ⟨i, answer⟩ := s.nextInternal_some acts
      obtain ⟨l, run, ends⟩ := ih t
      have row : exec i.row s = .next t := by rw [exec_internalRow, answer, Option.getD_some]
      exact ⟨i :: l, .more i l answer row run, ends.imp_right (congrArg (· + 1))⟩
    · next idle => exact ⟨[], .done s, .inl (Option.isNone_iff_eq_none.2 idle)⟩

end State

/-- Settles O7: the run by induction on the bound; a settled state is one in which no internal step can happen. -/
theorem settlingRunsInternalRows : Obligations.SettlingRunsInternalRows :=
  ⟨fun s => s.settleFor_runRows Config.settleBound, fun s done => ⟨s.settled_iff.1 done, s.settle_of_settled done⟩⟩

/-! ## A step -/

theorem step_of_cons {s : State} {c : Instr} {rest : List Instr} (waiting : s.pending = c :: rest) :
    step s = exec c { s with pending := rest } := by
  rw [step, waiting]

theorem step_of_nil {s : State} (idle : s.pending = []) : step s = .next s := by
  rw [step, idle]

/-- Settles O1: the step by whether a command waits. -/
theorem stepRunsFrontCommand : Obligations.StepRunsFrontCommand :=
  ⟨fun _ _ _ => step_of_cons, fun _ => step_of_nil⟩

end Sys2Proof.Machine
end
